-- ==== Sys2Proof/Word.lean ====
section
/-! DEFINITION. The word types of the decode core and the names of its small fixed sets
(spec/00_scope.md R8 to R10, spec/10_state.md R25, R35, R37). -/
namespace Sys2Proof

/-- A byte: 8 bits (R60). -/
abbrev Byte := BitVec 8

/-- An address of IN or OUT: AW = 32 bits (R8, 92_eei_decisions.md D2). -/
abbrev Addr := BitVec 32

/-- A 32-bit host register (R21). -/
abbrev Word := BitVec 32

/-- A 64-bit container, hash or length word (R33, R42). -/
abbrev Word64 := BitVec 64

/-- The three sequence alphabets: literal length, offset, match length (R37, R314). -/
inductive Alphabet where
  | ll | of | ml
  deriving DecidableEq, Repr, Inhabited

/-- The four writable FSE tables (R35). -/
inductive TableId where
  | llt | oft | mlt | hwt
  deriving DecidableEq, Repr, Inhabited

/-- How many bytes a dictionary-ID field occupies when it is present (R94). -/
inductive DidLen where
  | one | two | four
  deriving DecidableEq, Repr, Inhabited

/-- How many bytes a content-size field occupies when it is present (R95). -/
inductive FcsLen where
  | one | two | four | eight
  deriving DecidableEq, Repr, Inhabited

/-- The ten registers of the host register block (R21). -/
inductive HostReg where
  | cmd | status | inStart | inEnd | outStart | outLimit | cfg | bytesWritten | err | errOffset
  deriving DecidableEq, Repr, Inhabited

end Sys2Proof
end

