-- ==== Sys2Proof/Registers.lean ====
section
/-! DEFINITION. The register files and table RAMs of the units, as plain data
(spec/10_state.md R27 to R42). Every width is the spec's. -/
namespace Sys2Proof

/-- The frame registers (R27). -/
structure FrameRegs where
  headerSize   : BitVec 5
  windowValid  : Bool
  windowSize   : BitVec 42
  contentValid : Bool
  contentSize  : BitVec 64
  dictValid    : Bool
  dictId       : BitVec 32
  hasChecksum  : Bool
  deriving DecidableEq, Repr, Inhabited

/-- The block registers (R28); `limit` is `BLK.END`. -/
structure BlockRegs where
  last  : Bool
  typ   : BitVec 2
  size  : BitVec 21
  limit : Addr
  deriving DecidableEq, Repr, Inhabited

/-- The literals registers (R29); `src` is true when the literals are read in place from IN,
`ptr` is `LIT.PTR` and `limit` is `LIT.END`. -/
structure LitRegs where
  typ    : BitVec 2
  fmt    : BitVec 2
  regen  : BitVec 20
  comp   : BitVec 18
  single : Bool
  src    : Bool
  ptr    : Addr
  limit  : Addr
  deriving DecidableEq, Repr, Inhabited

/-- The sequence registers (R30). -/
structure SeqRegs where
  count   : BitVec 17
  modes   : BitVec 8
  llState : BitVec 9
  mlState : BitVec 9
  ofState : BitVec 8
  ll      : BitVec 17
  ml      : BitVec 18
  off     : BitVec 32
  deriving DecidableEq, Repr, Inhabited

/-- The repeat-offset history (R32); `r0` is the most recent. -/
structure RepRegs where
  r0 : BitVec 32
  r1 : BitVec 32
  r2 : BitVec 32
  deriving DecidableEq, Repr, Inhabited

/-- One bit-reader register set `BR[k]` (R33). -/
structure BitReader where
  word     : BitVec 64
  consumed : BitVec 32
  cur      : Addr
  start    : Addr
  deriving DecidableEq, Repr, Inhabited

/-- One entry of an FSE table (R34). -/
structure FseEntry where
  sym : BitVec 8
  nb  : BitVec 4
  ns  : BitVec 16
  deriving DecidableEq, Repr, Inhabited

/-- An FSE table: its log and a RAM of `cap` entries (R34, R35). -/
structure FseTable (cap : Nat) where
  log : BitVec 4
  ram : Vector FseEntry cap
  deriving DecidableEq, Repr, Inhabited

/-- The builder scratch `NORM` (16-bit signed) and `NEXT` (R36). -/
structure FseScratch where
  norm : Vector (BitVec 16) 256
  next : Vector (BitVec 16) 256
  deriving DecidableEq, Repr, Inhabited

/-- One entry of the Huffman RAM (R38). -/
structure HufEntry where
  sym : BitVec 8
  nb  : BitVec 4
  deriving DecidableEq, Repr, Inhabited

/-- The Huffman table and its build arrays (R38, R39, R40). -/
structure HufRegs where
  loaded : Bool
  log    : BitVec 4
  ram    : Vector HufEntry 4096
  w      : Vector (BitVec 8) 256
  rank   : Vector (BitVec 16) 13
  rstart : Vector (BitVec 13) 14
  deriving DecidableEq, Repr, Inhabited

/-- The checksum registers (R42). -/
structure XxhRegs where
  v1  : BitVec 64
  v2  : BitVec 64
  v3  : BitVec 64
  v4  : BitVec 64
  len : BitVec 64
  h   : BitVec 64
  deriving DecidableEq, Repr, Inhabited

/-- The current-table selector of a sequence alphabet (R37). -/
inductive Sel where
  | none | predef | ram
  deriving DecidableEq, Repr, Inhabited

/-- The capacity in entries of each writable FSE table (R35). -/
def TableId.capacity : TableId → Nat
  | .llt => 512
  | .oft => 256
  | .mlt => 512
  | .hwt => 64

/-- The largest table log that fits a writable FSE table (R35). -/
def TableId.capLog : TableId → Nat
  | .llt => 9
  | .oft => 8
  | .mlt => 9
  | .hwt => 6

/-- The writable table of an alphabet (R35, R314: `XT`). -/
def Alphabet.table : Alphabet → TableId
  | .ll => .llt
  | .of => .oft
  | .ml => .mlt

/-- The unit registers whose contents hardware reset leaves unspecified, gathered so that one free
value stands for all of them (R43, R400). -/
structure UnitRegs where
  rep : RepRegs
  br  : Vector BitReader 4
  llt : FseTable 512
  oft : FseTable 256
  mlt : FseTable 512
  hwt : FseTable 64
  fse : FseScratch
  huf : HufRegs
  xxh : XxhRegs
  deriving DecidableEq, Repr, Inhabited

end Sys2Proof
end

