-- ==== Sys2Proof/Config.lean ====
section
/-! DEFINITION. What is fixed for the machine: the parameters of spec/00_scope.md R7 and R8, the limits of
R166, and the free values of the spec (opaque: no proof can see what they are). -/
namespace Sys2Proof.Config

/-- The frame magic (R7, R92). -/
def magic : Nat := 0xFD2FB528

/-- The legacy magic (R7, R92). -/
def magicLegacy : Nat := 0xFD2FB527

/-- The window ceiling, 8 MiB (R7). -/
def maxWindow : Nat := 8388608

/-- The maximum block size, 128 KiB (R8). -/
def maxBlock : Nat := 131072

/-- The over-copy slack of the literals scratch buffer (R7, R41). -/
def litSlack : Nat := 8

/-- The size of the LIT space (R41, R60). -/
def litSize : Nat := maxBlock + litSlack

/-- One past the largest address of IN and OUT: 2^AW with AW = 32 (R8). -/
def space : Nat := 2 ^ 32

/-- The largest code of each sequence alphabet (R8). -/
def maxSymbol : Alphabet → Nat
  | .ll => 35
  | .of => 31
  | .ml => 52

/-- The largest accepted table log of each sequence alphabet (R8, R166). -/
def maxLog : Alphabet → Nat
  | .ll => 9
  | .of => 8
  | .ml => 9

/-- The largest symbol and table log of the Huffman-weight stream (R7, R8, R166). -/
def weightMaxSymbol : Nat := 255

/-- The table-log limit of the Huffman-weight stream (R7). -/
def weightMaxLog : Nat := 6

/-- The largest Huffman table log and weight (R7, R204). -/
def hufMaxLog : Nat := 12

/-- The seed of the content hash (R8). -/
def xxhSeed : BitVec 64 := 0

/-- FREE VALUE. The byte a junk address holds (R78, R374): the draw that made it junk and the address. -/
opaque junkByte : Nat → Nat → Byte

/-- FREE VALUE. The unit registers after `CMD.RESET` (R43, R400: unspecified), by draw. -/
opaque unitsAfterReset : Nat → UnitRegs

/-- FREE VALUE. The literal-length table after a faulting FSE.READTABLE (R162: unspecified), by draw. -/
opaque lltAfterFault : Nat → FseTable 512

/-- FREE VALUE. The offset table after a faulting FSE.READTABLE (R162: unspecified), by draw. -/
opaque oftAfterFault : Nat → FseTable 256

/-- FREE VALUE. The match-length table after a faulting FSE.READTABLE (R162: unspecified), by draw. -/
opaque mltAfterFault : Nat → FseTable 512

/-- FREE VALUE. The Huffman-weight table after a faulting FSE.READTABLE (R162: unspecified), by draw. -/
opaque hwtAfterFault : Nat → FseTable 64

/-- FREE VALUE. `NB` and `NS` of a slot whose rank R169 gives no fields (0, or a top bit above the log), by draw. -/
opaque openRankFields : Nat → BitVec 4 × BitVec 16

/-- FREE VALUE. The distance `REP[0] - 1` of R322 where REP[0] is 0, by history. -/
opaque openDistance : RepRegs → BitVec 32

end Sys2Proof.Config
end

