-- ==== Sys2Proof/Syntax.lean ====
section
/-! DEFINITION. The instructions: one constructor per row of spec/opcode_table.json. Stream elements carry the
fields of their layout (spec/30_encoding.md R92 to R117), unit operations their operands (R121 and the rule
of each), host commands the ignored bits of the written word (R122). -/
namespace Sys2Proof

inductive Instr where
  -- frame level (R92 to R97, R117)
  | magic
  | magicLegacy
  | fhd (csel : BitVec 2) (ss : Bool) (ign : BitVec 2) (ck : Bool) (dsel : BitVec 2)
  | wd (exp : BitVec 5) (man : BitVec 3)
  | did (n : DidLen) (value : BitVec 32)
  | fcs (n : FcsLen) (value : BitVec 64)
  | blkRaw (last : Bool) (size : BitVec 21)
  | blkRle (last : Bool) (size : BitVec 21)
  | blkCmp (last : Bool) (size : BitVec 21)
  | blkRsv (last : Bool) (size : BitVec 21)
  -- literals section (R98 to R107)
  | litRaw1 (regen : BitVec 5)
  | litRaw2 (regen : BitVec 12)
  | litRaw3 (regen : BitVec 20)
  | litRle1 (regen : BitVec 5)
  | litRle2 (regen : BitVec 12)
  | litRle3 (regen : BitVec 20)
  | litHufS3 (regen comp : BitVec 10)
  | litHuf3 (regen comp : BitVec 10)
  | litHuf4 (regen comp : BitVec 14)
  | litHuf5 (regen comp : BitVec 18)
  | litRepS3 (regen comp : BitVec 10)
  | litRep3 (regen comp : BitVec 10)
  | litRep4 (regen comp : BitVec 14)
  | litRep5 (regen comp : BitVec 18)
  | htreeDirect (low : BitVec 7)
  | htreeFse (len : BitVec 7)
  | jump (len1 len2 len3 : BitVec 16)
  -- sequences section (R108 to R112)
  | seqn0
  | seqn1 (count : BitVec 7)
  | seqn2 (high : BitVec 7) (b1 : BitVec 8)
  | seqn3 (b1 b2 : BitVec 8)
  | seqm (llmode ofmode mlmode : BitVec 2) (ign : BitVec 2)
  | modePredef (x : Alphabet)
  | modeRle (x : Alphabet)
  | modeFse (x : Alphabet)
  | modeRepeat (x : Alphabet)
  | rlesym (x : Alphabet) (symbol : BitVec 8)
  | fsedesc (x : Alphabet) (logMinus5 : BitVec 4) (high : BitVec 4)
  | checksum (value : BitVec 32)
  -- unit operations (R121)
  | brInit (k : Fin 4) (start limit : Addr)
  | brPeek (k : Fin 4) (n : BitVec 6)
  | brPeekFast (k : Fin 4) (nMinus1 : BitVec 6)
  | brRefill (k : Fin 4)
  | fseReadTable (t : TableId) (start limit : Addr) (maxSymbol : BitVec 8) (maxLogMinus5 : BitVec 3)
  | fseBuild (t : TableId) (logMinus5 : BitVec 3) (nsymMinus1 : BitVec 8)
  | fseRle (t : TableId) (v : BitVec 8)
  | fsePredef (x : Alphabet)
  | fseDecompress (t : TableId) (start limit : Addr) (cap : BitVec 8)
  | hufReadTable (start : Addr) (size : BitVec 18)
  | hufBuild (nMinus1 : BitVec 8)
  | hufDec1 (start limit : Addr) (n : BitVec 20)
  | hufDec4 (start limit : Addr) (n : BitVec 20)
  | xxhHash (a : Addr) (len : BitVec 32)
  | seqDecode
  | seqResolve (oc : BitVec 5) (raw : BitVec 32) (ll0 : Bool)
  | seqExec
  | seqLastlit
  -- host commands (R122)
  | cmdStart (ign : BitVec 30)
  | cmdReset (start : Bool) (ign : BitVec 30)
  deriving DecidableEq, Repr, Inhabited

/-- The unit operations of R121, as opposed to stream elements and host commands. -/
def Instr.isUnitOp : Instr → Bool
  | .brInit _ _ _ | .brPeek _ _ | .brPeekFast _ _ | .brRefill _ => true
  | .fseReadTable _ _ _ _ _ | .fseBuild _ _ _ | .fseRle _ _ | .fsePredef _ => true
  | .fseDecompress _ _ _ _ => true
  | .hufReadTable _ _ | .hufBuild _ | .hufDec1 _ _ _ | .hufDec4 _ _ _ => true
  | .xxhHash _ _ => true
  | .seqDecode | .seqResolve _ _ _ | .seqExec | .seqLastlit => true
  | .magic | .magicLegacy | .fhd _ _ _ _ _ | .wd _ _ | .did _ _ | .fcs _ _ => false
  | .blkRaw _ _ | .blkRle _ _ | .blkCmp _ _ | .blkRsv _ _ => false
  | .litRaw1 _ | .litRaw2 _ | .litRaw3 _ | .litRle1 _ | .litRle2 _ | .litRle3 _ => false
  | .litHufS3 _ _ | .litHuf3 _ _ | .litHuf4 _ _ | .litHuf5 _ _ => false
  | .litRepS3 _ _ | .litRep3 _ _ | .litRep4 _ _ | .litRep5 _ _ => false
  | .htreeDirect _ | .htreeFse _ | .jump _ _ _ => false
  | .seqn0 | .seqn1 _ | .seqn2 _ _ | .seqn3 _ _ | .seqm _ _ _ _ => false
  | .modePredef _ | .modeRle _ | .modeFse _ | .modeRepeat _ => false
  | .rlesym _ _ | .fsedesc _ _ _ | .checksum _ => false
  | .cmdStart _ | .cmdReset _ _ => false

end Sys2Proof
end

