-- ==== Sys2Proof/WellFormed.lean ====
section
/-! DEFINITION. Which terms of `Instr` stand for an instruction: the limits that the layouts of
spec/30_encoding.md and the operand domains of the unit operations put on a field, beyond its width. -/
namespace Sys2Proof

/-- The number of bytes of a dictionary-ID field (R94). -/
def DidLen.bytes : DidLen → Nat
  | .one => 1
  | .two => 2
  | .four => 4

/-- The number of bytes of a content-size field (R95). -/
def FcsLen.bytes : FcsLen → Nat
  | .one => 1
  | .two => 2
  | .four => 4
  | .eight => 8

/-- The offset base table (R116). -/
def ofBase (c : Nat) : Nat :=
  if c = 0 then 0 else if c = 1 then 1 else 2 ^ c - 3

/-- Whether a term stands for an instruction of the table. The checks: an optional field fits its length (R94, R95);
the short count forms do not hold a value that selects another row (R108); table operands fit the table (R162, R166,
R167); a Huffman build has at most 255 weights (R204); a Huffman decode fits the literals buffer (R297); a raw offset
belongs to its code (R116, R322). -/
def wellFormed : Instr → Bool
  | .did n v => decide (v.toNat < 256 ^ n.bytes)
  | .fcs n v => decide (v.toNat < 256 ^ n.bytes)
  | .seqn1 c => decide (c ≠ 0)
  | .seqn2 h _ => decide (h ≠ 127)
  | .fseReadTable t start limit _ ml => decide (start.toNat ≤ limit.toNat ∧ ml.toNat + 5 ≤ t.capLog)
  | .fseBuild t l _ => decide (l.toNat + 5 ≤ t.capLog)
  | .hufBuild n => decide (n ≠ 255)
  | .hufDec1 _ _ n => decide (n.toNat ≤ Config.maxBlock)
  | .hufDec4 _ _ n => decide (n.toNat ≤ Config.maxBlock)
  | .seqResolve oc raw _ =>
    decide (ofBase oc.toNat ≤ raw.toNat ∧ raw.toNat < ofBase oc.toNat + 2 ^ oc.toNat)
  | .magic | .magicLegacy | .fhd _ _ _ _ _ | .wd _ _ => true
  | .blkRaw _ _ | .blkRle _ _ | .blkCmp _ _ | .blkRsv _ _ => true
  | .litRaw1 _ | .litRaw2 _ | .litRaw3 _ | .litRle1 _ | .litRle2 _ | .litRle3 _ => true
  | .litHufS3 _ _ | .litHuf3 _ _ | .litHuf4 _ _ | .litHuf5 _ _ => true
  | .litRepS3 _ _ | .litRep3 _ _ | .litRep4 _ _ | .litRep5 _ _ => true
  | .htreeDirect _ | .htreeFse _ | .jump _ _ _ => true
  | .seqn0 | .seqn3 _ _ | .seqm _ _ _ _ => true
  | .modePredef _ | .modeRle _ | .modeFse _ | .modeRepeat _ => true
  | .rlesym _ _ | .fsedesc _ _ _ | .checksum _ => true
  | .brInit _ _ _ | .brPeek _ _ | .brPeekFast _ _ | .brRefill _ => true
  | .fseRle _ _ | .fsePredef _ | .fseDecompress _ _ _ _ => true
  | .hufReadTable _ _ | .xxhHash _ _ => true
  | .seqDecode | .seqExec | .seqLastlit => true
  | .cmdStart _ | .cmdReset _ _ => true

/-- A well-formed instruction. -/
abbrev WellFormed (i : Instr) : Prop := wellFormed i = true

end Sys2Proof
end

