-- ==== Sys2Proof/Decode.lean ====
section
/-! DEFINITION. Decoding and encoding (spec/30_encoding.md). Which element a byte begins depends on where the
engine is in the stream (R120), so the decoder takes that position as a `Ctx`. It is total on any bytes and rejects
by name. The encoder is written from the same layouts. -/
namespace Sys2Proof

/-! ## Byte order and fields (R63, R66) -/

/-- The little-endian value of a byte string (R63). -/
def leNat : List Byte → Nat
  | [] => 0
  | b :: bs => b.toNat + 256 * leNat bs

/-- The `n` low bytes of a value, little-endian (R66). -/
def leBytes : Nat → Nat → List Byte
  | 0, _ => []
  | n + 1, v => BitVec.ofNat 8 v :: leBytes n (v / 256)

/-- The field of `w` bits of `h` that starts at bit `lo`: `h[lo+w-1:lo]` (R10). -/
def field (h lo w : Nat) : BitVec w := BitVec.ofNat w (h / 2 ^ lo)

/-- The one-bit field `h[i]` (R10). -/
def bit (h i : Nat) : Bool := decide (h / 2 ^ i % 2 = 1)

/-- The number of a Bool as one bit. -/
def bitNat (b : Bool) : Nat := if b then 1 else 0

/-! ## Positions -/

/-- Where in the input, or at which unit or host boundary, a word is read (R90, R120 to R122). -/
inductive Ctx where
  | magic | fhd | wd
  | did (n : DidLen)
  | fcs (n : FcsLen)
  | blk | lith | htree | jump | seqn | seqm
  | mode (x : Alphabet)
  | rlesym (x : Alphabet)
  | fsedesc (x : Alphabet)
  | checksum | uop | host
  deriving DecidableEq, Repr, Inhabited

/-- Why the decoder rejects a word. -/
inductive Reject where
  /-- Fewer bytes than the element has. -/
  | truncated
  /-- Four bytes that are neither magic (R118). -/
  | badMagic
  /-- A mode value that is not a 2-bit field. -/
  | badMode
  /-- A unit operation number that R121 does not list. -/
  | unknownUnitOp
  /-- Operands outside the operation's domain. -/
  | badOperand
  /-- A host write to CMD that sets no strobe (R122). -/
  | noStrobe
  deriving DecidableEq, Repr, Inhabited

/-! ## Decoding -/

/-- Reads an `n`-byte little-endian word and interprets it; only well-formed instructions pass. -/
def withWord (n : Nat) (bs : List Byte) (f : Nat → Except Reject Instr) :
    Except Reject (Instr × List Byte) :=
  if bs.length < n then .error .truncated
  else
    match f (leNat (bs.take n)) with
    | .error r => .error r
    | .ok i => if wellFormed i then .ok (i, bs.drop n) else .error .badOperand

/-- The first byte of a byte string, 0 when there is none (the word reader then finds it truncated). -/
def headByte (bs : List Byte) : Nat :=
  match bs with
  | [] => 0
  | b :: _ => b.toNat

/-- `MAGIC`, `MAGIC_LEGACY` (R92). -/
def decodeMagic (h : Nat) : Except Reject Instr :=
  if h = Config.magic then .ok .magic
  else if h = Config.magicLegacy then .ok .magicLegacy
  else .error .badMagic

/-- `FHD` (R93). -/
def decodeFhd (h : Nat) : Except Reject Instr :=
  .ok (.fhd (field h 6 2) (bit h 5) (field h 3 2) (bit h 2) (field h 0 2))

/-- `WD` (R94). -/
def decodeWd (h : Nat) : Except Reject Instr :=
  .ok (.wd (field h 3 5) (field h 0 3))

/-- `BLK` and the row its type selects (R96, R97). -/
def decodeBlk (h : Nat) : Except Reject Instr :=
  let last := bit h 0
  let size : BitVec 21 := field h 3 21
  match h / 2 % 4 with
  | 0 => .ok (.blkRaw last size)
  | 1 => .ok (.blkRle last size)
  | 2 => .ok (.blkCmp last size)
  | _ => .ok (.blkRsv last size)

/-- The number of bytes of a literals header, by byte 0 (R99, R100). -/
def lithBytes (b0 : Nat) : Nat :=
  if b0 % 4 < 2 then
    match b0 / 4 % 4 with
    | 1 => 2
    | 3 => 3
    | _ => 1
  else
    match b0 / 4 % 4 with
    | 2 => 4
    | 3 => 5
    | _ => 3

/-- `LITH` and the row its type and format select (R98 to R100). -/
def decodeLith (h : Nat) : Except Reject Instr :=
  match h % 4, h / 4 % 4 with
  | 0, 1 => .ok (.litRaw2 (field h 4 12))
  | 0, 3 => .ok (.litRaw3 (field h 4 20))
  | 0, _ => .ok (.litRaw1 (field h 3 5))
  | 1, 1 => .ok (.litRle2 (field h 4 12))
  | 1, 3 => .ok (.litRle3 (field h 4 20))
  | 1, _ => .ok (.litRle1 (field h 3 5))
  | 2, 0 => .ok (.litHufS3 (field h 4 10) (field h 14 10))
  | 2, 1 => .ok (.litHuf3 (field h 4 10) (field h 14 10))
  | 2, 2 => .ok (.litHuf4 (field h 4 14) (field h 18 14))
  | 2, _ => .ok (.litHuf5 (field h 4 18) (field h 22 18))
  | _, 0 => .ok (.litRepS3 (field h 4 10) (field h 14 10))
  | _, 1 => .ok (.litRep3 (field h 4 10) (field h 14 10))
  | _, 2 => .ok (.litRep4 (field h 4 14) (field h 18 14))
  | _, _ => .ok (.litRep5 (field h 4 18) (field h 22 18))

/-- `HTREE_DIRECT`, `HTREE_FSE` (R102). -/
def decodeHtree (h : Nat) : Except Reject Instr :=
  if h / 128 % 2 = 1 then .ok (.htreeDirect (field h 0 7)) else .ok (.htreeFse (field h 0 7))

/-- `JUMP` (R107). -/
def decodeJump (h : Nat) : Except Reject Instr :=
  .ok (.jump (field h 0 16) (field h 16 16) (field h 32 16))

/-- The number of bytes of a sequence count, by its first byte (R108). -/
def seqnBytes (b0 : Nat) : Nat :=
  if b0 < 128 then 1 else if b0 < 255 then 2 else 3

/-- `SEQN` and the row its first byte selects (R108). -/
def decodeSeqn (h : Nat) : Except Reject Instr :=
  let b0 := h % 256
  if b0 = 0 then .ok .seqn0
  else if b0 < 128 then .ok (.seqn1 (field h 0 7))
  else if b0 < 255 then .ok (.seqn2 (field h 0 7) (field h 8 8))
  else .ok (.seqn3 (field h 8 8) (field h 16 8))

/-- `SEQM` (R109). -/
def decodeSeqm (h : Nat) : Except Reject Instr :=
  .ok (.seqm (field h 6 2) (field h 4 2) (field h 2 2) (field h 0 2))

/-- A 2-bit mode of alphabet `x` (R110). -/
def decodeMode (x : Alphabet) (h : Nat) : Except Reject Instr :=
  match h with
  | 0 => .ok (.modePredef x)
  | 1 => .ok (.modeRle x)
  | 2 => .ok (.modeFse x)
  | 3 => .ok (.modeRepeat x)
  | _ => .error .badMode

/-- The head byte of an `FSEDESC` (R112); the rest of the description is found by decoding it (R162). -/
def decodeFsedesc (x : Alphabet) (h : Nat) : Except Reject Instr :=
  .ok (.fsedesc x (field h 0 4) (field h 4 4))

/-- `CMD.START`, `CMD.RESET` as the value written to CMD (R122; RESET wins, R22). -/
def decodeHost (h : Nat) : Except Reject Instr :=
  if h / 2 % 2 = 1 then .ok (.cmdReset (bit h 0) (field h 2 30))
  else if h % 2 = 1 then .ok (.cmdStart (field h 2 30))
  else .error .noStrobe

/-- A table operand of a unit operation word. -/
def tableOf (n : Nat) : Except Reject TableId :=
  match n with
  | 0 => .ok .llt
  | 1 => .ok .oft
  | 2 => .ok .mlt
  | 3 => .ok .hwt
  | _ => .error .badOperand

/-- An alphabet operand of a unit operation word. -/
def alphabetOf (n : Nat) : Except Reject Alphabet :=
  match n with
  | 0 => .ok .ll
  | 1 => .ok .of
  | 2 => .ok .ml
  | _ => .error .badOperand

/-- The number of operand bytes after a unit operation number (DESIGN CHOICE, log 7; R121 gives the number alone). -/
def uopOperandBytes (num : Nat) : Nat :=
  match num with
  | 0x10 => 9
  | 0x11 => 2
  | 0x12 => 2
  | 0x13 => 1
  | 0x20 => 11
  | 0x21 => 3
  | 0x22 => 2
  | 0x23 => 1
  | 0x28 => 10
  | 0x30 => 7
  | 0x31 => 1
  | 0x32 => 11
  | 0x33 => 11
  | 0x40 => 8
  | 0x51 => 6
  | _ => 0

/-- Accepts an instruction when its reserved operand bits are 0. -/
def guarded (ok : Bool) (i : Instr) : Except Reject Instr :=
  if ok then .ok i else .error .badOperand

/-- A unit operation: its number (R121) and its operands `h` (log 7). -/
def decodeUop (num h : Nat) : Except Reject Instr :=
  match num with
  | 0x10 => guarded (h % 256 < 4) (.brInit (Fin.ofNat 4 h) (field h 8 32) (field h 40 32))
  | 0x11 => guarded (h % 256 < 4 && h / 256 < 64) (.brPeek (Fin.ofNat 4 h) (field h 8 6))
  | 0x12 => guarded (h % 256 < 4 && h / 256 < 64) (.brPeekFast (Fin.ofNat 4 h) (field h 8 6))
  | 0x13 => guarded (h < 4) (.brRefill (Fin.ofNat 4 h))
  | 0x20 =>
    match tableOf (h % 256) with
    | .error r => .error r
    | .ok t => guarded (h / 2 ^ 80 < 8) (.fseReadTable t (field h 8 32) (field h 40 32) (field h 72 8) (field h 80 3))
  | 0x21 =>
    match tableOf (h % 256) with
    | .error r => .error r
    | .ok t => guarded (h / 256 % 256 < 8) (.fseBuild t (field h 8 3) (field h 16 8))
  | 0x22 =>
    match tableOf (h % 256) with
    | .error r => .error r
    | .ok t => .ok (.fseRle t (field h 8 8))
  | 0x23 =>
    match alphabetOf h with
    | .error r => .error r
    | .ok x => .ok (.fsePredef x)
  | 0x28 =>
    match tableOf (h % 256) with
    | .error r => .error r
    | .ok t => .ok (.fseDecompress t (field h 8 32) (field h 40 32) (field h 72 8))
  | 0x30 => guarded (h / 2 ^ 32 < 2 ^ 18) (.hufReadTable (field h 0 32) (field h 32 18))
  | 0x31 => .ok (.hufBuild (field h 0 8))
  | 0x32 => guarded (h / 2 ^ 64 < 2 ^ 20) (.hufDec1 (field h 0 32) (field h 32 32) (field h 64 20))
  | 0x33 => guarded (h / 2 ^ 64 < 2 ^ 20) (.hufDec4 (field h 0 32) (field h 32 32) (field h 64 20))
  | 0x40 => .ok (.xxhHash (field h 0 32) (field h 32 32))
  | 0x50 => .ok .seqDecode
  | 0x51 => guarded (h % 256 < 32 && h / 2 ^ 40 < 2) (.seqResolve (field h 0 5) (field h 8 32) (bit h 40))
  | 0x52 => .ok .seqExec
  | 0x53 => .ok .seqLastlit
  | _ => .error .unknownUnitOp

/-- The instruction at the head of a byte string read in position `c`, and the bytes after it (R91, R120). -/
def decode (c : Ctx) (bs : List Byte) : Except Reject (Instr × List Byte) :=
  match c with
  | .magic => withWord 4 bs decodeMagic
  | .fhd => withWord 1 bs decodeFhd
  | .wd => withWord 1 bs decodeWd
  | .did n => withWord n.bytes bs fun h => .ok (.did n (BitVec.ofNat 32 h))
  | .fcs n => withWord n.bytes bs fun h => .ok (.fcs n (BitVec.ofNat 64 h))
  | .blk => withWord 3 bs decodeBlk
  | .lith => if bs = [] then .error .truncated else withWord (lithBytes (headByte bs)) bs decodeLith
  | .htree => withWord 1 bs decodeHtree
  | .jump => withWord 6 bs decodeJump
  | .seqn => if bs = [] then .error .truncated else withWord (seqnBytes (headByte bs)) bs decodeSeqn
  | .seqm => withWord 1 bs decodeSeqm
  | .mode x => withWord 1 bs (decodeMode x)
  | .rlesym x => withWord 1 bs fun h => .ok (.rlesym x (BitVec.ofNat 8 h))
  | .fsedesc x => withWord 1 bs (decodeFsedesc x)
  | .checksum => withWord 4 bs fun h => .ok (.checksum (BitVec.ofNat 32 h))
  | .uop =>
    if bs = [] then .error .truncated
    else withWord (1 + uopOperandBytes (headByte bs)) bs fun h => decodeUop (h % 256) (h / 256)
  | .host => withWord 4 bs decodeHost

/-! ## Encoding -/

/-- The position in which an instruction's word is read. -/
def ctxOf : Instr → Ctx
  | .magic | .magicLegacy => .magic
  | .fhd _ _ _ _ _ => .fhd
  | .wd _ _ => .wd
  | .did n _ => .did n
  | .fcs n _ => .fcs n
  | .blkRaw _ _ | .blkRle _ _ | .blkCmp _ _ | .blkRsv _ _ => .blk
  | .litRaw1 _ | .litRaw2 _ | .litRaw3 _ | .litRle1 _ | .litRle2 _ | .litRle3 _ => .lith
  | .litHufS3 _ _ | .litHuf3 _ _ | .litHuf4 _ _ | .litHuf5 _ _ => .lith
  | .litRepS3 _ _ | .litRep3 _ _ | .litRep4 _ _ | .litRep5 _ _ => .lith
  | .htreeDirect _ | .htreeFse _ => .htree
  | .jump _ _ _ => .jump
  | .seqn0 | .seqn1 _ | .seqn2 _ _ | .seqn3 _ _ => .seqn
  | .seqm _ _ _ _ => .seqm
  | .modePredef x | .modeRle x | .modeFse x | .modeRepeat x => .mode x
  | .rlesym x _ => .rlesym x
  | .fsedesc x _ _ => .fsedesc x
  | .checksum _ => .checksum
  | .brInit _ _ _ | .brPeek _ _ | .brPeekFast _ _ | .brRefill _ => .uop
  | .fseReadTable _ _ _ _ _ | .fseBuild _ _ _ | .fseRle _ _ | .fsePredef _ => .uop
  | .fseDecompress _ _ _ _ => .uop
  | .hufReadTable _ _ | .hufBuild _ | .hufDec1 _ _ _ | .hufDec4 _ _ _ => .uop
  | .xxhHash _ _ => .uop
  | .seqDecode | .seqResolve _ _ _ | .seqExec | .seqLastlit => .uop
  | .cmdStart _ | .cmdReset _ _ => .host

/-- The number of a table operand (log 7). -/
def TableId.code : TableId → Nat
  | .llt => 0
  | .oft => 1
  | .mlt => 2
  | .hwt => 3

/-- The number of an alphabet operand (log 7). -/
def Alphabet.code : Alphabet → Nat
  | .ll => 0
  | .of => 1
  | .ml => 2

/-- An instruction's length in bytes (R91; unit operations: log 7). -/
def Instr.bytes : Instr → Nat
  | .magic | .magicLegacy => 4
  | .fhd _ _ _ _ _ | .wd _ _ => 1
  | .did n _ => n.bytes
  | .fcs n _ => n.bytes
  | .blkRaw _ _ | .blkRle _ _ | .blkCmp _ _ | .blkRsv _ _ => 3
  | .litRaw1 _ | .litRle1 _ => 1
  | .litRaw2 _ | .litRle2 _ => 2
  | .litRaw3 _ | .litRle3 _ => 3
  | .litHufS3 _ _ | .litHuf3 _ _ | .litRepS3 _ _ | .litRep3 _ _ => 3
  | .litHuf4 _ _ | .litRep4 _ _ => 4
  | .litHuf5 _ _ | .litRep5 _ _ => 5
  | .htreeDirect _ | .htreeFse _ => 1
  | .jump _ _ _ => 6
  | .seqn0 | .seqn1 _ => 1
  | .seqn2 _ _ => 2
  | .seqn3 _ _ => 3
  | .seqm _ _ _ _ => 1
  | .modePredef _ | .modeRle _ | .modeFse _ | .modeRepeat _ => 1
  | .rlesym _ _ | .fsedesc _ _ _ => 1
  | .checksum _ => 4
  | .brInit _ _ _ => 10
  | .brPeek _ _ | .brPeekFast _ _ => 3
  | .brRefill _ => 2
  | .fseReadTable _ _ _ _ _ => 12
  | .fseBuild _ _ _ => 4
  | .fseRle _ _ => 3
  | .fsePredef _ => 2
  | .fseDecompress _ _ _ _ => 11
  | .hufReadTable _ _ => 8
  | .hufBuild _ => 2
  | .hufDec1 _ _ _ | .hufDec4 _ _ _ => 12
  | .xxhHash _ _ => 9
  | .seqDecode | .seqExec | .seqLastlit => 1
  | .seqResolve _ _ _ => 7
  | .cmdStart _ | .cmdReset _ _ => 4

/-- An instruction's word as a number, bit 0 its first byte's least significant bit. -/
def Instr.word : Instr → Nat
  | .magic => Config.magic
  | .magicLegacy => Config.magicLegacy
  | .fhd csel ss ign ck dsel =>
    dsel.toNat + 2 ^ 2 * bitNat ck + 2 ^ 3 * ign.toNat + 2 ^ 5 * bitNat ss + 2 ^ 6 * csel.toNat
  | .wd e m => m.toNat + 2 ^ 3 * e.toNat
  | .did _ v => v.toNat
  | .fcs _ v => v.toNat
  | .blkRaw l z => bitNat l + 2 ^ 3 * z.toNat
  | .blkRle l z => bitNat l + 2 ^ 1 * 1 + 2 ^ 3 * z.toNat
  | .blkCmp l z => bitNat l + 2 ^ 1 * 2 + 2 ^ 3 * z.toNat
  | .blkRsv l z => bitNat l + 2 ^ 1 * 3 + 2 ^ 3 * z.toNat
  | .litRaw1 r => 2 ^ 3 * r.toNat
  | .litRaw2 r => 2 ^ 2 * 1 + 2 ^ 4 * r.toNat
  | .litRaw3 r => 2 ^ 2 * 3 + 2 ^ 4 * r.toNat
  | .litRle1 r => 1 + 2 ^ 3 * r.toNat
  | .litRle2 r => 1 + 2 ^ 2 * 1 + 2 ^ 4 * r.toNat
  | .litRle3 r => 1 + 2 ^ 2 * 3 + 2 ^ 4 * r.toNat
  | .litHufS3 r c => 2 + 2 ^ 4 * r.toNat + 2 ^ 14 * c.toNat
  | .litHuf3 r c => 2 + 2 ^ 2 * 1 + 2 ^ 4 * r.toNat + 2 ^ 14 * c.toNat
  | .litHuf4 r c => 2 + 2 ^ 2 * 2 + 2 ^ 4 * r.toNat + 2 ^ 18 * c.toNat
  | .litHuf5 r c => 2 + 2 ^ 2 * 3 + 2 ^ 4 * r.toNat + 2 ^ 22 * c.toNat
  | .litRepS3 r c => 3 + 2 ^ 4 * r.toNat + 2 ^ 14 * c.toNat
  | .litRep3 r c => 3 + 2 ^ 2 * 1 + 2 ^ 4 * r.toNat + 2 ^ 14 * c.toNat
  | .litRep4 r c => 3 + 2 ^ 2 * 2 + 2 ^ 4 * r.toNat + 2 ^ 18 * c.toNat
  | .litRep5 r c => 3 + 2 ^ 2 * 3 + 2 ^ 4 * r.toNat + 2 ^ 22 * c.toNat
  | .htreeDirect n => 128 + n.toNat
  | .htreeFse n => n.toNat
  | .jump a b c => a.toNat + 2 ^ 16 * b.toNat + 2 ^ 32 * c.toNat
  | .seqn0 => 0
  | .seqn1 c => c.toNat
  | .seqn2 h b => 128 + h.toNat + 2 ^ 8 * b.toNat
  | .seqn3 b c => 255 + 2 ^ 8 * b.toNat + 2 ^ 16 * c.toNat
  | .seqm l o m g => g.toNat + 2 ^ 2 * m.toNat + 2 ^ 4 * o.toNat + 2 ^ 6 * l.toNat
  | .modePredef _ => 0
  | .modeRle _ => 1
  | .modeFse _ => 2
  | .modeRepeat _ => 3
  | .rlesym _ v => v.toNat
  | .fsedesc _ l c => l.toNat + 2 ^ 4 * c.toNat
  | .checksum v => v.toNat
  | .brInit k a b => 0x10 + 2 ^ 8 * k.val + 2 ^ 16 * a.toNat + 2 ^ 48 * b.toNat
  | .brPeek k n => 0x11 + 2 ^ 8 * k.val + 2 ^ 16 * n.toNat
  | .brPeekFast k n => 0x12 + 2 ^ 8 * k.val + 2 ^ 16 * n.toNat
  | .brRefill k => 0x13 + 2 ^ 8 * k.val
  | .fseReadTable t a b m l =>
    0x20 + 2 ^ 8 * t.code + 2 ^ 16 * a.toNat + 2 ^ 48 * b.toNat + 2 ^ 80 * m.toNat + 2 ^ 88 * l.toNat
  | .fseBuild t l n => 0x21 + 2 ^ 8 * t.code + 2 ^ 16 * l.toNat + 2 ^ 24 * n.toNat
  | .fseRle t v => 0x22 + 2 ^ 8 * t.code + 2 ^ 16 * v.toNat
  | .fsePredef x => 0x23 + 2 ^ 8 * x.code
  | .fseDecompress t a b c =>
    0x28 + 2 ^ 8 * t.code + 2 ^ 16 * a.toNat + 2 ^ 48 * b.toNat + 2 ^ 80 * c.toNat
  | .hufReadTable a z => 0x30 + 2 ^ 8 * a.toNat + 2 ^ 40 * z.toNat
  | .hufBuild n => 0x31 + 2 ^ 8 * n.toNat
  | .hufDec1 a b n => 0x32 + 2 ^ 8 * a.toNat + 2 ^ 40 * b.toNat + 2 ^ 72 * n.toNat
  | .hufDec4 a b n => 0x33 + 2 ^ 8 * a.toNat + 2 ^ 40 * b.toNat + 2 ^ 72 * n.toNat
  | .xxhHash a l => 0x40 + 2 ^ 8 * a.toNat + 2 ^ 40 * l.toNat
  | .seqDecode => 0x50
  | .seqResolve oc raw l => 0x51 + 2 ^ 8 * oc.toNat + 2 ^ 16 * raw.toNat + 2 ^ 48 * bitNat l
  | .seqExec => 0x52
  | .seqLastlit => 0x53
  | .cmdStart g => 1 + 2 ^ 2 * g.toNat
  | .cmdReset s g => bitNat s + 2 + 2 ^ 2 * g.toNat

/-- The bytes of an instruction, in address order. -/
def encode (i : Instr) : List Byte := leBytes i.bytes i.word

/-! ## Words of the opcode table -/

/-- The numbers of the unit operations (R121). -/
def unitOpNumbers : List Nat :=
  [0x10, 0x11, 0x12, 0x13, 0x20, 0x21, 0x22, 0x23, 0x28, 0x30, 0x31, 0x32, 0x33, 0x40,
   0x50, 0x51, 0x52, 0x53]

/-- The position in which a word of the opcode table is read when nothing but its length and bits is known.
The encodings of different positions overlap (R120), so this is a fixed priority (DESIGN CHOICE, log 6). -/
def tableCtx (nbits w : Nat) : Ctx :=
  if nbits ≤ 8 then
    if w ∈ unitOpNumbers then .uop
    else if w = 255 then .seqn
    else if 128 ≤ w then .htree
    else if w = 2 ∨ w = 3 then .mode .ll
    else if w = 1 then .lith
    else .fhd
  else if nbits ≤ 16 then
    if w % 16 = 4 ∨ w % 16 = 5 then .lith else .seqn
  else if nbits ≤ 24 then
    if w % 256 = 255 then .seqn
    else if w % 16 = 12 ∨ w % 16 = 13 ∨ w % 16 = 3 ∨ w % 16 = 7 then .lith
    else .blk
  else if nbits ≤ 32 then
    if w = Config.magic ∨ w = Config.magicLegacy then .magic
    else if w % 16 = 10 ∨ w % 16 = 11 then .lith
    else if w % 4 ≠ 0 then .host
    else .checksum
  else if nbits ≤ 40 then .lith
  else if nbits ≤ 48 then .jump
  else if w % 256 ∈ unitOpNumbers then .uop
  else .fcs .eight

/-- The longest instruction, in bytes. -/
def longestBytes : Nat := 12

/-- The bytes of a word of the opcode table as the stream holds them: the bits above `nbits` are 0. -/
def tableBytes (nbits w : Nat) : List Byte := leBytes longestBytes (w % 2 ^ nbits)

/-- The instruction the decoder reads from a word of the opcode table (log 6). -/
def decodeTableWord (nbits w : Nat) : Option Instr :=
  match decode (tableCtx nbits (w % 2 ^ nbits)) (tableBytes nbits w) with
  | .ok (i, _) => some i
  | .error _ => none

end Sys2Proof
end

