-- ==== Sys2Proof/Machine/State.lean ====
section
/-! DEFINITION. The state of the decode core as plain data (spec/10_state.md), the decode faults of
spec/60_exceptions.md R361, the reasons for which a step of the model stops, and the state after reset (R43, R400). -/
namespace Sys2Proof.Machine

/-- The decode faults of R361. Taking one is a next state (R372), not a stop of the model. -/
inductive ErrCode where
  | truncated | badMagic | blockType | bitstreamEmpty | noEndMark | fseLog | fseSymbol | fseHeader
  | fseSpread | fseOutput | hufWeight | hufTotal | hufLog | hufRest | hufRank1 | hufStreamEnd
  | hufJump | hufSegments | noHufTable | seqRleSymbol | noPrevTable | seqStream | literalsOverrun
  | offsetRange | checksum | outputFull | blockTooLarge | legacyMagic | dictionary | window
  deriving DecidableEq, Repr, Inhabited

/-- Where a step of the model stops because the rules exclude the state it is in (log 12): each names a condition that
the spec says the rules guarantee (R11 `assert`). All are safe: the hardware is not said to do anything there. -/
inductive Fault where
  /-- Raised by HUF.DEC1, HUF.DEC4, SEQ.EXEC, SEQ.LASTLIT: an address of LIT at or above 131080 (R60). Safe. -/
  | litAddress
  /-- Raised by SEQ.DECODE and FSE.DECOMPRESS: a state index at or above `2^LOG` of its table (R170, R173). Safe. -/
  | tableIndex
  /-- Raised by SEQ.DECODE and the priming of the states: an alphabet with no current table (R314 rules it out). Safe. -/
  | noCurrentTable
  /-- Raised by SEQ.DECODE: a code above its alphabet's largest (R315 rules it out). Safe. -/
  | codeIndex
  /-- Raised by HUF.DEC1, HUF.DEC4: a symbol is decoded with `HUF.LOG` outside 1..12; BR.PEEKFAST of 0 bits is
  not defined (R143). Safe. -/
  | hufLog
  /-- Raised by FSE.BUILD: a table log above the table's capacity (R162, R167). Safe. -/
  | tableCapacity
  /-- Raised by FSE.BUILD: more low-probability symbols than slots (precondition of R167). Safe. -/
  | fseSlot
  /-- Raised by FSE.BUILD: the spread finds no unreserved slot and never ends (precondition of R167). Safe. -/
  | fseEndless
  deriving DecidableEq, Repr, Inhabited

/-- Where the model refuses a configuration or a host access. -/
inductive Refusal where
  /-- An instruction that has no meaning yet (none is left). -/
  | notModelled (mnemonic : String)
  /-- Raised by a host read of a register other than STATUS while BUSY (U1, R22). Safe. -/
  | hostReadBusy
  /-- Raised by a host access to IN or OUT while BUSY: the host has no such move (R6, R72, R410, U2). Safe. -/
  | hostMemoryBusy
  /-- Raised by CMD.START: the regions overlap in one physical memory (U3, R75). Safe. -/
  | regionsOverlap
  /-- Raised by CMD.START: IN_START > IN_END or OUT_START > OUT_LIMIT (U4, R251). Safe. -/
  | regionReversed
  deriving DecidableEq, Repr, Inhabited

/-- A range of addresses whose bytes are free values: `lo ≤ a < hi`, drawn as `tag` (R78, R374; log 4). -/
structure Junk where
  lo  : Nat
  hi  : Nat
  tag : Nat
  deriving DecidableEq, Repr, Inhabited

/-- A byte space (R60): the listed bytes, by rising address, and its junk ranges. An address in neither reads 0 (log 1). -/
structure Memory where
  cells : List Host.Cell
  junk  : List Junk
  deriving DecidableEq, Repr, Inhabited

/-- The engine's position in the state machine (R25, R250). -/
inductive Phase where
  | idle | magic | frameHeader | blockHeader | block | checksum | done | fault
  deriving DecidableEq, Repr, Inhabited

/-- What the engine does next inside a phase (implied by R255, R260, R291, R296, R310; log 5). -/
inductive Sub where
  /-- The first element of the phase: MAGIC, FHD, BLK, LITH or CHECKSUM. -/
  | start
  /-- The window descriptor, the dictionary-ID field, the content-size field (R255). -/
  | wd | did | fcs
  /-- The tree description, the jump table, the end of the literals section (R296). -/
  | htree | jump | litEnd
  /-- The sequence count and the modes byte (R310, R311). -/
  | seqn | seqm
  /-- The mode of an alphabet and what it asks for (R314). -/
  | mode (x : Alphabet)
  | rlesym (x : Alphabet)
  | fsedesc (x : Alphabet)
  /-- The priming of the three states (R317), the end of one sequence, the end of the block (R310). -/
  | prime | seqCount | blkEnd
  deriving DecidableEq, Repr, Inhabited

/-- One access of the host (R22, R72, R410). -/
inductive HostAccess where
  | regWrite (r : HostReg) (v : Word)
  | regRead (r : HostReg)
  | inWrite (a : Addr) (b : Byte)
  | inRead (a : Addr)
  | outWrite (a : Addr) (b : Byte)
  | outRead (a : Addr)
  deriving DecidableEq, Repr, Inhabited

/-- The state of the core, the memories it works on, and the model's own fields (last group). -/
structure State where
  -- host register block (R21, R23)
  inStart      : Word
  inEnd        : Word
  outStart     : Word
  outLimit     : Word
  cfgEnforce   : Bool
  bytesWritten : Word
  errClass     : BitVec 2
  errCode      : BitVec 6
  errOffset    : Word
  cksumBad     : Bool
  -- engine registers (R24 to R30)
  ip           : Addr
  op           : Addr
  phase        : Phase
  lInStart     : Addr
  lInEnd       : Addr
  lOutStart    : Addr
  lOutLimit    : Addr
  lEnforce     : Bool
  fh           : FrameRegs
  frameOutStart : Addr
  blk          : BlockRegs
  lit          : LitRegs
  seq          : SeqRegs
  -- history, selectors (R32, R37)
  rep          : RepRegs
  llSel        : Sel
  ofSel        : Sel
  mlSel        : Sel
  -- units (R33 to R42)
  br           : Vector BitReader 4
  llt          : FseTable 512
  oft          : FseTable 256
  mlt          : FseTable 512
  hwt          : FseTable 64
  fse          : FseScratch
  huf          : HufRegs
  xxh          : XxhRegs
  -- memories (R60)
  inp          : Memory
  out          : Memory
  litbuf       : Memory
  -- implied by the rules (log 5, log 8)
  sub          : Sub
  fhdByte      : Byte
  litLim       : Addr
  issue        : List Instr
  result       : Word64
  -- the model's own (log 3, log 4, log 9, log 10)
  hostQueue    : List (Nat × HostAccess)
  hostData     : Word
  oneMemory    : Bool
  draws        : Nat
  deriving DecidableEq, Repr

/-- The frame registers after reset (R400). -/
def FrameRegs.zero : FrameRegs := ⟨0, false, 0, false, 0, false, 0, false⟩

/-- The block registers after reset (R400). -/
def BlockRegs.zero : BlockRegs := ⟨false, 0, 0, 0⟩

/-- The literals registers after reset (R400). -/
def LitRegs.zero : LitRegs := ⟨0, 0, 0, 0, false, false, 0, 0⟩

/-- The sequence registers after reset (R400). -/
def SeqRegs.zero : SeqRegs := ⟨0, 0, 0, 0, 0, 0, 0, 0⟩

/-- An FSE table of zeros (log 2). -/
def FseTable.zero (cap : Nat) : FseTable cap := ⟨0, Vector.replicate cap ⟨0, 0, 0⟩⟩

/-- A Huffman unit of zeros, no table loaded (R40; log 2). -/
def HufRegs.zero : HufRegs :=
  ⟨false, 0, Vector.replicate 4096 ⟨0, 0⟩, Vector.replicate 256 0, Vector.replicate 13 0, Vector.replicate 14 0⟩

/-- A memory with nothing listed. -/
def Memory.empty : Memory := ⟨[], []⟩

/-- The machine after hardware reset (R43, R400). The registers that the spec leaves unspecified are zero (log 2);
both memories of the host list nothing (log 1). -/
def State.reset : State where
  inStart := 0
  inEnd := 0
  outStart := 0
  outLimit := 0
  cfgEnforce := true
  bytesWritten := 0
  errClass := 0
  errCode := 0
  errOffset := 0
  cksumBad := false
  ip := 0
  op := 0
  phase := .idle
  lInStart := 0
  lInEnd := 0
  lOutStart := 0
  lOutLimit := 0
  lEnforce := true
  fh := FrameRegs.zero
  frameOutStart := 0
  blk := BlockRegs.zero
  lit := LitRegs.zero
  seq := SeqRegs.zero
  rep := ⟨0, 0, 0⟩
  llSel := .none
  ofSel := .none
  mlSel := .none
  br := Vector.replicate 4 ⟨0, 0, 0, 0⟩
  llt := FseTable.zero 512
  oft := FseTable.zero 256
  mlt := FseTable.zero 512
  hwt := FseTable.zero 64
  fse := ⟨Vector.replicate 256 0, Vector.replicate 256 0⟩
  huf := HufRegs.zero
  xxh := ⟨0, 0, 0, 0, 0, 0⟩
  inp := Memory.empty
  out := Memory.empty
  litbuf := Memory.empty
  sub := .start
  fhdByte := 0
  litLim := 0
  issue := []
  result := 0
  hostQueue := []
  hostData := 0
  oneMemory := false
  draws := 0

end Sys2Proof.Machine
end

