-- ==== Sys2Proof/Machine/Ops.lean ====
section
/-! DEFINITION. The shared operations: results of unit operations, reading and writing the three byte spaces
(spec/20_memory.md), the host's view of the registers, taking a decode fault (spec/60_exceptions.md R372), and the
engine's transitions between frames and blocks (spec/45_frame_block.md). -/
namespace Sys2Proof.Machine

/-! ## Results -/

/-- What a rule's pseudocode comes to over state `σ`: it completes, raises a decode fault with the writes made so far
(R360), or leaves what the rules define. -/
inductive Run (σ α : Type) where
  | ok (a : α) (s : σ)
  | raise (e : ErrCode) (s : σ)
  | stop (f : Fault)
  deriving Repr

/-- Runs a second piece of pseudocode after a first one that completed. -/
def Run.bind {σ α β : Type} (r : Run σ α) (f : α → σ → Run σ β) : Run σ β :=
  match r with
  | .ok a s => f a s
  | .raise e s => .raise e s
  | .stop x => .stop x

/-- Rebuilds a larger state around the state of a unit. -/
def Run.lift {σ τ α : Type} (r : Run σ α) (f : σ → τ) : Run τ α :=
  match r with
  | .ok a s => .ok a (f s)
  | .raise e s => .raise e (f s)
  | .stop x => .stop x

/-- What a result's raise does besides. -/
def Run.onRaise {σ α : Type} (r : Run σ α) (f : σ → σ) : Run σ α :=
  match r with
  | .ok a s => .ok a s
  | .raise e s => .raise e (f s)
  | .stop x => .stop x

/-! ## Numbers (R10) -/

/-- The index of the most significant set bit, for a number above 0 (R10). -/
def highbit (v : Nat) : Nat := v.log2

/-- `ceil(a / b)` (R10). -/
def ceilDiv (a b : Nat) : Nat := (a + b - 1) / b

/-! ## Byte spaces (R60, R66) -/

/-- Whether an address lies in a junk range. -/
def Junk.covers (j : Junk) (a : Nat) : Bool := decide (j.lo ≤ a) && decide (a < j.hi)

/-- What an unlisted address that is no junk reads as (DESIGN CHOICE, log 1). -/
def blankByte : Byte := 0

/-- The listed byte at an address. -/
def cellAt (a : Nat) : List Host.Cell → Byte
  | [] => blankByte
  | (x, b) :: r => if x = a then b else cellAt a r

/-- The byte at an address: a free value in a junk range, else the listed byte. -/
def Memory.byte (m : Memory) (a : Nat) : Byte :=
  match m.junk.find? (fun j => j.covers a) with
  | some j => Config.junkByte j.tag a
  | none => cellAt a m.cells

/-- Lists a byte, keeping addresses rising and no entry equal to the unlisted value. -/
def putCell (a : Nat) (b : Byte) : List Host.Cell → List Host.Cell
  | [] => if b = blankByte then [] else [(a, b)]
  | (x, y) :: r =>
    if a < x then (if b = blankByte then (x, y) :: r else (a, b) :: (x, y) :: r)
    else if a = x then (if b = blankByte then r else (a, b) :: r)
    else (x, y) :: putCell a b r

/-- What is left of a junk range outside `lo ≤ a < hi`. -/
def Junk.without (j : Junk) (lo hi : Nat) : List Junk :=
  (if j.lo < min j.hi lo then [⟨j.lo, min j.hi lo, j.tag⟩] else []) ++
  (if max j.lo hi < j.hi then [⟨max j.lo hi, j.hi, j.tag⟩] else [])

/-- The junk ranges outside `lo ≤ a < hi`. -/
def cutJunk (lo hi : Nat) : List Junk → List Junk
  | [] => []
  | j :: r => j.without lo hi ++ cutJunk lo hi r

/-- Inserts a junk range by rising address. -/
def insertJunk (n : Junk) : List Junk → List Junk
  | [] => [n]
  | j :: r => if n.lo ≤ j.lo then n :: j :: r else j :: insertJunk n r

/-- Writes one byte (R66). -/
def Memory.write (m : Memory) (a : Nat) (b : Byte) : Memory :=
  ⟨putCell a b m.cells, cutJunk a (a + 1) m.junk⟩

/-- Makes the bytes `lo ≤ a < hi` free values (R78, R374). -/
def Memory.scrap (m : Memory) (lo hi tag : Nat) : Memory :=
  if lo < hi then
    ⟨m.cells.filter (fun c => decide (c.1 < lo) || decide (hi ≤ c.1)), insertJunk ⟨lo, hi, tag⟩ (cutJunk lo hi m.junk)⟩
  else m

/-- Makes the bytes of several address ranges free values of one draw. -/
def Memory.scrapRanges (m : Memory) (tag : Nat) : List (Nat × Nat) → Memory
  | [] => m
  | r :: rs => (m.scrap r.1 r.2 tag).scrapRanges tag rs

/-- The canonical form of a memory of `size` addresses: addresses strictly rising, below `size`, no entry equal to the
unlisted value or inside junk; junk ranges non-empty, rising and apart. -/
abbrev Memory.wf (m : Memory) (size : Nat) : Prop :=
  m.cells.Pairwise (fun c d => c.1 < d.1) ∧
  (∀ c ∈ m.cells, c.1 < size ∧ c.2 ≠ blankByte ∧ ∀ j ∈ m.junk, j.covers c.1 = false) ∧
  m.junk.Pairwise (fun j k => j.hi ≤ k.lo) ∧
  (∀ j ∈ m.junk, j.lo < j.hi ∧ j.hi ≤ size)

/-- `n` bytes from address `a` read one after the other. -/
def readBytes (rd : Nat → Byte) (a : Nat) : Nat → List Byte
  | 0 => []
  | n + 1 => rd a :: readBytes rd (a + 1) n

/-- `MemRead(S, a, n)` over the byte reader of a space (R66). -/
def memRead (rd : Nat → Byte) (a n : Nat) : Nat := leNat (readBytes rd a n)

/-- Writes the bytes `src m 0 .. src m (n-1)` at `dst ..`, one after the other in ascending order; each source byte is
read from the memory as written so far (R258, R259, R294, R330). -/
def copyLoop (src : Memory → Nat → Byte) (dst : Nat) : Nat → Nat → Memory → Memory
  | 0, _, m => m
  | n + 1, i, m => copyLoop src dst n (i + 1) (m.write (dst + i) (src m i))

/-- The byte of IN at an address, given OUT as it stands (R60; one physical memory: log 10). -/
def State.inByteOver (s : State) (out : Memory) (a : Nat) : Byte :=
  if s.oneMemory then out.byte a else s.inp.byte a

/-- The byte of IN at an address. -/
def State.inByte (s : State) (a : Nat) : Byte := s.inByteOver s.out a

/-- The byte of OUT at an address. -/
def State.outByte (s : State) (a : Nat) : Byte := s.out.byte a

/-- The byte of LIT at an address. -/
def State.litByte (s : State) (a : Nat) : Byte := s.litbuf.byte a

/-- The host places a byte in IN. -/
def State.putIn (s : State) (a : Nat) (b : Byte) : State :=
  if s.oneMemory then { s with out := s.out.write a b } else { s with inp := s.inp.write a b }

/-- The host places a byte in OUT. -/
def State.putOut (s : State) (a : Nat) (b : Byte) : State := { s with out := s.out.write a b }

/-- `Need(n, lim)` of the element rules: `n` bytes from IP lie below `lim` (R254 to R260). -/
def State.need (s : State) (n : Nat) (lim : Addr) : Bool := decide (s.ip.toNat + n ≤ lim.toNat)

/-- The cursor IP moved forward by `n` (R24); past 2^32, which R61 excludes, modulo 2^32 (DESIGN CHOICE, unsafe; log 29). -/
def State.advance (s : State) (n : Nat) : State := { s with ip := s.ip + BitVec.ofNat 32 n }

/-! ## Faults (R361, R372, R373) -/

/-- The class of a decode fault: 1 CORRUPT, 2 CAPACITY, 3 UNSUPPORTED (R361, R362). -/
def ErrCode.cls : ErrCode → BitVec 2
  | .outputFull | .blockTooLarge => 2
  | .legacyMagic | .dictionary | .window => 3
  | .truncated | .badMagic | .blockType | .bitstreamEmpty | .noEndMark | .fseLog | .fseSymbol | .fseHeader
  | .fseSpread | .fseOutput | .hufWeight | .hufTotal | .hufLog | .hufRest | .hufRank1 | .hufStreamEnd
  | .hufJump | .hufSegments | .noHufTable | .seqRleSymbol | .noPrevTable | .seqStream | .literalsOverrun
  | .offsetRange | .checksum => 1

/-- The code of a decode fault (R361). -/
def ErrCode.code : ErrCode → BitVec 6
  | .truncated => 1
  | .badMagic => 2
  | .blockType => 3
  | .bitstreamEmpty => 4
  | .noEndMark => 5
  | .fseLog => 6
  | .fseSymbol => 7
  | .fseHeader => 8
  | .fseSpread => 9
  | .fseOutput => 10
  | .hufWeight => 11
  | .hufTotal => 12
  | .hufLog => 13
  | .hufRest => 14
  | .hufRank1 => 15
  | .hufStreamEnd => 16
  | .hufJump => 17
  | .hufSegments => 18
  | .noHufTable => 19
  | .seqRleSymbol => 20
  | .noPrevTable => 21
  | .seqStream => 22
  | .literalsOverrun => 23
  | .offsetRange => 24
  | .checksum => 25
  | .outputFull => 32
  | .blockTooLarge => 33
  | .legacyMagic => 48
  | .dictionary => 49
  | .window => 50

/-- Fault entry (R372): the fault and its offset are recorded and the engine stops in P_FAULT. What was issued is dropped
and the bytes of the output region become free values (R374; log 4). With IP below IN_START, which R24 excludes, the offset is
taken modulo 2^32 (DESIGN CHOICE, unsafe; log 28). -/
def faultEntry (e : ErrCode) (s : State) : State :=
  { s with
    errClass := e.cls
    errCode := e.code
    errOffset := s.ip - s.lInStart
    phase := .fault
    sub := .start
    issue := []
    out := s.out.scrap s.lOutStart.toNat s.lOutLimit.toNat s.draws
    draws := s.draws + 1 }

/-- The outcome of an instruction whose rule raises a decode fault. -/
def raised (e : ErrCode) (s : State) : Host.Outcome State Fault Refusal := .next (faultEntry e s)

/-- The outcome of an instruction: the state its rule leaves, fault entry, or a stop of the model. -/
def finish {α : Type} (r : Run State α) : Host.Outcome State Fault Refusal :=
  match r with
  | .ok _ s => .next s
  | .raise e s => raised e s
  | .stop f => .fault f

/-- As `finish`, with the returned number placed in the result register (R12; log 8). -/
def finishWith (r : Run State Nat) : Host.Outcome State Fault Refusal :=
  match r with
  | .ok v s => .next { s with result := BitVec.ofNat 64 v }
  | .raise e s => raised e s
  | .stop f => .fault f

/-! ## Frame and block transitions (R250 to R253, R267) -/

/-- The phases in which STATE reads BUSY (R250). -/
def Phase.busy : Phase → Bool
  | .magic | .frameHeader | .blockHeader | .block | .checksum => true
  | .idle | .done | .fault => false

/-- The engine runs a command (R22, R250). -/
def State.busy (s : State) : Bool := s.phase.busy

/-- `ENG.FRAMESTART` (R253). -/
def frameStart (s : State) : State :=
  { s with rep := ⟨1, 4, 8⟩, llSel := .none, ofSel := .none, mlSel := .none, frameOutStart := s.op }

/-- `ENG.DONE` (R252). The bytes from OP to OUT_LIMIT become free values (R78; log 4). With OP below OUT_START, which R24
excludes, the count is taken modulo 2^32 (DESIGN CHOICE, unsafe; log 28). -/
def engDone (s : State) : State :=
  { s with
    bytesWritten := s.op - s.lOutStart
    phase := .done
    sub := .start
    out := s.out.scrap s.op.toNat s.lOutLimit.toNat s.draws
    draws := s.draws + 1 }

/-- `ENG.NEXT` (R267). -/
def engNext (s : State) : State :=
  if s.ip.toNat < s.lInEnd.toNat then { s with phase := .magic, sub := .start } else engDone s

/-- The end of a block (R250). -/
def blockEnd (s : State) : State :=
  if s.blk.last then
    if s.fh.hasChecksum then { s with phase := .checksum, sub := .start } else engNext s
  else { s with phase := .blockHeader, sub := .start }

/-! ## Selectors and tables (R35, R37) -/

/-- The selector of an alphabet (R37). -/
def State.sel (s : State) : Alphabet → Sel
  | .ll => s.llSel
  | .of => s.ofSel
  | .ml => s.mlSel

/-- Writes the selector of an alphabet (R314). -/
def State.setSel (s : State) (x : Alphabet) (v : Sel) : State :=
  match x with
  | .ll => { s with llSel := v }
  | .of => { s with ofSel := v }
  | .ml => { s with mlSel := v }

/-- Entry `i` of a RAM, `d` beyond its end. -/
def ramGet {α : Type} {n : Nat} (v : Vector α n) (i : Nat) (d : α) : α := (v[i]?).getD d

/-- Writes entry `i` of a RAM; an index beyond its end names no entry. -/
def ramSet {α : Type} {n : Nat} (v : Vector α n) (i : Nat) (x : α) : Vector α n := v.setIfInBounds i x

/-- Entry `i` of an FSE table, if the table has it (R34). -/
def fseEntryAt {cap : Nat} (t : FseTable cap) (i : Nat) : Option FseEntry :=
  if i < 2 ^ t.log.toNat then t.ram[i]? else none

/-- The log of a writable table (R34). -/
def State.tableLog (s : State) : TableId → Nat
  | .llt => s.llt.log.toNat
  | .oft => s.oft.log.toNat
  | .mlt => s.mlt.log.toNat
  | .hwt => s.hwt.log.toNat

/-- Entry `i` of a writable table (R34). -/
def State.tableEntry (s : State) (t : TableId) (i : Nat) : Option FseEntry :=
  match t with
  | .llt => fseEntryAt s.llt i
  | .oft => fseEntryAt s.oft i
  | .mlt => fseEntryAt s.mlt i
  | .hwt => fseEntryAt s.hwt i

end Sys2Proof.Machine
end

