-- ==== Sys2Proof/Machine/Operands.lean ====
section
/-! DEFINITION. The values assembled from stream bits (spec/30_encoding.md R119): frame header sizes and values, the code
tables of the sequences (R114 to R116), and the entries of the current tables with the ROM tables of
spec/41_fse_table.md R176 to R178. -/
namespace Sys2Proof.Machine

/-! ## Frame header (R93 to R95, R255) -/

/-- `FHD.ss`, the single-segment flag, of a descriptor byte (R93). -/
def fhdSs (b : Byte) : Bool := bit b.toNat 5

/-- `FHD.ck`, the checksum flag, of a descriptor byte (R93). -/
def fhdCk (b : Byte) : Bool := bit b.toNat 2

/-- `FHD.dsel`, the dictionary-ID selector, of a descriptor byte (R93). -/
def fhdDsel (b : Byte) : Nat := b.toNat % 4

/-- `FHD.csel`, the content-size selector, of a descriptor byte (R93). -/
def fhdCsel (b : Byte) : Nat := b.toNat / 64 % 4

/-- The length of the dictionary-ID field (R94), `none` when it is absent. -/
def didLen (b : Byte) : Option DidLen :=
  match fhdDsel b with
  | 0 => none
  | 1 => some .one
  | 2 => some .two
  | _ => some .four

/-- The length of the content-size field (R95), `none` when it is absent. -/
def fcsLen (b : Byte) : Option FcsLen :=
  match fhdCsel b with
  | 0 => if fhdSs b then some .one else none
  | 1 => some .two
  | 2 => some .four
  | _ => some .eight

/-- `dlen` of R255. -/
def didBytes (b : Byte) : Nat := (didLen b).elim 0 DidLen.bytes

/-- `clen` of R255. -/
def fcsBytes (b : Byte) : Nat := (fcsLen b).elim 0 FcsLen.bytes

/-- The number of window-descriptor bytes, `1 - ss` (R255). -/
def wdBytes (b : Byte) : Nat := if fhdSs b then 0 else 1

/-- `hsize` of R255. -/
def headerSize (b : Byte) : Nat := 1 + wdBytes b + didBytes b + fcsBytes b

/-- The descriptor byte with the given fields (R93). -/
def fhdByteOf (csel : BitVec 2) (ss : Bool) (ign : BitVec 2) (ck : Bool) (dsel : BitVec 2) : Byte :=
  BitVec.ofNat 8 (Instr.word (.fhd csel ss ign ck dsel))

/-- The window size (R94): `2^(10+exp) + floor(2^(10+exp) / 8) * man`. -/
def windowSize (e : BitVec 5) (m : BitVec 3) : Nat :=
  2 ^ (10 + e.toNat) + 2 ^ (10 + e.toNat) / 8 * m.toNat

/-- The content size (R95): the field as read, plus 256 for the 2-byte form. -/
def contentSize (n : FcsLen) (v : BitVec 64) : Nat :=
  match n with
  | .two => v.toNat + 256
  | .one | .four | .eight => v.toNat

/-! ## Sequence count (R108) -/

/-- The count of the two-byte form; `high` is `b0 - 128`. -/
def seqCount2 (high : BitVec 7) (b1 : Byte) : Nat := high.toNat * 256 + b1.toNat

/-- The count of the three-byte form. -/
def seqCount3 (b1 b2 : Byte) : Nat := b1.toNat + 256 * b2.toNat + 0x7F00

/-! ## Code tables (R114 to R116) -/

/-- `LL_BASE` above code 15. -/
def llBaseHigh : List Nat :=
  [16, 18, 20, 22, 24, 28, 32, 40, 48, 64] ++ [128, 256, 512, 1024, 2048, 4096, 8192, 16384, 32768, 65536]

/-- `LL_BITS` above code 15. -/
def llBitsHigh : List Nat :=
  [1, 1, 1, 1, 2, 2, 3, 3, 4, 6] ++ [7, 8, 9, 10, 11, 12, 13, 14, 15, 16]

/-- `LL_BASE` (R114). -/
def llBase (c : Nat) : Nat := if c < 16 then c else llBaseHigh.getD (c - 16) 0

/-- `LL_BITS` (R114). -/
def llBits (c : Nat) : Nat := if c < 16 then 0 else llBitsHigh.getD (c - 16) 0

/-- `ML_BASE` above code 31. -/
def mlBaseHigh : List Nat :=
  [35, 37, 39, 41, 43, 47, 51, 59, 67, 83, 99] ++ [131, 259, 515, 1027, 2051, 4099, 8195, 16387, 32771, 65539]

/-- `ML_BITS` above code 31. -/
def mlBitsHigh : List Nat :=
  [1, 1, 1, 1, 2, 2, 3, 3, 4, 4, 5] ++ [7, 8, 9, 10, 11, 12, 13, 14, 15, 16]

/-- `ML_BASE` (R115). -/
def mlBase (c : Nat) : Nat := if c < 32 then c + 3 else mlBaseHigh.getD (c - 32) 0

/-- `ML_BITS` (R115). -/
def mlBits (c : Nat) : Nat := if c < 32 then 0 else mlBitsHigh.getD (c - 32) 0

/-! ## ROM tables (R176 to R178) -/

/-- The default distribution of the literal-length codes (R176). -/
def llDefault : List Int :=
  [4, 3, 2, 2, 2, 2, 2, 2, 2, 2, 2, 2, 2, 1, 1, 1, 2, 2] ++
  [2, 2, 2, 2, 2, 2, 2, 3, 2, 1, 1, 1, 1, 1, -1, -1, -1, -1]

/-- The default distribution of the match-length codes (R177). -/
def mlDefault : List Int :=
  [1, 4, 3, 2, 2, 2, 2, 2, 2, 1, 1, 1, 1, 1, 1, 1, 1, 1, 1, 1, 1, 1, 1, 1, 1, 1, 1] ++
  [1, 1, 1, 1, 1, 1, 1, 1, 1, 1, 1, 1, 1, 1, 1, 1, 1, 1, 1, -1, -1, -1, -1, -1, -1, -1]

/-- The default distribution of the offset codes (R178). -/
def ofDefault : List Int :=
  [1, 1, 1, 1, 1, 1, 2, 2, 2, 1, 1, 1, 1, 1, 1, 1, 1, 1, 1, 1, 1, 1, 1, 1, -1, -1, -1, -1, -1]

/-- `LL_PREDEF.SYM` (R176). -/
def llRomSym : List Nat :=
  [0, 0, 1, 3, 4, 6, 7, 9, 10, 12, 14, 16, 18, 19, 21, 22] ++
  [24, 25, 26, 27, 29, 31, 0, 1, 2, 4, 5, 7, 8, 10, 11, 13] ++
  [16, 17, 19, 20, 22, 23, 25, 25, 26, 28, 30, 0, 1, 2, 3, 5] ++
  [6, 8, 9, 11, 12, 15, 17, 18, 20, 21, 23, 24, 35, 34, 33, 32]

/-- `LL_PREDEF.NB` (R176). -/
def llRomNb : List Nat :=
  [4, 4, 5, 5, 5, 5, 5, 5, 5, 5, 6, 5, 5, 5, 5, 5] ++
  [5, 5, 5, 6, 6, 6, 4, 4, 5, 5, 5, 5, 5, 5, 5, 6] ++
  [5, 5, 5, 5, 5, 5, 4, 4, 5, 6, 6, 4, 4, 5, 5, 5] ++
  [5, 5, 5, 5, 5, 6, 5, 5, 5, 5, 5, 5, 6, 6, 6, 6]

/-- `LL_PREDEF.NS` (R176). -/
def llRomNs : List Nat :=
  [0, 16, 32, 0, 0, 0, 0, 0, 0, 0, 0, 0, 0, 0, 0, 0] ++
  [0, 32, 0, 0, 0, 0, 32, 0, 0, 32, 0, 32, 0, 32, 0, 0] ++
  [32, 0, 32, 0, 32, 0, 0, 16, 32, 0, 0, 48, 16, 32, 32, 32] ++
  [32, 32, 32, 32, 32, 0, 32, 32, 32, 32, 32, 32, 0, 0, 0, 0]

/-- `ML_PREDEF.SYM` (R177). -/
def mlRomSym : List Nat :=
  [0, 1, 2, 3, 5, 6, 8, 10, 13, 16, 19, 22, 25, 28, 31, 33] ++
  [35, 37, 39, 41, 43, 45, 1, 2, 3, 4, 6, 7, 9, 12, 15, 18] ++
  [21, 24, 27, 30, 32, 34, 36, 38, 40, 42, 44, 1, 1, 2, 4, 5] ++
  [7, 8, 11, 14, 17, 20, 23, 26, 29, 52, 51, 50, 49, 48, 47, 46]

/-- `ML_PREDEF.NB` (R177). -/
def mlRomNb : List Nat :=
  [6, 4, 5, 5, 5, 5, 5, 6, 6, 6, 6, 6, 6, 6, 6, 6] ++
  [6, 6, 6, 6, 6, 6, 4, 4, 5, 5, 5, 5, 6, 6, 6, 6] ++
  [6, 6, 6, 6, 6, 6, 6, 6, 6, 6, 6, 4, 4, 4, 5, 5] ++
  [5, 5, 6, 6, 6, 6, 6, 6, 6, 6, 6, 6, 6, 6, 6, 6]

/-- `ML_PREDEF.NS` (R177). -/
def mlRomNs : List Nat :=
  [0, 0, 32, 0, 0, 0, 0, 0, 0, 0, 0, 0, 0, 0, 0, 0] ++
  [0, 0, 0, 0, 0, 0, 16, 0, 32, 0, 32, 0, 0, 0, 0, 0] ++
  [0, 0, 0, 0, 0, 0, 0, 0, 0, 0, 0, 32, 48, 16, 32, 32] ++
  [32, 32, 0, 0, 0, 0, 0, 0, 0, 0, 0, 0, 0, 0, 0, 0]

/-- `OF_PREDEF.SYM` (R178). -/
def ofRomSym : List Nat :=
  [0, 6, 9, 15, 21, 3, 7, 12, 18, 23, 5, 8, 14, 20, 2, 7] ++
  [11, 17, 22, 4, 8, 13, 19, 1, 6, 10, 16, 28, 27, 26, 25, 24]

/-- `OF_PREDEF.NB` (R178). -/
def ofRomNb : List Nat :=
  [5, 4, 5, 5, 5, 5, 4, 5, 5, 5, 5, 4, 5, 5, 5, 4] ++
  [5, 5, 5, 5, 4, 5, 5, 5, 4, 5, 5, 5, 5, 5, 5, 5]

/-- `OF_PREDEF.NS` (R178). -/
def ofRomNs : List Nat :=
  [0, 0, 0, 0, 0, 0, 0, 0, 0, 0, 0, 0, 0, 0, 0, 16] ++
  [0, 0, 0, 0, 16, 0, 0, 0, 16, 0, 0, 0, 0, 0, 0, 0]

/-- The entry a ROM's three lists give at a slot. -/
def romAt (sym nb ns : List Nat) (i : Nat) : Option FseEntry :=
  match sym[i]?, nb[i]?, ns[i]? with
  | some s, some b, some n => some ⟨BitVec.ofNat 8 s, BitVec.ofNat 4 b, BitVec.ofNat 16 n⟩
  | _, _, _ => none

/-- The log of a ROM table (R7, R35). -/
def romLog : Alphabet → Nat
  | .ll => 6
  | .of => 5
  | .ml => 6

/-- Entry `i` of a ROM table (R35). -/
def romEntry (x : Alphabet) (i : Nat) : Option FseEntry :=
  match x with
  | .ll => romAt llRomSym llRomNb llRomNs i
  | .of => romAt ofRomSym ofRomNb ofRomNs i
  | .ml => romAt mlRomSym mlRomNb mlRomNs i

/-! ## Current tables (R37) -/

/-- The log of the current table of an alphabet, if there is one (R37, R113). -/
def State.curLog (s : State) (x : Alphabet) : Option Nat :=
  match s.sel x with
  | .none => none
  | .predef => some (romLog x)
  | .ram => some (s.tableLog x.table)

/-- Entry `i` of the current table of an alphabet, if there is one (R37). -/
def State.curEntry (s : State) (x : Alphabet) (i : Nat) : Option FseEntry :=
  match s.sel x with
  | .none => none
  | .predef => romEntry x i
  | .ram => s.tableEntry x.table i

end Sys2Proof.Machine
end

