-- ==== Sys2Proof/Machine/Xxh.lean ====
section
/-! DEFINITION. The XXH64 checksum engine (spec/44_xxh64.md R231, R232). -/
namespace Sys2Proof.Machine

/-- The five primes (R231). -/
def prime1 : Word64 := 0x9E3779B185EBCA87
def prime2 : Word64 := 0xC2B2AE3D27D4EB4F
def prime3 : Word64 := 0x165667B19E3779F9
def prime4 : Word64 := 0x85EBCA77C2B2AE63
def prime5 : Word64 := 0x27D4EB2F165667C5

/-- `Round(acc, lane)` (R231). -/
def xxhRound (acc lane : Word64) : Word64 := (acc + lane * prime2).rotateLeft 31 * prime1

/-- `Merge(h, v)` (R231). -/
def xxhMerge (h v : Word64) : Word64 := (h ^^^ xxhRound 0 v) * prime1 + prime4

/-- A lane of `n` bytes at address `p`, little-endian (R66, R232). -/
def xxhLane (rd : Nat → Byte) (p n : Nat) : Word64 := BitVec.ofNat 64 (memRead rd p n)

/-- `n` stripes of four lanes from address `p` on (R231). -/
def xxhStripes (rd : Nat → Byte) : Nat → Nat → XxhRegs → XxhRegs
  | 0, _, x => x
  | n + 1, p, x =>
    xxhStripes rd n (p + 32)
      { x with
        v1 := xxhRound x.v1 (xxhLane rd p 8)
        v2 := xxhRound x.v2 (xxhLane rd (p + 8) 8)
        v3 := xxhRound x.v3 (xxhLane rd (p + 16) 8)
        v4 := xxhRound x.v4 (xxhLane rd (p + 24) 8) }

/-- `n` eight-byte steps of the tail (R231). -/
def xxhEights (rd : Nat → Byte) : Nat → Nat → Word64 → Word64
  | 0, _, h => h
  | n + 1, p, h =>
    xxhEights rd n (p + 8) ((h ^^^ xxhRound 0 (xxhLane rd p 8)).rotateLeft 27 * prime1 + prime4)

/-- The four-byte step of the tail (R231). -/
def xxhFour (rd : Nat → Byte) (p : Nat) (h : Word64) : Word64 :=
  (h ^^^ (xxhLane rd p 4 * prime1)).rotateLeft 23 * prime2 + prime3

/-- `n` one-byte steps of the tail (R231). -/
def xxhOnes (rd : Nat → Byte) : Nat → Nat → Word64 → Word64
  | 0, _, h => h
  | n + 1, p, h => xxhOnes rd n (p + 1) ((h ^^^ (xxhLane rd p 1 * prime5)).rotateLeft 11 * prime1)

/-- The final mixing (R231). -/
def xxhAvalanche (h : Word64) : Word64 :=
  let h1 := (h ^^^ (h >>> 33)) * prime2
  let h2 := (h1 ^^^ (h1 >>> 29)) * prime3
  h2 ^^^ (h2 >>> 32)

/-- The four accumulators joined (R231). -/
def xxhJoin (x : XxhRegs) : Word64 :=
  let h := x.v1.rotateLeft 1 + x.v2.rotateLeft 7 + x.v3.rotateLeft 12 + x.v4.rotateLeft 18
  xxhMerge (xxhMerge (xxhMerge (xxhMerge h x.v1) x.v2) x.v3) x.v4

/-- The accumulators at the start of a hash of 32 bytes or more (R231, R232). -/
def xxhSeeded (x : XxhRegs) : XxhRegs :=
  { x with
    v1 := Config.xxhSeed + prime1 + prime2
    v2 := Config.xxhSeed + prime2
    v3 := Config.xxhSeed
    v4 := Config.xxhSeed - prime1 }

/-- The hash value before the tail and the accumulators it leaves (R231). -/
def xxhBody (rd : Nat → Byte) (a len : Nat) (x : XxhRegs) : Word64 × XxhRegs :=
  if 32 ≤ len then
    let x1 := xxhStripes rd (len / 32) a (xxhSeeded x)
    (xxhJoin x1, x1)
  else (Config.xxhSeed + prime5, x)

/-- The tail of `len % 32` bytes at `p` (R231). -/
def xxhTail (rd : Nat → Byte) (p m : Nat) (h : Word64) : Word64 :=
  let h8 := xxhEights rd (m / 8) p h
  let p8 := p + 8 * (m / 8)
  let r8 := m % 8
  if 4 ≤ r8 then xxhOnes rd (r8 - 4) (p8 + 4) (xxhFour rd p8 h8) else xxhOnes rd r8 p8 h8

/-- `XXH.HASH(a, len)` (R231) over the byte reader of OUT. -/
def xxhHash (rd : Nat → Byte) (a len : Nat) (x : XxhRegs) : XxhRegs :=
  let x0 := { x with len := BitVec.ofNat 64 len }
  let r := xxhBody rd a len x0
  let h := xxhTail rd (a + 32 * (len / 32)) (len % 32) (r.1 + BitVec.ofNat 64 len)
  { r.2 with h := xxhAvalanche h }

/-- `XXH.HASH(a, len)` on the state (R230, R231). -/
def State.xxhHash (s : State) (a len : Nat) : State :=
  { s with xxh := Machine.xxhHash s.outByte a len s.xxh }

/-- XXH.HASH (R231). R230 keeps `[a, a + len)` inside `[OUT_START, OP)`. Issued with `a + len` above 2^32 it names bytes that
OUT does not have (R60); they read as unlisted bytes do, 0, and the operation completes (DESIGN CHOICE, unsafe; log 24). -/
def execXxhHash (a : Addr) (len : BitVec 32) (s : State) : Host.Outcome State Fault Refusal :=
  .next (s.xxhHash a.toNat len.toNat)

end Sys2Proof.Machine
end

