-- ==== Sys2Proof/Machine/Frame.lean ====
section
/-! DEFINITION. The frame and block elements (spec/45_frame_block.md). -/
namespace Sys2Proof.Machine

/-! ## Magic (R253, R254) -/

/-- MAGIC: frame start, then the magic is passed (R253, R254). -/
def execMagic (s : State) : Host.Outcome State Fault Refusal :=
  let s0 := frameStart s
  if s0.need 4 s0.lInEnd then .next { s0.advance 4 with phase := .frameHeader, sub := .start }
  else raised .truncated s0

/-- MAGIC_LEGACY: frame start, then E_LEGACY_MAGIC (R253, R254, R365). -/
def execMagicLegacy (s : State) : Host.Outcome State Fault Refusal :=
  let s0 := frameStart s
  if s0.need 4 s0.lInEnd then raised .legacyMagic s0 else raised .truncated s0

/-! ## Frame header (R255) -/

/-- The end of ENG.FRAMEHEADER: the window test, the last two registers and the cursor (R255; past 2^32 it wraps, log 29). -/
def headerEnd (s : State) : Host.Outcome State Fault Refusal :=
  if !fhdSs s.fhdByte && decide (Config.maxWindow < s.fh.windowSize.toNat) then raised .window s
  else
    let n := headerSize s.fhdByte
    .next { s.advance n with
      fh := { s.fh with headerSize := BitVec.ofNat 5 n, hasChecksum := fhdCk s.fhdByte }
      phase := .blockHeader
      sub := .start }

/-- ENG.FRAMEHEADER from the content-size field on (R255). -/
def headerContent (s : State) : Host.Outcome State Fault Refusal :=
  match fcsLen s.fhdByte with
  | none => headerEnd { s with fh := { s.fh with contentValid := false } }
  | some _ => .next { s with fh := { s.fh with contentValid := true }, sub := .fcs }

/-- ENG.FRAMEHEADER from the dictionary-ID field on (R255). -/
def headerDict (s : State) : Host.Outcome State Fault Refusal :=
  match didLen s.fhdByte with
  | none => headerContent { s with fh := { s.fh with dictValid := false } }
  | some _ => .next { s with fh := { s.fh with dictValid := true }, sub := .did }

/-- FHD: the length tests, the window flag, and the first optional field (R255). -/
def execFhd (csel : BitVec 2) (ss : Bool) (ign : BitVec 2) (ck : Bool) (dsel : BitVec 2) (s : State) :
    Host.Outcome State Fault Refusal :=
  let b := fhdByteOf csel ss ign ck dsel
  if !s.need 1 s.lInEnd then raised .truncated s
  else if !s.need (headerSize b) s.lInEnd then raised .truncated s
  else
    let s1 := { s with fhdByte := b, fh := { s.fh with windowValid := !ss } }
    if ss then headerDict s1 else .next { s1 with sub := .wd }

/-- WD: the window size (R94, R255). -/
def execWd (e : BitVec 5) (m : BitVec 3) (s : State) : Host.Outcome State Fault Refusal :=
  headerDict { s with fh := { s.fh with windowSize := BitVec.ofNat 42 (windowSize e m) } }

/-- DID: the identifier is latched and E_DICTIONARY raised (R255, R366). -/
def execDid (_n : DidLen) (v : BitVec 32) (s : State) : Host.Outcome State Fault Refusal :=
  raised .dictionary { s with fh := { s.fh with dictId := v } }

/-- FCS: the content size (R95, R255). -/
def execFcs (n : FcsLen) (v : BitVec 64) (s : State) : Host.Outcome State Fault Refusal :=
  headerEnd { s with fh := { s.fh with contentSize := BitVec.ofNat 64 (contentSize n v) } }

/-! ## Blocks (R257 to R260) -/

/-- ENG.BLOCKHEADER (R257) with the fields of the header. -/
def blockHeader (typ : BitVec 2) (last : Bool) (size : BitVec 21) (s : State) : Run State Unit :=
  if !s.need 3 s.lInEnd then .raise .truncated s
  else
    let s1 := { s with blk := { s.blk with last := last, typ := typ, size := size } }
    if typ = 3 then .raise .blockType s1
    else if Config.maxBlock < size.toNat then .raise .blockTooLarge s1
    else .ok () { s1.advance 3 with phase := .block, sub := .start }

/-- Writes `n` bytes to OUT from OP on and moves OP past them. -/
def State.produce (s : State) (src : Memory → Nat → Byte) (n : Nat) : State :=
  { s with out := copyLoop src s.op.toNat n 0 s.out, op := s.op + BitVec.ofNat 32 n }

/-- The room test before `n` bytes are produced (R258, R259, R334). -/
def State.room (s : State) (n : Nat) : Bool := decide (s.op.toNat + n ≤ s.lOutLimit.toNat)

/-- `BLK.END <- IP + BLK.SIZE` (R28, R260). -/
def State.setBlockEnd (s : State) : State :=
  { s with blk := { s.blk with limit := s.ip + BitVec.ofNat 32 s.blk.size.toNat } }

/-- ENG.RAWBLOCK (R258). R28 gives a raw block its `BLK.END` too; it is written once both tests have passed (R261; log 26). -/
def rawBlock (s : State) : Run State Unit :=
  let n := s.blk.size.toNat
  if !s.need n s.lInEnd then .raise .truncated s
  else if !s.room n then .raise .outputFull s
  else .ok () (blockEnd ((s.setBlockEnd.produce (fun out i => s.inByteOver out (s.ip.toNat + i)) n).advance n))

/-- ENG.RLEBLOCK (R259). -/
def rleBlock (s : State) : Run State Unit :=
  let n := s.blk.size.toNat
  if !s.need 1 s.lInEnd then .raise .truncated s
  else if !s.room n then .raise .outputFull s
  else
    let v := s.inByte s.ip.toNat
    .ok () (blockEnd ((s.produce (fun _ _ => v) n).advance 1))

/-- The head of ENG.CMPBLOCK (R260): the payload test and `BLK.END`; the literals section follows. -/
def cmpBlock (s : State) : Run State Unit :=
  let n := s.blk.size.toNat
  if !s.need n s.lInEnd then .raise .truncated s
  else .ok () { s.setBlockEnd with sub := .start }

/-- BLK_RAW (R257, R258). -/
def execBlkRaw (last : Bool) (size : BitVec 21) (s : State) : Host.Outcome State Fault Refusal :=
  finish ((blockHeader 0 last size s).bind fun _ s1 => rawBlock s1)

/-- BLK_RLE (R257, R259). -/
def execBlkRle (last : Bool) (size : BitVec 21) (s : State) : Host.Outcome State Fault Refusal :=
  finish ((blockHeader 1 last size s).bind fun _ s1 => rleBlock s1)

/-- BLK_CMP (R257, R260). -/
def execBlkCmp (last : Bool) (size : BitVec 21) (s : State) : Host.Outcome State Fault Refusal :=
  finish ((blockHeader 2 last size s).bind fun _ s1 => cmpBlock s1)

/-- BLK_RSV: E_BLOCK_TYPE (R257). -/
def execBlkRsv (last : Bool) (size : BitVec 21) (s : State) : Host.Outcome State Fault Refusal :=
  finish (blockHeader 3 last size s)

/-! ## Checksum (R266) -/

/-- CHECKSUM: the hash of the frame's content against the field, then R267. With OP below FRAME_OUT_START, which R24 excludes,
the content is taken as empty (DESIGN CHOICE, unsafe; log 28). -/
def execChecksum (v : BitVec 32) (s : State) : Host.Outcome State Fault Refusal :=
  if !s.need 4 s.lInEnd then raised .truncated s
  else
    let s1 := s.xxhHash s.frameOutStart.toNat (s.op.toNat - s.frameOutStart.toNat)
    if v = s1.xxh.h.setWidth 32 then .next (engNext (s1.advance 4))
    else
      let s2 := { s1 with cksumBad := true }
      if s2.lEnforce then raised .checksum s2 else .next (engNext (s2.advance 4))

end Sys2Proof.Machine
end

