-- ==== Sys2Proof/Machine/Flags.lean ====
section
/-! DEFINITION. The one-bit registers and the words the host reads (spec/10_state.md R21, R23, R31, R37, R250):
the core has no arithmetic condition codes. -/
namespace Sys2Proof.Machine

/-- `STATUS.STATE` as a function of PHASE (R250). -/
def Phase.stateBits : Phase → BitVec 2
  | .idle => 0
  | .magic | .frameHeader | .blockHeader | .block | .checksum => 1
  | .done => 2
  | .fault => 3

/-- The STATUS register (R21): STATE in 1:0, CKSUM_BAD in 2, HUF_LOADED in 3. -/
def State.status (s : State) : Word :=
  BitVec.ofNat 32 (s.phase.stateBits.toNat + 4 * bitNat s.cksumBad + 8 * bitNat s.huf.loaded)

/-- The ERR register (R21): CLASS in 1:0, CODE in 13:8. -/
def State.errWord (s : State) : Word :=
  BitVec.ofNat 32 (s.errClass.toNat + 256 * s.errCode.toNat)

/-- The CFG register (R21): CKSUM_ENFORCE in bit 0. -/
def State.cfgWord (s : State) : Word := BitVec.ofNat 32 (bitNat s.cfgEnforce)

/-- `X_VALID` (R37): alphabet X has a current table. -/
def State.selValid (s : State) (x : Alphabet) : Bool := decide (s.sel x ≠ .none)

/-- What a host read of a register returns while the engine is not BUSY (R21). -/
def State.regValue (s : State) : HostReg → Word
  | .cmd => 0
  | .status => s.status
  | .inStart => s.inStart
  | .inEnd => s.inEnd
  | .outStart => s.outStart
  | .outLimit => s.outLimit
  | .cfg => s.cfgWord
  | .bytesWritten => s.bytesWritten
  | .err => s.errWord
  | .errOffset => s.errOffset

/-- The offset of a register from the block's base, in bytes (R21). -/
def regOffset : HostReg → Nat
  | .cmd => 0x00
  | .status => 0x04
  | .inStart => 0x08
  | .inEnd => 0x0C
  | .outStart => 0x10
  | .outLimit => 0x14
  | .cfg => 0x18
  | .bytesWritten => 0x1C
  | .err => 0x20
  | .errOffset => 0x24

end Sys2Proof.Machine
end

