-- ==== Sys2Proof/Machine/HostCmd.lean ====
section
/-! DEFINITION. The host commands CMD.START and CMD.RESET (spec/45_frame_block.md R251, spec/70_reset_and_hazards.md
R400). -/
namespace Sys2Proof.Machine

/-- Whether two address ranges share an address. -/
def rangesMeet (a b c d : Nat) : Bool := decide (max a c < min b d)

/-- ENG.START (R251). -/
def engStart (s : State) : State :=
  { s with
    lInStart := s.inStart
    lInEnd := s.inEnd
    lOutStart := s.outStart
    lOutLimit := s.outLimit
    lEnforce := s.cfgEnforce
    ip := s.inStart
    op := s.outStart
    cksumBad := false
    errClass := 0
    errCode := 0
    errOffset := 0
    bytesWritten := 0
    phase := .magic
    sub := .start
    issue := [] }

/-- CMD.START (R22, R251): ignored while BUSY; reversed or overlapping regions are refused (U3, U4; log 11). -/
def execCmdStart (_ign : BitVec 30) (s : State) : Host.Outcome State Fault Refusal :=
  if s.busy then .next s
  else if s.inEnd.toNat < s.inStart.toNat ∨ s.outLimit.toNat < s.outStart.toNat then .refused .regionReversed
  else if s.oneMemory && rangesMeet s.inStart.toNat s.inEnd.toNat s.outStart.toNat s.outLimit.toNat then
    .refused .regionsOverlap
  else .next (engStart s)

/-- HW.RESET (R400). The unit registers are left unspecified: free values (log 3); so is LIT. The host's memories and
the host's own pending accesses are not part of the core. -/
def hwReset (s : State) : State :=
  let u := Config.unitsAfterReset s.draws
  { State.reset with
    rep := u.rep
    br := u.br
    llt := u.llt
    oft := u.oft
    mlt := u.mlt
    hwt := u.hwt
    fse := u.fse
    huf := { u.huf with loaded := false }
    xxh := u.xxh
    inp := s.inp
    out := s.out
    litbuf := s.litbuf.scrap 0 Config.litSize s.draws
    hostQueue := s.hostQueue
    hostData := s.hostData
    oneMemory := s.oneMemory
    draws := s.draws + 1 }

/-- CMD.RESET (R22, R400): ignored while BUSY. -/
def execCmdReset (_start : Bool) (_ign : BitVec 30) (s : State) : Host.Outcome State Fault Refusal :=
  if s.busy then .next s else .next (hwReset s)

end Sys2Proof.Machine
end

