-- ==== Sys2Proof/Machine/BitReader.lean ====
section
/-! DEFINITION. The backward bit reader, BR (spec/40_bit_reader.md). The operations are functions of one register set and of
the byte reader of IN; the instructions place them in `BR[k]`. -/
namespace Sys2Proof.Machine

/-- The status BR.REFILL returns (R144). -/
inductive RefillStatus where
  | more | exhausted | overflow
  deriving DecidableEq, Repr, Inhabited

/-- The number of a status (R144). -/
def RefillStatus.code : RefillStatus → Nat
  | .more => 0
  | .exhausted => 1
  | .overflow => 2

/-- `BR.INIT` (R141): the reader positioned below the end marker of `[start, limit)`. -/
def brInit (rd : Nat → Byte) (start limit : Nat) (b : BitReader) : Run BitReader Unit :=
  if limit < start + 1 then .raise .bitstreamEmpty b
  else
    let last := (rd (limit - 1)).toNat
    if last = 0 then .raise .noEndMark b
    else
      let c := 8 - highbit last
      let n := limit - start
      if 8 ≤ n then
        .ok () ⟨BitVec.ofNat 64 (memRead rd (limit - 8) 8), BitVec.ofNat 32 c, BitVec.ofNat 32 (limit - 8), BitVec.ofNat 32 start⟩
      else
        .ok () ⟨BitVec.ofNat 64 (memRead rd start n), BitVec.ofNat 32 (c + (8 - n) * 8), BitVec.ofNat 32 start, BitVec.ofNat 32 start⟩

/-- `BR.PEEK` (R142), with the shift count of R146. -/
def brPeek (b : BitReader) (n : Nat) : Nat :=
  (((b.word <<< (b.consumed.toNat % 64)) >>> 1) >>> (63 - n)).toNat

/-- `BR.PEEKFAST` (R143), with the shift count of R146. -/
def brPeekFast (b : BitReader) (n : Nat) : Nat :=
  ((b.word <<< (b.consumed.toNat % 64)) >>> (64 - n)).toNat

/-- `Consume` (R145). A CONSUMED of 2^32 and more, which R149 excludes, is taken modulo 2^32 (DESIGN CHOICE, unsafe; log 29). -/
def brConsume (b : BitReader) (n : Nat) : BitReader := { b with consumed := b.consumed + BitVec.ofNat 32 n }

/-- `ReadBits` (R145): the value and the reader after it. -/
def readBits (b : BitReader) (n : Nat) : Nat × BitReader := (brPeek b n, brConsume b n)

/-- Reloads the container at a new address with a new count (the loads of R144). A byte past the space, which R147 keeps a
reader away from, reads as 0 (DESIGN CHOICE, unsafe; log 27). -/
def brReload (rd : Nat → Byte) (b : BitReader) (cur : Addr) (consumed : BitVec 32) : BitReader :=
  { b with word := BitVec.ofNat 64 (memRead rd cur.toNat 8), consumed := consumed, cur := cur }

/-- `BR.REFILL` (R144). On a reader that R147 excludes (CUR below START, or CUR + 8 above 2^32) R144 gives no CONSUMED beyond 32
bits and no byte past IN: CONSUMED is taken modulo 2^32 and bytes past the space read as 0 (DESIGN CHOICE, unsafe; log 27). -/
def brRefill (rd : Nat → Byte) (b : BitReader) : RefillStatus × BitReader :=
  let c := b.consumed.toNat
  if 64 < c then (.overflow, b)
  else if b.cur = b.start then (.exhausted, b)
  else if b.start.toNat + 8 ≤ b.cur.toNat then
    (.more, brReload rd b (b.cur - BitVec.ofNat 32 (c / 8)) (BitVec.ofNat 32 (c % 8)))
  else if b.cur.toNat < b.start.toNat + c / 8 then
    (.exhausted, brReload rd b b.start (b.consumed - 8 * (b.cur - b.start)))
  else
    (.more, brReload rd b (b.cur - BitVec.ofNat 32 (c / 8)) (BitVec.ofNat 32 (c - 8 * (c / 8))))

/-- The FSE decode step (R173) from the entry of the current state: the symbol emitted, the next state and the reader. -/
def fseStep (e : FseEntry) (b : BitReader) : Nat × Nat × BitReader :=
  let (v, b') := readBits b e.nb.toNat
  (e.sym.toNat, e.ns.toNat + v, b')

/-! ## The instructions -/

/-- Places a reader in `BR[k]`. -/
def State.setBr (s : State) (k : Fin 4) (b : BitReader) : State := { s with br := s.br.set k b }

/-- `BR.INIT(k, start, end)` on the state (R141). -/
def State.brInit (s : State) (k : Fin 4) (start limit : Nat) : Run State Unit :=
  (Machine.brInit s.inByte start limit (s.br.get k)).lift (s.setBr k)

/-- BR.INIT (R141). -/
def execBrInit (k : Fin 4) (start limit : Addr) (s : State) : Host.Outcome State Fault Refusal :=
  finish (s.brInit k start.toNat limit.toNat)

/-- BR.PEEK (R142): the value goes to the result register. -/
def execBrPeek (k : Fin 4) (n : BitVec 6) (s : State) : Host.Outcome State Fault Refusal :=
  .next { s with result := BitVec.ofNat 64 (brPeek (s.br.get k) n.toNat) }

/-- BR.PEEKFAST (R143): the value goes to the result register. -/
def execBrPeekFast (k : Fin 4) (nMinus1 : BitVec 6) (s : State) : Host.Outcome State Fault Refusal :=
  .next { s with result := BitVec.ofNat 64 (brPeekFast (s.br.get k) (nMinus1.toNat + 1)) }

/-- BR.REFILL (R144): the status goes to the result register. -/
def execBrRefill (k : Fin 4) (s : State) : Host.Outcome State Fault Refusal :=
  let (st, b) := brRefill s.inByte (s.br.get k)
  .next { s.setBr k b with result := BitVec.ofNat 64 st.code }

end Sys2Proof.Machine
end

