-- ==== Sys2Proof/Machine/FseTable.lean ====
section
/-! DEFINITION. The FSE table builder (spec/41_fse_table.md): reading a description, building a table, the single-symbol
and the predefined tables. -/
namespace Sys2Proof.Machine

/-! ## Forward bitstream (R161) -/

/-- Byte `j` of the stream `[start, limit)`; bytes past its end read 0. -/
def fwdByte (rd : Nat → Byte) (start limit j : Nat) : Nat :=
  if start + j < limit then (rd (start + j)).toNat else 0

/-- `FwdBits(pos, n)` for `n` up to 16 (R161): the three bytes from bit `pos` on hold the field. -/
def fwdBits (rd : Nat → Byte) (start limit pos n : Nat) : Nat :=
  let q := pos / 8
  (fwdByte rd start limit q + 256 * fwdByte rd start limit (q + 1) + 65536 * fwdByte rd start limit (q + 2))
    / 2 ^ (pos % 8) % 2 ^ n

/-! ## FSE.READTABLE (R162 to R165) -/

/-- The variables of the description loop (R162). -/
structure NormSt where
  norm      : Vector (BitVec 16) 256
  remaining : Nat
  threshold : Nat
  nbits     : Nat
  sym       : Nat
  pos       : Nat
  prev0     : Bool
  deriving DecidableEq, Repr, Inhabited

/-- The 16-bit groups of a zero run (R164): the symbol reached and the position after them. -/
def zeroRun24 (rd : Nat → Byte) (start limit : Nat) : Nat → Nat → Nat → Nat × Nat
  | 0, n0, pos => (n0, pos)
  | f + 1, n0, pos =>
    if fwdBits rd start limit pos 16 = 0xFFFF then zeroRun24 rd start limit f (n0 + 24) (pos + 16)
    else (n0, pos)

/-- The 2-bit groups of value 3 of a zero run (R164). -/
def zeroRun3 (rd : Nat → Byte) (start limit : Nat) : Nat → Nat → Nat → Nat × Nat
  | 0, n0, pos => (n0, pos)
  | f + 1, n0, pos =>
    if fwdBits rd start limit pos 2 = 3 then zeroRun3 rd start limit f (n0 + 3) (pos + 2)
    else (n0, pos)

/-- A whole zero run (R164). The fuel is the number of bits of the region, and beyond the region no group repeats. -/
def zeroRun (rd : Nat → Byte) (start limit n0 pos : Nat) : Nat × Nat :=
  let fuel := 8 * (limit - start) + 1
  let (n1, p1) := zeroRun24 rd start limit fuel n0 pos
  let (n2, p2) := zeroRun3 rd start limit fuel n1 p1
  (n2 + fwdBits rd start limit p2 2, p2 + 2)

/-- `NORM[i ..] <- 0` for `n` entries (R162). -/
def zeroFill : Nat → Nat → Vector (BitVec 16) 256 → Vector (BitVec 16) 256
  | 0, _, v => v
  | n + 1, i, v => zeroFill n (i + 1) (ramSet v i 0)

/-- `while remaining < threshold do nbits <- nbits - 1; threshold <- threshold / 2` (R162, R165). -/
def shrink (remaining : Nat) : Nat → Nat → Nat → Nat × Nat
  | 0, threshold, nbits => (threshold, nbits)
  | f + 1, threshold, nbits =>
    if remaining < threshold then shrink remaining f (threshold / 2) (nbits - 1) else (threshold, nbits)

/-- The raw value of a count field and the position after it (R163). -/
def countField (rd : Nat → Byte) (start limit : Nat) (st : NormSt) : Nat × Nat :=
  let mx := 2 * st.threshold - 1 - st.remaining
  let short := fwdBits rd start limit st.pos (st.nbits - 1)
  if short < mx then (short, st.pos + (st.nbits - 1))
  else
    let long := fwdBits rd start limit st.pos st.nbits
    (if st.threshold ≤ long then long - mx else long, st.pos + st.nbits)

/-- The zero run at the head of one pass of the loop, when the previous count was 0 (R162, R164). -/
def normZeros (rd : Nat → Byte) (start limit maxSymbol : Nat) (st : NormSt) : Run NormSt Unit :=
  if st.prev0 then
    let (n0, pos) := zeroRun rd start limit st.sym st.pos
    if maxSymbol < n0 then .raise .fseSymbol { st with pos := pos }
    else .ok () { st with norm := zeroFill (n0 - st.sym) st.sym st.norm, sym := n0, pos := pos }
  else .ok () st

/-- The count field of one pass of the loop: `count = raw - 1` (R162, R163). -/
def normCount (rd : Nat → Byte) (start limit : Nat) (st : NormSt) : NormSt :=
  let (raw, pos) := countField rd start limit st
  let remaining := st.remaining - (if raw = 0 then 1 else raw - 1)
  let (threshold, nbits) := shrink remaining st.nbits st.threshold st.nbits
  { norm := ramSet st.norm st.sym (BitVec.ofNat 16 raw - 1)
    remaining := remaining
    threshold := threshold
    nbits := nbits
    sym := st.sym + 1
    pos := pos
    prev0 := decide (raw = 1) }

/-- The description loop (R162). The fuel is the number of symbols. -/
def normLoop (rd : Nat → Byte) (start limit maxSymbol : Nat) : Nat → NormSt → Run NormSt Unit
  | 0, st => .ok () st
  | f + 1, st =>
    if 1 < st.remaining ∧ st.sym ≤ maxSymbol then
      (normZeros rd start limit maxSymbol st).bind fun _ st1 =>
        normLoop rd start limit maxSymbol f (normCount rd start limit st1)
    else .ok () st

/-- The counts of a description of log `log` and where it ends (R162 to R165). -/
def readNorm (rd : Nat → Byte) (start limit maxSymbol log : Nat) (norm : Vector (BitVec 16) 256) : Run NormSt Unit :=
  (normLoop rd start limit maxSymbol (maxSymbol + 1)
    ⟨norm, 2 ^ log + 1, 2 ^ log, log + 1, 0, 4, false⟩).bind fun _ st =>
  if st.remaining ≠ 1 ∨ 8 * (limit - start) < st.pos then .raise .fseHeader st else .ok () st

/-! ## FSE.BUILD (R167 to R169) -/

/-- A table and the rank counters while they are built, and the model's counter of free values. -/
structure BuildSt (cap : Nat) where
  ram   : Vector FseEntry cap
  next  : Vector (BitVec 16) 256
  draws : Nat
  deriving DecidableEq, Repr, Inhabited

/-- What a table operation works on: its table, the builder scratch, and the model's counter of free values. -/
structure TableUnit (cap : Nat) where
  tab   : FseTable cap
  sc    : FseScratch
  draws : Nat
  deriving DecidableEq, Repr, Inhabited

/-- `NORM[s]` as the signed number it holds (R36). -/
def normAt (norm : Vector (BitVec 16) 256) (s : Nat) : Int := (ramGet norm s 0).toInt

/-- `T.SYM[i] <- s`. -/
def setSym {cap : Nat} (ram : Vector FseEntry cap) (i s : Nat) : Vector FseEntry cap :=
  ramSet ram i { ramGet ram i ⟨0, 0, 0⟩ with sym := BitVec.ofNat 8 s }

/-- The low-probability symbols take the high slots, and every rank counter starts (R167). `room` is `high + 1`; the
result is what remains of it. -/
def lowProb {cap : Nat} (norm : Vector (BitVec 16) 256) : Nat → Nat → Nat → BuildSt cap → Run (BuildSt cap) Nat
  | 0, _, room, b => .ok room b
  | n + 1, s, room, b =>
    if normAt norm s = -1 then
      if room = 0 then .stop .fseSlot
      else lowProb norm n (s + 1) (room - 1) { b with ram := setSym b.ram (room - 1) s, next := ramSet b.next s 1 }
    else lowProb norm n (s + 1) room { b with next := ramSet b.next s (ramGet norm s 0) }

/-- `repeat p <- (p + step) mod size until p ≤ high` (R167, R168). -/
def nextSlot (size step room : Nat) : Nat → Nat → Option Nat
  | 0, _ => none
  | f + 1, p =>
    let q := (p + step) % size
    if q < room then some q else nextSlot size step room f q

/-- Places symbol `s` `c` times from slot `p` on; the result is the slot after (R167). -/
def placeSymbol {cap : Nat} (size step room s : Nat) : Nat → Nat → BuildSt cap → Run (BuildSt cap) Nat
  | 0, p, b => .ok p b
  | c + 1, p, b =>
    match nextSlot size step room size p with
    | none => .stop .fseEndless
    | some q => placeSymbol size step room s c q { b with ram := setSym b.ram p s }

/-- The spread of the symbols `s ..` (R167). -/
def spread {cap : Nat} (norm : Vector (BitVec 16) 256) (size step room : Nat) :
    Nat → Nat → Nat → BuildSt cap → Run (BuildSt cap) Nat
  | 0, _, p, b => .ok p b
  | n + 1, s, p, b =>
    (placeSymbol size step room s (normAt norm s).toNat p b).bind fun q b1 =>
      spread norm size step room n (s + 1) q b1

/-- Whether R169 gives rank `r` fields in a table of log `log`: it has a `highbit` (R10) and that is at most `log`. -/
def rankStated (log r : Nat) : Bool := decide (r ≠ 0 ∧ highbit r ≤ log)

/-- `NB` and `NS` of a slot of rank `r` (R169). For a rank it gives none (the preconditions of R167 rule such ranks out)
they are free values (DESIGN CHOICE, log 22). -/
def rankFields (log r draw : Nat) : BitVec 4 × BitVec 16 :=
  if rankStated log r then
    (BitVec.ofNat 4 (log - highbit r), BitVec.ofNat 16 (r * 2 ^ (log - highbit r) - 2 ^ log))
  else Config.openRankFields draw

/-- The per-slot fields of `n` slots from slot `i` on (R167, R169); a free value drawn advances the counter. -/
def slotFields {cap : Nat} (log : Nat) : Nat → Nat → BuildSt cap → BuildSt cap
  | 0, _, b => b
  | n + 1, i, b =>
    let e := ramGet b.ram i ⟨0, 0, 0⟩
    let s := e.sym.toNat
    let r := (ramGet b.next s 0).toNat
    let f := rankFields log r b.draws
    slotFields log n (i + 1)
      { ram := ramSet b.ram i ⟨e.sym, f.1, f.2⟩
        next := ramSet b.next s (BitVec.ofNat 16 (r + 1))
        draws := if rankStated log r then b.draws else b.draws + 1 }

/-- `FSE.BUILD(T, log, nsym)` (R167). -/
def fseBuild {cap : Nat} (log nsym : Nat) (u : TableUnit cap) : Run (TableUnit cap) Unit :=
  if cap < 2 ^ log then .stop .tableCapacity
  else
    let size := 2 ^ log
    let step := size / 2 + size / 8 + 3
    ((lowProb u.sc.norm nsym 0 size (⟨u.tab.ram, u.sc.next, u.draws⟩ : BuildSt cap)).bind fun room b1 =>
      (spread u.sc.norm size step room nsym 0 0 b1).bind fun p b2 =>
        if p ≠ 0 then .raise .fseSpread b2 else .ok () (slotFields log size 0 b2)).lift
      fun b => ⟨⟨BitVec.ofNat 4 log, b.ram⟩, ⟨u.sc.norm, b.next⟩, b.draws⟩

/-- `FSE.READTABLE` after its length test, with the log the description gives (R162). -/
def fseReadBody {cap : Nat} (rd : Nat → Byte) (start limit maxSymbol maxLog log : Nat) (u : TableUnit cap) :
    Run (TableUnit cap) Nat :=
  if maxLog < log then .raise .fseLog u
  else
    ((readNorm rd start limit maxSymbol log u.sc.norm).bind fun _ st => .ok (st.sym, ceilDiv st.pos 8) st).lift
      (fun st => { u with sc := { u.sc with norm := st.norm } }) |>.bind fun (nsym, used) v =>
        (fseBuild log nsym v).bind fun _ w => .ok used w

/-- `FSE.READTABLE` (R162): the number of bytes of the description. -/
def fseReadTable {cap : Nat} (rd : Nat → Byte) (start limit maxSymbol maxLog : Nat) (u : TableUnit cap) :
    Run (TableUnit cap) Nat :=
  if limit < start + 4 then .raise .truncated u
  else fseReadBody rd start limit maxSymbol maxLog (fwdBits rd start limit 0 4 + 5) u

/-- `FSE.RLE(T, v)` (R172). -/
def fseRle {cap : Nat} (v : Byte) (t : FseTable cap) : FseTable cap :=
  ⟨0, ramSet t.ram 0 ⟨v, 0, 0⟩⟩

/-! ## On the state -/

/-- Runs a table operation on a writable table and the builder scratch. -/
def State.runTable {α : Type} (s : State) (t : TableId)
    (f : (cap : Nat) → TableUnit cap → Run (TableUnit cap) α) : Run State α :=
  match t with
  | .llt => (f 512 ⟨s.llt, s.fse, s.draws⟩).lift fun u => { s with llt := u.tab, fse := u.sc, draws := u.draws }
  | .oft => (f 256 ⟨s.oft, s.fse, s.draws⟩).lift fun u => { s with oft := u.tab, fse := u.sc, draws := u.draws }
  | .mlt => (f 512 ⟨s.mlt, s.fse, s.draws⟩).lift fun u => { s with mlt := u.tab, fse := u.sc, draws := u.draws }
  | .hwt => (f 64 ⟨s.hwt, s.fse, s.draws⟩).lift fun u => { s with hwt := u.tab, fse := u.sc, draws := u.draws }

/-- A table left unspecified by a faulting FSE.READTABLE (R162; log 14). -/
def State.scrapTable (s : State) (t : TableId) : State :=
  match t with
  | .llt => { s with llt := Config.lltAfterFault s.draws, draws := s.draws + 1 }
  | .oft => { s with oft := Config.oftAfterFault s.draws, draws := s.draws + 1 }
  | .mlt => { s with mlt := Config.mltAfterFault s.draws, draws := s.draws + 1 }
  | .hwt => { s with hwt := Config.hwtAfterFault s.draws, draws := s.draws + 1 }

/-- A result whose fault leaves table `t` unspecified. -/
def Run.scrapOnFault {α : Type} (r : Run State α) (t : TableId) : Run State α :=
  r.onRaise fun s => s.scrapTable t

/-- `FSE.READTABLE(T, ..)` on the state (R162). -/
def State.fseReadTable (s : State) (t : TableId) (start limit maxSymbol maxLog : Nat) : Run State Nat :=
  (s.runTable t fun _ u => Machine.fseReadTable s.inByte start limit maxSymbol maxLog u).scrapOnFault t

/-- `FSE.RLE(T, v)` on the state (R172). -/
def State.fseRle (s : State) (t : TableId) (v : Byte) : State :=
  match t with
  | .llt => { s with llt := Machine.fseRle v s.llt }
  | .oft => { s with oft := Machine.fseRle v s.oft }
  | .mlt => { s with mlt := Machine.fseRle v s.mlt }
  | .hwt => { s with hwt := Machine.fseRle v s.hwt }

/-! ## The instructions -/

/-- FSE.READTABLE (R162): the length goes to the result register. -/
def execFseReadTable (t : TableId) (start limit : Addr) (maxSymbol : BitVec 8) (maxLogMinus5 : BitVec 3) (s : State) :
    Host.Outcome State Fault Refusal :=
  finishWith (s.fseReadTable t start.toNat limit.toNat maxSymbol.toNat (maxLogMinus5.toNat + 5))

/-- FSE.BUILD (R167). -/
def execFseBuild (t : TableId) (logMinus5 : BitVec 3) (nsymMinus1 : BitVec 8) (s : State) :
    Host.Outcome State Fault Refusal :=
  finish (s.runTable t fun _ u => fseBuild (logMinus5.toNat + 5) (nsymMinus1.toNat + 1) u)

/-- FSE.RLE (R172). -/
def execFseRle (t : TableId) (v : BitVec 8) (s : State) : Host.Outcome State Fault Refusal :=
  .next (s.fseRle t v)

/-- FSE.PREDEF (R175). -/
def execFsePredef (x : Alphabet) (s : State) : Host.Outcome State Fault Refusal :=
  .next (s.setSel x .predef)

end Sys2Proof.Machine
end

