-- ==== Sys2Proof/Machine/FseDecode.lean ====
section
/-! DEFINITION. The FSE decoder, FSE.DECOMPRESS (spec/42_fse_decode.md): two interleaved states over one reader, writing
Huffman weights. -/
namespace Sys2Proof.Machine

/-- The variables of FSE.DECOMPRESS (R191). -/
structure DecompSt where
  br : BitReader
  w  : Vector (BitVec 8) 256
  s1 : Nat
  s2 : Nat
  n  : Nat
  deriving DecidableEq, Repr, Inhabited

/-- Appends a weight. -/
def DecompSt.emit (d : DecompSt) (v : Byte) : DecompSt := { d with w := ramSet d.w d.n v, n := d.n + 1 }

/-- `Step1` of R191: a step of state 1 through the table entries `ent`. -/
def decompStep1 (ent : Nat → Option FseEntry) (d : DecompSt) : Run DecompSt Unit :=
  match ent d.s1 with
  | none => .stop .tableIndex
  | some e => .ok () { d.emit e.sym with s1 := (fseStep e d.br).2.1, br := (fseStep e d.br).2.2 }

/-- `Step2` of R191. -/
def decompStep2 (ent : Nat → Option FseEntry) (d : DecompSt) : Run DecompSt Unit :=
  match ent d.s2 with
  | none => .stop .tableIndex
  | some e => .ok () { d.emit e.sym with s2 := (fseStep e d.br).2.1, br := (fseStep e d.br).2.2 }

/-- The last pending symbol, that of state `i` (R191, R193). -/
def decompLast (ent : Nat → Option FseEntry) (i : Nat) (d : DecompSt) : Run DecompSt Unit :=
  match ent i with
  | none => .stop .tableIndex
  | some e => .ok () (d.emit e.sym)

/-- The fast path (R191, R192): four steps per refill while the last refill returned MORE and four places remain. -/
def decompFast (rd : Nat → Byte) (ent : Nat → Option FseEntry) (cap : Nat) :
    Nat → RefillStatus → DecompSt → Run DecompSt Unit
  | 0, _, d => .ok () d
  | f + 1, st, d =>
    if st = .more ∧ d.n + 4 ≤ cap then
      (decompStep1 ent d).bind fun _ d1 =>
      (decompStep2 ent d1).bind fun _ d2 =>
      (decompStep1 ent d2).bind fun _ d3 =>
      (decompStep2 ent d3).bind fun _ d4 =>
        let (st', b) := brRefill rd d4.br
        decompFast rd ent cap f st' { d4 with br := b }
    else .ok () d

/-- The tail loop (R191, R193). Each pass emits two symbols, so `cap` passes are enough. -/
def decompTail (rd : Nat → Byte) (ent : Nat → Option FseEntry) (cap : Nat) : Nat → DecompSt → Run DecompSt Unit
  | 0, d => .raise .fseOutput d
  | f + 1, d =>
    if cap < d.n + 2 then .raise .fseOutput d
    else
      (decompStep1 ent d).bind fun _ d1 =>
        let (st1, b1) := brRefill rd d1.br
        let d1' := { d1 with br := b1 }
        if st1 = .overflow then decompLast ent d1'.s2 d1'
        else if cap < d1'.n + 2 then .raise .fseOutput d1'
        else
          (decompStep2 ent d1').bind fun _ d2 =>
            let (st2, b2) := brRefill rd d2.br
            let d2' := { d2 with br := b2 }
            if st2 = .overflow then decompLast ent d2'.s1 d2' else decompTail rd ent cap f d2'

/-- The two initial states and the refills between them (R191): the status of the second refill and the variables. -/
def decompPrime (rd : Nat → Byte) (log : Nat) (b : BitReader) (w : Vector (BitVec 8) 256) : RefillStatus × DecompSt :=
  let (s1, b1) := readBits b log
  let (_, b2) := brRefill rd b1
  let (s2, b3) := readBits b2 log
  let (st, b4) := brRefill rd b3
  (st, ⟨b4, w, s1, s2, 0⟩)

/-- `FSE.DECOMPRESS` (R191) from an initialised reader: the number of symbols and the reader and weights after it. -/
def fseDecompress (rd : Nat → Byte) (ent : Nat → Option FseEntry) (log cap : Nat) (b : BitReader)
    (w : Vector (BitVec 8) 256) : Run DecompSt Nat :=
  let (st, d0) := decompPrime rd log b w
  (decompFast rd ent cap (cap + 1) st d0).bind fun _ d =>
    (decompTail rd ent cap (cap + 1) d).bind fun _ d' => .ok d'.n d'

/-- `FSE.DECOMPRESS(T, start, limit, cap)` on the state (R191). -/
def State.fseDecompress (s : State) (t : TableId) (start limit cap : Nat) : Run State Nat :=
  (s.brInit 0 start limit).bind fun _ s1 =>
    (Machine.fseDecompress s1.inByte (s1.tableEntry t) (s1.tableLog t) cap (s1.br.get 0) s1.huf.w).lift fun d =>
      { s1.setBr 0 d.br with huf := { s1.huf with w := d.w } }

/-- FSE.DECOMPRESS (R191): the number of symbols goes to the result register. -/
def execFseDecompress (t : TableId) (start limit : Addr) (cap : BitVec 8) (s : State) :
    Host.Outcome State Fault Refusal :=
  finishWith (s.fseDecompress t start.toNat limit.toNat cap.toNat)

end Sys2Proof.Machine
end

