-- ==== Sys2Proof/Machine/Huffman.lean ====
section
/-! DEFINITION. The Huffman unit (spec/43_huffman.md): tree descriptions, table construction, one-stream and four-stream
decoding into LIT. -/
namespace Sys2Proof.Machine

/-! ## HUF.BUILD (R204 to R206) -/

/-- The ranks and the total of the weights of `n` symbols from symbol `i` on (R204). -/
def countWeights : Nat → Nat → Nat → HufRegs → Run HufRegs Nat
  | 0, _, total, h => .ok total h
  | n + 1, i, total, h =>
    let w := (ramGet h.w i 0).toNat
    if Config.hufMaxLog < w then .raise .hufWeight h
    else countWeights n (i + 1) (if w = 0 then total else total + 2 ^ (w - 1))
      { h with rank := ramSet h.rank w (ramGet h.rank w 0 + 1) }

/-- `HUF.RSTART[w]` for `n` weights from `w` on (R204). -/
def rankStarts : Nat → Nat → Nat → HufRegs → HufRegs
  | 0, _, _, h => h
  | n + 1, w, nxt, h =>
    rankStarts n (w + 1) (nxt + (ramGet h.rank w 0).toNat * 2 ^ (w - 1))
      { h with rstart := ramSet h.rstart w (BitVec.ofNat 13 nxt) }

/-- The same entry in `n` slots from slot `i` on. -/
def fillSlots (e : HufEntry) : Nat → Nat → Vector HufEntry 4096 → Vector HufEntry 4096
  | 0, _, v => v
  | n + 1, i, v => fillSlots e n (i + 1) (ramSet v i e)

/-- The slots of `n` symbols from symbol `i` on (R204, R206). -/
def symbolSlots (log : Nat) : Nat → Nat → HufRegs → HufRegs
  | 0, _, h => h
  | n + 1, i, h =>
    let w := (ramGet h.w i 0).toNat
    if w = 0 then symbolSlots log n (i + 1) h
    else
      let len := 2 ^ (w - 1)
      let at0 := (ramGet h.rstart w 0).toNat
      symbolSlots log n (i + 1)
        { h with
          ram := fillSlots ⟨BitVec.ofNat 8 i, BitVec.ofNat 4 (log + 1 - w)⟩ len at0 h.ram
          rstart := ramSet h.rstart w (BitVec.ofNat 13 (at0 + len)) }

/-- The part of `HUF.BUILD(n)` after the weights are counted: the checks, the implied last symbol (R205) and the table. -/
def hufBuildFrom (n total : Nat) (h : HufRegs) : Run HufRegs Unit :=
  if total = 0 then .raise .hufTotal h
  else
    let log := highbit total + 1
    if Config.hufMaxLog < log then .raise .hufLog h
    else
      let rest := 2 ^ log - total
      if rest ≠ 2 ^ highbit rest then .raise .hufRest h
      else
        let last := highbit rest + 1
        let h1 := { h with
          w := ramSet h.w n (BitVec.ofNat 8 last)
          rank := ramSet h.rank last (ramGet h.rank last 0 + 1) }
        let r1 := (ramGet h1.rank 1 0).toNat
        if r1 < 2 ∨ r1 % 2 = 1 then .raise .hufRank1 h1
        else
          let h2 := symbolSlots log (n + 1) 0 (rankStarts log 1 0 h1)
          .ok () { h2 with log := BitVec.ofNat 4 log }

/-- `HUF.BUILD(n)` (R204). -/
def hufBuild (n : Nat) (h : HufRegs) : Run HufRegs Unit :=
  (countWeights n 0 0 { h with rank := Vector.replicate 13 0 }).bind fun total h1 => hufBuildFrom n total h1

/-- `HUF.BUILD(n)` on the state. -/
def State.hufBuild (s : State) (n : Nat) : Run State Unit :=
  (Machine.hufBuild n s.huf).lift fun h => { s with huf := h }

/-! ## HUF.READTABLE (R201 to R203, R207, R208) -/

/-- The direct weights of `m` bytes from byte `j` on, of `n` weights in all (R201, R103). -/
def directWeights (rd : Nat → Byte) (at0 n : Nat) : Nat → Nat → Vector (BitVec 8) 256 → Vector (BitVec 8) 256
  | 0, _, w => w
  | m + 1, j, w =>
    let v := (rd (at0 + j)).toNat
    let w1 := ramSet w (2 * j) (BitVec.ofNat 8 (v / 16))
    directWeights rd at0 n m (j + 1) (if 2 * j + 1 < n then ramSet w1 (2 * j + 1) (BitVec.ofNat 8 (v % 16)) else w1)

/-- The table is built from `n` weights and becomes usable (R201, R207); `used` is returned. -/
def hufInstall (n used : Nat) (s : State) : Run State Nat :=
  (s.hufBuild n).bind fun _ s1 => .ok used { s1 with huf := { s1.huf with loaded := true } }

/-- The direct form of a tree description with header byte `h` (R201, R202). -/
def hufDirect (h start size : Nat) (s : State) : Run State Nat :=
  let n := h - 127
  let nbytes := ceilDiv n 2
  if size < 1 + nbytes then .raise .truncated s
  else
    hufInstall n (1 + nbytes)
      { s with huf := { s.huf with w := directWeights s.inByte (start + 1) n nbytes 0 s.huf.w } }

/-- The FSE form of a tree description with header byte `h` (R201, R203). -/
def hufFse (h start size : Nat) (s : State) : Run State Nat :=
  if size < 1 + h then .raise .truncated s
  else
    let lim := start + 1 + h
    (s.fseReadTable .hwt (start + 1) lim Config.weightMaxSymbol Config.weightMaxLog).bind fun u s1 =>
      (s1.fseDecompress .hwt (start + 1 + u) lim 255).bind fun n s2 => hufInstall n (1 + h) s2

/-- The form the header byte selects (R102, R201). -/
def hufForm (h start size : Nat) (s : State) : Run State Nat :=
  if 128 ≤ h then hufDirect h start size s else hufFse h start size s

/-- The table is unusable while it is rebuilt (R208). -/
def hufUnload (s : State) : State := { s with huf := { s.huf with loaded := false } }

/-- `HUF.READTABLE(start, size)` (R201), whose rule keeps `[start, start + size)` inside IN; bytes past the space read as 0
(DESIGN CHOICE, unsafe; log 24). -/
def State.hufReadTable (s : State) (start size : Nat) : Run State Nat :=
  let s0 := hufUnload s
  if size < 1 then .raise .truncated s0 else hufForm (s0.inByte start).toNat start size s0

/-! ## Decoding (R210 to R212) -/

/-- `HufSym(k, o)` (R210): one symbol from a reader to LIT. -/
def hufSym (h : HufRegs) (o : Nat) (b : BitReader) (lit : Memory) : BitReader × Memory :=
  let e := ramGet h.ram (brPeekFast b h.log.toNat) ⟨0, 0⟩
  (brConsume b e.nb.toNat, lit.write o e.sym)

/-- `n` symbols with no refill, from output index `o` on (R211). -/
def hufPlain (h : HufRegs) : Nat → Nat → BitReader → Memory → BitReader × Memory
  | 0, _, b, lit => (b, lit)
  | n + 1, o, b, lit =>
    let (b1, lit1) := hufSym h o b lit
    hufPlain h n (o + 1) b1 lit1

/-- The first loop of `HufTail` (R211): a refill before each symbol until one does not return MORE; then the second loop. -/
def hufTailLoop (rd : Nat → Byte) (h : HufRegs) : Nat → Nat → BitReader → Memory → BitReader × Memory
  | 0, _, b, lit => (b, lit)
  | n + 1, o, b, lit =>
    let (st, b1) := brRefill rd b
    if st = .more then
      let (b2, lit1) := hufSym h o b1 lit
      hufTailLoop rd h n (o + 1) b2 lit1
    else hufPlain h (n + 1) o b1 lit

/-- `HufTail(k, o, e)` (R211) for `n = e - o` symbols, with its end test. -/
def hufTail (rd : Nat → Byte) (h : HufRegs) (n o : Nat) (b : BitReader) (lit : Memory) :
    Run (BitReader × Memory) Unit :=
  let r := hufTailLoop rd h n o b lit
  if r.1.cur = r.1.start ∧ r.1.consumed = 64 then .ok () r else .raise .hufStreamEnd r

/-- The unrolled path of HUF.DEC1 (R210): the next output index, the reader and LIT after it. -/
def dec1Unrolled (rd : Nat → Byte) (h : HufRegs) (n : Nat) : Nat → Nat → BitReader → Memory → Nat × BitReader × Memory
  | 0, o, b, lit => (o, b, lit)
  | f + 1, o, b, lit =>
    if o + 4 < n then
      let (st, b1) := brRefill rd b
      if st = .more then
        let (b2, lit2) := hufPlain h 4 o b1 lit
        dec1Unrolled rd h n f (o + 4) b2 lit2
      else (o, b1, lit)
    else (o, b, lit)

/-- The loops of HUF.DEC1 (R210) from an initialised reader. -/
def hufDec1 (rd : Nat → Byte) (h : HufRegs) (n : Nat) (b : BitReader) (lit : Memory) : Run (BitReader × Memory) Unit :=
  let (o, b1, lit1) := dec1Unrolled rd h n n 0 b lit
  hufTail rd h (n - o) o b1 lit1

/-- Where a Huffman decode of `n` symbols leaves what the rules define (log 12). -/
def hufDecStop (h : HufRegs) (n : Nat) : Option Fault :=
  if n = 0 then none
  else if h.log.toNat = 0 ∨ Config.hufMaxLog < h.log.toNat then some .hufLog
  else if Config.litSize < n then some .litAddress
  else none

/-- The bytes of LIT that a faulting decode had written are left unspecified (R214); every other byte keeps what was last
written (R375; log 14). -/
def State.scrapLit (s : State) (written : List (Nat × Nat)) : State :=
  { s with litbuf := s.litbuf.scrapRanges s.draws written, draws := s.draws + 1 }

/-- `HUF.DEC1(start, limit, n)` (R210). Its end test comes after all `n` bytes are written. -/
def State.hufDec1 (s : State) (start limit n : Nat) : Run State Unit :=
  (s.brInit 0 start limit).bind fun _ s1 =>
    match hufDecStop s1.huf n with
    | some f => .stop f
    | none =>
      ((Machine.hufDec1 s1.inByte s1.huf n (s1.br.get 0) s1.litbuf).lift fun r =>
        { s1.setBr 0 r.1 with litbuf := r.2 }).onRaise fun t => t.scrapLit [(0, n)]

/-- The four readers and LIT. -/
abbrev Dec4St := Vector BitReader 4 × Memory

/-- Four symbols of stream `k` from output index `o` on. -/
def dec4Four (h : HufRegs) (k : Fin 4) (o : Nat) (d : Dec4St) : Dec4St :=
  let r := hufPlain h 4 o (d.1.get k) d.2
  (d.1.set k r.1, r.2)

/-- Refills stream `k`; `st` says whether every refill of the pass so far returned MORE. -/
def dec4Refill (rd : Nat → Byte) (k : Fin 4) (d : Bool × Dec4St) : Bool × Dec4St :=
  let r := brRefill rd (d.2.1.get k)
  (d.1 && decide (r.1 = .more), (d.2.1.set k r.2, d.2.2))

/-- One pass of the interleaved path (R212): four symbols of each stream, then four refills. -/
def dec4Pass (rd : Nat → Byte) (h : HufRegs) (seg c : Nat) (d : Dec4St) : Bool × Dec4St :=
  let d4 := dec4Four h 3 (3 * seg + c) (dec4Four h 2 (2 * seg + c) (dec4Four h 1 (seg + c) (dec4Four h 0 c d)))
  dec4Refill rd 3 (dec4Refill rd 2 (dec4Refill rd 1 (dec4Refill rd 0 (true, d4))))

/-- The interleaved path (R212): how many symbols of each stream it decoded. -/
def dec4Unrolled (rd : Nat → Byte) (h : HufRegs) (n seg : Nat) : Nat → Nat → Dec4St → Nat × Dec4St
  | 0, c, d => (c, d)
  | f + 1, c, d =>
    if 3 * seg + c + 7 < n then
      let r := dec4Pass rd h seg c d
      if r.1 then dec4Unrolled rd h n seg f (c + 4) r.2 else (c + 4, r.2)
    else (c, d)

/-- The tail of stream `k` (R211, R212): `m` symbols from output index `o` on. -/
def dec4Tail (rd : Nat → Byte) (h : HufRegs) (k : Fin 4) (m o : Nat) (d : Dec4St) : Run Dec4St Unit :=
  (hufTail rd h m o (d.1.get k) d.2).lift fun r => (d.1.set k r.1, r.2)

/-- The ranges of LIT written when the tail of stream `k` raises (R212): the whole segments of the streams up to `k`, and the
first `c` symbols of the others, which the interleaved path decoded. -/
def dec4Written (n seg c k : Nat) : List (Nat × Nat) :=
  (List.range 4).map fun j => (j * seg, min n (if j ≤ k then (j + 1) * seg else j * seg + c))

/-- The loops of HUF.DEC4 (R212) from four initialised readers: a raise of a tail comes with the ranges of LIT written. -/
def hufDec4 (rd : Nat → Byte) (h : HufRegs) (n : Nat) (d : Dec4St) : Run (Dec4St × List (Nat × Nat)) Unit :=
  let seg := ceilDiv n 4
  let (c, d1) := dec4Unrolled rd h n seg n 0 d
  let tail (k : Fin 4) (m o : Nat) (d : Dec4St) := (dec4Tail rd h k m o d).lift fun d' => (d', dec4Written n seg c k)
  (tail 0 (seg - c) c d1).bind fun _ d2 =>
  (tail 1 (seg - c) (seg + c) d2.1).bind fun _ d3 =>
  (tail 2 (seg - c) (2 * seg + c) d3.1).bind fun _ d4 =>
  tail 3 (n - (3 * seg + c)) (3 * seg + c) d4.1

/-- HUF.DEC4 after its jump table is read (R212). -/
def State.hufDec4Streams (s : State) (start limit n len1 len2 len3 : Nat) : Run State Unit :=
  let s1 := start + 6
  let s2 := s1 + len1
  let s3 := s2 + len2
  let s4 := s3 + len3
  if limit < s4 then .raise .hufJump s
  else
    (s.brInit 0 s1 s2).bind fun _ t1 =>
    (t1.brInit 1 s2 s3).bind fun _ t2 =>
    (t2.brInit 2 s3 s4).bind fun _ t3 =>
    (t3.brInit 3 s4 limit).bind fun _ t4 =>
      match hufDecStop t4.huf n with
      | some f => .stop f
      | none =>
        match Machine.hufDec4 t4.inByte t4.huf n (t4.br, t4.litbuf) with
        | .ok _ r => .ok () { t4 with br := r.1.1, litbuf := r.1.2 }
        | .raise e r => .raise e ({ t4 with br := r.1.1, litbuf := r.1.2 }.scrapLit r.2)
        | .stop f => .stop f

/-- The tests of HUF.DEC4 before the jump table is used (R212). -/
def hufDec4Test (start limit n : Nat) : Option ErrCode :=
  if limit < start + 10 then some .hufJump
  else if n < 3 * ceilDiv n 4 then some .hufSegments
  else none

/-- `HUF.DEC4(start, limit, n)` (R212). -/
def State.hufDec4 (s : State) (start limit n : Nat) : Run State Unit :=
  match hufDec4Test start limit n with
  | some e => .raise e s
  | none =>
    s.hufDec4Streams start limit n (memRead s.inByte start 2) (memRead s.inByte (start + 2) 2)
      (memRead s.inByte (start + 4) 2)

/-! ## The instructions -/

/-- HUF.READTABLE (R201): the length goes to the result register. -/
def execHufReadTable (start : Addr) (size : BitVec 18) (s : State) : Host.Outcome State Fault Refusal :=
  finishWith (s.hufReadTable start.toNat size.toNat)

/-- HUF.BUILD (R204). -/
def execHufBuild (nMinus1 : BitVec 8) (s : State) : Host.Outcome State Fault Refusal :=
  finish (s.hufBuild (nMinus1.toNat + 1))

/-- HUF.DEC1 (R210). -/
def execHufDec1 (start limit : Addr) (n : BitVec 20) (s : State) : Host.Outcome State Fault Refusal :=
  finish (s.hufDec1 start.toNat limit.toNat n.toNat)

/-- HUF.DEC4 (R212). -/
def execHufDec4 (start limit : Addr) (n : BitVec 20) (s : State) : Host.Outcome State Fault Refusal :=
  finish (s.hufDec4 start.toNat limit.toNat n.toNat)

end Sys2Proof.Machine
end

