-- ==== Sys2Proof/Machine/Literals.lean ====
section
/-! DEFINITION. The literals section of a compressed block (spec/46_literals.md). -/
namespace Sys2Proof.Machine

/-! ## The header (R291 to R293) -/

/-- The header of LIT.SECTION (R291 to R293) with the fields of the instruction; `hs` is the header size. -/
def litHeader (typ fmt : BitVec 2) (hs : Nat) (regen : BitVec 20) (comp : BitVec 18) (single : Bool) (s : State) :
    Run State Unit :=
  if !s.need 1 s.blk.limit then .raise .truncated s
  else
    let s1 := { s with lit := { s.lit with typ := typ, fmt := fmt } }
    if !s1.need hs s1.blk.limit then .raise .truncated s1
    else
      let s2 := { s1 with lit := { s1.lit with regen := regen, comp := comp, single := single } }
      if Config.maxBlock < regen.toNat then .raise .blockTooLarge s2
      else if typ.toNat < 2 then .ok () (s2.advance hs)
      else if s2.blk.limit.toNat < s2.ip.toNat + hs + comp.toNat then .raise .truncated s2
      else if typ = 3 ∧ s2.huf.loaded = false then .raise .noHufTable s2
      else .ok () (s2.advance hs)

/-! ## The bodies (R294 to R296) -/

/-- Places the literals in LIT: `n` bytes from `src`, unread from address 0 on. R79 lets the section write the slack bytes
`[n, n + 8)` too and gives them no value; here they keep their old one (DESIGN CHOICE, unsafe; log 23). -/
def State.litFill (s : State) (src : Memory → Nat → Byte) (n : Nat) : State :=
  { s with
    litbuf := copyLoop src 0 n 0 s.litbuf
    lit := { s.lit with src := false, ptr := 0, limit := BitVec.ofNat 32 n } }

/-- LIT.RAW (R294). -/
def litRaw (s : State) : Run State Unit :=
  let n := s.lit.regen.toNat
  if !s.need n s.blk.limit then .raise .truncated s
  else
    let s1 :=
      if s.ip.toNat + (n + 8) ≤ s.blk.limit.toNat then
        { s with lit := { s.lit with src := true, ptr := s.ip, limit := s.ip + BitVec.ofNat 32 n } }
      else s.litFill (fun _ i => s.inByte (s.ip.toNat + i)) n
    .ok () { s1.advance n with sub := .seqn }

/-- LIT.RLE (R295). -/
def litRle (s : State) : Run State Unit :=
  if !s.need 1 s.blk.limit then .raise .truncated s
  else
    let v := s.inByte s.ip.toNat
    .ok () { (s.litFill (fun _ _ => v) s.lit.regen.toNat).advance 1 with sub := .seqn }

/-- The streams of LIT.HUF (R296), from the byte after the tree: HUF.DEC1 is issued, or the jump table is next. -/
def litStreams (s : State) : State :=
  if s.lit.single then { s with issue := [.hufDec1 s.ip s.litLim s.lit.regen], sub := .litEnd }
  else { s with sub := .jump }

/-- The end of LIT.HUF (R296). -/
def litEnd (s : State) : State :=
  { s with
    lit := { s.lit with src := false, ptr := 0, limit := BitVec.ofNat 32 s.lit.regen.toNat }
    ip := s.litLim
    sub := .seqn }

/-- The start of LIT.HUF (R296): `lim` is recorded; a tree comes first for `HUF`. -/
def litHuf (tree : Bool) (s : State) : State :=
  let s1 := { s with litLim := s.ip + BitVec.ofNat 32 s.lit.comp.toNat }
  if tree then { s1 with sub := .htree } else litStreams s1

/-- A raw literals section (R291, R292, R294). -/
def litRawSection (fmt : BitVec 2) (hs : Nat) (regen : BitVec 20) (s : State) : Host.Outcome State Fault Refusal :=
  finish ((litHeader 0 fmt hs regen 0 false s).bind fun _ s1 => litRaw s1)

/-- An RLE literals section (R291, R292, R295). -/
def litRleSection (fmt : BitVec 2) (hs : Nat) (regen : BitVec 20) (s : State) : Host.Outcome State Fault Refusal :=
  finish ((litHeader 1 fmt hs regen 0 false s).bind fun _ s1 => litRle s1)

/-- The start of a Huffman literals section with a tree (R291, R293, R296). -/
def litHufSection (fmt : BitVec 2) (hs : Nat) (regen : BitVec 20) (comp : BitVec 18) (s : State) :
    Host.Outcome State Fault Refusal :=
  finish ((litHeader 2 fmt hs regen comp (decide (fmt = 0)) s).bind fun _ s1 => .ok () (litHuf true s1))

/-- The start of a treeless literals section (R291, R293, R296). -/
def litRepSection (fmt : BitVec 2) (hs : Nat) (regen : BitVec 20) (comp : BitVec 18) (s : State) :
    Host.Outcome State Fault Refusal :=
  finish ((litHeader 3 fmt hs regen comp (decide (fmt = 0)) s).bind fun _ s1 => .ok () (litHuf false s1))

/-- `LIT.FMT` of a one-byte header, whose bit 3 is the low bit of the size (R99, R292). -/
def shortFmt (regen : BitVec 5) : BitVec 2 := BitVec.ofNat 2 (2 * (regen.toNat % 2))

/-! ## The instructions -/

/-- LIT_RAW_1 (R292, R294). -/
def execLitRaw1 (regen : BitVec 5) (s : State) : Host.Outcome State Fault Refusal :=
  litRawSection (shortFmt regen) 1 (regen.setWidth 20) s

/-- LIT_RAW_2 (R292, R294). -/
def execLitRaw2 (regen : BitVec 12) (s : State) : Host.Outcome State Fault Refusal :=
  litRawSection 1 2 (regen.setWidth 20) s

/-- LIT_RAW_3 (R292, R294). -/
def execLitRaw3 (regen : BitVec 20) (s : State) : Host.Outcome State Fault Refusal :=
  litRawSection 3 3 regen s

/-- LIT_RLE_1 (R292, R295). -/
def execLitRle1 (regen : BitVec 5) (s : State) : Host.Outcome State Fault Refusal :=
  litRleSection (shortFmt regen) 1 (regen.setWidth 20) s

/-- LIT_RLE_2 (R292, R295). -/
def execLitRle2 (regen : BitVec 12) (s : State) : Host.Outcome State Fault Refusal :=
  litRleSection 1 2 (regen.setWidth 20) s

/-- LIT_RLE_3 (R292, R295). -/
def execLitRle3 (regen : BitVec 20) (s : State) : Host.Outcome State Fault Refusal :=
  litRleSection 3 3 regen s

/-- LIT_HUF_S3 (R293, R296). -/
def execLitHufS3 (regen comp : BitVec 10) (s : State) : Host.Outcome State Fault Refusal :=
  litHufSection 0 3 (regen.setWidth 20) (comp.setWidth 18) s

/-- LIT_HUF_3 (R293, R296). -/
def execLitHuf3 (regen comp : BitVec 10) (s : State) : Host.Outcome State Fault Refusal :=
  litHufSection 1 3 (regen.setWidth 20) (comp.setWidth 18) s

/-- LIT_HUF_4 (R293, R296). -/
def execLitHuf4 (regen comp : BitVec 14) (s : State) : Host.Outcome State Fault Refusal :=
  litHufSection 2 4 (regen.setWidth 20) (comp.setWidth 18) s

/-- LIT_HUF_5 (R293, R296). -/
def execLitHuf5 (regen comp : BitVec 18) (s : State) : Host.Outcome State Fault Refusal :=
  litHufSection 3 5 (regen.setWidth 20) comp s

/-- LIT_REP_S3 (R293, R296). -/
def execLitRepS3 (regen comp : BitVec 10) (s : State) : Host.Outcome State Fault Refusal :=
  litRepSection 0 3 (regen.setWidth 20) (comp.setWidth 18) s

/-- LIT_REP_3 (R293, R296). -/
def execLitRep3 (regen comp : BitVec 10) (s : State) : Host.Outcome State Fault Refusal :=
  litRepSection 1 3 (regen.setWidth 20) (comp.setWidth 18) s

/-- LIT_REP_4 (R293, R296). -/
def execLitRep4 (regen comp : BitVec 14) (s : State) : Host.Outcome State Fault Refusal :=
  litRepSection 2 4 (regen.setWidth 20) (comp.setWidth 18) s

/-- LIT_REP_5 (R293, R296). -/
def execLitRep5 (regen comp : BitVec 18) (s : State) : Host.Outcome State Fault Refusal :=
  litRepSection 3 5 (regen.setWidth 20) comp s

/-- A tree description at IP with header byte `h` (R201, R296): its bytes are passed and the streams are next. -/
def htreeElement (h : Nat) (s : State) : Host.Outcome State Fault Refusal :=
  let s0 := hufUnload s
  if s0.lit.comp.toNat < 1 then raised .truncated s0
  else finish ((hufForm h s0.ip.toNat s0.lit.comp.toNat s0).bind fun used s1 => .ok () (litStreams (s1.advance used)))

/-- HTREE_DIRECT (R102, R202, R296). -/
def execHtreeDirect (low : BitVec 7) (s : State) : Host.Outcome State Fault Refusal :=
  htreeElement (128 + low.toNat) s

/-- HTREE_FSE (R102, R203, R296). -/
def execHtreeFse (len : BitVec 7) (s : State) : Host.Outcome State Fault Refusal :=
  htreeElement len.toNat s

/-- JUMP: the four streams are decoded and the literals section ends (R212, R296). -/
def execJump (len1 len2 len3 : BitVec 16) (s : State) : Host.Outcome State Fault Refusal :=
  match hufDec4Test s.ip.toNat s.litLim.toNat s.lit.regen.toNat with
  | some e => raised e s
  | none =>
    finish ((s.hufDec4Streams s.ip.toNat s.litLim.toNat s.lit.regen.toNat len1.toNat len2.toNat len3.toNat).bind
      fun _ s1 => .ok () (litEnd s1))

end Sys2Proof.Machine
end

