-- ==== Sys2Proof/Machine/Sequences.lean ====
section
/-! DEFINITION. The sequences section and the LZ77 sequence executor (spec/47_sequences.md). -/
namespace Sys2Proof.Machine

/-! ## Section header and tables (R310 to R317) -/

/-- The next transition of the sequence loop (R310): a sequence is decoded and executed, or the last literals are copied. -/
def seqLoop (s : State) : State :=
  if s.seq.count = 0 then { s with issue := [.seqLastlit], sub := .blkEnd }
  else { s with issue := [.seqDecode, .seqExec], sub := .seqCount }

/-- SeqCount (R311) for a header of `n` bytes; then the modes byte. -/
def seqHeader (n count : Nat) (s : State) : Host.Outcome State Fault Refusal :=
  if !s.need 1 s.blk.limit then raised .truncated s
  else if !s.need n s.blk.limit then raised .truncated s
  else .next { s.advance n with seq := { s.seq with count := BitVec.ofNat 17 count }, sub := .seqm }

/-- SEQN_0: no sequences; the last literals are copied and the block ends (R310, R311). -/
def execSeqn0 (s : State) : Host.Outcome State Fault Refusal :=
  if !s.need 1 s.blk.limit then raised .truncated s
  else
    .next { s.advance 1 with seq := { s.seq with count := 0 }, issue := [.seqLastlit], sub := .blkEnd }

/-- SEQN_1 (R311). -/
def execSeqn1 (count : BitVec 7) (s : State) : Host.Outcome State Fault Refusal :=
  seqHeader 1 count.toNat s

/-- SEQN_2 (R311). -/
def execSeqn2 (high : BitVec 7) (b1 : BitVec 8) (s : State) : Host.Outcome State Fault Refusal :=
  seqHeader 2 (seqCount2 high b1) s

/-- SEQN_3 (R311). -/
def execSeqn3 (b1 b2 : BitVec 8) (s : State) : Host.Outcome State Fault Refusal :=
  seqHeader 3 (seqCount3 b1 b2) s

/-- SEQM (R310, R312). -/
def execSeqm (llmode ofmode mlmode ign : BitVec 2) (s : State) : Host.Outcome State Fault Refusal :=
  if !s.need 1 s.blk.limit then raised .truncated s
  else
    .next { s.advance 1 with
      seq := { s.seq with modes := BitVec.ofNat 8 (Instr.word (.seqm llmode ofmode mlmode ign)) }
      sub := .mode .ll }

/-- The mode of an alphabet in `SEQ.MODES` (R109, R310). -/
def modeField (modes : Byte) : Alphabet → Nat
  | .ll => modes.toNat / 64 % 4
  | .of => modes.toNat / 16 % 4
  | .ml => modes.toNat / 4 % 4

/-- After the table of an alphabet (R310): the next alphabet, or the bit reader is initialised and the states primed. -/
def nextTable (x : Alphabet) (s : State) : State :=
  match x with
  | .ll => { s with sub := .mode .of }
  | .of => { s with sub := .mode .ml }
  | .ml => { s with issue := [.brInit 0 s.ip s.blk.limit], sub := .prime }

/-- MODE_PREDEF (R175, R314). -/
def execModePredef (x : Alphabet) (s : State) : Host.Outcome State Fault Refusal :=
  .next (nextTable x (s.setSel x .predef))

/-- MODE_RLE: the symbol byte is next (R314). -/
def execModeRle (x : Alphabet) (s : State) : Host.Outcome State Fault Refusal :=
  .next { s with sub := .rlesym x }

/-- MODE_FSE: the description is next (R314). -/
def execModeFse (x : Alphabet) (s : State) : Host.Outcome State Fault Refusal :=
  .next { s with sub := .fsedesc x }

/-- MODE_REPEAT: the selector and the table stay (R314). -/
def execModeRepeat (x : Alphabet) (s : State) : Host.Outcome State Fault Refusal :=
  if s.sel x = .none then raised .noPrevTable s else .next (nextTable x s)

/-- RLESYM: the single-symbol table (R172, R314). -/
def execRlesym (x : Alphabet) (v : BitVec 8) (s : State) : Host.Outcome State Fault Refusal :=
  if !s.need 1 s.blk.limit then raised .truncated s
  else if Config.maxSymbol x < v.toNat then raised .seqRleSymbol s
  else .next (nextTable x (((s.fseRle x.table v).setSel x .ram).advance 1))

/-- FSEDESC: the description at IP is read into the alphabet's table (R162, R314). The element's log is its head byte's. -/
def execFsedesc (x : Alphabet) (logMinus5 _high : BitVec 4) (s : State) : Host.Outcome State Fault Refusal :=
  let start := s.ip.toNat
  let limit := s.blk.limit.toNat
  finish
    (((s.runTable x.table fun _ u =>
        if limit < start + 4 then .raise .truncated u
        else
          fseReadBody s.inByte start limit (Config.maxSymbol x) (Config.maxLog x) (logMinus5.toNat + 5)
            u).scrapOnFault x.table).bind
      fun used s1 => .ok () (nextTable x ((s1.setSel x .ram).advance used)))

/-- Primes one state (R317): `log` bits from the reader. -/
def primeBits (s : State) (x : Alphabet) : Run State Nat :=
  match s.curLog x with
  | none => .stop .noCurrentTable
  | some log =>
    let (v, b) := readBits (s.br.get 0) log
    .ok v (s.setBr 0 b)

/-- The priming of the three states, in the order LL, OF, ML (R310, R317); then the loop. A table log above 9 (OF: 8), which
R35 excludes, primes a state wider than its register: it is taken modulo 2^9 (OF: 2^8) (DESIGN CHOICE, unsafe; log 29). -/
def seqPrime (s : State) : Run State Unit :=
  (primeBits s .ll).bind fun v s1 =>
  (primeBits { s1 with seq := { s1.seq with llState := BitVec.ofNat 9 v } } .of).bind fun v s2 =>
  (primeBits { s2 with seq := { s2.seq with ofState := BitVec.ofNat 8 v } } .ml).bind fun v s3 =>
  .ok () (seqLoop { s3 with seq := { s3.seq with mlState := BitVec.ofNat 9 v } })

/-- The end of one pass of the loop (R310), which R310 enters with a count above 0; from 0 the count would wrap (log 28). -/
def seqCounted (s : State) : State :=
  seqLoop { s with seq := { s.seq with count := s.seq.count - 1 } }

/-! ## Offset resolution (R322, R323) -/

/-- `REP[0] - 1` (R322). With REP[0] = 0, which R323 excludes, the rule gives it no value: a free value (DESIGN CHOICE,
log 25). -/
def belowFirst (r : RepRegs) : BitVec 32 := if r.r0 = 0 then Config.openDistance r else r.r0 - 1

/-- `SEQ.RESOLVE(oc, raw, ll0)`: the distance and the history after it. -/
def resolveOffset (oc raw : Nat) (ll0 : Bool) (r : RepRegs) : BitVec 32 × RepRegs :=
  if 2 ≤ oc then (BitVec.ofNat 32 raw, ⟨BitVec.ofNat 32 raw, r.r0, r.r1⟩)
  else
    match raw + (if ll0 then 1 else 0) with
    | 0 => (r.r0, r)
    | 1 =>
      let t := if r.r1 = 0 then 1 else r.r1
      (t, ⟨t, r.r0, r.r2⟩)
    | 2 =>
      let t := if r.r2 = 0 then 1 else r.r2
      (t, ⟨t, r.r0, r.r1⟩)
    | _ =>
      let t := if belowFirst r = 0 then 1 else belowFirst r
      (t, ⟨t, r.r0, r.r1⟩)

/-! ## Decoding one sequence (R320, R321, R324) -/

/-- The three current entries, when the states index their tables and the codes their alphabets (R320). -/
def seqEntries (s : State) : Except Fault (FseEntry × FseEntry × FseEntry) :=
  if s.llSel = .none ∨ s.ofSel = .none ∨ s.mlSel = .none then .error .noCurrentTable
  else
    match s.curEntry .ll s.seq.llState.toNat, s.curEntry .of s.seq.ofState.toNat, s.curEntry .ml s.seq.mlState.toNat with
    | some el, some eo, some em =>
      if el.sym.toNat ≤ Config.maxSymbol .ll ∧ eo.sym.toNat ≤ Config.maxSymbol .of ∧ em.sym.toNat ≤ Config.maxSymbol .ml then
        .ok (el, eo, em)
      else .error .codeIndex
    | _, _, _ => .error .tableIndex

/-- SEQ.DECODE after its opening refill, from the three current entries (R320). A next state (R324) wider than its register,
which R170 and R35 exclude, is taken modulo 2^9 (OF: 2^8) (DESIGN CHOICE, unsafe; log 29). -/
def seqDecodeFrom (el eo em : FseEntry) (s : State) : State :=
  let lc := el.sym.toNat
  let mc := em.sym.toNat
  let oc := eo.sym.toNat
  let (x1, b1) := readBits (s.br.get 0) oc
  let (off, rep) := resolveOffset oc (ofBase oc + x1) (decide (lc = 0)) s.rep
  let (x2, b2) := readBits b1 (mlBits mc)
  let (x3, b3) := readBits b2 (llBits lc)
  let b4 := if 31 < llBits lc + mlBits mc + oc then (brRefill s.inByte b3).2 else b3
  let (y1, b5) := readBits b4 el.nb.toNat
  let (y2, b6) := readBits b5 em.nb.toNat
  let (y3, b7) := readBits b6 eo.nb.toNat
  { s.setBr 0 b7 with
    rep := rep
    seq := { s.seq with
      off := off
      ml := BitVec.ofNat 18 (mlBase mc + x2)
      ll := BitVec.ofNat 17 (llBase lc + x3)
      llState := BitVec.ofNat 9 (el.ns.toNat + y1)
      mlState := BitVec.ofNat 9 (em.ns.toNat + y2)
      ofState := BitVec.ofNat 8 (eo.ns.toNat + y3) } }

/-- SEQ.DECODE on the state (R320). -/
def State.seqDecode (s : State) : Run State Unit :=
  let r := brRefill s.inByte (s.br.get 0)
  let s1 := s.setBr 0 r.2
  if r.1 = .overflow then .raise .seqStream s1
  else
    match seqEntries s1 with
    | .error f => .stop f
    | .ok (el, eo, em) => .ok () (seqDecodeFrom el eo em s1)

/-! ## Executing (R328, R330, R331, R334) -/

/-- The literal at address `a` of the space `LIT.SRC` selects, given OUT as it stands (R330). -/
def State.literalOver (s : State) (out : Memory) (a : Nat) : Byte :=
  if s.lit.src then s.inByteOver out a else s.litbuf.byte a

/-- Whether `n` literals from LIT.PTR on lie inside the space LIT.SRC selects (R60; log 12). -/
def State.literalsReadable (s : State) (n : Nat) : Bool :=
  s.lit.src || n = 0 || decide (s.lit.ptr.toNat + n ≤ Config.litSize)

/-- Copies `n` literals to OUT and moves LIT.PTR past them (R330, R334). -/
def State.copyLiterals (s : State) (n : Nat) : State :=
  let s1 := s.produce (fun out i => s.literalOver out (s.lit.ptr.toNat + i)) n
  { s1 with lit := { s1.lit with ptr := s1.lit.ptr + BitVec.ofNat 32 n } }

/-- Copies a match of `n` bytes at distance `d` to OUT, byte by byte in ascending order (R330, R331). -/
def State.copyMatch (s : State) (d n : Nat) : State :=
  s.produce (fun out i => out.byte (s.op.toNat + i - d)) n

/-- SEQ.EXEC on the state (R328, R330). -/
def State.seqExec (s : State) : Run State Unit :=
  let ll := s.seq.ll.toNat
  let ml := s.seq.ml.toNat
  let d := s.seq.off.toNat
  if s.lOutLimit.toNat < s.op.toNat + ll + ml then .raise .outputFull s
  else if s.lit.limit.toNat < s.lit.ptr.toNat + ll then .raise .literalsOverrun s
  else if s.op.toNat + ll < d + s.frameOutStart.toNat then .raise .offsetRange s
  else if !s.literalsReadable ll then .stop .litAddress
  else .ok () ((s.copyLiterals ll).copyMatch d ml)

/-- SEQ.LASTLIT on the state (R334). With LIT.PTR above LIT.END, which R328's second check excludes, `rest` would be negative:
it is taken as 0, so nothing is copied and LIT.PTR becomes LIT.END (DESIGN CHOICE, unsafe; log 28). -/
def State.seqLastlit (s : State) : Run State Unit :=
  let n := s.lit.limit.toNat - s.lit.ptr.toNat
  if !s.room n then .raise .outputFull s
  else if !s.literalsReadable n then .stop .litAddress
  else
    let s1 := s.copyLiterals n
    .ok () { s1 with lit := { s1.lit with ptr := s1.lit.limit } }

/-! ## The instructions -/

/-- SEQ.DECODE (R320). -/
def execSeqDecode (s : State) : Host.Outcome State Fault Refusal := finish s.seqDecode

/-- SEQ.RESOLVE (R322): the distance goes to the result register. -/
def execSeqResolve (oc : BitVec 5) (raw : BitVec 32) (ll0 : Bool) (s : State) : Host.Outcome State Fault Refusal :=
  let r := resolveOffset oc.toNat raw.toNat ll0 s.rep
  .next { s with rep := r.2, result := r.1.setWidth 64 }

/-- SEQ.EXEC (R330). -/
def execSeqExec (s : State) : Host.Outcome State Fault Refusal := finish s.seqExec

/-- SEQ.LASTLIT (R334). -/
def execSeqLastlit (s : State) : Host.Outcome State Fault Refusal := finish s.seqLastlit

end Sys2Proof.Machine
end

