-- ==== Sys2Proof/Machine/Dispatch.lean ====
section
/-! DEFINITION. The meaning of each instruction, one arm per constructor of `Instr`. -/
namespace Sys2Proof.Machine

def exec (i : Instr) (s : State) : Host.Outcome State Fault Refusal :=
  match i with
  | .magic => Sys2Proof.Machine.execMagic s
  | .magicLegacy => Sys2Proof.Machine.execMagicLegacy s
  | .fhd csel ss ign ck dsel => Sys2Proof.Machine.execFhd csel ss ign ck dsel s
  | .wd exp man => Sys2Proof.Machine.execWd exp man s
  | .did n value => Sys2Proof.Machine.execDid n value s
  | .fcs n value => Sys2Proof.Machine.execFcs n value s
  | .blkRaw last size => Sys2Proof.Machine.execBlkRaw last size s
  | .blkRle last size => Sys2Proof.Machine.execBlkRle last size s
  | .blkCmp last size => Sys2Proof.Machine.execBlkCmp last size s
  | .blkRsv last size => Sys2Proof.Machine.execBlkRsv last size s
  | .litRaw1 regen => Sys2Proof.Machine.execLitRaw1 regen s
  | .litRaw2 regen => Sys2Proof.Machine.execLitRaw2 regen s
  | .litRaw3 regen => Sys2Proof.Machine.execLitRaw3 regen s
  | .litRle1 regen => Sys2Proof.Machine.execLitRle1 regen s
  | .litRle2 regen => Sys2Proof.Machine.execLitRle2 regen s
  | .litRle3 regen => Sys2Proof.Machine.execLitRle3 regen s
  | .litHufS3 regen comp => Sys2Proof.Machine.execLitHufS3 regen comp s
  | .litHuf3 regen comp => Sys2Proof.Machine.execLitHuf3 regen comp s
  | .litHuf4 regen comp => Sys2Proof.Machine.execLitHuf4 regen comp s
  | .litHuf5 regen comp => Sys2Proof.Machine.execLitHuf5 regen comp s
  | .litRepS3 regen comp => Sys2Proof.Machine.execLitRepS3 regen comp s
  | .litRep3 regen comp => Sys2Proof.Machine.execLitRep3 regen comp s
  | .litRep4 regen comp => Sys2Proof.Machine.execLitRep4 regen comp s
  | .litRep5 regen comp => Sys2Proof.Machine.execLitRep5 regen comp s
  | .htreeDirect low => Sys2Proof.Machine.execHtreeDirect low s
  | .htreeFse len => Sys2Proof.Machine.execHtreeFse len s
  | .jump len1 len2 len3 => Sys2Proof.Machine.execJump len1 len2 len3 s
  | .seqn0 => Sys2Proof.Machine.execSeqn0 s
  | .seqn1 count => Sys2Proof.Machine.execSeqn1 count s
  | .seqn2 high b1 => Sys2Proof.Machine.execSeqn2 high b1 s
  | .seqn3 b1 b2 => Sys2Proof.Machine.execSeqn3 b1 b2 s
  | .seqm llmode ofmode mlmode ign => Sys2Proof.Machine.execSeqm llmode ofmode mlmode ign s
  | .modePredef x => Sys2Proof.Machine.execModePredef x s
  | .modeRle x => Sys2Proof.Machine.execModeRle x s
  | .modeFse x => Sys2Proof.Machine.execModeFse x s
  | .modeRepeat x => Sys2Proof.Machine.execModeRepeat x s
  | .rlesym x symbol => Sys2Proof.Machine.execRlesym x symbol s
  | .fsedesc x logMinus5 high => Sys2Proof.Machine.execFsedesc x logMinus5 high s
  | .checksum value => Sys2Proof.Machine.execChecksum value s
  | .brInit k start limit => Sys2Proof.Machine.execBrInit k start limit s
  | .brPeek k n => Sys2Proof.Machine.execBrPeek k n s
  | .brPeekFast k nMinus1 => Sys2Proof.Machine.execBrPeekFast k nMinus1 s
  | .brRefill k => Sys2Proof.Machine.execBrRefill k s
  | .fseReadTable t start limit maxSymbol maxLogMinus5 => Sys2Proof.Machine.execFseReadTable t start limit maxSymbol maxLogMinus5 s
  | .fseBuild t logMinus5 nsymMinus1 => Sys2Proof.Machine.execFseBuild t logMinus5 nsymMinus1 s
  | .fseRle t v => Sys2Proof.Machine.execFseRle t v s
  | .fsePredef x => Sys2Proof.Machine.execFsePredef x s
  | .fseDecompress t start limit cap => Sys2Proof.Machine.execFseDecompress t start limit cap s
  | .hufReadTable start size => Sys2Proof.Machine.execHufReadTable start size s
  | .hufBuild nMinus1 => Sys2Proof.Machine.execHufBuild nMinus1 s
  | .hufDec1 start limit n => Sys2Proof.Machine.execHufDec1 start limit n s
  | .hufDec4 start limit n => Sys2Proof.Machine.execHufDec4 start limit n s
  | .xxhHash a len => Sys2Proof.Machine.execXxhHash a len s
  | .seqDecode => Sys2Proof.Machine.execSeqDecode s
  | .seqResolve oc raw ll0 => Sys2Proof.Machine.execSeqResolve oc raw ll0 s
  | .seqExec => Sys2Proof.Machine.execSeqExec s
  | .seqLastlit => Sys2Proof.Machine.execSeqLastlit s
  | .cmdStart ign => Sys2Proof.Machine.execCmdStart ign s
  | .cmdReset start ign => Sys2Proof.Machine.execCmdReset start ign s

end Sys2Proof.Machine
end

