-- ==== Sys2Proof/Machine/Fetch.lean ====
section
/-! DEFINITION. What one step does around `exec`: which element the engine reads next and where its bytes lie
(spec/30_encoding.md R90, R91), the faults of an element that cannot be read, the transitions that read none, and the
accesses of the host (spec/10_state.md R22, spec/70_reset_and_hazards.md R410). -/
namespace Sys2Proof.Machine

/-! ## Which element is next (R90, R250, R255, R260, R291, R310) -/

/-- The position in the stream of the element the engine reads next; `none` when the next transition reads no element. -/
def State.nextCtx (s : State) : Option Ctx :=
  match s.phase with
  | .idle | .done | .fault => none
  | .magic => some .magic
  | .frameHeader =>
    match s.sub with
    | .wd => some .wd
    | .did => (didLen s.fhdByte).map .did
    | .fcs => (fcsLen s.fhdByte).map .fcs
    | _ => some .fhd
  | .blockHeader => some .blk
  | .checksum => some .checksum
  | .block =>
    match s.sub with
    | .htree => some .htree
    | .jump => some .jump
    | .seqn => some .seqn
    | .seqm => some .seqm
    | .mode x => some (.mode x)
    | .rlesym x => some (.rlesym x)
    | .fsedesc x => some (.fsedesc x)
    | .litEnd | .prime | .seqCount | .blkEnd => none
    | .start | .wd | .did | .fcs => some .lith

/-- Where the bytes of the next element begin: at IP (R24), or inside the frame header for its optional fields (R255). -/
def State.elementAddr (s : State) : Ctx → Nat
  | .wd => s.ip.toNat + 1
  | .did _ => s.ip.toNat + 1 + wdBytes s.fhdByte
  | .fcs _ => s.ip.toNat + 1 + wdBytes s.fhdByte + didBytes s.fhdByte
  | .magic | .fhd | .blk | .lith | .htree | .jump | .seqn | .seqm | .mode _ | .rlesym _ | .fsedesc _ | .checksum
  | .uop | .host => s.ip.toNat

/-- The limit below which the bytes of the next element lie: `IN_END`, `BLK.END`, or the limit of the unit operation that
reads it (R254 to R260, R291, R296, R310 to R314). -/
def State.elementLimit (s : State) : Ctx → Nat
  | .magic | .fhd | .wd | .did _ | .fcs _ | .blk | .checksum => s.lInEnd.toNat
  | .lith | .seqn | .seqm | .rlesym _ | .fsedesc _ => s.blk.limit.toNat
  | .htree => s.ip.toNat + s.lit.comp.toNat
  | .jump => s.litLim.toNat
  | .mode _ | .uop | .host => 0

/-- The bytes the decoder is given for the next element: those from its address on, below its limit, as many as the longest
element has. A mode is the two bits of `SEQ.MODES` (R109, R310). -/
def State.window (s : State) (c : Ctx) : List Byte :=
  match c with
  | .mode x => [BitVec.ofNat 8 (modeField s.seq.modes x)]
  | .magic | .fhd | .wd | .did _ | .fcs _ | .blk | .lith | .htree | .jump | .seqn | .seqm | .rlesym _ | .fsedesc _
  | .checksum | .uop | .host =>
    readBytes s.inByte (s.elementAddr c) (min longestBytes (s.elementLimit c - s.elementAddr c))

/-- The fault of an element that the decoder rejects. -/
def rejectCode (c : Ctx) (r : Reject) : ErrCode :=
  match c, r with
  | .magic, .badMagic => .badMagic
  | .jump, _ => .hufJump
  | _, _ => .truncated

/-- What the rule of an element that the decoder rejects has written before its `raise` (R360): the frame start (R253),
`LIT.TYPE` and `LIT.FMT` of a literals header of which one byte is there (R291), `HUF.LOADED` (R208). The table of a
description that is cut off is unspecified (R162; log 14). -/
def beforeReject (c : Ctx) (w : List Byte) (s : State) : State :=
  match c with
  | .magic => frameStart s
  | .lith =>
    match w with
    | [] => s
    | b :: _ => { s with lit := { s.lit with typ := field b.toNat 0 2, fmt := field b.toNat 2 2 } }
  | .htree => hufUnload s
  | .fsedesc x => s.scrapTable x.table
  | .fhd | .wd | .did _ | .fcs _ | .blk | .jump | .seqn | .seqm | .mode _ | .rlesym _ | .checksum | .uop | .host => s

/-- The engine reads an element and executes it, or takes the fault of one that cannot be read. -/
def elementStep (c : Ctx) (s : State) : Host.Outcome State Fault Refusal :=
  match decode c (s.window c) with
  | .ok (i, _) => exec i s
  | .error r => raised (rejectCode c r) (beforeReject c (s.window c) s)

/-! ## Transitions that read no element -/

/-- The end of a compressed block: IP at `BLK.END`, then R250 (R260, R310). -/
def sectionEnd (s : State) : State := blockEnd { s with ip := s.blk.limit }

/-- A transition that reads no element: the end of the literals (R296), the priming (R317), the count of the loop (R310),
the end of the block. An engine that is not BUSY does nothing (R401). -/
def innerStep (s : State) : Host.Outcome State Fault Refusal :=
  match s.phase with
  | .block =>
    match s.sub with
    | .litEnd => .next (litEnd s)
    | .prime => finish (seqPrime s)
    | .seqCount => .next (seqCounted s)
    | .blkEnd => .next (sectionEnd s)
    | .start | .wd | .did | .fcs | .htree | .jump | .seqn | .seqm | .mode _ | .rlesym _ | .fsedesc _ => .next s
  | .idle | .magic | .frameHeader | .blockHeader | .checksum | .done | .fault => .next s

/-- One step of the engine: the first unit operation issued, else the next element, else a transition. -/
def engineStep (s : State) : Host.Outcome State Fault Refusal :=
  match s.issue with
  | i :: r => exec i { s with issue := r }
  | [] =>
    match s.nextCtx with
    | some c => elementStep c s
    | none => innerStep s

/-! ## The host (R21, R22, R72, R410; log 9, log 11) -/

/-- A host write to a register while the engine is not BUSY (R21): CMD strobes a command, RW registers take the value, RO
registers ignore it. -/
def hostWrite (r : HostReg) (v : Word) (s : State) : Host.Outcome State Fault Refusal :=
  match r with
  | .cmd =>
    match decode .host (leBytes 4 v.toNat) with
    | .ok (i, _) => exec i s
    | .error _ => .next s
  | .inStart => .next { s with inStart := v }
  | .inEnd => .next { s with inEnd := v }
  | .outStart => .next { s with outStart := v }
  | .outLimit => .next { s with outLimit := v }
  | .cfg => .next { s with cfgEnforce := bit v.toNat 0 }
  | .status | .bytesWritten | .err | .errOffset => .next s

/-- A host read of a register (R21, R22): while BUSY only STATUS (U1). -/
def hostRead (r : HostReg) (s : State) : Host.Outcome State Fault Refusal :=
  if s.busy && decide (r ≠ .status) then .refused .hostReadBusy else .next { s with hostData := s.regValue r }

/-- A host access to a byte of IN or OUT: none while BUSY (R6, R72, R410, U2; log 11). -/
def hostBytes (s t : State) : Host.Outcome State Fault Refusal :=
  if s.busy then .refused .hostMemoryBusy else .next t

/-- One access of the host: while BUSY a register write is ignored and only STATUS can be read (R6, R22, R72, R410). -/
def hostAccess (h : HostAccess) (s : State) : Host.Outcome State Fault Refusal :=
  match h with
  | .regWrite r v => if s.busy then .next s else hostWrite r v s
  | .regRead r => hostRead r s
  | .inWrite a b => hostBytes s (s.putIn a.toNat b)
  | .outWrite a b => hostBytes s (s.putOut a.toNat b)
  | .inRead a => hostBytes s { s with hostData := (s.inByte a.toNat).setWidth 32 }
  | .outRead a => hostBytes s { s with hostData := (s.outByte a.toNat).setWidth 32 }

/-- One step of the machine: the host's access that is due, else one step of the engine, which brings the next access of the
host nearer (log 9). -/
def machineStep (s : State) : Host.Outcome State Fault Refusal :=
  match s.hostQueue with
  | [] => engineStep s
  | (0, h) :: q => hostAccess h { s with hostQueue := q }
  | (n + 1, h) :: q => engineStep { s with hostQueue := (n, h) :: q }

/-! ## Placing one word where the next step reads it (log 15) -/

/-- Writes bytes into IN from an address on. -/
def State.placeIn (s : State) (a : Nat) : List Byte → State
  | [] => s
  | b :: bs => (s.putIn a b).placeIn (a + 1) bs

/-- An input cursor with room for the longest element above it: IP, or 0 where IP is too near the top of IN. -/
def placeAddr (ip : Addr) : Addr := if ip.toNat + 16 < 2 ^ 32 then ip else 0

/-- The bytes of a word at IP, with every limit of an element above them. -/
def State.placeElement (s : State) (bs : List Byte) : State :=
  let a := placeAddr s.ip
  let e := a + 16
  { s.placeIn a.toNat bs with
    ip := a
    lInEnd := e
    blk := { s.blk with limit := e }
    litLim := e
    hostQueue := []
    issue := [] }

/-- A descriptor byte of a single-segment frame with a dictionary-ID field of the given length (R93, R94). -/
def didByte : DidLen → Byte
  | .one => 0x21
  | .two => 0x22
  | .four => 0x23

/-- A descriptor byte of a single-segment frame with a content-size field of the given length (R93, R95). -/
def fcsByte : FcsLen → Byte
  | .one => 0x20
  | .two => 0x60
  | .four => 0xA0
  | .eight => 0xE0

/-- The state in which the next step reads a word in position `c`; a mode stands in all three fields of `SEQ.MODES`. -/
def State.placeAt (s : State) (c : Ctx) (bs : List Byte) (w : Nat) : State :=
  let s1 := s.placeElement bs
  match c with
  | .magic => { s1 with phase := .magic, sub := .start }
  | .fhd => { s1 with phase := .frameHeader, sub := .start }
  | .wd => { s.placeElement (0 :: bs) with phase := .frameHeader, sub := .wd, fhdByte := 0 }
  | .did n => { s.placeElement (0 :: bs) with phase := .frameHeader, sub := .did, fhdByte := didByte n }
  | .fcs n => { s.placeElement (0 :: bs) with phase := .frameHeader, sub := .fcs, fhdByte := fcsByte n }
  | .blk => { s1 with phase := .blockHeader, sub := .start }
  | .lith => { s1 with phase := .block, sub := .start }
  | .htree => { s1 with phase := .block, sub := .htree, lit := { s1.lit with comp := 16 } }
  | .jump => { s1 with phase := .block, sub := .jump }
  | .seqn => { s1 with phase := .block, sub := .seqn }
  | .seqm => { s1 with phase := .block, sub := .seqm }
  | .mode x =>
    { s1 with
      phase := .block
      sub := .mode x
      seq := { s1.seq with modes := BitVec.ofNat 8 (w % 4 * 84) } }
  | .rlesym x => { s1 with phase := .block, sub := .rlesym x }
  | .fsedesc x => { s1 with phase := .block, sub := .fsedesc x }
  | .checksum => { s1 with phase := .checksum, sub := .start }
  | .uop =>
    match decode .uop bs with
    | .ok (i, _) => { s with hostQueue := [], issue := [i] }
    | .error _ => { s with hostQueue := [], issue := [] }
  | .host =>
    { s with
      hostQueue := [(0, .regWrite .cmd (BitVec.ofNat 32 w))]
      issue := []
      phase := if s.busy then .idle else s.phase }

end Sys2Proof.Machine
end

