-- ==== Sys2Proof/Machine/Step.lean ====
section
/-! DEFINITION. One step of the machine, and a state whose next step runs a given word. -/
namespace Sys2Proof.Machine

/-- One step: an access of the host, a unit operation the engine issued, a stream element, or a transition of the engine. -/
def step (s : State) : Host.Outcome State Fault Refusal := machineStep s

/-- The state whose next step runs the word `w` of the opcode table, in the position `tableCtx` gives it (log 6, log 15). -/
def State.withFetchWord (s : State) (nbits w : Nat) : State :=
  s.placeAt (tableCtx nbits (w % 2 ^ nbits)) (tableBytes nbits w) (w % 2 ^ nbits)

end Sys2Proof.Machine
end

