-- ==== Sys2Proof/Safety.lean ====
section
/-! DEFINITION. What a sound state of the machine is, and the conditions in whose terms claims say when an instruction
completes: regions, backward bitstreams as numbers (spec/40_bit_reader.md R148, spec/43_huffman.md R213), Huffman weights
(R204, R205), FSE counts and descriptions (spec/41_fse_table.md R162, R167, R170). -/
namespace Sys2Proof

/-- The position `T + 1` of a reader (R148). -/
def BitReader.position (b : BitReader) : Int := 8 * ((b.cur.toNat : Int) - b.start.toNat) + 64 - b.consumed.toNat

/-! ## Literals headers (R99, R100) -/

/-- The fields of a literals header. -/
structure LitForm where
  typ   : BitVec 2
  fmt   : BitVec 2
  size  : Nat
  regen : Nat
  comp  : Nat
  deriving DecidableEq, Repr, Inhabited

/-- The fields of each form of literals header, as R99 and R100 tabulate them. -/
def litForm : Instr → Option LitForm
  | .litRaw1 r => some ⟨0, BitVec.ofNat 2 (2 * (r.toNat % 2)), 1, r.toNat, 0⟩
  | .litRaw2 r => some ⟨0, 1, 2, r.toNat, 0⟩
  | .litRaw3 r => some ⟨0, 3, 3, r.toNat, 0⟩
  | .litRle1 r => some ⟨1, BitVec.ofNat 2 (2 * (r.toNat % 2)), 1, r.toNat, 0⟩
  | .litRle2 r => some ⟨1, 1, 2, r.toNat, 0⟩
  | .litRle3 r => some ⟨1, 3, 3, r.toNat, 0⟩
  | .litHufS3 r c => some ⟨2, 0, 3, r.toNat, c.toNat⟩
  | .litHuf3 r c => some ⟨2, 1, 3, r.toNat, c.toNat⟩
  | .litHuf4 r c => some ⟨2, 2, 4, r.toNat, c.toNat⟩
  | .litHuf5 r c => some ⟨2, 3, 5, r.toNat, c.toNat⟩
  | .litRepS3 r c => some ⟨3, 0, 3, r.toNat, c.toNat⟩
  | .litRep3 r c => some ⟨3, 1, 3, r.toNat, c.toNat⟩
  | .litRep4 r c => some ⟨3, 2, 4, r.toNat, c.toNat⟩
  | .litRep5 r c => some ⟨3, 3, 5, r.toNat, c.toNat⟩
  | .magic | .magicLegacy | .fhd _ _ _ _ _ | .wd _ _ | .did _ _ | .fcs _ _ => none
  | .blkRaw _ _ | .blkRle _ _ | .blkCmp _ _ | .blkRsv _ _ => none
  | .htreeDirect _ | .htreeFse _ | .jump _ _ _ => none
  | .seqn0 | .seqn1 _ | .seqn2 _ _ | .seqn3 _ _ | .seqm _ _ _ _ => none
  | .modePredef _ | .modeRle _ | .modeFse _ | .modeRepeat _ => none
  | .rlesym _ _ | .fsedesc _ _ _ | .checksum _ => none
  | .brInit _ _ _ | .brPeek _ _ | .brPeekFast _ _ | .brRefill _ => none
  | .fseReadTable _ _ _ _ _ | .fseBuild _ _ _ | .fseRle _ _ | .fsePredef _ | .fseDecompress _ _ _ _ => none
  | .hufReadTable _ _ | .hufBuild _ | .hufDec1 _ _ _ | .hufDec4 _ _ _ => none
  | .xxhHash _ _ | .seqDecode | .seqResolve _ _ _ | .seqExec | .seqLastlit => none
  | .cmdStart _ | .cmdReset _ _ => none

/-- LIT.* after a header (R292, R293). -/
def LitRegs.header (l : LitRegs) (f : LitForm) : LitRegs :=
  { l with
    typ := f.typ
    fmt := f.fmt
    regen := BitVec.ofNat 20 f.regen
    comp := BitVec.ofNat 18 f.comp
    single := decide (2 ≤ f.typ.toNat ∧ f.fmt = 0) }

end Sys2Proof

namespace Sys2Proof.Machine

/-! ## Sound states -/

/-- The three byte spaces are in canonical form and inside their sizes (R60). -/
abbrev State.memOk (s : State) : Prop :=
  s.inp.wf Config.space ∧ s.out.wf Config.space ∧ s.litbuf.wf Config.litSize

/-- The engine issues unit operations only (R14, R121). -/
abbrev State.issueOk (s : State) : Prop := ∀ i ∈ s.issue, i.isUnitOp = true

/-- Inside the frame header, the whole header lies in the input (R255). -/
abbrev State.headerOk (s : State) : Prop :=
  s.phase = .frameHeader → s.sub = .wd ∨ s.sub = .did ∨ s.sub = .fcs →
    s.ip.toNat + headerSize s.fhdByte ≤ s.lInEnd.toNat

/-- Inside a compressed block, IP, the end of the literals body and `BLK.END` nest (R61, R260, R296). -/
abbrev State.blockOk (s : State) : Prop :=
  s.phase = .block →
    s.ip.toNat ≤ s.blk.limit.toNat ∧ s.blk.limit.toNat ≤ s.lInEnd.toNat ∧
    (s.sub = .htree → s.ip.toNat + s.lit.comp.toNat = s.litLim.toNat) ∧
    (s.sub = .htree ∨ s.sub = .jump ∨ s.sub = .litEnd →
      s.ip.toNat ≤ s.litLim.toNat ∧ s.litLim.toNat ≤ s.blk.limit.toNat)

/-- While a command runs, both cursors lie in its regions and the frame's output start lies below OP (R24, R61). -/
abbrev State.cursorsOk (s : State) : Prop :=
  s.issueOk ∧
  (s.busy = true →
    s.lInStart.toNat ≤ s.ip.toNat ∧ s.ip.toNat ≤ s.lInEnd.toNat ∧
    s.lOutStart.toNat ≤ s.op.toNat ∧ s.op.toNat ≤ s.lOutLimit.toNat ∧
    (s.phase ≠ .magic → s.lOutStart.toNat ≤ s.frameOutStart.toNat ∧ s.frameOutStart.toNat ≤ s.op.toNat) ∧
    s.headerOk ∧ s.blockOk)

/-- `n` bytes of IN at `src` and `n` bytes of OUT at `dst` share no byte (R75; one physical memory: log 10). -/
abbrev State.apart (s : State) (src dst n : Nat) : Prop :=
  s.oneMemory = false ∨ src + n ≤ dst ∨ dst + n ≤ src

/-- `n` literals from LIT.PTR on can be copied to OUT at OP (R330, R334): in place they share no byte with the output; in
LIT they lie inside the buffer. -/
abbrev State.literalsOk (s : State) (n : Nat) : Prop :=
  (s.lit.src = true → s.apart s.lit.ptr.toNat s.op.toNat n) ∧
  (s.lit.src = false → s.lit.ptr.toNat + n ≤ Config.litSize)

/-- The literal `i` bytes after LIT.PTR (R330). -/
def State.literal (s : State) (i : Nat) : Byte :=
  if s.lit.src then s.inByte (s.lit.ptr.toNat + i) else s.litByte (s.lit.ptr.toNat + i)

/-- The machine run for a number of steps, stopping at the first fault or refusal. -/
def runSteps : Nat → State → Host.Outcome State Fault Refusal
  | 0, s => .next s
  | n + 1, s =>
    match step s with
    | .next t => runSteps n t
    | .fault f => .fault f
    | .refused r => .refused r

/-- The values R400 gives for hardware reset; what it leaves unspecified is not named. -/
abbrev State.atReset (t : State) : Prop :=
  t.phase = .idle ∧ t.cksumBad = false ∧ t.huf.loaded = false ∧
  t.inStart = 0 ∧ t.inEnd = 0 ∧ t.outStart = 0 ∧ t.outLimit = 0 ∧ t.cfgEnforce = true ∧
  t.bytesWritten = 0 ∧ t.errClass = 0 ∧ t.errCode = 0 ∧ t.errOffset = 0 ∧
  t.lInStart = 0 ∧ t.lInEnd = 0 ∧ t.lOutStart = 0 ∧ t.lOutLimit = 0 ∧ t.lEnforce = true ∧
  t.ip = 0 ∧ t.op = 0 ∧
  t.llSel = .none ∧ t.ofSel = .none ∧ t.mlSel = .none ∧
  t.fh = ⟨0, false, 0, false, 0, false, 0, false⟩ ∧ t.frameOutStart = 0 ∧ t.blk = ⟨false, 0, 0, 0⟩ ∧
  t.lit = ⟨0, 0, 0, 0, false, false, 0, 0⟩ ∧ t.seq = ⟨0, 0, 0, 0, 0, 0, 0, 0⟩

/-! ## The frame header (R255) -/

/-- `dlen` of R255. -/
def dlenOf (dsel : BitVec 2) : Nat := [0, 1, 2, 4].getD dsel.toNat 0

/-- `clen` of R255. -/
def clenOf (csel : BitVec 2) (ss : Bool) : Nat := [if ss then 1 else 0, 2, 4, 8].getD csel.toNat 0

/-- `hsize` of R255. -/
def hsizeOf (csel : BitVec 2) (ss : Bool) (dsel : BitVec 2) : Nat :=
  1 + (if ss then 0 else 1) + dlenOf dsel + clenOf csel ss

/-! ## Backward bitstreams as numbers (R148) -/

/-- The number `X` of a region (R148). -/
def streamNumber (rd : Nat → Byte) (start limit : Nat) : Nat := memRead rd start (limit - start)

/-- A region that BR.INIT accepts (R141): not empty, its last byte not 0. -/
abbrev streamOk (rd : Nat → Byte) (start limit : Nat) : Prop := start < limit ∧ rd (limit - 1) ≠ 0

/-- The payload bits of a region (R148): the bits below its end marker. -/
def streamBits (rd : Nat → Byte) (start limit : Nat) : Nat := highbit (streamNumber rd start limit)

/-- The `n` bits of `x` below bit `p`, most significant first, zeros below bit 0 (R148 d, e; `p` is `T + 1`). -/
def takeBits (x p n : Nat) : Nat :=
  if n ≤ p then x / 2 ^ (p - n) % 2 ^ n else x % 2 ^ p * 2 ^ (n - p)

/-- The container holds the eight bytes at CUR, or the whole of a region shorter than eight bytes (R147). -/
abbrev readerOk (rd : Nat → Byte) (start limit : Nat) (b : BitReader) : Prop :=
  b.start.toNat = start ∧ start ≤ b.cur.toNat ∧
  (if start + 8 ≤ limit then b.cur.toNat + 8 ≤ limit ∧ b.word.toNat = memRead rd b.cur.toNat 8
   else b.cur.toNat = start ∧ b.word.toNat = memRead rd start (limit - start))

/-! ## Huffman tables and streams (R204 to R206, R213) -/

/-- A table whose every slot of its log has a code of 1 to `LOG` bits (R38, R206). -/
abbrev hufTableOk (h : HufRegs) : Prop :=
  1 ≤ h.log.toNat ∧ h.log.toNat ≤ Config.hufMaxLog ∧
  ∀ i < 2 ^ h.log.toNat, 1 ≤ (ramGet h.ram i ⟨0, 0⟩).nb.toNat ∧ (ramGet h.ram i ⟨0, 0⟩).nb.toNat ≤ h.log.toNat

/-- The symbols of a stream (R213): `q` symbols from the `p` bits of `x` not yet taken; `none` unless they take all. -/
def hufSymbols (h : HufRegs) (x : Nat) : Nat → Nat → Option (List Byte)
  | 0, p => if p = 0 then some [] else none
  | q + 1, p =>
    let e := ramGet h.ram (takeBits x p h.log.toNat) ⟨0, 0⟩
    if e.nb.toNat ≤ p then (hufSymbols h x q (p - e.nb.toNat)).map (e.sym :: ·) else none

/-- The symbols of a region of IN (R213). -/
def regionSymbols (rd : Nat → Byte) (h : HufRegs) (start limit q : Nat) : Option (List Byte) :=
  hufSymbols h (streamNumber rd start limit) q (streamBits rd start limit)

/-- The start of stream `k` of the four-stream form (R107, R212); its end is the start of the next one. -/
def jumpStart (rd : Nat → Byte) (start limit : Nat) : Nat → Nat
  | 0 => start + 6
  | 1 => start + 6 + memRead rd start 2
  | 2 => start + 6 + memRead rd start 2 + memRead rd (start + 2) 2
  | 3 => start + 6 + memRead rd start 2 + memRead rd (start + 2) 2 + memRead rd (start + 4) 2
  | _ => limit

/-- What HUF.DEC4 asks of its region (R212): ten bytes, segments that fit, a jump table inside it, four streams with end
marks. -/
abbrev fourStreamsOk (rd : Nat → Byte) (start limit n : Nat) : Prop :=
  start + 10 ≤ limit ∧ 3 * ceilDiv n 4 ≤ n ∧ jumpStart rd start limit 3 ≤ limit ∧
  ∀ k < 4, streamOk rd (jumpStart rd start limit k) (jumpStart rd start limit (k + 1))

/-- Stream `k` is the first of the four that BR.INIT turns away, with fault `e` (R141, R212): the tests before it pass, the
streams before it have end marks, and its own region is empty or ends in a byte 0. -/
abbrev streamTurnedAway (rd : Nat → Byte) (start limit n k : Nat) (e : ErrCode) : Prop :=
  start + 10 ≤ limit ∧ 3 * ceilDiv n 4 ≤ n ∧ jumpStart rd start limit 3 ≤ limit ∧
  (∀ j < k, streamOk rd (jumpStart rd start limit j) (jumpStart rd start limit (j + 1))) ∧
  ((jumpStart rd start limit k = jumpStart rd start limit (k + 1) ∧ e = .bitstreamEmpty) ∨
    (jumpStart rd start limit k < jumpStart rd start limit (k + 1) ∧ rd (jumpStart rd start limit (k + 1) - 1) = 0 ∧
      e = .noEndMark))

/-- The symbols of the four segments in output order (R213). -/
def fourSymbols (rd : Nat → Byte) (h : HufRegs) (start limit n : Nat) : Option (List Byte) :=
  let seg := ceilDiv n 4
  let part (k q : Nat) := regionSymbols rd h (jumpStart rd start limit k) (jumpStart rd start limit (k + 1)) q
  match part 0 seg, part 1 seg, part 2 seg, part 3 (n - 3 * seg) with
  | some a, some b, some c, some d => some (a ++ b ++ c ++ d)
  | _, _, _, _ => none

/-- The first `n` weights of `HUF.W`. -/
def hufWeights (h : HufRegs) (n : Nat) : List Nat := (List.range n).map fun i => (ramGet h.w i 0).toNat

/-- The sum of `2^(w-1)` over the weights above 0 (R204, R205). -/
def weightTotal (w : List Nat) : Nat := (w.map fun x => if x = 0 then 0 else 2 ^ (x - 1)).sum

/-- `log` of R204. -/
def weightLog (w : List Nat) : Nat := highbit (weightTotal w) + 1

/-- `rest` of R204. -/
def weightRest (w : List Nat) : Nat := 2 ^ weightLog w - weightTotal w

/-- The weights with the implied last one (R205). -/
def allWeights (w : List Nat) : List Nat := w ++ [highbit (weightRest w) + 1]

/-- The check of HUF.BUILD that fails, if any, in the order of R204. -/
def weightFault (w : List Nat) : Option ErrCode :=
  if w.any (fun x => decide (Config.hufMaxLog < x)) then some .hufWeight
  else if weightTotal w = 0 then some .hufTotal
  else if Config.hufMaxLog < weightLog w then some .hufLog
  else if weightRest w ≠ 2 ^ highbit (weightRest w) then some .hufRest
  else if (allWeights w).count 1 < 2 ∨ (allWeights w).count 1 % 2 = 1 then some .hufRank1
  else none

/-- The first table slot of symbol `s` (R206): after the slots of the smaller weights and of the smaller symbols of its
weight. -/
def slotStart (ws : List Nat) (s : Nat) : Nat :=
  weightTotal (ws.filter fun x => decide (x < ws.getD s 0)) +
    (ws.take s).count (ws.getD s 0) * 2 ^ (ws.getD s 0 - 1)

/-- The table of `HUF.BUILD` on weights `ws` (R204 to R206): its log, and for every symbol, the implied last one too, its
contiguous slots with its code length. -/
abbrev hufBuiltFrom (h : HufRegs) (ws : List Nat) : Prop :=
  hufWeights h ws.length = ws ∧ h.log.toNat = weightLog ws ∧ hufTableOk h ∧
  ∀ sym, 1 ≤ (allWeights ws).getD sym 0 → ∀ j < 2 ^ ((allWeights ws).getD sym 0 - 1),
    ramGet h.ram (slotStart (allWeights ws) sym + j) ⟨0, 0⟩ =
      ⟨BitVec.ofNat 8 sym, BitVec.ofNat 4 (weightLog ws + 1 - (allWeights ws).getD sym 0)⟩

/-- The weights a direct tree description of header byte `h` at `start` holds (R103, R201). -/
def directWeightList (rd : Nat → Byte) (h start : Nat) : List Nat :=
  (List.range (h - 127)).map fun i =>
    let v := (rd (start + 1 + i / 2)).toNat
    if i % 2 = 0 then v / 16 else v % 16

/-! ## FSE tables (R162, R167, R170, R191) -/

/-- The preconditions of FSE.BUILD on the counts (R167). -/
abbrev countsOk (norm : Vector (BitVec 16) 256) (log nsym : Nat) : Prop :=
  (∀ s < nsym, -1 ≤ normAt norm s) ∧ ((List.range nsym).map fun s => (normAt norm s).natAbs).sum = 2 ^ log

/-- An entry that leads only to states of a table of log `log` (R170). -/
def entryClosed (log : Nat) : Option FseEntry → Bool
  | none => false
  | some e => decide (e.nb.toNat ≤ log ∧ e.ns.toNat + 2 ^ e.nb.toNat ≤ 2 ^ log)

/-- Every state of a table leads to states of the table (R170). -/
abbrev tableClosed (ent : Nat → Option FseEntry) (log : Nat) : Prop :=
  ∀ i < 2 ^ log, entryClosed log (ent i) = true

/-- The symbol of an entry, if there is one. -/
def entrySym (e : Option FseEntry) : Option Nat := e.map fun x => x.sym.toNat

/-- The rank of slot `i` when it holds symbol `sym` (R167, R169): the symbol's count, 1 for a count of -1, and one more for
each earlier slot that holds it. -/
def slotRank (norm : Vector (BitVec 16) 256) (ent : Nat → Option FseEntry) (i sym : Nat) : Nat :=
  (normAt norm sym).natAbs + (List.range i).countP fun j => decide (entrySym (ent j) = some sym)

/-- Every slot has the fields of its rank (R169). -/
abbrev slotsRanked (norm : Vector (BitVec 16) 256) (ent : Nat → Option FseEntry) (log : Nat) : Prop :=
  ∀ i < 2 ^ log, ∃ e : FseEntry, ent i = some e ∧
    e.nb.toNat = log - highbit (slotRank norm ent i e.sym.toNat) ∧
    2 ^ log + e.ns.toNat = slotRank norm ent i e.sym.toNat * 2 ^ e.nb.toNat

/-- Each symbol below `nsym` has as many slots as its count says, and no other has any (R167, R170). -/
abbrev slotsCounted (norm : Vector (BitVec 16) 256) (ent : Nat → Option FseEntry) (log nsym : Nat) : Prop :=
  ∀ sym, ((List.range (2 ^ log)).countP fun i => decide (entrySym (ent i) = some sym)) =
    if sym < nsym then (normAt norm sym).natAbs else 0

/-- The symbols of count -1, ascending: they take the high slots from the highest down (R167, R168). -/
def lowSymbols (norm : Vector (BitVec 16) 256) (nsym : Nat) : List Nat :=
  (List.range nsym).filter fun s => decide (normAt norm s = -1)

/-- The other symbols, ascending, each as often as its count says (R167). -/
def spreadSymbols (norm : Vector (BitVec 16) 256) (nsym : Nat) : List Nat :=
  (List.range nsym).flatMap fun s => List.replicate (normAt norm s).toNat s

/-- The slots below `room` in the order in which the walk `0, step, 2 * step, ..` visits them (R168). -/
def walkSlots (log room : Nat) : List Nat :=
  ((List.range (2 ^ log)).map fun k => k * (2 ^ log / 2 + 2 ^ log / 8 + 3) % 2 ^ log).filter fun p => decide (p < room)

/-- Every slot holds the symbol that the spread gives it (R167, R168). -/
abbrev slotsSpread (norm : Vector (BitVec 16) 256) (ent : Nat → Option FseEntry) (log nsym : Nat) : Prop :=
  let low := lowSymbols norm nsym
  let walk := walkSlots log (2 ^ log - low.length)
  (∀ k < low.length, entrySym (ent (2 ^ log - 1 - k)) = some (low.getD k 0)) ∧
  walk.length = 2 ^ log - low.length ∧
  ∀ k < walk.length, entrySym (ent (walk.getD k 0)) = some ((spreadSymbols norm nsym).getD k 0)

/-- The symbols of a stream decoded with two interleaved states (R190, R191, R193): state `a` emits and takes its bits from
the `p` bits of `x` not yet taken; when they are not all there the other state's symbol is the last. `none` when the symbols
number more than the first argument. -/
def fseSymbols (ent : Nat → Option FseEntry) (x : Nat) : Nat → Nat → Nat → Nat → Option (List Byte)
  | 0, _, _, _ => none
  | f + 1, p, a, b =>
    match ent a, ent b with
    | some ea, some eb =>
      if p < ea.nb.toNat then (if f = 0 then none else some [ea.sym, eb.sym])
      else
        (fseSymbols ent x f (p - ea.nb.toNat) b (ea.ns.toNat + takeBits x p ea.nb.toNat)).map (ea.sym :: ·)
    | _, _ => none

/-- The symbols of a region of IN through table `tb` (R191): the first bits are the two initial states. -/
def State.fseRegion (s : State) (tb : TableId) (start limit cap : Nat) : Option (List Byte) :=
  let x := streamNumber s.inByte start limit
  let m := streamBits s.inByte start limit
  let log := s.tableLog tb
  fseSymbols (s.tableEntry tb) x cap (m - 2 * log) (takeBits x m log) (takeBits x (m - log) log)

/-- Whether a piece of pseudocode completed. -/
def Run.isOk {σ α : Type} : Run σ α → Bool
  | .ok _ _ => true
  | .raise _ _ => false
  | .stop _ => false

/-- A description that R162 accepts: four bytes, a log within the limit, counts that end with `remaining = 1` inside the
region and name no symbol above the limit. -/
abbrev descriptionOk (rd : Nat → Byte) (start limit maxSymbol maxLog : Nat) (norm : Vector (BitVec 16) 256) : Prop :=
  start + 4 ≤ limit ∧ fwdBits rd start limit 0 4 + 5 ≤ maxLog ∧
  (readNorm rd start limit maxSymbol (fwdBits rd start limit 0 4 + 5) norm).isOk = true

/-- The bytes a description takes: `ceil(pos / 8)` (R162, R165). -/
def descriptionBytes (rd : Nat → Byte) (start limit maxSymbol : Nat) (norm : Vector (BitVec 16) 256) : Nat :=
  match readNorm rd start limit maxSymbol (fwdBits rd start limit 0 4 + 5) norm with
  | .ok _ st => ceilDiv st.pos 8
  | .raise _ _ => 0
  | .stop _ => 0

/-- The zero run of one pass (R164), where the previous count was 0: `k` 16-bit groups of ones add 24 each, `m` 2-bit groups of
value 3 add 3 each, a last 2-bit group adds its value `v`. A run that leads above the limit raises E_FSE_SYMBOL; else the counts
of its symbols become 0 and the pass goes on at the next symbol, after the run's bits. -/
abbrev zeroRunPass (rd : Nat → Byte) (start limit maxSymbol : Nat) : Prop :=
  ∀ (f k m v : Nat) (st : NormSt), 1 < st.remaining → st.sym ≤ maxSymbol → st.prev0 = true →
    (∀ j < k, fwdBits rd start limit (st.pos + 16 * j) 16 = 0xFFFF) →
    fwdBits rd start limit (st.pos + 16 * k) 16 ≠ 0xFFFF →
    (∀ j < m, fwdBits rd start limit (st.pos + 16 * k + 2 * j) 2 = 3) →
    fwdBits rd start limit (st.pos + 16 * k + 2 * m) 2 = v → v ≠ 3 →
    let n0 := st.sym + 24 * k + 3 * m + v
    (maxSymbol < n0 → ∃ u, normLoop rd start limit maxSymbol (f + 1) st = .raise .fseSymbol u) ∧
    (n0 ≤ maxSymbol → ∃ norm : Vector (BitVec 16) 256,
      normLoop rd start limit maxSymbol (f + 1) st = normLoop rd start limit maxSymbol (f + 1)
        { st with norm := norm, sym := n0, pos := st.pos + 16 * k + 2 * m + 2, prev0 := false } ∧
      ∀ i < 256, normAt norm i = if st.sym ≤ i ∧ i < n0 then 0 else normAt st.norm i)

/-- The count field of one pass (R162, R163), where no zero run comes first: a short field of `nbits - 1` bits below
`2 * threshold - 1 - remaining`, else a long one of `nbits` bits; the raw value less 1 is the count of the pass's symbol, what
remains falls by its size, and threshold and width shrink while what remains lies below the threshold. -/
abbrev countPass (rd : Nat → Byte) (start limit maxSymbol : Nat) : Prop :=
  ∀ (f : Nat) (st : NormSt), 1 < st.remaining → st.sym ≤ maxSymbol → maxSymbol ≤ 255 → st.prev0 = false →
    1 ≤ st.nbits → st.nbits ≤ 13 → st.threshold = 2 ^ (st.nbits - 1) →
    st.threshold ≤ st.remaining → st.remaining < 2 * st.threshold →
    let mx := 2 * st.threshold - 1 - st.remaining
    let short := fwdBits rd start limit st.pos (st.nbits - 1)
    let long := fwdBits rd start limit st.pos st.nbits
    let raw := if short < mx then short else if long < st.threshold then long else long - mx
    ∃ u : NormSt,
      normLoop rd start limit maxSymbol (f + 1) st = normLoop rd start limit maxSymbol f u ∧
      (∀ i < 256, normAt u.norm i = if i = st.sym then (raw : Int) - 1 else normAt st.norm i) ∧
      u.sym = st.sym + 1 ∧ u.pos = st.pos + (if short < mx then st.nbits - 1 else st.nbits) ∧
      u.remaining + ((raw : Int) - 1).natAbs = st.remaining ∧ 1 ≤ u.remaining ∧
      (u.prev0 = true ↔ raw = 1) ∧ 1 ≤ u.nbits ∧ u.nbits ≤ st.nbits ∧ u.threshold = 2 ^ (u.nbits - 1) ∧
      u.threshold ≤ u.remaining ∧ u.remaining < 2 * u.threshold

/-- The start and the end of the description loop (R162, R165). -/
abbrev loopEnds (rd : Nat → Byte) (start limit maxSymbol log : Nat) (norm : Vector (BitVec 16) 256) : Prop :=
  (∀ (f : Nat) (st : NormSt), st.remaining ≤ 1 ∨ maxSymbol < st.sym →
    normLoop rd start limit maxSymbol f st = .ok () st) ∧
  (let first : NormSt := ⟨norm, 2 ^ log + 1, 2 ^ log, log + 1, 0, 4, false⟩
   match normLoop rd start limit maxSymbol (maxSymbol + 1) first with
   | .ok _ st => readNorm rd start limit maxSymbol log norm =
      (if st.remaining = 1 ∧ st.pos ≤ 8 * (limit - start) then .ok () st else .raise .fseHeader st)
   | .raise e st => readNorm rd start limit maxSymbol log norm = .raise e st
   | .stop _ => False)

/-! ## Sequences (R320, R328) -/

/-- The three states index their tables and the codes their alphabets (R320, R315): the entries are `el`, `eo`, `em`. -/
abbrev State.seqCodes (s : State) (el eo em : FseEntry) : Prop :=
  s.curEntry .ll s.seq.llState.toNat = some el ∧ s.curEntry .of s.seq.ofState.toNat = some eo ∧
  s.curEntry .ml s.seq.mlState.toNat = some em ∧
  el.sym.toNat ≤ Config.maxSymbol .ll ∧ eo.sym.toNat ≤ Config.maxSymbol .of ∧ em.sym.toNat ≤ Config.maxSymbol .ml

/-- The three checks of R328 pass. -/
abbrev State.seqFits (s : State) : Prop :=
  s.op.toNat + s.seq.ll.toNat + s.seq.ml.toNat ≤ s.lOutLimit.toNat ∧
  s.lit.ptr.toNat + s.seq.ll.toNat ≤ s.lit.limit.toNat ∧
  s.seq.off.toNat + s.frameOutStart.toNat ≤ s.op.toNat + s.seq.ll.toNat

/-- The literals not yet copied, `LIT.END - LIT.PTR` (R334); 0 with LIT.PTR above LIT.END, which R328 excludes (DESIGN CHOICE;
log 28). -/
def State.restLiterals (s : State) : Nat := s.lit.limit.toNat - s.lit.ptr.toNat

end Sys2Proof.Machine
end

