-- ==== Sys2Proof/Certificates/Slice0/Obligations.lean ====
section
/-! DEFINITION. The statements about the model, each a proposition to be proved. -/

open Sys2Proof Sys2Proof.Machine

/-! ## Reset and the host -/

/-- Hardware reset (R400, R22): the machine after power-on, and CMD.RESET while not BUSY, leave every value R400 gives. What
R400 leaves unspecified is unconstrained here. -/
def Obligations.ResetLeavesGivenValues : Prop :=
  State.reset.atReset ∧
  ∀ (start : Bool) (ign : BitVec 30) (s : State), s.busy = false →
    ∃ t, exec (.cmdReset start ign) s = .next t ∧ t.atReset

/-- CMD.START while not BUSY, with ordered and disjoint regions, loads the latches and the cursors, clears the result
registers and enters P_MAGIC; nothing else changes but the model's own `sub` and `issue` (R251; log 19). -/
def Obligations.CmdStartLoadsCommand : Prop :=
  ∀ (ign : BitVec 30) (s : State), s.busy = false →
    s.inStart.toNat ≤ s.inEnd.toNat → s.outStart.toNat ≤ s.outLimit.toNat →
    (s.oneMemory = false ∨ s.inEnd.toNat ≤ s.outStart.toNat ∨ s.outLimit.toNat ≤ s.inStart.toNat) →
    exec (.cmdStart ign) s = .next { s with
      lInStart := s.inStart, lInEnd := s.inEnd, lOutStart := s.outStart, lOutLimit := s.outLimit
      lEnforce := s.cfgEnforce, ip := s.inStart, op := s.outStart, cksumBad := false
      errClass := 0, errCode := 0, errOffset := 0, bytesWritten := 0
      phase := .magic, sub := .start, issue := [] }

/-- CMD.START with reversed regions, or with regions that meet in one physical memory, is refused (U3, U4; the refusal is
the model's choice, log 10, log 11). -/
def Obligations.CmdStartRefusals : Prop :=
  ∀ (ign : BitVec 30) (s : State), s.busy = false →
    (s.inEnd.toNat < s.inStart.toNat ∨ s.outLimit.toNat < s.outStart.toNat →
      exec (.cmdStart ign) s = .refused .regionReversed) ∧
    (∀ a : Nat, s.oneMemory = true → s.inStart.toNat ≤ a → a < s.inEnd.toNat → s.outStart.toNat ≤ a →
      a < s.outLimit.toNat → exec (.cmdStart ign) s = .refused .regionsOverlap)

/-- While BUSY a host write is ignored, STATUS can be read and another register's read is refused; while not BUSY a write of
CMD runs START or RESET, and RESET wins (R22). -/
def Obligations.HostAccessRules : Prop :=
  (∀ (s : State), s.busy = true →
    (∀ r v, hostAccess (.regWrite r v) s = .next s) ∧
    hostAccess (.regRead .status) s = .next { s with hostData := s.status } ∧
    (∀ r, r ≠ .status → hostAccess (.regRead r) s = .refused .hostReadBusy) ∧
    (∀ ign, exec (.cmdStart ign) s = .next s) ∧ (∀ b ign, exec (.cmdReset b ign) s = .next s)) ∧
  (∀ (s : State) (v : Word), s.busy = false →
    (v.getLsbD 1 = true →
      hostAccess (.regWrite .cmd v) s = exec (.cmdReset (v.getLsbD 0) (v.extractLsb' 2 30)) s) ∧
    (v.getLsbD 1 = false → v.getLsbD 0 = true →
      hostAccess (.regWrite .cmd v) s = exec (.cmdStart (v.extractLsb' 2 30)) s) ∧
    (v.getLsbD 1 = false → v.getLsbD 0 = false → hostAccess (.regWrite .cmd v) s = .next s))

/-- The host register block while not BUSY (R21): a write of a register other than CMD changes no register but that one, RW
registers read back what was written (CFG its bit 0), RO registers ignore it, CMD reads 0, and STATUS, ERR and CFG have the
fields of the table. -/
def Obligations.HostRegistersReadBack : Prop :=
  (∀ (s : State) (r : HostReg) (v : Word), s.busy = false → r ≠ .cmd →
    ∃ t, hostAccess (.regWrite r v) s = .next t ∧
      t = { s with inStart := t.inStart, inEnd := t.inEnd, outStart := t.outStart, outLimit := t.outLimit,
                   cfgEnforce := t.cfgEnforce } ∧
      ∀ r',
        let back : Word :=
          match r with
          | .inStart | .inEnd | .outStart | .outLimit => v
          | .cfg => v &&& 1
          | .cmd | .status | .bytesWritten | .err | .errOffset => s.regValue r
        hostAccess (.regRead r') t = .next { t with hostData := if r' = r then back else s.regValue r' }) ∧
  (∀ s : State, s.regValue .cmd = 0 ∧
    (s.regValue .status).toNat =
      (match s.phase with
      | .idle => 0
      | .magic | .frameHeader | .blockHeader | .block | .checksum => 1
      | .done => 2
      | .fault => 3) + 4 * (if s.cksumBad then 1 else 0) + 8 * (if s.huf.loaded then 1 else 0) ∧
    (s.regValue .err).toNat = s.errClass.toNat + 256 * s.errCode.toNat ∧
    (s.regValue .cfg).toNat = (if s.cfgEnforce then 1 else 0))

/-- The host's bytes (R6, R72, R410): while BUSY it has no access to IN or OUT, refused here by name (log 11); while not BUSY a
write changes exactly the byte it names and a read returns it; CMD.RESET keeps every byte of IN and OUT and drops what was
issued. -/
def Obligations.HostBytesAccess : Prop :=
  ∀ (s : State) (a : Addr) (b : Byte), s.memOk →
    (s.busy = true →
      hostAccess (.inWrite a b) s = .refused .hostMemoryBusy ∧ hostAccess (.outWrite a b) s = .refused .hostMemoryBusy ∧
      hostAccess (.inRead a) s = .refused .hostMemoryBusy ∧ hostAccess (.outRead a) s = .refused .hostMemoryBusy) ∧
    (s.busy = false →
      (∃ t, hostAccess (.inWrite a b) s = .next t ∧
        t = { s with inp := t.inp, out := t.out } ∧
        (∀ x, t.inByte x = if x = a.toNat then b else s.inByte x) ∧
        (s.oneMemory = false → ∀ x, t.outByte x = s.outByte x)) ∧
      (∃ t, hostAccess (.outWrite a b) s = .next t ∧
        t = { s with out := t.out } ∧
        (∀ x, t.outByte x = if x = a.toNat then b else s.outByte x) ∧
        (s.oneMemory = false → ∀ x, t.inByte x = s.inByte x)) ∧
      hostAccess (.inRead a) s = .next { s with hostData := (s.inByte a.toNat).setWidth 32 } ∧
      hostAccess (.outRead a) s = .next { s with hostData := (s.outByte a.toNat).setWidth 32 } ∧
      (∀ start ign, ∃ t, exec (.cmdReset start ign) s = .next t ∧
        (∀ x, t.inByte x = s.inByte x ∧ t.outByte x = s.outByte x) ∧ t.issue = []))

/-! ## The step -/

/-- A step runs the decoded instruction: with no host access due and nothing issued, the element whose bytes the decoder
reads; else the first unit operation issued; a host access due runs its command; an access still to come only counts down;
an engine that is not BUSY stays as it is (R24, R90, R401; log 5, log 9). -/
def Obligations.StepRunsDecoded : Prop :=
  (∀ (s : State) c i rest, s.hostQueue = [] → s.issue = [] → s.nextCtx = some c →
    decode c (s.window c) = .ok (i, rest) → step s = exec i s) ∧
  (∀ (s : State) i r, s.hostQueue = [] → s.issue = i :: r → step s = exec i { s with issue := r }) ∧
  (∀ (s : State) v q i rest, s.hostQueue = (0, .regWrite .cmd v) :: q → s.busy = false →
    decode .host (leBytes 4 v.toNat) = .ok (i, rest) → step s = exec i { s with hostQueue := q }) ∧
  (∀ (s : State) n h q, s.hostQueue = (n + 1, h) :: q → step s = engineStep { s with hostQueue := (n, h) :: q }) ∧
  (∀ s : State, s.hostQueue = [] → s.issue = [] → s.busy = false → step s = .next s)

/-- A step runs the instruction whose encoding lies where the engine reads its next element: at IP, or inside the frame
header for its optional fields; a mode lies in `SEQ.MODES` (R24, R90, R91, R109). -/
def Obligations.StepRunsEncoded : Prop :=
  ∀ (s : State) (i : Instr), s.hostQueue = [] → s.issue = [] → WellFormed i → s.nextCtx = some (ctxOf i) →
    (match ctxOf i with
      | .mode x => modeField s.seq.modes x = i.word
      | c => readBytes s.inByte (s.elementAddr c) i.bytes = encode i ∧ s.elementAddr c + i.bytes ≤ s.elementLimit c) →
    step s = exec i s

/-- The word placed by `withFetchWord` is the one the next step runs (log 6, log 15). -/
def Obligations.FetchWordRuns : Prop :=
  ∀ (s : State) (nbits w : Nat) (i : Instr), s.memOk → decodeTableWord nbits w = some i →
    step (s.withFetchWord nbits w) = exec i { s.withFetchWord nbits w with issue := [], hostQueue := [] }

/-- An element that cannot be read takes its fault with the cursor at its first byte: E_BAD_MAGIC for four bytes that are no
magic, E_HUF_JUMP for a cut-off jump table, E_TRUNCATED otherwise; and twelve bytes are always read, except where they must
be a magic (R118, R254, R361, R363, R373). That the offset wraps with IP below IN_START, which R24 excludes, is the model's
choice (log 28). -/
def Obligations.ElementFaults : Prop :=
  (∀ (s : State) (c : Ctx) (r : Reject), s.hostQueue = [] → s.issue = [] → s.nextCtx = some c →
    decode c (s.window c) = .error r →
    ∃ t, step s = .next t ∧ t.phase = .fault ∧ t.ip = s.ip ∧ t.op = s.op ∧ t.errOffset = s.ip - s.lInStart ∧
      t.errClass = 1 ∧
      t.errCode = (if c = .magic ∧ 4 ≤ (s.window c).length then 2 else if c = .jump then 17 else 1)) ∧
  (∀ (c : Ctx) (bs : List Byte), c ≠ .magic → c ≠ .uop → c ≠ .host → (∀ x, c ≠ .mode x) → 12 ≤ bs.length →
    ∃ i rest, decode c bs = .ok (i, rest))

/-! ## Encoding -/

/-- Decoding an encoded well-formed instruction gives it back, whatever bytes follow. -/
def Obligations.DecodeOfEncode : Prop :=
  ∀ (i : Instr) (rest : List Byte), WellFormed i → decode (ctxOf i) (encode i ++ rest) = .ok (i, rest)

/-- Each byte string has at most one reading in a position: what the decoder reads is well-formed, belongs to the position,
and encodes back to the bytes it was read from. -/
def Obligations.EncodeOfDecode : Prop :=
  ∀ (c : Ctx) (bs : List Byte) (i : Instr) (rest : List Byte), decode c bs = .ok (i, rest) →
    WellFormed i ∧ ctxOf i = c ∧ encode i ++ rest = bs

/-- Words written out from the layouts of R92 to R112 and R121 decode to the instructions they stand for. -/
def Obligations.WrittenWordsDecode : Prop :=
  decode .magic [0x28, 0xB5, 0x2F, 0xFD] = .ok (.magic, []) ∧
  decode .fhd [0xA5] = .ok (.fhd 2 true 0 true 1, []) ∧
  decode .wd [0x69] = .ok (.wd 13 1, []) ∧
  decode .blk [0x0D, 0x00, 0x00, 0x00] = .ok (.blkCmp true 1, [0x00]) ∧
  decode .lith [0x8A, 0x38, 0xE1, 0x2E] = .ok (.litHuf4 5000 3000, []) ∧
  decode .seqn [0xFF, 0x01, 0x02] = .ok (.seqn3 1 2, []) ∧
  decode .seqm [0xA9] = .ok (.seqm 2 2 2 1, []) ∧
  decode (.fsedesc .ll) [0x53] = .ok (.fsedesc .ll 3 5, []) ∧
  decode .uop [0x50] = .ok (.seqDecode, []) ∧
  decode .host [0x02, 0x00, 0x00, 0x00] = .ok (.cmdReset false 0, [])

/-! ## Invariants and whole-machine rules -/

/-- The canonical form of the three byte spaces is kept by every step (R60). -/
def Obligations.MemoryFormKept : Prop :=
  ∀ s t : State, s.memOk → step s = .next t → t.memOk

/-- While a command runs both cursors stay in its regions, the frame's output start stays below OP, the limits of the
frame header, the block and the literals body nest, and only unit operations are issued (R24, R61). -/
def Obligations.CursorBoundsKept : Prop :=
  ∀ s t : State, s.cursorsOk → step s = .next t → t.cursorsOk

/-- Both invariants hold after reset. -/
def Obligations.InvariantsAtReset : Prop := State.reset.memOk ∧ State.reset.cursorsOk

/-- While a command runs no step, be it the engine's or an access of the host, changes a byte of OUT outside the output region
or a byte of IN (in one physical memory: of IN outside the output region); and no access of the host changes a byte of IN or
OUT (R6, R61, R72, R79, R410). -/
def Obligations.RegionsKept : Prop :=
  (∀ s t : State, s.cursorsOk → s.busy = true → step s = .next t →
    (∀ a, a < s.lOutStart.toNat ∨ s.lOutLimit.toNat ≤ a → t.outByte a = s.outByte a) ∧
    (∀ a, s.oneMemory = false ∨ a < s.lOutStart.toNat ∨ s.lOutLimit.toNat ≤ a → t.inByte a = s.inByte a)) ∧
  (∀ (s t : State) (h : HostAccess), s.busy = true → hostAccess h s = .next t →
    ∀ a, t.inByte a = s.inByte a ∧ t.outByte a = s.outByte a)

/-- While a command runs the cursors IP and OP never move back (R24). -/
def Obligations.CursorsMoveForward : Prop :=
  ∀ s t : State, s.cursorsOk → s.busy = true → step s = .next t →
    s.ip.toNat ≤ t.ip.toNat ∧ s.op.toNat ≤ t.op.toNat

/-- While a command runs no step changes the command latches or the host's region and configuration registers (R22, R26). -/
def Obligations.LatchesConstant : Prop :=
  ∀ s t : State, s.busy = true → step s = .next t →
    t.lInStart = s.lInStart ∧ t.lInEnd = s.lInEnd ∧ t.lOutStart = s.lOutStart ∧ t.lOutLimit = s.lOutLimit ∧
    t.lEnforce = s.lEnforce ∧ t.inStart = s.inStart ∧ t.inEnd = s.inEnd ∧ t.outStart = s.outStart ∧
    t.outLimit = s.outLimit ∧ t.cfgEnforce = s.cfgEnforce

/-- The transitions of PHASE while a command runs (R250; the model may stay in a phase for several steps and takes a raw or
RLE block in one). A command that ends DONE reports the bytes produced (R252); one that ends FAULT reports a code and a
class that are not 0 (R361). That the two differences wrap with a cursor below its region, which R24 excludes, is the model's
choice (log 28). -/
def Obligations.PhaseTransitions : Prop :=
  ∀ s t : State, s.issueOk → s.busy = true → step s = .next t →
    (match s.phase with
      | .magic => t.phase = .magic ∨ t.phase = .frameHeader ∨ t.phase = .fault
      | .frameHeader => t.phase = .frameHeader ∨ t.phase = .blockHeader ∨ t.phase = .fault
      | .blockHeader => t.phase ≠ .idle ∧ t.phase ≠ .frameHeader
      | .block => t.phase ≠ .idle ∧ t.phase ≠ .frameHeader
      | .checksum => t.phase = .checksum ∨ t.phase = .magic ∨ t.phase = .done ∨ t.phase = .fault
      | .idle | .done | .fault => False) ∧
    (t.phase = .done → t.bytesWritten = t.op - t.lOutStart) ∧
    (t.phase = .fault → t.errCode ≠ 0 ∧ t.errClass ≠ 0 ∧ t.errOffset = t.ip - t.lInStart)

/-- HUF.LOADED is changed by no step but one that runs HUF.READTABLE, reads a tree description (one that is cut off too), or is
the host's CMD.RESET; a tree description and HUF.READTABLE leave it set exactly when they complete, and CMD.RESET clears it
(R40, R207, R208, R400). No other instruction changes it. -/
def Obligations.LoadedOnlyByTables : Prop :=
  (∀ s t : State, s.issueOk → step s = .next t → t.huf.loaded ≠ s.huf.loaded →
    (∃ v q, s.hostQueue = (0, .regWrite .cmd v) :: q ∧ s.busy = false ∧ v.getLsbD 1 = true ∧ t.huf.loaded = false) ∨
    ((∀ h q, s.hostQueue ≠ (0, h) :: q) ∧
      ((∃ a n r, s.issue = .hufReadTable a n :: r) ∨ (s.issue = [] ∧ s.nextCtx = some .htree)))) ∧
  (∀ s t : State, (∀ h q, s.hostQueue ≠ (0, h) :: q) → s.issue = [] → s.nextCtx = some .htree → step s = .next t →
    (t.huf.loaded = true ↔ t.phase ≠ .fault)) ∧
  (∀ (i : Instr) (s t : State), exec i s = .next t → t.huf.loaded ≠ s.huf.loaded →
    (match i with
      | .hufReadTable _ _ | .htreeDirect _ | .htreeFse _ | .cmdReset _ _ => True
      | _ => False)) ∧
  (∀ (start : Addr) (size : BitVec 18) (s t : State), s.phase ≠ .fault → exec (.hufReadTable start size) s = .next t →
    (t.huf.loaded = true ↔ t.phase ≠ .fault)) ∧
  (∀ (b : Bool) (ign : BitVec 30) (s t : State), s.busy = false → exec (.cmdReset b ign) s = .next t →
    t.huf.loaded = false)

/-- What each unit operation leaves unchanged when it completes (R24, R79, and the state-written lists of R141 to R144, R167,
R172, R175, R191, R200, R230, R320, R330, R334). `draws`, the model's own counter of free values, may advance where a table is
built (log 22). -/
def Obligations.UnitOperationFrames : Prop :=
  ∀ (i : Instr) (s t : State), i.isUnitOp = true → exec i s = .next t → s.phase ≠ .fault → t.phase ≠ .fault →
    t = { s with
      op := t.op, lit := t.lit, out := t.out, litbuf := t.litbuf, seq := t.seq, rep := t.rep
      llSel := t.llSel, ofSel := t.ofSel, mlSel := t.mlSel, br := t.br, llt := t.llt, oft := t.oft, mlt := t.mlt
      hwt := t.hwt, fse := t.fse, huf := t.huf, xxh := t.xxh, result := t.result, draws := t.draws } ∧
    (i ≠ .seqExec → i ≠ .seqLastlit → t.op = s.op ∧ t.lit = s.lit ∧ ∀ a, t.outByte a = s.outByte a) ∧
    (∀ a, (∀ x y n, i ≠ .hufDec1 x y n) → (∀ x y n, i ≠ .hufDec4 x y n) → t.litByte a = s.litByte a) ∧
    (i ≠ .seqDecode → t.seq = s.seq) ∧
    (i ≠ .seqDecode → (∀ a b c, i ≠ .seqResolve a b c) → t.rep = s.rep) ∧
    ((∀ x, i ≠ .fsePredef x) → t.llSel = s.llSel ∧ t.ofSel = s.ofSel ∧ t.mlSel = s.mlSel) ∧
    ((∀ a n, i ≠ .xxhHash a n) → t.xxh = s.xxh) ∧
    (match i with
      | .fseReadTable _ _ _ _ _ | .fseBuild _ _ _ | .hufReadTable _ _ => True
      | _ => t.draws = s.draws) ∧
    (match i with
      | .brInit _ _ _ | .brRefill _ | .fseDecompress _ _ _ _ | .hufReadTable _ _ | .hufDec1 _ _ _ | .hufDec4 _ _ _
      | .seqDecode => True
      | _ => t.br = s.br) ∧
    (match i with
      | .fseReadTable _ _ _ _ _ | .fseBuild _ _ _ | .fseRle _ _ => t.huf = s.huf
      | .hufReadTable _ _ => t.llt = s.llt ∧ t.oft = s.oft ∧ t.mlt = s.mlt
      | .fseDecompress _ _ _ _ | .hufBuild _ =>
        t.llt = s.llt ∧ t.oft = s.oft ∧ t.mlt = s.mlt ∧ t.hwt = s.hwt ∧ t.fse = s.fse ∧ t.huf.loaded = s.huf.loaded
      | _ => t.llt = s.llt ∧ t.oft = s.oft ∧ t.mlt = s.mlt ∧ t.hwt = s.hwt ∧ t.fse = s.fse ∧ t.huf = s.huf)

/-- Every REP value is at least 1 from the frame start on (R323). -/
def Obligations.HistoryPositive : Prop :=
  ∀ s t : State, s.issueOk → (∀ i ∈ s.issue, WellFormed i) →
    (s.busy = true → s.phase ≠ .magic → 1 ≤ s.rep.r0.toNat ∧ 1 ≤ s.rep.r1.toNat ∧ 1 ≤ s.rep.r2.toNat) →
    step s = .next t →
    (t.busy = true → t.phase ≠ .magic → 1 ≤ t.rep.r0.toNat ∧ 1 ≤ t.rep.r1.toNat ∧ 1 ≤ t.rep.r2.toNat)

/-! ## Faults -/

/-- Fault entry (R372): the class, the code and the offset are written and the phase becomes P_FAULT; nothing else changes
but the model's own fields (log 19) and the bytes of the output region, which R374 leaves unspecified (log 4). That the offset
wraps with IP below IN_START, which R24 excludes, is the model's choice (log 28). ERR then reads as `CODE * 256 + CLASS`. The codes and classes of the thirty faults are those of R361. -/
def Obligations.FaultEntryRecords : Prop :=
  (∀ (e : ErrCode) (s : State), ∃ t,
    raised e s = .next t ∧
    t = { s with
      errClass := e.cls, errCode := e.code, errOffset := s.ip - s.lInStart, phase := .fault
      sub := .start, issue := [], out := t.out, draws := t.draws } ∧
    (∀ a, a < s.lOutStart.toNat ∨ s.lOutLimit.toNat ≤ a → t.outByte a = s.outByte a) ∧
    t.busy = false ∧ t.regValue .bytesWritten = s.bytesWritten ∧
    (t.regValue .err).toNat = e.code.toNat * 256 + e.cls.toNat) ∧
  [ErrCode.truncated, .badMagic, .blockType, .bitstreamEmpty, .noEndMark, .fseLog, .fseSymbol, .fseHeader, .fseSpread,
    .fseOutput, .hufWeight, .hufTotal, .hufLog, .hufRest, .hufRank1].map (fun e => (e.code.toNat, e.cls.toNat)) =
    [(1, 1), (2, 1), (3, 1), (4, 1), (5, 1), (6, 1), (7, 1), (8, 1), (9, 1), (10, 1), (11, 1), (12, 1), (13, 1), (14, 1),
      (15, 1)] ∧
  [ErrCode.hufStreamEnd, .hufJump, .hufSegments, .noHufTable, .seqRleSymbol, .noPrevTable, .seqStream, .literalsOverrun,
    .offsetRange, .checksum, .outputFull, .blockTooLarge, .legacyMagic, .dictionary, .window].map
      (fun e => (e.code.toNat, e.cls.toNat)) =
    [(16, 1), (17, 1), (18, 1), (19, 1), (20, 1), (21, 1), (22, 1), (23, 1), (24, 1), (25, 1), (32, 2), (33, 2), (48, 3),
      (49, 3), (50, 3)] ∧
  ∀ e f : ErrCode, e.code = f.code → e = f

/-! ## Frame and block elements -/

/-- MAGIC with four bytes in the input starts a frame (R253) and passes the magic; MAGIC_LEGACY starts a frame and takes
E_LEGACY_MAGIC; with fewer bytes both take E_TRUNCATED. -/
def Obligations.MagicStartsFrame : Prop :=
  ∀ s : State,
    let f := { s with rep := ⟨1, 4, 8⟩, llSel := .none, ofSel := .none, mlSel := .none, frameOutStart := s.op }
    (s.ip.toNat + 4 ≤ s.lInEnd.toNat →
      exec .magic s = .next { f with ip := s.ip + 4, phase := .frameHeader, sub := .start } ∧
      exec .magicLegacy s = .next (faultEntry .legacyMagic f)) ∧
    (s.lInEnd.toNat < s.ip.toNat + 4 →
      exec .magic s = .next (faultEntry .truncated f) ∧ exec .magicLegacy s = .next (faultEntry .truncated f))

/-- The elements of the frame header one by one (R255): FHD with the whole header in the input records its flags and selects
the next field; WD records the window size; FCS the content size; both end the header when no field is left, E_WINDOW above
8 MiB; DID latches the identifier and takes E_DICTIONARY. That IP wraps where WD or FCS ends a header past 2^32, which R61
excludes, is the model's choice (log 29). -/
def Obligations.HeaderElements : Prop :=
  (∀ (csel : BitVec 2) (ss : Bool) (ign : BitVec 2) (ck : Bool) (dsel : BitVec 2) (s : State),
    let b := fhdByteOf csel ss ign ck dsel
    let s1 := { s with fhdByte := b, fh := { s.fh with windowValid := !ss } }
    (s.ip.toNat + hsizeOf csel ss dsel ≤ s.lInEnd.toNat →
      exec (.fhd csel ss ign ck dsel) s =
        (if ss = false then .next { s1 with sub := .wd }
        else if dsel ≠ 0 then .next { s1 with fh := { s1.fh with dictValid := true }, sub := .did }
        else .next { s1 with fh := { s1.fh with dictValid := false, contentValid := true }, sub := .fcs })) ∧
    (s.lInEnd.toNat < s.ip.toNat + hsizeOf csel ss dsel →
      exec (.fhd csel ss ign ck dsel) s = .next (faultEntry .truncated s))) ∧
  (∀ (e : BitVec 5) (m : BitVec 3) (s : State),
    let w := 2 ^ (10 + e.toNat) + 2 ^ (10 + e.toNat) / 8 * m.toNat
    let s1 := { s with fh := { s.fh with windowSize := BitVec.ofNat 42 w } }
    (didLen s.fhdByte ≠ none →
      exec (.wd e m) s = .next { s1 with fh := { s1.fh with dictValid := true }, sub := .did }) ∧
    (didLen s.fhdByte = none → fcsLen s.fhdByte ≠ none →
      exec (.wd e m) s =
        .next { s1 with fh := { s1.fh with dictValid := false, contentValid := true }, sub := .fcs }) ∧
    (didLen s.fhdByte = none → fcsLen s.fhdByte = none → w ≤ 8388608 →
      exec (.wd e m) s = .next { s1 with
        ip := s.ip + 2, phase := .blockHeader, sub := .start
        fh := { s1.fh with headerSize := 2, dictValid := false, contentValid := false, hasChecksum := fhdCk s.fhdByte } }) ∧
    (didLen s.fhdByte = none → fcsLen s.fhdByte = none → 8388608 < w →
      exec (.wd e m) s =
        .next (faultEntry .window { s1 with fh := { s1.fh with dictValid := false, contentValid := false } }))) ∧
  (∀ (n : FcsLen) (v : BitVec 64) (s : State),
    let s1 := { s with fh := { s.fh with contentSize := v + (if n = .two then 256 else 0) } }
    (fhdSs s.fhdByte = true ∨ s.fh.windowSize.toNat ≤ 8388608 → WellFormed (.fcs n v) →
      exec (.fcs n v) s = .next { s1 with
        ip := s.ip + BitVec.ofNat 32 (headerSize s.fhdByte), phase := .blockHeader, sub := .start
        fh := { s1.fh with headerSize := BitVec.ofNat 5 (headerSize s.fhdByte), hasChecksum := fhdCk s.fhdByte } }) ∧
    (fhdSs s.fhdByte = false → 8388608 < s.fh.windowSize.toNat → WellFormed (.fcs n v) →
      exec (.fcs n v) s = .next (faultEntry .window s1))) ∧
  (∀ (n : DidLen) (v : BitVec 32) (s : State),
    exec (.did n v) s = .next (faultEntry .dictionary { s with fh := { s.fh with dictId := v } }))

/-- A whole frame header without a dictionary field and with a window of at most 8 MiB, run step by step from its
descriptor byte: in at most three steps every frame register has the value R255 gives and IP is past the header. -/
def Obligations.HeaderRun : Prop :=
  ∀ s : State, s.hostQueue = [] → s.issue = [] → s.phase = .frameHeader → s.sub = .start →
    let b := s.inByte s.ip.toNat
    let ss := b.getLsbD 5
    let clen := clenOf (b.extractLsb' 6 2) ss
    let hsize := hsizeOf (b.extractLsb' 6 2) ss (b.extractLsb' 0 2)
    let wd := (s.inByte (s.ip.toNat + 1)).toNat
    let w := 2 ^ (10 + wd / 8) + 2 ^ (10 + wd / 8) / 8 * (wd % 8)
    s.ip.toNat + hsize ≤ s.lInEnd.toNat → b.extractLsb' 0 2 = 0 → (ss = false → w ≤ 8388608) →
    ∃ n ≤ 3, runSteps n s = .next { s with
      ip := s.ip + BitVec.ofNat 32 hsize, phase := .blockHeader, sub := .start, fhdByte := b
      fh :=
        { headerSize := BitVec.ofNat 5 hsize
          windowValid := !ss
          windowSize := if ss then s.fh.windowSize else BitVec.ofNat 42 w
          contentValid := decide (clen ≠ 0)
          contentSize :=
            if clen = 0 then s.fh.contentSize
            else BitVec.ofNat 64 (memRead s.inByte (s.ip.toNat + 1 + (if ss then 0 else 1)) clen +
              (if clen = 2 then 256 else 0))
          dictValid := false
          dictId := s.fh.dictId
          hasChecksum := b.getLsbD 2 } }

/-- BLK_CMP with its payload in the input sets `BLK.END`, and the literals section is next (R257, R260). The faults of a block
header and of the payload tests, in the order of R257 to R260: nothing of the block has been written when one is taken
(R261). That BLK.END is as it was after a fault inside a raw block, for which R28 gives it a meaning too, is the model's reading
(DEDUCED, log 26). -/
def Obligations.CompressedBlockOpensOrFaults : Prop :=
  ∀ (last : Bool) (size : BitVec 21) (s : State),
    let hdr (typ : BitVec 2) := { s with blk := { s.blk with last := last, typ := typ, size := size } }
    let body (typ : BitVec 2) := { hdr typ with ip := s.ip + 3, phase := .block, sub := .start }
    (size.toNat ≤ 131072 → s.ip.toNat + 3 + size.toNat ≤ s.lInEnd.toNat →
      exec (.blkCmp last size) s = .next { s with
        blk := ⟨last, 2, size, s.ip + 3 + size.setWidth 32⟩, ip := s.ip + 3, phase := .block, sub := .start }) ∧
    (s.lInEnd.toNat < s.ip.toNat + 3 →
      exec (.blkRaw last size) s = .next (faultEntry .truncated s) ∧
      exec (.blkRle last size) s = .next (faultEntry .truncated s) ∧
      exec (.blkCmp last size) s = .next (faultEntry .truncated s) ∧
      exec (.blkRsv last size) s = .next (faultEntry .truncated s)) ∧
    (s.ip.toNat + 3 ≤ s.lInEnd.toNat → exec (.blkRsv last size) s = .next (faultEntry .blockType (hdr 3))) ∧
    (s.ip.toNat + 3 ≤ s.lInEnd.toNat → 131072 < size.toNat →
      exec (.blkRaw last size) s = .next (faultEntry .blockTooLarge (hdr 0)) ∧
      exec (.blkRle last size) s = .next (faultEntry .blockTooLarge (hdr 1)) ∧
      exec (.blkCmp last size) s = .next (faultEntry .blockTooLarge (hdr 2))) ∧
    (s.ip.toNat + 3 ≤ s.lInEnd.toNat → size.toNat ≤ 131072 →
      (s.lInEnd.toNat < s.ip.toNat + 3 + size.toNat →
        exec (.blkRaw last size) s = .next (faultEntry .truncated (body 0)) ∧
        exec (.blkCmp last size) s = .next (faultEntry .truncated (body 2))) ∧
      (s.lInEnd.toNat < s.ip.toNat + 4 → exec (.blkRle last size) s = .next (faultEntry .truncated (body 1))) ∧
      (s.lOutLimit.toNat < s.op.toNat + size.toNat →
        (s.ip.toNat + 3 + size.toNat ≤ s.lInEnd.toNat →
          exec (.blkRaw last size) s = .next (faultEntry .outputFull (body 0))) ∧
        (s.ip.toNat + 4 ≤ s.lInEnd.toNat →
          exec (.blkRle last size) s = .next (faultEntry .outputFull (body 1)))))

/-- BLK_RAW (R257, R258): with the payload in the input and room in the output, the payload bytes are copied to OUT at OP,
no other byte of OUT changes, `BLK.END` becomes the end of the payload (R28; log 26), both cursors move past it, and the block
ends. That the bytes from the new OP up to OUT_LIMIT,
which R78 and R79 let become junk, stay as they are while the command runs is the model's choice (log 4). -/
def Obligations.RawBlockCopies : Prop :=
  ∀ (last : Bool) (size : BitVec 21) (s : State), s.memOk → size.toNat ≤ 131072 →
    s.ip.toNat + 3 + size.toNat ≤ s.lInEnd.toNat → s.op.toNat + size.toNat ≤ s.lOutLimit.toNat →
    s.apart (s.ip.toNat + 3) s.op.toNat size.toNat →
    ∃ m : Memory,
      exec (.blkRaw last size) s = .next (blockEnd { s with
        blk := ⟨last, 0, size, s.ip + 3 + size.setWidth 32⟩, phase := .block, sub := .start
        ip := s.ip + 3 + size.setWidth 32, op := s.op + size.setWidth 32, out := m }) ∧
      ∀ a, m.byte a =
        if s.op.toNat ≤ a ∧ a < s.op.toNat + size.toNat then s.inByte (s.ip.toNat + 3 + (a - s.op.toNat)) else s.outByte a

/-- BLK_RLE (R257, R259): the one payload byte is replicated `size` times at OP; no other byte of OUT changes. That the bytes
from the new OP up to OUT_LIMIT, which R78 and R79 let become junk, stay as they are while the command runs is the model's
choice (log 4). That an RLE block leaves BLK.END as it was is the model's reading (DEDUCED, log 26). -/
def Obligations.RleBlockFills : Prop :=
  ∀ (last : Bool) (size : BitVec 21) (s : State), s.memOk → size.toNat ≤ 131072 →
    s.ip.toNat + 4 ≤ s.lInEnd.toNat → s.op.toNat + size.toNat ≤ s.lOutLimit.toNat →
    ∃ m : Memory,
      exec (.blkRle last size) s = .next (blockEnd { s with
        blk := ⟨last, 1, size, s.blk.limit⟩, phase := .block, sub := .start
        ip := s.ip + 4, op := s.op + size.setWidth 32, out := m }) ∧
      ∀ a, m.byte a =
        if s.op.toNat ≤ a ∧ a < s.op.toNat + size.toNat then s.inByte (s.ip.toNat + 3) else s.outByte a

/-- The end of a block, of a frame and of a command (R250, R252, R267): after DONE the bytes from OP to OUT_LIMIT are
unspecified (R78; log 4) and every other byte is kept. That BYTES_WRITTEN wraps with OP below OUT_START, which R24 excludes, is
the model's choice (log 28). -/
def Obligations.FrameAndCommandEnd : Prop :=
  ∀ s : State,
    (s.blk.last = false → blockEnd s = { s with phase := .blockHeader, sub := .start }) ∧
    (s.blk.last = true → s.fh.hasChecksum = true → blockEnd s = { s with phase := .checksum, sub := .start }) ∧
    (s.blk.last = true → s.fh.hasChecksum = false → blockEnd s = engNext s) ∧
    (s.ip.toNat < s.lInEnd.toNat → engNext s = { s with phase := .magic, sub := .start }) ∧
    (s.lInEnd.toNat ≤ s.ip.toNat →
      engNext s = { s with
        bytesWritten := s.op - s.lOutStart, phase := .done, sub := .start, out := (engNext s).out
        draws := (engNext s).draws } ∧
      ∀ a, a < s.op.toNat ∨ s.lOutLimit.toNat ≤ a → (engNext s).outByte a = s.outByte a)

/-- CHECKSUM (R266): the frame's content from FRAME_OUT_START to OP is hashed; a field equal to the low half of the hash is
passed; another sets CKSUM_BAD and takes E_CHECKSUM, or is passed too where CKSUM_ENFORCE is 0. That the content is empty with
OP below FRAME_OUT_START, which R24 excludes, is the model's choice (log 28). -/
def Obligations.ChecksumCompared : Prop :=
  ∀ (v : BitVec 32) (s : State),
    let x := xxhHash s.outByte s.frameOutStart.toNat (s.op.toNat - s.frameOutStart.toNat) s.xxh
    (s.ip.toNat + 4 ≤ s.lInEnd.toNat →
      (v = x.h.extractLsb' 0 32 → exec (.checksum v) s = .next (engNext { s with xxh := x, ip := s.ip + 4 })) ∧
      (v ≠ x.h.extractLsb' 0 32 → s.lEnforce = true →
        exec (.checksum v) s = .next (faultEntry .checksum { s with xxh := x, cksumBad := true })) ∧
      (v ≠ x.h.extractLsb' 0 32 → s.lEnforce = false →
        exec (.checksum v) s = .next (engNext { s with xxh := x, cksumBad := true, ip := s.ip + 4 }))) ∧
    (s.lInEnd.toNat < s.ip.toNat + 4 → exec (.checksum v) s = .next (faultEntry .truncated s))

/-! ## Literals -/

/-- LIT_RAW_1, LIT_RAW_2, LIT_RAW_3 (R291, R292, R294): with the body in the block, the literals are its bytes, read in place
when eight more bytes of the block follow them and else copied to LIT; the sequences section is next. That the eight slack
bytes of LIT above them, which R79 lets the section write, keep their old values is the model's choice (log 23). -/
def Obligations.RawLiterals : Prop :=
  ∀ (i : Instr) (f : LitForm) (s : State), litForm i = some f → f.typ = 0 → s.memOk → f.regen ≤ 131072 →
    s.ip.toNat + f.size + f.regen ≤ s.blk.limit.toNat →
    let a := s.ip.toNat + f.size
    let src := decide (a + f.regen + 8 ≤ s.blk.limit.toNat)
    let ptr := if src then a else 0
    ∃ m : Memory,
      exec i s = .next { s with
        lit := { s.lit.header f with src := src, ptr := BitVec.ofNat 32 ptr, limit := BitVec.ofNat 32 (ptr + f.regen) }
        litbuf := m, ip := s.ip + BitVec.ofNat 32 (f.size + f.regen), sub := .seqn } ∧
      ∀ x, m.byte x = if src = false ∧ x < f.regen then s.inByte (a + x) else s.litByte x

/-- LIT_RLE_1, LIT_RLE_2, LIT_RLE_3 (R291, R292, R295): the byte after the header is replicated `regen` times in LIT; no other
byte of LIT changes, the slack of R79 included (the model's choice, log 23); the sequences section is next. -/
def Obligations.RleLiterals : Prop :=
  ∀ (i : Instr) (f : LitForm) (s : State), litForm i = some f → f.typ = 1 → s.memOk → f.regen ≤ 131072 →
    s.ip.toNat + f.size + 1 ≤ s.blk.limit.toNat →
    ∃ m : Memory,
      exec i s = .next { s with
        lit := { s.lit.header f with src := false, ptr := 0, limit := BitVec.ofNat 32 f.regen }
        litbuf := m, ip := s.ip + BitVec.ofNat 32 (f.size + 1), sub := .seqn } ∧
      ∀ x, m.byte x = if x < f.regen then s.inByte (s.ip.toNat + f.size) else s.litByte x

/-- LIT_HUF_S3, LIT_HUF_3, LIT_HUF_4, LIT_HUF_5 and LIT_REP_S3, LIT_REP_3, LIT_REP_4, LIT_REP_5 (R291, R293, R296): with the
body in the block, and for REP a table loaded, the header is recorded and the tree, the single stream (HUF.DEC1 is issued) or
the jump table is next. -/
def Obligations.HuffmanLiteralsOpen : Prop :=
  ∀ (i : Instr) (f : LitForm) (s : State), litForm i = some f → 2 ≤ f.typ.toNat → f.regen ≤ 131072 →
    s.ip.toNat + f.size + f.comp ≤ s.blk.limit.toNat → (f.typ = 3 → s.huf.loaded = true) →
    let p := s.ip + BitVec.ofNat 32 f.size
    let lim := p + BitVec.ofNat 32 f.comp
    exec i s = .next { s with
      lit := s.lit.header f, ip := p, litLim := lim
      sub := if f.typ = 2 then .htree else if f.fmt = 0 then .litEnd else .jump
      issue := if f.typ = 3 ∧ f.fmt = 0 then [.hufDec1 p lim (BitVec.ofNat 20 f.regen)] else s.issue }

/-- The faults of a literals header and body, in the order of R291 to R295. -/
def Obligations.LiteralsFaults : Prop :=
  ∀ (i : Instr) (f : LitForm) (s : State), litForm i = some f →
    let h := { s with lit := s.lit.header f }
    let limit := s.blk.limit.toNat
    (limit < s.ip.toNat + 1 → exec i s = .next (faultEntry .truncated s)) ∧
    (s.ip.toNat + 1 ≤ limit → limit < s.ip.toNat + f.size →
      exec i s = .next (faultEntry .truncated { s with lit := { s.lit with typ := f.typ, fmt := f.fmt } })) ∧
    (s.ip.toNat + f.size ≤ limit → 131072 < f.regen → exec i s = .next (faultEntry .blockTooLarge h)) ∧
    (s.ip.toNat + f.size ≤ limit → f.regen ≤ 131072 → 2 ≤ f.typ.toNat → limit < s.ip.toNat + f.size + f.comp →
      exec i s = .next (faultEntry .truncated h)) ∧
    (s.ip.toNat + f.size + f.comp ≤ limit → f.regen ≤ 131072 → f.typ = 3 → s.huf.loaded = false →
      exec i s = .next (faultEntry .noHufTable h)) ∧
    (s.ip.toNat + f.size ≤ limit → f.regen ≤ 131072 →
      (f.typ = 0 ∧ limit < s.ip.toNat + f.size + f.regen) ∨ (f.typ = 1 ∧ limit < s.ip.toNat + f.size + 1) →
      exec i s = .next (faultEntry .truncated { h with ip := s.ip + BitVec.ofNat 32 f.size }))

/-- HTREE_DIRECT and HTREE_FSE (R296): they do what HUF.READTABLE does on the tree description at IP; where it completes, its
bytes are passed and the streams of the section are next. A direct description inside the section whose weights pass the
checks completes, its table built from its nibbles (R103, R201, R202, R204 to R206). Where the section runs past 2^32, which
R201 and R61 exclude, the bytes there read as 0 and IP wraps: the model's choice (log 24, log 29). -/
def Obligations.TreeElements : Prop :=
  (∀ (i : Instr) (h : BitVec 8) (s t : State),
    (∃ low : BitVec 7, (i = .htreeDirect low ∧ h = low.setWidth 8 ||| 128) ∨ (i = .htreeFse low ∧ h = low.setWidth 8)) →
    s.inByte s.ip.toNat = h → s.phase = .block →
    exec (.hufReadTable s.ip s.lit.comp) s = .next t →
    (t.phase = .block →
      exec i s = .next { t with
        result := s.result, ip := s.ip + t.result.setWidth 32
        sub := if s.lit.single then .litEnd else .jump
        issue :=
          if s.lit.single then [.hufDec1 (s.ip + t.result.setWidth 32) s.litLim s.lit.regen] else s.issue }) ∧
    (t.phase = .fault → exec i s = .next t)) ∧
  (∀ (low : BitVec 7) (s : State),
    let ws := directWeightList s.inByte (128 + low.toNat) s.ip.toNat
    1 + ceilDiv (low.toNat + 1) 2 ≤ s.lit.comp.toNat → weightFault ws = none →
    ∃ t, exec (.htreeDirect low) s = .next t ∧
      t = { s with
        huf := t.huf, ip := s.ip + BitVec.ofNat 32 (1 + ceilDiv (low.toNat + 1) 2)
        sub := if s.lit.single then .litEnd else .jump, issue := t.issue } ∧
      t.huf.loaded = true ∧ hufBuiltFrom t.huf ws)

/-- JUMP (R212, R296): where the four streams meet R213, the literals are their symbols, the section ends and IP is at its
end; where a stream does not, E_HUF_STREAM_END is taken. A section under ten bytes or a jump table past it takes E_HUF_JUMP,
the sizes 1, 2 and 5 take E_HUF_SEGMENTS, and the first stream that BR.INIT turns away its E_BITSTREAM_EMPTY or E_NO_END_MARK,
with the readers before it initialised and nothing else written (R141, R214). That the slack of LIT above the literals (R79) is
not written is the model's choice (log 23). -/
def Obligations.JumpDecodesLiterals : Prop :=
  ∀ (len1 len2 len3 : BitVec 16) (s : State), s.memOk →
    let rd := s.inByte
    let a := s.ip.toNat
    let n := s.lit.regen.toNat
    let lim := s.litLim.toNat
    n ≤ 131072 → len1.toNat = memRead rd a 2 → len2.toNat = memRead rd (a + 2) 2 → len3.toNat = memRead rd (a + 4) 2 →
    (fourStreamsOk rd a lim n → (n = 0 ∨ hufTableOk s.huf) →
      (∀ syms, fourSymbols rd s.huf a lim n = some syms →
        ∃ t, exec (.jump len1 len2 len3) s = .next t ∧
          t = { s with
            br := t.br, litbuf := t.litbuf, ip := s.litLim, sub := .seqn
            lit := { s.lit with src := false, ptr := 0, limit := s.lit.regen.setWidth 32 } } ∧
          (∀ k < n, t.litByte k = syms.getD k 0) ∧ ∀ k, n ≤ k → t.litByte k = s.litByte k) ∧
      (fourSymbols rd s.huf a lim n = none →
        ∃ t, exec (.jump len1 len2 len3) s = .next t ∧ t.phase = .fault ∧ t.errCode = 16)) ∧
    (lim < a + 10 → exec (.jump len1 len2 len3) s = .next (faultEntry .hufJump s)) ∧
    (a + 10 ≤ lim → n = 1 ∨ n = 2 ∨ n = 5 → exec (.jump len1 len2 len3) s = .next (faultEntry .hufSegments s)) ∧
    (a + 10 ≤ lim → 3 * ceilDiv n 4 ≤ n → lim < jumpStart rd a lim 3 →
      exec (.jump len1 len2 len3) s = .next (faultEntry .hufJump s)) ∧
    (∀ (k : Fin 4) (e : ErrCode), streamTurnedAway rd a lim n k.val e →
      ∃ br : Vector BitReader 4, exec (.jump len1 len2 len3) s = .next (faultEntry e { s with br := br }) ∧
        ∀ j : Fin 4, k ≤ j → br.get j = s.br.get j)

/-- The transitions inside a compressed block that read no element: the end of the literals (R296), the count of the loop and
the end of the section (R310), the priming of the states in the order LL, OF, ML (R317). Where a table's log is above 9 (OF: 8), which
R35 excludes, or CONSUMED passes 2^32, which R149 excludes, the values are taken modulo their registers' widths: the model's
choice (log 29). -/
def Obligations.SectionTransitions : Prop :=
  ∀ s : State, s.hostQueue = [] → s.issue = [] → s.phase = .block →
    (s.sub = .litEnd →
      step s = .next { s with
        lit := { s.lit with src := false, ptr := 0, limit := s.lit.regen.setWidth 32 }, ip := s.litLim, sub := .seqn }) ∧
    (s.sub = .seqCount → s.seq.count ≠ 0 →
      step s = .next { s with
        seq := { s.seq with count := s.seq.count - 1 }
        issue := if s.seq.count = 1 then [.seqLastlit] else [.seqDecode, .seqExec]
        sub := if s.seq.count = 1 then .blkEnd else .seqCount }) ∧
    (s.sub = .blkEnd → step s = .next (blockEnd { s with ip := s.blk.limit })) ∧
    (∀ ll of ml, s.sub = .prime → s.curLog .ll = some ll → s.curLog .of = some of → s.curLog .ml = some ml →
      let b := s.br.get 0
      let b1 := { b with consumed := b.consumed + BitVec.ofNat 32 ll }
      let b2 := { b1 with consumed := b1.consumed + BitVec.ofNat 32 of }
      let b3 := { b2 with consumed := b2.consumed + BitVec.ofNat 32 ml }
      step s = .next { s with
        br := s.br.set 0 b3
        seq := { s.seq with
          llState := BitVec.ofNat 9 (brPeek b ll), ofState := BitVec.ofNat 8 (brPeek b1 of)
          mlState := BitVec.ofNat 9 (brPeek b2 ml) }
        issue := if s.seq.count = 0 then [.seqLastlit] else [.seqDecode, .seqExec]
        sub := if s.seq.count = 0 then .blkEnd else .seqCount })

/-! ## Sequences -/

/-- SEQN_0, SEQN_1, SEQN_2, SEQN_3 (R311, R108): the count of each form; a first byte of 0 ends the section early, a count of 0
in a longer form does not; E_TRUNCATED where the form does not fit the block. -/
def Obligations.SequenceCounts : Prop :=
  ∀ s : State,
    let limit := s.blk.limit.toNat
    (s.ip.toNat + 1 ≤ limit →
      exec .seqn0 s = .next { s with
        ip := s.ip + 1, seq := { s.seq with count := 0 }, issue := [.seqLastlit], sub := .blkEnd }) ∧
    (∀ c : BitVec 7, s.ip.toNat + 1 ≤ limit →
      exec (.seqn1 c) s = .next { s with ip := s.ip + 1, seq := { s.seq with count := c.setWidth 17 }, sub := .seqm }) ∧
    (∀ (h : BitVec 7) (b : Byte), s.ip.toNat + 2 ≤ limit →
      exec (.seqn2 h b) s = .next { s with
        ip := s.ip + 2, seq := { s.seq with count := h.setWidth 17 * 256 + b.setWidth 17 }, sub := .seqm }) ∧
    (∀ b c : Byte, s.ip.toNat + 3 ≤ limit →
      exec (.seqn3 b c) s = .next { s with
        ip := s.ip + 3, seq := { s.seq with count := b.setWidth 17 + c.setWidth 17 * 256 + 0x7F00 }, sub := .seqm }) ∧
    (limit < s.ip.toNat + 1 → exec .seqn0 s = .next (faultEntry .truncated s)) ∧
    (∀ c : BitVec 7, limit < s.ip.toNat + 1 → exec (.seqn1 c) s = .next (faultEntry .truncated s)) ∧
    (∀ (h : BitVec 7) (b : Byte), limit < s.ip.toNat + 2 → exec (.seqn2 h b) s = .next (faultEntry .truncated s)) ∧
    (∀ b c : Byte, limit < s.ip.toNat + 3 → exec (.seqn3 b c) s = .next (faultEntry .truncated s))

/-- SEQM and the four modes (R109, R310, R312, R314): the modes byte is recorded; PREDEF selects the ROM table; RLE and FSE
ask for their description; REPEAT keeps the table or takes E_NO_PREV_TABLE; after LL comes OF, after OF comes ML, after ML
BR.INIT on the rest of the block. -/
def Obligations.SequenceModes : Prop :=
  (∀ (l o m g : BitVec 2) (s : State),
    (s.ip.toNat + 1 ≤ s.blk.limit.toNat →
      exec (.seqm l o m g) s = .next { s with
        ip := s.ip + 1, seq := { s.seq with modes := (l ++ o ++ m ++ g).cast (by decide) }, sub := .mode .ll }) ∧
    (s.blk.limit.toNat < s.ip.toNat + 1 → exec (.seqm l o m g) s = .next (faultEntry .truncated s)) ∧
    ∀ u : State, u.seq.modes = (l ++ o ++ m ++ g).cast (by decide) →
      modeField u.seq.modes .ll = l.toNat ∧ modeField u.seq.modes .of = o.toNat ∧ modeField u.seq.modes .ml = m.toNat) ∧
  (∀ (x : Alphabet) (s : State),
    exec (.modePredef x) s = .next (nextTable x (s.setSel x .predef)) ∧
    exec (.modeRle x) s = .next { s with sub := .rlesym x } ∧
    exec (.modeFse x) s = .next { s with sub := .fsedesc x } ∧
    (s.sel x ≠ .none → exec (.modeRepeat x) s = .next (nextTable x s)) ∧
    (s.sel x = .none → exec (.modeRepeat x) s = .next (faultEntry .noPrevTable s))) ∧
  (∀ s : State,
    nextTable .ll s = { s with sub := .mode .of } ∧ nextTable .of s = { s with sub := .mode .ml } ∧
    nextTable .ml s = { s with issue := [.brInit 0 s.ip s.blk.limit], sub := .prime })

/-- RLESYM and FSEDESC (R314): a symbol within the alphabet makes the one-entry table current; another takes
E_SEQ_RLE_SYMBOL; a description is what FSE.READTABLE does at IP with the alphabet's limits, after which the RAM table is
current and its bytes are passed. -/
def Obligations.TableElements : Prop :=
  (∀ (x : Alphabet) (v : Byte) (s : State),
    (s.ip.toNat + 1 ≤ s.blk.limit.toNat → v.toNat ≤ [35, 31, 52].getD x.code 0 →
      ∃ t, exec (.fseRle x.table v) s = .next t ∧
        exec (.rlesym x v) s = .next (nextTable x { t.setSel x .ram with ip := s.ip + 1 })) ∧
    (s.ip.toNat + 1 ≤ s.blk.limit.toNat → [35, 31, 52].getD x.code 0 < v.toNat →
      exec (.rlesym x v) s = .next (faultEntry .seqRleSymbol s)) ∧
    (s.blk.limit.toNat < s.ip.toNat + 1 → exec (.rlesym x v) s = .next (faultEntry .truncated s))) ∧
  (∀ (x : Alphabet) (lo hi : BitVec 4) (s t : State),
    lo = (s.inByte s.ip.toNat).extractLsb' 0 4 → s.phase = .block →
    exec (.fseReadTable x.table s.ip s.blk.limit (BitVec.ofNat 8 ([35, 31, 52].getD x.code 0))
      (BitVec.ofNat 3 ([4, 3, 4].getD x.code 0))) s = .next t →
    (t.phase = .block →
      exec (.fsedesc x lo hi) s = .next (nextTable x
        { t.setSel x .ram with result := s.result, ip := s.ip + t.result.setWidth 32 })) ∧
    (t.phase = .fault → exec (.fsedesc x lo hi) s = .next t))

/-- SEQ.DECODE (R320, R321, R324): the opening refill, the extra bits in the order offset, match length, literal length, the
refill when they number more than 31, and the state updates in the order LL, ML, OF; E_SEQ_STREAM when the opening refill
overflows. The code tables it reads are those of R114, R115 and R116. That a next state wider than its register, which R170 and
R35 exclude, is taken modulo 2^9 (OF: 2^8) is the model's choice (log 29); on readers that R147 excludes, what the refills do is
(log 27). -/
def Obligations.SequenceDecoded : Prop :=
  ((List.range 36).map llBase =
      [0, 1, 2, 3, 4, 5, 6, 7, 8, 9, 10, 11, 12, 13, 14, 15, 16, 18, 20, 22, 24, 28, 32, 40, 48, 64] ++
      [128, 256, 512, 1024, 2048, 4096, 8192, 16384, 32768, 65536] ∧
    (List.range 36).map llBits =
      [0, 0, 0, 0, 0, 0, 0, 0, 0, 0, 0, 0, 0, 0, 0, 0, 1, 1, 1, 1, 2, 2, 3, 3, 4, 6] ++
      [7, 8, 9, 10, 11, 12, 13, 14, 15, 16] ∧
    (List.range 53).map mlBase =
      [3, 4, 5, 6, 7, 8, 9, 10, 11, 12, 13, 14, 15, 16, 17, 18, 19, 20, 21, 22, 23, 24, 25, 26, 27, 28, 29, 30, 31] ++
      [32, 33, 34, 35, 37, 39, 41, 43, 47, 51, 59, 67, 83, 99, 131, 259, 515, 1027, 2051, 4099, 8195, 16387] ++
      [32771, 65539] ∧
    (List.range 53).map mlBits =
      List.replicate 32 0 ++ [1, 1, 1, 1, 2, 2, 3, 3, 4, 4, 5, 7, 8, 9, 10, 11, 12, 13, 14, 15, 16] ∧
    (List.range 32).map ofBase =
      [0, 1, 1, 5, 13, 29, 61, 125, 253, 509, 1021, 2045, 4093, 8189, 16381, 32765, 65533, 131069, 262141, 524285] ++
      [1048573, 2097149, 4194301, 8388605, 16777213, 33554429, 67108861, 134217725, 268435453, 536870909] ++
      [1073741821, 2147483645]) ∧
  ∀ (s : State) (el eo em : FseEntry),
    (s.seqCodes el eo em → (s.br.get 0).consumed.toNat ≤ 64 →
      let lc := el.sym.toNat
      let mc := em.sym.toNat
      let oc := eo.sym.toNat
      let b0 := (brRefill s.inByte (s.br.get 0)).2
      let r1 := readBits b0 oc
      let r2 := readBits r1.2 (mlBits mc)
      let r3 := readBits r2.2 (llBits lc)
      let b4 := if llBits lc + mlBits mc + oc > 31 then (brRefill s.inByte r3.2).2 else r3.2
      let u1 := readBits b4 el.nb.toNat
      let u2 := readBits u1.2 em.nb.toNat
      let u3 := readBits u2.2 eo.nb.toNat
      let d := resolveOffset oc (ofBase oc + r1.1) (decide (lc = 0)) s.rep
      exec .seqDecode s = .next { s with
        br := s.br.set 0 u3.2, rep := d.2
        seq := { s.seq with
          off := d.1, ml := BitVec.ofNat 18 (mlBase mc + r2.1), ll := BitVec.ofNat 17 (llBase lc + r3.1)
          llState := BitVec.ofNat 9 (el.ns.toNat + u1.1), mlState := BitVec.ofNat 9 (em.ns.toNat + u2.1)
          ofState := BitVec.ofNat 8 (eo.ns.toNat + u3.1) } }) ∧
    (64 < (s.br.get 0).consumed.toNat → exec .seqDecode s = .next (faultEntry .seqStream s))

/-- SEQ.RESOLVE (R322): for a code of 2 or more the raw value is the distance and is pushed; below 2, `raw` plus 1 when the
literal length is 0 selects a slot or the first slot less 1, a 0 replaced by 1, and the selected value comes to the front. A
first slot of 0, which R323 excludes, has no value less 1: some distance that is not 0 is selected (the model's choice,
log 25). -/
def Obligations.OffsetResolved : Prop :=
  ∀ (oc : BitVec 5) (raw : BitVec 32) (ll0 : Bool) (s : State),
    let h0 := s.rep.r0
    let h1 := s.rep.r1
    let h2 := s.rep.r2
    let o (d a b c : BitVec 32) : Host.Outcome State Fault Refusal :=
      .next { s with rep := ⟨a, b, c⟩, result := d.setWidth 64 }
    let nz (x : BitVec 32) : BitVec 32 := if x = 0 then 1 else x
    let v := raw.toNat + (if ll0 then 1 else 0)
    (2 ≤ oc.toNat → exec (.seqResolve oc raw ll0) s = o raw raw h0 h1) ∧
    (oc.toNat < 2 →
      (v = 0 → exec (.seqResolve oc raw ll0) s = o h0 h0 h1 h2) ∧
      (v = 1 → exec (.seqResolve oc raw ll0) s = o (nz h1) (nz h1) h0 h2) ∧
      (v = 2 → exec (.seqResolve oc raw ll0) s = o (nz h2) (nz h2) h0 h1) ∧
      (v = 3 → 1 ≤ h0.toNat → exec (.seqResolve oc raw ll0) s = o (nz (h0 - 1)) (nz (h0 - 1)) h0 h1) ∧
      (v = 3 → h0 = 0 → ∃ d : BitVec 32, d ≠ 0 ∧ exec (.seqResolve oc raw ll0) s = o d d h0 h1))

/-- SEQ.EXEC (R328, R330, R331): where the three checks pass, the literals stand at OP, every byte of the match equals the byte
`SEQ.OFF` before it in the result, no other byte of OUT changes, and the cursors move; else the first check that fails gives
the fault. That the bytes from the new OP up to OUT_LIMIT, which R78, R79 and R332 let become junk, stay as they are while the
command runs is the model's choice (log 4). -/
def Obligations.SequenceExecuted : Prop :=
  ∀ s : State,
    let ll := s.seq.ll.toNat
    let ml := s.seq.ml.toNat
    (s.memOk → s.seqFits → s.literalsOk ll →
      ∃ m : Memory,
        exec .seqExec s = .next { s with
          out := m, op := s.op + BitVec.ofNat 32 (ll + ml), lit := { s.lit with ptr := s.lit.ptr + BitVec.ofNat 32 ll } } ∧
        (∀ k < ll, m.byte (s.op.toNat + k) = s.literal k) ∧
        (∀ k < ml, m.byte (s.op.toNat + ll + k) = m.byte (s.op.toNat + ll + k - s.seq.off.toNat)) ∧
        (∀ a, a < s.op.toNat ∨ s.op.toNat + ll + ml ≤ a → m.byte a = s.outByte a)) ∧
    (s.lOutLimit.toNat < s.op.toNat + ll + ml → exec .seqExec s = .next (faultEntry .outputFull s)) ∧
    (s.op.toNat + ll + ml ≤ s.lOutLimit.toNat → s.lit.limit.toNat < s.lit.ptr.toNat + ll →
      exec .seqExec s = .next (faultEntry .literalsOverrun s)) ∧
    (s.op.toNat + ll + ml ≤ s.lOutLimit.toNat → s.lit.ptr.toNat + ll ≤ s.lit.limit.toNat →
      s.op.toNat + ll < s.seq.off.toNat + s.frameOutStart.toNat → exec .seqExec s = .next (faultEntry .offsetRange s))

/-- SEQ.LASTLIT (R334): the literals left are copied to OUT at OP, no other byte changes, LIT.PTR becomes LIT.END; E_OUTPUT_FULL
where they do not fit. That the bytes from the new OP up to OUT_LIMIT, which R78 and R79 let become junk, stay as they are
while the command runs is the model's choice (log 4). So is that with LIT.PTR above LIT.END, which R328's second check excludes,
no literals are left (log 28). -/
def Obligations.LastLiteralsCopied : Prop :=
  ∀ s : State,
    let n := s.restLiterals
    (s.memOk → s.op.toNat + n ≤ s.lOutLimit.toNat → s.literalsOk n →
      ∃ m : Memory,
        exec .seqLastlit s = .next { s with
          out := m, op := s.op + BitVec.ofNat 32 n, lit := { s.lit with ptr := s.lit.limit } } ∧
        ∀ a, m.byte a =
          if s.op.toNat ≤ a ∧ a < s.op.toNat + n then s.literal (a - s.op.toNat) else s.outByte a) ∧
    (s.lOutLimit.toNat < s.op.toNat + n → exec .seqLastlit s = .next (faultEntry .outputFull s))

/-! ## Bit readers -/

/-- BR.INIT (R141): on a region with an end mark the reader holds its last eight bytes, or all of a shorter region, and stands
just below the marker (R148 a); an empty region and a last byte of 0 take their faults. -/
def Obligations.BitReaderInitialised : Prop :=
  ∀ (k : Fin 4) (start limit : Addr) (s : State),
    let n := limit.toNat - start.toNat
    let last := (s.inByte (limit.toNat - 1)).toNat
    (streamOk s.inByte start.toNat limit.toNat →
      ∃ b : BitReader, exec (.brInit k start limit) s = .next { s with br := s.br.set k b } ∧
        b.start = start ∧
        (8 ≤ n → b.cur = limit - 8 ∧ b.consumed.toNat = 8 - highbit last) ∧
        (n < 8 → b.cur = start ∧ b.consumed.toNat = 8 - highbit last + (8 - n) * 8) ∧
        readerOk s.inByte start.toNat limit.toNat b ∧
        b.position = (streamBits s.inByte start.toNat limit.toNat : Int)) ∧
    (limit.toNat ≤ start.toNat → exec (.brInit k start limit) s = .next (faultEntry .bitstreamEmpty s)) ∧
    (start.toNat < limit.toNat → last = 0 → exec (.brInit k start limit) s = .next (faultEntry .noEndMark s))

/-- BR.PEEK and BR.PEEKFAST (R142, R143, R146): their values, equal for 1 to 63 bits; while the bits lie in the container they
are the next bits below those consumed, most significant first. -/
def Obligations.BitReaderPeeks : Prop :=
  ∀ (k : Fin 4) (s : State),
    let b := s.br.get k
    let sh := b.consumed.toNat % 64
    (∀ n : BitVec 6, exec (.brPeek k n) s = .next { s with result := ((b.word <<< sh) >>> 1) >>> (63 - n.toNat) }) ∧
    (∀ n : BitVec 6, exec (.brPeekFast k n) s = .next { s with result := (b.word <<< sh) >>> (64 - (n.toNat + 1)) }) ∧
    (∀ n : BitVec 6, n ≠ 0 → exec (.brPeek k n) s = exec (.brPeekFast k (n - 1)) s) ∧
    (∀ n : BitVec 6, b.consumed.toNat + n.toNat ≤ 64 →
      exec (.brPeek k n) s = .next { s with
        result := BitVec.ofNat 64 (b.word.toNat / 2 ^ (64 - b.consumed.toNat - n.toNat) % 2 ^ n.toNat) })

/-- BR.REFILL (R144, R147, R148): OVERFLOW, for more than 64 consumed bits, changes nothing; MORE and EXHAUSTED keep the position
and the container's contents. The status is MORE exactly where the reader is not at its start and the step of `CONSUMED / 8`
bytes fits, one that lands on the start too (B9): then CUR falls by the step and fewer than eight bits stay consumed; it is
EXHAUSTED else, the reader standing at its start, and nothing changes where it stood there before. For a region past 2^32, which
R147 excludes, the bytes there read as 0: the model's choice (log 27). -/
def Obligations.BitReaderRefilled : Prop :=
  ∀ (k : Fin 4) (s : State) (start limit : Nat), readerOk s.inByte start limit (s.br.get k) →
    ∃ (b : BitReader) (r : Word64),
      exec (.brRefill k) s = .next { s with br := s.br.set k b, result := r } ∧
      readerOk s.inByte start limit b ∧
      (64 < (s.br.get k).consumed.toNat → r = 2 ∧ b = s.br.get k) ∧
      ((s.br.get k).consumed.toNat ≤ 64 → r ≠ 2 ∧ b.position = (s.br.get k).position ∧
        b.consumed.toNat ≤ (s.br.get k).consumed.toNat ∧
        (r = 0 ↔ (s.br.get k).cur ≠ (s.br.get k).start ∧
          (s.br.get k).start.toNat + (s.br.get k).consumed.toNat / 8 ≤ (s.br.get k).cur.toNat) ∧
        (r = 0 → b.cur.toNat = (s.br.get k).cur.toNat - (s.br.get k).consumed.toNat / 8 ∧
          b.consumed.toNat = (s.br.get k).consumed.toNat % 8) ∧
        (r ≠ 0 → r = 1 ∧ b.cur = b.start) ∧
        ((s.br.get k).cur = (s.br.get k).start → r = 1 ∧ b = s.br.get k))

/-! ## FSE tables -/

/-- FSE.RLE and FSE.PREDEF (R172, R175), and the ROM tables are what FSE.BUILD makes of the default distributions (R176 to
R178). -/
def Obligations.SmallTables : Prop :=
  (∀ (t : TableId) (v : Byte) (s : State), ∃ u,
    exec (.fseRle t v) s = .next u ∧ u = { s with llt := u.llt, oft := u.oft, mlt := u.mlt, hwt := u.hwt } ∧
    u.tableLog t = 0 ∧ u.tableEntry t 0 = some ⟨v, 0, 0⟩ ∧
    (t ≠ .llt → u.llt = s.llt) ∧ (t ≠ .oft → u.oft = s.oft) ∧ (t ≠ .mlt → u.mlt = s.mlt) ∧
    (t ≠ .hwt → u.hwt = s.hwt)) ∧
  (∀ s : State,
    exec (.fsePredef .ll) s = .next { s with llSel := .predef } ∧
    exec (.fsePredef .of) s = .next { s with ofSel := .predef } ∧
    exec (.fsePredef .ml) s = .next { s with mlSel := .predef }) ∧
  (∀ (x : Alphabet) (d : List Int), (x, d) ∈ [(.ll, llDefault), (.of, ofDefault), (.ml, mlDefault)] →
    (match fseBuild (romLog x) d.length
        (⟨FseTable.zero 64, ⟨Vector.ofFn fun i : Fin 256 => BitVec.ofInt 16 (d.getD i.val 0), Vector.replicate 256 0⟩, 0⟩ :
          TableUnit 64) with
      | .ok _ r => ∀ i < 2 ^ romLog x, romEntry x i = r.tab.ram[i]?
      | .raise _ _ => False
      | .stop _ => False))

/-- FSE.BUILD (R167 to R170): from counts that meet the preconditions the table is built; the spread lands on every slot, so
E_FSE_SPREAD is not taken: each symbol has as many slots as its count says, at the places the spread gives it (R168), every slot
holds a described symbol and has the fields of its rank (R169), and no entry leads out of the table. -/
def Obligations.FseTableBuilt : Prop :=
  ∀ (tb : TableId) (logM : BitVec 3) (nsymM : BitVec 8) (s : State), WellFormed (.fseBuild tb logM nsymM) →
    countsOk s.fse.norm (logM.toNat + 5) (nsymM.toNat + 1) →
    ∃ t, exec (.fseBuild tb logM nsymM) s = .next t ∧
      t = { s with llt := t.llt, oft := t.oft, mlt := t.mlt, hwt := t.hwt, fse := t.fse } ∧
      (tb ≠ .llt → t.llt = s.llt) ∧ (tb ≠ .oft → t.oft = s.oft) ∧ (tb ≠ .mlt → t.mlt = s.mlt) ∧
      (tb ≠ .hwt → t.hwt = s.hwt) ∧ t.fse.norm = s.fse.norm ∧
      t.tableLog tb = logM.toNat + 5 ∧ tableClosed (t.tableEntry tb) (logM.toNat + 5) ∧
      slotsCounted s.fse.norm (t.tableEntry tb) (logM.toNat + 5) (nsymM.toNat + 1) ∧
      slotsSpread s.fse.norm (t.tableEntry tb) (logM.toNat + 5) (nsymM.toNat + 1) ∧
      slotsRanked s.fse.norm (t.tableEntry tb) (logM.toNat + 5)

/-- FSE.READTABLE (R162 to R165, R167, R170): on a description that R162 accepts the table is built and the number of its bytes
is returned (in the result register, log 8): NORM holds the counts read, they meet the preconditions of FSE.BUILD, each symbol
has as many slots as its count says, at the places of the spread, each slot has the fields of its rank, and no entry leads out
of the table. One pass of the description loop, in terms of the bits it reads: after a count of 0 the zero run (R164), with its
16-bit groups, its 2-bit groups of 3 and its last group; then the count field (R163), short or long, the value it stands for,
what remains and the width of the next field; and the loop's start and end (R162, R165). A region under four bytes takes E_TRUNCATED, a log
above the limit E_FSE_LOG, and counts that name a symbol above the limit or do not end as R162 asks take E_FSE_SYMBOL and
E_FSE_HEADER; each fault leaves the table unspecified (log 14). -/
def Obligations.FseTableRead : Prop :=
  ∀ (tb : TableId) (start limit : Addr) (ms : BitVec 8) (ml : BitVec 3) (s : State),
    WellFormed (.fseReadTable tb start limit ms ml) →
    let a := start.toNat
    let log := (s.inByte a).toNat % 16 + 5
    let i : Instr := .fseReadTable tb start limit ms ml
    (a + 4 ≤ limit.toNat → log ≤ ml.toNat + 5 →
      (∀ st, readNorm s.inByte a limit.toNat ms.toNat log s.fse.norm = .ok () st →
        ∃ t, exec i s = .next t ∧
          t = { s with llt := t.llt, oft := t.oft, mlt := t.mlt, hwt := t.hwt, fse := t.fse, result := t.result } ∧
          (tb ≠ .llt → t.llt = s.llt) ∧ (tb ≠ .oft → t.oft = s.oft) ∧ (tb ≠ .mlt → t.mlt = s.mlt) ∧
          (tb ≠ .hwt → t.hwt = s.hwt) ∧
          t.result.toNat = ceilDiv st.pos 8 ∧ a + t.result.toNat ≤ limit.toNat ∧
          t.fse.norm = st.norm ∧ 1 ≤ st.sym ∧ st.sym ≤ ms.toNat + 1 ∧ countsOk t.fse.norm log st.sym ∧
          t.tableLog tb = log ∧ tableClosed (t.tableEntry tb) log ∧
          slotsCounted t.fse.norm (t.tableEntry tb) log st.sym ∧ slotsSpread t.fse.norm (t.tableEntry tb) log st.sym ∧
          slotsRanked t.fse.norm (t.tableEntry tb) log) ∧
      (∀ e st, readNorm s.inByte a limit.toNat ms.toNat log s.fse.norm = .raise e st →
        (e = .fseSymbol ∨ e = .fseHeader) ∧
        ∃ t, exec i s = .next t ∧ t.phase = .fault ∧ t.errCode = (if e = .fseSymbol then 7 else 8)) ∧
      (∀ f, readNorm s.inByte a limit.toNat ms.toNat log s.fse.norm ≠ .stop f)) ∧
    (limit.toNat < a + 4 → ∃ t, exec i s = .next t ∧ t.phase = .fault ∧ t.errCode = 1) ∧
    (a + 4 ≤ limit.toNat → ml.toNat + 5 < log → ∃ t, exec i s = .next t ∧ t.phase = .fault ∧ t.errCode = 6) ∧
    zeroRunPass s.inByte a limit.toNat ms.toNat ∧ countPass s.inByte a limit.toNat ms.toNat ∧
    loopEnds s.inByte a limit.toNat ms.toNat log s.fse.norm

/-- FSEDESC (R162, R314): on a description that R162 accepts with the alphabet's limits (R166), the RAM table is built and
current, the description's bytes are passed and the next table is next. -/
def Obligations.DescriptionElementCompletes : Prop :=
  ∀ (x : Alphabet) (lo hi : BitVec 4) (s : State),
    let ms := [35, 31, 52].getD x.code 0
    lo = (s.inByte s.ip.toNat).extractLsb' 0 4 →
    descriptionOk s.inByte s.ip.toNat s.blk.limit.toNat ms ([9, 8, 9].getD x.code 0) s.fse.norm →
    ∃ t u, exec (.fsedesc x lo hi) s = .next t ∧ t = nextTable x u ∧
      u = { s.setSel x .ram with
        llt := u.llt, oft := u.oft, mlt := u.mlt, fse := u.fse
        ip := s.ip + BitVec.ofNat 32 (descriptionBytes s.inByte s.ip.toNat s.blk.limit.toNat ms s.fse.norm) } ∧
      (x ≠ .ll → u.llt = s.llt) ∧ (x ≠ .of → u.oft = s.oft) ∧ (x ≠ .ml → u.mlt = s.mlt) ∧
      u.tableLog x.table = lo.toNat + 5 ∧ tableClosed (u.tableEntry x.table) (lo.toNat + 5)

/-- FSE.DECOMPRESS (R190 to R193): on a table whose entries stay inside it and a region with an end mark it completes with 2
to `cap` symbols or takes E_FSE_OUTPUT; where the region holds both initial states, the symbols are those of the two
interleaved states, and E_FSE_OUTPUT is taken exactly when they are more than `cap`. Completing writes only BR[0], the
weights below the count and the result register, where the model holds the returned count (log 8). -/
def Obligations.FseStreamDecompressed : Prop :=
  ∀ (tb : TableId) (start limit : Addr) (cap : BitVec 8) (s : State),
    s.tableLog tb ≤ 9 → tableClosed (s.tableEntry tb) (s.tableLog tb) →
    streamOk s.inByte start.toNat limit.toNat → s.phase ≠ .fault →
    ∃ t, exec (.fseDecompress tb start limit cap) s = .next t ∧
      ((t = { s with br := s.br.set 0 (t.br.get 0), huf := { s.huf with w := t.huf.w }, result := t.result } ∧
          2 ≤ t.result.toNat ∧ t.result.toNat ≤ cap.toNat ∧
          ∀ i, t.result.toNat ≤ i → ramGet t.huf.w i 0 = ramGet s.huf.w i 0) ∨
        (t.phase = .fault ∧ t.errCode = 10)) ∧
      (2 * s.tableLog tb ≤ streamBits s.inByte start.toNat limit.toNat →
        match s.fseRegion tb start.toNat limit.toNat cap.toNat with
        | some ws => t.phase = s.phase ∧ t.result.toNat = ws.length ∧ ∀ i < ws.length, ramGet t.huf.w i 0 = ws.getD i 0
        | none => t.phase = .fault)

/-! ## Huffman -/

/-- HUF.READTABLE (R103, R201 to R208): the direct form builds from the nibbles of its bytes: HUF.W holds them and every symbol
has its slots; the FSE form is FSE.READTABLE, FSE.DECOMPRESS and HUF.BUILD one after the other; a table that builds is loaded
and the description's length is returned (in the result register, log 8); a check that fails, and in the FSE form a fault of
each of the three, is the fault taken, with HUF.LOADED clear. That bytes of a description past 2^32, which R201 excludes, read
as 0 is the model's choice (log 24). -/
def Obligations.HuffmanTableRead : Prop :=
  ∀ (start : Addr) (size : BitVec 18) (s : State),
    let h := (s.inByte start.toNat).toNat
    let s0 := { s with huf := { s.huf with loaded := false } }
    let i : Instr := .hufReadTable start size
    (size = 0 → exec i s = .next (faultEntry .truncated s0)) ∧
    (size ≠ 0 → 128 ≤ h →
      let ws := directWeightList s.inByte h start.toNat
      (size.toNat < 1 + ceilDiv (h - 127) 2 → exec i s = .next (faultEntry .truncated s0)) ∧
      (1 + ceilDiv (h - 127) 2 ≤ size.toNat → weightFault ws = none →
        ∃ t, exec i s = .next t ∧
          t = { s with huf := t.huf, result := BitVec.ofNat 64 (1 + ceilDiv (h - 127) 2) } ∧
          t.huf.loaded = true ∧ ws.length = h - 127 ∧ hufBuiltFrom t.huf ws) ∧
      (∀ e, 1 + ceilDiv (h - 127) 2 ≤ size.toNat → weightFault ws = some e →
        ∃ t, exec i s = .next t ∧ t.phase = .fault ∧ t.errCode = e.code ∧ t.huf.loaded = false)) ∧
    (size ≠ 0 → h < 128 → s.phase ≠ .fault →
      (size.toNat < 1 + h → exec i s = .next (faultEntry .truncated s0)) ∧
      (∀ t1, start.toNat + 1 + h < 2 ^ 32 → 1 + h ≤ size.toNat →
        let lim := start + 1 + BitVec.ofNat 32 h
        exec (.fseReadTable .hwt (start + 1) lim 255 1) s0 = .next t1 →
        (t1.phase = .fault → exec i s = .next t1 ∧ t1.huf.loaded = false) ∧
        (t1.phase ≠ .fault → ∀ t2,
          exec (.fseDecompress .hwt (start + 1 + t1.result.setWidth 32) lim 255) t1 = .next t2 →
          (t2.phase = .fault → exec i s = .next { t2 with result := s.result } ∧ t2.huf.loaded = false) ∧
          (t2.phase ≠ .fault → ∀ t3, exec (.hufBuild (t2.result.setWidth 8 - 1)) t2 = .next t3 →
            (t3.phase = .fault → exec i s = .next { t3 with result := s.result } ∧ t3.huf.loaded = false) ∧
            (t3.phase ≠ .fault → exec i s = .next { t3 with
              huf := { t3.huf with loaded := true }, result := BitVec.ofNat 64 (1 + h) })))))

/-- HTREE_FSE, and HUF.READTABLE on such a description (R201, R203, R296): where the description of the weights' table is one
that R162 accepts, the stream after it decodes through that table to at most 255 weights, and the weights pass the checks,
the Huffman table is built from them and loaded and the bytes of the tree are passed. -/
def Obligations.CompressedTreeCompletes : Prop :=
  ∀ (len : BitVec 7) (s : State),
    let a := s.ip.toNat
    let lim := a + 1 + len.toNat
    s.inByte a = len.setWidth 8 → lim < 2 ^ 32 → 1 + len.toNat ≤ s.lit.comp.toNat → s.phase = .block →
    descriptionOk s.inByte (a + 1) lim 255 6 s.fse.norm →
    ∃ t1, exec (.fseReadTable .hwt (s.ip + 1) (s.ip + 1 + len.setWidth 32) 255 1) s = .next t1 ∧
      ∀ ws, streamOk s.inByte (a + 1 + t1.result.toNat) lim →
        2 * t1.tableLog .hwt ≤ streamBits s.inByte (a + 1 + t1.result.toNat) lim →
        t1.fseRegion .hwt (a + 1 + t1.result.toNat) lim 255 = some ws →
        weightFault (ws.map BitVec.toNat) = none →
        (∃ t, exec (.hufReadTable s.ip s.lit.comp) s = .next t ∧
          t = { s with
            hwt := t.hwt, fse := t.fse, br := s.br.set 0 (t.br.get 0), huf := t.huf
            result := BitVec.ofNat 64 (1 + len.toNat) } ∧
          t.huf.loaded = true ∧ hufBuiltFrom t.huf (ws.map BitVec.toNat)) ∧
        (∃ t, exec (.htreeFse len) s = .next t ∧
          t = { s with
            hwt := t.hwt, fse := t.fse, br := s.br.set 0 (t.br.get 0), huf := t.huf
            ip := s.ip + 1 + len.setWidth 32, sub := if s.lit.single then .litEnd else .jump, issue := t.issue } ∧
          t.huf.loaded = true ∧ hufBuiltFrom t.huf (ws.map BitVec.toNat))

/-- HUF.BUILD (R204 to R206): weights that pass the five checks give the table of R206, each symbol its contiguous slots with
its code length; else the first check that fails gives the fault. -/
def Obligations.HuffmanTableBuilt : Prop :=
  ∀ (nM : BitVec 8) (s : State), WellFormed (.hufBuild nM) →
    let w := hufWeights s.huf (nM.toNat + 1)
    let ws := allWeights w
    (weightFault w = none →
      ∃ t, exec (.hufBuild nM) s = .next t ∧
        t = { s with huf := t.huf } ∧ t.huf.loaded = s.huf.loaded ∧ t.huf.log.toNat = weightLog w ∧ hufTableOk t.huf ∧
        ∀ sym, 1 ≤ ws.getD sym 0 → ∀ j < 2 ^ (ws.getD sym 0 - 1),
          ramGet t.huf.ram (slotStart ws sym + j) ⟨0, 0⟩ =
            ⟨BitVec.ofNat 8 sym, BitVec.ofNat 4 (weightLog w + 1 - ws.getD sym 0)⟩) ∧
    (∀ e, weightFault w = some e →
      ∃ t, exec (.hufBuild nM) s = .next t ∧ t.phase = .fault ∧ t.errCode = e.code ∧ t.huf.loaded = s.huf.loaded)

/-- HUF.DEC1 computes what R213 says (R210, R211): it completes exactly when the region's symbols take all its bits, and then
the first `n` bytes of LIT are those symbols and no other byte of LIT changes, the slack of R79 included (the model's choice,
log 23); else E_HUF_STREAM_END. A region that BR.INIT turns away takes E_BITSTREAM_EMPTY or E_NO_END_MARK and nothing is written
before it (R141, R214). -/
def Obligations.OneStreamDecoded : Prop :=
  ∀ (start limit : Addr) (n : BitVec 20) (s : State), s.memOk → WellFormed (.hufDec1 start limit n) →
    (streamOk s.inByte start.toNat limit.toNat → (n = 0 ∨ hufTableOk s.huf) →
      (∀ syms, regionSymbols s.inByte s.huf start.toNat limit.toNat n.toNat = some syms →
        ∃ t, exec (.hufDec1 start limit n) s = .next t ∧
          t = { s with br := s.br.set 0 (t.br.get 0), litbuf := t.litbuf } ∧
          (t.br.get 0).cur = start ∧ (t.br.get 0).consumed = 64 ∧
          (∀ k < n.toNat, t.litByte k = syms.getD k 0) ∧ ∀ k, n.toNat ≤ k → t.litByte k = s.litByte k) ∧
      (regionSymbols s.inByte s.huf start.toNat limit.toNat n.toNat = none →
        ∃ t, exec (.hufDec1 start limit n) s = .next t ∧ t.phase = .fault ∧ t.errCode = 16)) ∧
    (limit.toNat ≤ start.toNat → exec (.hufDec1 start limit n) s = .next (faultEntry .bitstreamEmpty s)) ∧
    (start.toNat < limit.toNat → s.inByte (limit.toNat - 1) = 0 →
      exec (.hufDec1 start limit n) s = .next (faultEntry .noEndMark s))

/-- HUF.DEC4 computes what R213 says of its four segments (R212): it completes exactly when each stream's symbols take all its
bits; a region under ten bytes or a jump table past it take E_HUF_JUMP, sizes 1, 2 and 5 take E_HUF_SEGMENTS, and the first
stream that BR.INIT turns away takes its E_BITSTREAM_EMPTY or E_NO_END_MARK, with the readers before it initialised and nothing
else written (R141, R214). That no byte of LIT above the first `n` changes, the slack of R79 included, is the model's choice
(log 23). -/
def Obligations.FourStreamsDecoded : Prop :=
  ∀ (start limit : Addr) (n : BitVec 20) (s : State), s.memOk → WellFormed (.hufDec4 start limit n) →
    let rd := s.inByte
    (fourStreamsOk rd start.toNat limit.toNat n.toNat → (n = 0 ∨ hufTableOk s.huf) →
      (∀ syms, fourSymbols rd s.huf start.toNat limit.toNat n.toNat = some syms →
        ∃ t, exec (.hufDec4 start limit n) s = .next t ∧
          t = { s with br := t.br, litbuf := t.litbuf } ∧
          (∀ k < n.toNat, t.litByte k = syms.getD k 0) ∧ ∀ k, n.toNat ≤ k → t.litByte k = s.litByte k) ∧
      (fourSymbols rd s.huf start.toNat limit.toNat n.toNat = none →
        ∃ t, exec (.hufDec4 start limit n) s = .next t ∧ t.phase = .fault ∧ t.errCode = 16)) ∧
    (limit.toNat < start.toNat + 10 → exec (.hufDec4 start limit n) s = .next (faultEntry .hufJump s)) ∧
    (start.toNat + 10 ≤ limit.toNat → n = 1 ∨ n = 2 ∨ n = 5 →
      exec (.hufDec4 start limit n) s = .next (faultEntry .hufSegments s)) ∧
    (start.toNat + 10 ≤ limit.toNat → 3 * ceilDiv n.toNat 4 ≤ n.toNat →
      limit.toNat < jumpStart rd start.toNat limit.toNat 3 →
      exec (.hufDec4 start limit n) s = .next (faultEntry .hufJump s)) ∧
    (∀ (k : Fin 4) (e : ErrCode), streamTurnedAway rd start.toNat limit.toNat n.toNat k.val e →
      ∃ br : Vector BitReader 4, exec (.hufDec4 start limit n) s = .next (faultEntry e { s with br := br }) ∧
        ∀ j : Fin 4, k ≤ j → br.get j = s.br.get j)

/-! ## Checksum -/

/-- XXH.HASH (R230, R231, R235, R236): it completes and writes only the XXH registers; the hash is a function of the bytes of
`[a, a + len)` alone (with `a + len` above 2^32, which R230 excludes: the model's choice, log 24); the worked values of "abc",
of ten times 41, of 32 and 40 rising bytes, and of the 22 bytes of program P4: the short path and the stripes, the tails of 8, 4
and 1 bytes. -/
def Obligations.ContentHashed : Prop :=
  (∀ (a : Addr) (len : BitVec 32) (s : State), ∃ x : XxhRegs,
    exec (.xxhHash a len) s = .next { s with xxh := x } ∧ x.len = len.setWidth 64 ∧
    (len.toNat < 32 → x.v1 = s.xxh.v1 ∧ x.v2 = s.xxh.v2 ∧ x.v3 = s.xxh.v3 ∧ x.v4 = s.xxh.v4)) ∧
  (∀ (a b : Addr) (len : BitVec 32) (s t u v : State), exec (.xxhHash a len) s = .next u →
    exec (.xxhHash b len) t = .next v →
    (∀ i < len.toNat, s.outByte (a.toNat + i) = t.outByte (b.toNat + i)) → u.xxh.h = v.xxh.h) ∧
  (xxhHash (fun i => BitVec.ofNat 8 (97 + i)) 0 3 ⟨0, 0, 0, 0, 0, 0⟩).h = 0x44BC2CF5AD770999 ∧
  (xxhHash (fun i => BitVec.ofNat 8 i) 0 32 ⟨0, 0, 0, 0, 0, 0⟩).h = 0xCBF59C5116FF32B4 ∧
  (xxhHash (fun _ => 0x41) 0 10 ⟨0, 0, 0, 0, 0, 0⟩).h = 0x0624ED1F2ACA5533 ∧
  (xxhHash (fun i => BitVec.ofNat 8 i) 0 40 ⟨0, 0, 0, 0, 0, 0⟩).h = 0xF5DA40F1B11741E9 ∧
  (xxhHash (([3, 0, 3, 1, 2, 3, 3, 0, 3, 3, 0, 3, 3, 1, 2, 3] ++ List.replicate 6 0x7A).getD · 0) 0 22
    ⟨0, 0, 0, 0, 0, 0⟩).h = 0xDBA5B233671D91E4
end

