-- ==== Sys2Proof/Laws/Bytes.lean ====
section
/-! SUPPORT. Byte strings and the little-endian numbers they hold; what the word reader of the decoder accepts. -/
namespace Sys2Proof

@[simp] theorem leBytes_length (n v : Nat) : (leBytes n v).length = n := by
  induction n generalizing v with
  | zero => rfl
  | succ n ih => simp [leBytes, ih]

/-- The value of the `n` low bytes of a number (R63, R66). -/
theorem leNat_leBytes (n v : Nat) : leNat (leBytes n v) = v % 256 ^ n := by
  induction n generalizing v with
  | zero => simp [leBytes, leNat, Nat.mod_one]
  | succ n ih =>
    rw [leBytes, leNat, ih, pow_succ, mul_comm (256 ^ n) 256, Nat.mod_mul]
    simp

theorem leNat_lt (bs : List Byte) : leNat bs < 256 ^ bs.length := by
  induction bs with
  | nil => simp [leNat]
  | cons b r ih =>
    have hb := b.isLt
    simp only [leNat, List.length_cons, pow_succ]
    omega

/-- A byte string is the bytes of its value. -/
theorem leBytes_leNat (bs : List Byte) : leBytes bs.length (leNat bs) = bs := by
  induction bs with
  | nil => rfl
  | cons b r ih =>
    have h1 : (b.toNat + 256 * leNat r) / 256 = leNat r := by
      have := b.isLt
      omega
    have h2 : BitVec.ofNat 8 (b.toNat + 256 * leNat r) = b := by
      apply BitVec.eq_of_toNat_eq
      have := b.isLt
      simp only [BitVec.toNat_ofNat]
      omega
    rw [List.length_cons, leBytes, leNat, h1, h2, ih]

/-- The value of a byte string of `n` bytes followed by others. -/
theorem leNat_append (l r : List Byte) : leNat (l ++ r) = leNat l + 256 ^ l.length * leNat r := by
  induction l with
  | nil => simp [leNat]
  | cons b l ih =>
    simp only [List.cons_append, leNat, ih, List.length_cons, pow_succ]
    ring

/-- What the word reader accepts: `n` bytes whose value is interpreted as a well-formed instruction. -/
theorem withWord_eq_ok {n : Nat} {bs : List Byte} {f : Nat → Except Reject Instr} {i : Instr} {rest : List Byte} :
    withWord n bs f = .ok (i, rest) ↔
      n ≤ bs.length ∧ f (leNat (bs.take n)) = .ok i ∧ wellFormed i = true ∧ rest = bs.drop n := by
  unfold withWord
  by_cases h : bs.length < n
  · have : ¬ n ≤ bs.length := by omega
    simp [h, this]
  · have hn : n ≤ bs.length := by omega
    simp only [h, if_false, hn, true_and]
    cases hf : f (leNat (bs.take n)) with
    | error r => simp
    | ok j =>
      simp only
      by_cases hw : wellFormed j = true
      · simp only [hw, if_true, Except.ok.injEq, Prod.mk.injEq]
        constructor
        · rintro ⟨rfl, rfl⟩; exact ⟨rfl, hw, rfl⟩
        · rintro ⟨rfl, _, rfl⟩; exact ⟨rfl, rfl⟩
      · simp only [hw, if_false, reduceCtorEq, Except.ok.injEq, false_iff, not_and]
        rintro rfl
        simp [hw]

/-- A field of a number is what lies between its bits. -/
theorem field_toNat (h lo w : Nat) : (field h lo w).toNat = h / 2 ^ lo % 2 ^ w := by
  simp [field]

theorem bit_eq_true (h i : Nat) : bit h i = true ↔ h / 2 ^ i % 2 = 1 := by
  simp [bit]

@[simp] theorem bitNat_true : bitNat true = 1 := rfl

@[simp] theorem bitNat_false : bitNat false = 0 := rfl

theorem bitNat_lt (b : Bool) : bitNat b < 2 := by cases b <;> decide

namespace Machine

@[simp] theorem readBytes_length (rd : Nat → Byte) (a n : Nat) : (readBytes rd a n).length = n := by
  induction n generalizing a with
  | zero => rfl
  | succ n ih => simp [readBytes, ih]

theorem readBytes_getElem (rd : Nat → Byte) (a n k : Nat) (h : k < n) : (readBytes rd a n)[k]? = some (rd (a + k)) := by
  induction n generalizing a k with
  | zero => omega
  | succ n ih =>
    cases k with
    | zero => rfl
    | succ k =>
      rw [readBytes, List.getElem?_cons_succ, ih (a + 1) k (by omega)]
      congr 2
      omega

/-- The bytes read depend on the reader at the addresses read only. -/
theorem readBytes_congr {rd rd' : Nat → Byte} {a n : Nat} (h : ∀ k < n, rd (a + k) = rd' (a + k)) :
    readBytes rd a n = readBytes rd' a n := by
  induction n generalizing a with
  | zero => rfl
  | succ n ih =>
    have h0 : rd a = rd' a := h 0 (by omega)
    rw [readBytes, readBytes, h0]
    congr 1
    refine ih fun k hk => ?_
    have := h (k + 1) (by omega)
    rwa [show a + (k + 1) = a + 1 + k by omega] at this

theorem readBytes_append (rd : Nat → Byte) (a m n : Nat) :
    readBytes rd a (m + n) = readBytes rd a m ++ readBytes rd (a + m) n := by
  induction m generalizing a with
  | zero => simp [readBytes]
  | succ m ih =>
    rw [show m + 1 + n = (m + n) + 1 by omega, readBytes, ih, readBytes, List.cons_append,
      show a + 1 + m = a + (m + 1) by omega]

/-- A multi-byte read fits its bytes (R66). -/
theorem memRead_lt (rd : Nat → Byte) (a n : Nat) : memRead rd a n < 256 ^ n := by
  have := leNat_lt (readBytes rd a n)
  rwa [readBytes_length] at this

theorem memRead_append (rd : Nat → Byte) (a m n : Nat) :
    memRead rd a (m + n) = memRead rd a m + 256 ^ m * memRead rd (a + m) n := by
  unfold memRead
  rw [readBytes_append, leNat_append, readBytes_length]

end Machine

end Sys2Proof
end

