-- ==== Sys2Proof/Laws/Memory.lean ====
section
/-! SUPPORT. The byte spaces: a read after a write or a scrap, and that every memory operation keeps the canonical form. -/
namespace Sys2Proof.Machine

/-! ## Listed bytes -/

theorem cellAt_of_below {a : Nat} {l : List Host.Cell} (h : ∀ c ∈ l, a < c.1) : cellAt a l = blankByte := by
  induction l with
  | nil => rfl
  | cons c r ih =>
    have hc := h c (by simp)
    have hne : ¬ c.1 = a := by omega
    simp only [cellAt, hne, if_false]
    exact ih fun d hd => h d (by simp [hd])

theorem cellAt_putCell_same {a : Nat} {b : Byte} {l : List Host.Cell} (h : l.Pairwise (fun c d => c.1 < d.1)) :
    cellAt a (putCell a b l) = b := by
  induction l with
  | nil =>
    by_cases hb : b = blankByte
    · simp [putCell, hb, cellAt]
    · simp [putCell, hb, cellAt]
  | cons c r ih =>
    obtain ⟨x, y⟩ := c
    have hr := List.pairwise_cons.mp h
    by_cases h1 : a < x
    · by_cases hb : b = blankByte
      · have hbelow : ∀ d ∈ (x, y) :: r, a < d.1 := by
          intro d hd
          rcases List.mem_cons.mp hd with rfl | hd
          · exact h1
          · exact lt_trans h1 (hr.1 d hd)
        simpa [putCell, h1, hb] using cellAt_of_below hbelow
      · simp [putCell, h1, hb, cellAt]
    · by_cases h2 : a = x
      · subst h2
        by_cases hb : b = blankByte
        · simpa [putCell, hb] using cellAt_of_below hr.1
        · simp [putCell, hb, cellAt]
      · have hne : ¬ x = a := fun h => h2 h.symm
        simp [putCell, h1, h2, cellAt, hne, ih hr.2]

theorem cellAt_putCell_other {a x : Nat} {b : Byte} {l : List Host.Cell} (hx : x ≠ a) :
    cellAt x (putCell a b l) = cellAt x l := by
  have hax : ¬ a = x := fun h => hx h.symm
  induction l with
  | nil => by_cases hb : b = blankByte <;> simp [putCell, hb, cellAt, hax]
  | cons c r ih =>
    obtain ⟨z, y⟩ := c
    by_cases h1 : a < z
    · by_cases hb : b = blankByte <;> simp [putCell, h1, hb, cellAt, hax]
    · by_cases h2 : a = z
      · subst h2
        by_cases hb : b = blankByte <;> simp [putCell, hb, cellAt, hax]
      · by_cases hz : z = x
        · subst hz
          simp [putCell, h1, h2, cellAt]
        · simp [putCell, h1, h2, cellAt, hz, ih]

theorem mem_putCell {a : Nat} {b : Byte} {c : Host.Cell} {l : List Host.Cell} (h : c ∈ putCell a b l) :
    (c = (a, b) ∧ b ≠ blankByte) ∨ c ∈ l := by
  induction l with
  | nil =>
    by_cases hb : b = blankByte
    · simp [putCell, hb] at h
    · simp [putCell, hb] at h
      exact .inl ⟨h, hb⟩
  | cons d r ih =>
    obtain ⟨z, y⟩ := d
    by_cases h1 : a < z
    · by_cases hb : b = blankByte
      · simp only [putCell, h1, hb, if_true] at h
        exact .inr h
      · simp only [putCell, h1, hb, if_true, if_false] at h
        rcases List.mem_cons.mp h with h | h
        · exact .inl ⟨h, hb⟩
        · exact .inr h
    · by_cases h2 : a = z
      · by_cases hb : b = blankByte
        · simp only [putCell, h2, hb, if_true, lt_irrefl, if_false] at h
          exact .inr (List.mem_cons_of_mem _ h)
        · simp only [putCell, h2, hb, if_true, lt_irrefl, if_false] at h
          rcases List.mem_cons.mp h with h | h
          · exact .inl ⟨by rw [h, h2], hb⟩
          · exact .inr (List.mem_cons_of_mem _ h)
      · simp only [putCell, h1, h2, if_false] at h
        rcases List.mem_cons.mp h with h | h
        · exact .inr (by simp [h])
        · rcases ih h with h | h
          · exact .inl h
          · exact .inr (List.mem_cons_of_mem _ h)

theorem pairwise_putCell {a : Nat} {b : Byte} {l : List Host.Cell} (h : l.Pairwise (fun c d => c.1 < d.1)) :
    (putCell a b l).Pairwise (fun c d => c.1 < d.1) := by
  induction l with
  | nil => by_cases hb : b = blankByte <;> simp [putCell, hb]
  | cons d r ih =>
    obtain ⟨z, y⟩ := d
    have hr := List.pairwise_cons.mp h
    by_cases h1 : a < z
    · by_cases hb : b = blankByte
      · simpa [putCell, h1, hb] using h
      · simp only [putCell, h1, hb, if_true, if_false]
        refine List.pairwise_cons.mpr ⟨?_, h⟩
        intro c hc
        rcases List.mem_cons.mp hc with rfl | hc
        · exact h1
        · exact lt_trans h1 (hr.1 c hc)
    · by_cases h2 : a = z
      · subst h2
        by_cases hb : b = blankByte
        · simpa [putCell, hb] using hr.2
        · simp only [putCell, hb, lt_irrefl, if_true, if_false]
          exact List.pairwise_cons.mpr ⟨hr.1, hr.2⟩
      · simp only [putCell, h1, h2, if_false]
        refine List.pairwise_cons.mpr ⟨?_, ih hr.2⟩
        intro c hc
        rcases mem_putCell hc with ⟨rfl, _⟩ | hc
        · show z < a
          omega
        · exact hr.1 c hc

/-! ## Junk ranges -/

@[simp] theorem covers_iff (j : Junk) (x : Nat) : j.covers x = true ↔ j.lo ≤ x ∧ x < j.hi := by
  simp [Junk.covers]

theorem mem_without {j k : Junk} {lo hi : Nat} (h : k ∈ j.without lo hi) :
    k.lo < k.hi ∧ j.lo ≤ k.lo ∧ k.hi ≤ j.hi ∧ k.tag = j.tag ∧ (k.hi ≤ lo ∨ hi ≤ k.lo) := by
  unfold Junk.without at h
  rcases List.mem_append.mp h with h | h
  · split at h
    case isTrue hlt =>
      obtain rfl := List.mem_singleton.mp h
      exact ⟨hlt, le_refl _, min_le_left _ _, rfl, .inl (min_le_right _ _)⟩
    case isFalse => simp at h
  · split at h
    case isTrue hlt =>
      obtain rfl := List.mem_singleton.mp h
      exact ⟨hlt, le_max_left _ _, le_refl _, rfl, .inr (le_max_right _ _)⟩
    case isFalse => simp at h

theorem mem_cutJunk {k : Junk} {lo hi : Nat} {l : List Junk} (h : k ∈ cutJunk lo hi l) : ∃ j ∈ l, k ∈ j.without lo hi := by
  induction l with
  | nil => simp [cutJunk] at h
  | cons j r ih =>
    rcases List.mem_append.mp h with h | h
    · exact ⟨j, by simp, h⟩
    · obtain ⟨i, hi, hk⟩ := ih h
      exact ⟨i, by simp [hi], hk⟩

/-- The tag of the junk range that holds an address. -/
def junkTag (x : Nat) (l : List Junk) : Option Nat := (l.find? fun j => j.covers x).map Junk.tag

theorem byte_eq_junkTag (m : Memory) (x : Nat) :
    m.byte x = match junkTag x m.junk with
      | some t => Config.junkByte t x
      | none => cellAt x m.cells := by
  unfold Memory.byte junkTag
  cases m.junk.find? fun j => j.covers x <;> rfl

theorem junkTag_append (x : Nat) (l r : List Junk) : junkTag x (l ++ r) = (junkTag x l).or (junkTag x r) := by
  unfold junkTag
  rw [List.find?_append]
  cases l.find? fun j => j.covers x <;> rfl

theorem junkTag_cons (x : Nat) (j : Junk) (l : List Junk) :
    junkTag x (j :: l) = if j.covers x = true then some j.tag else junkTag x l := by
  unfold junkTag
  cases hc : j.covers x <;> simp [hc]

theorem junkTag_ifRange (x lo hi tag : Nat) :
    junkTag x (if lo < hi then [⟨lo, hi, tag⟩] else []) = if lo ≤ x ∧ x < hi then some tag else none := by
  by_cases h : lo < hi
  · simp [h, junkTag]
  · have : ¬ (lo ≤ x ∧ x < hi) := by omega
    simp [h, this, junkTag]

theorem junkTag_without (j : Junk) (lo hi x : Nat) (h : lo ≤ hi) :
    junkTag x (j.without lo hi) = if (lo ≤ x ∧ x < hi) ∨ j.covers x = false then none else some j.tag := by
  rw [Junk.without, junkTag_append, junkTag_ifRange, junkTag_ifRange]
  have hl : (j.lo ≤ x ∧ x < min j.hi lo) ↔ (j.lo ≤ x ∧ x < j.hi ∧ x < lo) := by rw [lt_min_iff]
  have hr : (max j.lo hi ≤ x ∧ x < j.hi) ↔ (j.lo ≤ x ∧ hi ≤ x ∧ x < j.hi) := by rw [max_le_iff, and_assoc]
  have hc : j.covers x = false ↔ ¬ (j.lo ≤ x ∧ x < j.hi) := by rw [← covers_iff, Bool.not_eq_true]
  simp only [hl, hr, hc]
  by_cases h1 : j.lo ≤ x ∧ x < j.hi ∧ x < lo
  · rw [if_pos h1, if_neg (by omega : ¬ (j.lo ≤ x ∧ hi ≤ x ∧ x < j.hi)), if_neg (by omega)]
    rfl
  · by_cases h2 : j.lo ≤ x ∧ hi ≤ x ∧ x < j.hi
    · rw [if_neg h1, if_pos h2, if_neg (by omega)]
      rfl
    · rw [if_neg h1, if_neg h2, if_pos (by omega)]
      rfl

theorem junkTag_cutJunk (l : List Junk) (lo hi x : Nat) (h : lo ≤ hi) :
    junkTag x (cutJunk lo hi l) = if lo ≤ x ∧ x < hi then none else junkTag x l := by
  induction l with
  | nil => simp [cutJunk, junkTag]
  | cons j r ih =>
    rw [cutJunk, junkTag_append, ih, junkTag_without j lo hi x h]
    rw [junkTag_cons]
    by_cases h1 : lo ≤ x ∧ x < hi
    · simp [h1]
    · cases hc : j.covers x <;> simp [h1]

theorem junkTag_insertJunk (l : List Junk) (n : Junk) (x : Nat) (h : n.covers x = true → junkTag x l = none) :
    junkTag x (insertJunk n l) = if n.covers x = true then some n.tag else junkTag x l := by
  induction l with
  | nil => cases hc : n.covers x <;> simp [insertJunk, junkTag, hc]
  | cons j r ih =>
    by_cases h1 : n.lo ≤ j.lo
    · simp only [insertJunk, h1, if_true]
      cases hc : n.covers x <;> simp [junkTag, hc]
    · simp only [insertJunk, h1, if_false]
      rw [junkTag_cons] at h
      rw [junkTag_cons, junkTag_cons]
      cases hc : j.covers x
      · have h' : n.covers x = true → junkTag x r = none := fun hn => by simpa [hc] using h hn
        simpa using ih h'
      · cases hn : n.covers x
        · simp
        · simp [hc, hn] at h

/-! ## Reading after a write or a scrap -/

@[simp] theorem byte_write_same {m : Memory} {size a : Nat} {b : Byte} (h : m.wf size) : (m.write a b).byte a = b := by
  rw [byte_eq_junkTag]
  simp [Memory.write, junkTag_cutJunk, cellAt_putCell_same h.1]

theorem byte_write_other {m : Memory} {a x : Nat} {b : Byte} (hx : x ≠ a) : (m.write a b).byte x = m.byte x := by
  rw [byte_eq_junkTag, byte_eq_junkTag]
  have hn : ¬ (a ≤ x ∧ x < a + 1) := by omega
  simp only [Memory.write, junkTag_cutJunk _ _ _ _ (Nat.le_succ a), hn, if_false, cellAt_putCell_other hx]

theorem byte_write {m : Memory} {size a x : Nat} {b : Byte} (h : m.wf size) :
    (m.write a b).byte x = if x = a then b else m.byte x := by
  by_cases hx : x = a
  · subst hx
    simp [byte_write_same h]
  · simp [hx, byte_write_other hx]

theorem cellAt_filter {p : Host.Cell → Bool} {x : Nat} {l : List Host.Cell} (h : ∀ c : Host.Cell, c.1 = x → p c = true) :
    cellAt x (l.filter p) = cellAt x l := by
  induction l with
  | nil => rfl
  | cons c r ih =>
    obtain ⟨z, y⟩ := c
    by_cases hz : z = x
    · have hp : p (z, y) = true := h (z, y) hz
      rw [List.filter_cons_of_pos hp]
      simp [cellAt, hz]
    · cases hp : p (z, y) <;> simp [hp, cellAt, hz, ih]

theorem byte_scrap_outside {m : Memory} {lo hi tag x : Nat} (hx : x < lo ∨ hi ≤ x) :
    (m.scrap lo hi tag).byte x = m.byte x := by
  unfold Memory.scrap
  split
  · have hc : (⟨lo, hi, tag⟩ : Junk).covers x = false := by
      simp only [Junk.covers, Bool.and_eq_false_iff, decide_eq_false_iff_not]
      omega
    have hn : ¬ (lo ≤ x ∧ x < hi) := by omega
    rw [byte_eq_junkTag, byte_eq_junkTag, junkTag_insertJunk _ _ _ (by simp [hc]), junkTag_cutJunk _ _ _ _ (by omega)]
    simp only [hc, hn, if_false, Bool.false_eq_true]
    rw [cellAt_filter]
    intro c hcx
    simp only [hcx, Bool.or_eq_true, decide_eq_true_eq]
    exact hx
  · rfl

theorem byte_scrap_inside {m : Memory} {lo hi tag x : Nat} (h1 : lo ≤ x) (h2 : x < hi) :
    (m.scrap lo hi tag).byte x = Config.junkByte tag x := by
  have hlt : lo < hi := by omega
  have hc : (⟨lo, hi, tag⟩ : Junk).covers x = true := by simp [h1, h2]
  simp only [Memory.scrap, hlt, if_true]
  rw [byte_eq_junkTag, junkTag_insertJunk _ _ _ (by simp [junkTag_cutJunk, h1, h2, le_of_lt hlt])]
  simp [hc]

/-! ## The canonical form is kept -/

theorem wf_empty (size : Nat) : Memory.empty.wf size := by
  simp [Memory.wf, Memory.empty]

theorem pairwise_without (j : Junk) (lo hi : Nat) (h : lo ≤ hi) :
    (j.without lo hi).Pairwise (fun a b => a.hi ≤ b.lo) := by
  unfold Junk.without
  split <;> split <;> simp
  omega

theorem pairwise_cutJunk {l : List Junk} (lo hi : Nat) (h : lo ≤ hi) (hl : l.Pairwise (fun a b => a.hi ≤ b.lo)) :
    (cutJunk lo hi l).Pairwise (fun a b => a.hi ≤ b.lo) := by
  induction l with
  | nil => simp [cutJunk]
  | cons j r ih =>
    have hr := List.pairwise_cons.mp hl
    refine List.pairwise_append.mpr ⟨pairwise_without j lo hi h, ih hr.2, ?_⟩
    intro a ha b hb
    obtain ⟨i, hir, hbi⟩ := mem_cutJunk hb
    have h1 := mem_without ha
    have h2 := mem_without hbi
    have h3 := hr.1 i hir
    omega

theorem cutJunk_bounds {l : List Junk} {lo hi size : Nat} (hl : ∀ j ∈ l, j.lo < j.hi ∧ j.hi ≤ size) :
    ∀ k ∈ cutJunk lo hi l, k.lo < k.hi ∧ k.hi ≤ size ∧ (k.hi ≤ lo ∨ hi ≤ k.lo) := by
  intro k hk
  obtain ⟨j, hj, hkj⟩ := mem_cutJunk hk
  have h1 := mem_without hkj
  have h2 := hl j hj
  exact ⟨h1.1, by omega, h1.2.2.2.2⟩

theorem not_covers_cutJunk {l : List Junk} {lo hi x : Nat} (h : ∀ j ∈ l, j.covers x = false) :
    ∀ k ∈ cutJunk lo hi l, k.covers x = false := by
  intro k hk
  obtain ⟨j, hj, hkj⟩ := mem_cutJunk hk
  have h1 := mem_without hkj
  have h2 := h j hj
  simp only [Junk.covers, Bool.and_eq_false_iff, decide_eq_false_iff_not] at h2 ⊢
  omega

/-- A write below the size of the space keeps the form. -/
theorem wf_write {m : Memory} {size a : Nat} {b : Byte} (h : m.wf size) (ha : a < size) : (m.write a b).wf size := by
  obtain ⟨h1, h2, h3, h4⟩ := h
  have hb := cutJunk_bounds (lo := a) (hi := a + 1) h4
  refine ⟨pairwise_putCell h1, ?_, pairwise_cutJunk a (a + 1) (by omega) h3, fun k hk => ⟨(hb k hk).1, (hb k hk).2.1⟩⟩
  intro c hc
  rcases mem_putCell hc with ⟨rfl, hne⟩ | hc
  · refine ⟨ha, hne, fun k hk => ?_⟩
    have := hb k hk
    simp only [Junk.covers, Bool.and_eq_false_iff, decide_eq_false_iff_not]
    omega
  · exact ⟨(h2 c hc).1, (h2 c hc).2.1, not_covers_cutJunk (h2 c hc).2.2⟩

theorem mem_insertJunk {n k : Junk} {l : List Junk} : k ∈ insertJunk n l ↔ k = n ∨ k ∈ l := by
  induction l with
  | nil => simp [insertJunk]
  | cons j r ih =>
    by_cases h : n.lo ≤ j.lo
    · simp [insertJunk, h]
    · simp only [insertJunk, h, if_false, List.mem_cons, ih]
      tauto

theorem pairwise_insertJunk {n : Junk} {l : List Junk} (hl : l.Pairwise (fun a b => a.hi ≤ b.lo))
    (hn : ∀ k ∈ l, k.lo < k.hi ∧ (k.hi ≤ n.lo ∨ n.hi ≤ k.lo)) (hlt : n.lo < n.hi) :
    (insertJunk n l).Pairwise (fun a b => a.hi ≤ b.lo) := by
  induction l with
  | nil => simp [insertJunk]
  | cons j r ih =>
    have hr := List.pairwise_cons.mp hl
    have hj := hn j (by simp)
    by_cases h : n.lo ≤ j.lo
    · simp only [insertJunk, h, if_true]
      refine List.pairwise_cons.mpr ⟨?_, hl⟩
      intro k hk
      rcases List.mem_cons.mp hk with rfl | hkr
      · omega
      · have := hr.1 k hkr
        omega
    · simp only [insertJunk, h, if_false]
      refine List.pairwise_cons.mpr ⟨?_, ih hr.2 fun k hk => hn k (by simp [hk])⟩
      intro k hk
      rcases mem_insertJunk.mp hk with rfl | hk
      · omega
      · exact hr.1 k hk

/-- A scrap inside the space keeps the form. -/
theorem wf_scrap {m : Memory} {size lo hi tag : Nat} (h : m.wf size) (hhi : hi ≤ size) : (m.scrap lo hi tag).wf size := by
  obtain ⟨h1, h2, h3, h4⟩ := h
  unfold Memory.scrap
  split
  case isFalse => exact ⟨h1, h2, h3, h4⟩
  case isTrue hlt =>
    have hb := cutJunk_bounds (lo := lo) (hi := hi) h4
    refine ⟨h1.filter _, ?_, ?_, ?_⟩
    · intro c hc
      have hm := List.mem_filter.mp hc
      refine ⟨(h2 c hm.1).1, (h2 c hm.1).2.1, fun k hk => ?_⟩
      rcases mem_insertJunk.mp hk with rfl | hk
      · have := hm.2
        simp only [Bool.or_eq_true, decide_eq_true_eq] at this
        simp only [Junk.covers, Bool.and_eq_false_iff, decide_eq_false_iff_not]
        omega
      · exact not_covers_cutJunk (h2 c hm.1).2.2 k hk
    · exact pairwise_insertJunk (pairwise_cutJunk lo hi (by omega) h3)
        (fun k hk => ⟨(hb k hk).1, (hb k hk).2.2⟩) hlt
    · intro k hk
      rcases mem_insertJunk.mp hk with rfl | hk
      · exact ⟨hlt, hhi⟩
      · exact ⟨(hb k hk).1, (hb k hk).2.1⟩

/-- Scraps of ranges inside the space keep the form. -/
theorem wf_scrapRanges {size tag : Nat} {w : List (Nat × Nat)} :
    ∀ {m : Memory}, m.wf size → (∀ r ∈ w, r.2 ≤ size) → (m.scrapRanges tag w).wf size := by
  induction w with
  | nil => intro m h _; exact h
  | cons r rs ih =>
    intro m h hw
    exact ih (wf_scrap h (hw r (by simp))) fun x hx => hw x (by simp [hx])

/-- Scraps of ranges change no byte outside them. -/
theorem byte_scrapRanges_outside {tag x : Nat} {w : List (Nat × Nat)} :
    ∀ {m : Memory}, (∀ r ∈ w, x < r.1 ∨ r.2 ≤ x) → (m.scrapRanges tag w).byte x = m.byte x := by
  induction w with
  | nil => intro m _; rfl
  | cons r rs ih =>
    intro m hw
    rw [Memory.scrapRanges, ih fun y hy => hw y (by simp [hy]), byte_scrap_outside (hw r (by simp))]

/-- A copy inside the space keeps the form. -/
theorem wf_copyLoop {src : Memory → Nat → Byte} {dst size n : Nat} :
    ∀ {i : Nat} {m : Memory}, m.wf size → dst + i + n ≤ size → (copyLoop src dst n i m).wf size := by
  induction n with
  | zero => intro i m h _; exact h
  | succ n ih =>
    intro i m h hs
    exact ih (wf_write h (by omega)) (by omega)

/-- A copy changes no byte outside `n` bytes from `dst + i`. -/
theorem byte_copyLoop_outside {src : Memory → Nat → Byte} {dst n x : Nat} :
    ∀ {i : Nat} {m : Memory}, x < dst + i ∨ dst + i + n ≤ x → (copyLoop src dst n i m).byte x = m.byte x := by
  induction n with
  | zero => intro i m _; rfl
  | succ n ih =>
    intro i m hx
    rw [copyLoop, ih (by omega), byte_write_other (by omega)]

/-- A copy whose source bytes do not depend on what it writes puts them in place. -/
theorem byte_copyLoop_const {src : Nat → Byte} {dst size n x : Nat} :
    ∀ {i : Nat} {m : Memory}, m.wf size → dst + i + n ≤ size → dst + i ≤ x → x < dst + i + n →
      (copyLoop (fun _ k => src k) dst n i m).byte x = src (x - dst) := by
  induction n with
  | zero => intro i m _ _ h1 h2; omega
  | succ n ih =>
    intro i m h hs h1 h2
    have hw := wf_write (b := src i) h (by omega : dst + i < size)
    by_cases hx : x = dst + i
    · rw [copyLoop, byte_copyLoop_outside (by omega), hx, byte_write_same h]
      congr 1
      omega
    · rw [copyLoop, ih hw (by omega) (by omega) (by omega)]

/-- In general each byte written is the source's byte in the memory as written up to it. -/
theorem byte_copyLoop_at {src : Memory → Nat → Byte} {dst size n k : Nat} :
    ∀ {i : Nat} {m : Memory}, m.wf size → dst + i + n ≤ size → k < n →
      (copyLoop src dst n i m).byte (dst + i + k) = src (copyLoop src dst k i m) (i + k) := by
  induction n generalizing k with
  | zero => intro i m _ _ hk; omega
  | succ n ih =>
    intro i m h hs hk
    have hw := wf_write (b := src m i) h (by omega : dst + i < size)
    cases k with
    | zero =>
      show (copyLoop src dst n (i + 1) (m.write (dst + i) (src m i))).byte (dst + i + 0) = src m (i + 0)
      rw [byte_copyLoop_outside (.inl (by omega))]
      exact byte_write_same h
    | succ k =>
      show (copyLoop src dst n (i + 1) (m.write (dst + i) (src m i))).byte (dst + i + (k + 1)) =
        src (copyLoop src dst k (i + 1) (m.write (dst + i) (src m i))) (i + (k + 1))
      rw [show dst + i + (k + 1) = dst + (i + 1) + k by omega, ih hw (by omega) (by omega)]
      congr 1
      omega

/-! ## The state's memories -/

/-- The memories of the state after reset are in canonical form (required of the reset state). -/
theorem reset_inp_wf (size : Nat) : State.reset.inp.wf size := wf_empty size

theorem reset_out_wf (size : Nat) : State.reset.out.wf size := wf_empty size

theorem reset_litbuf_wf (size : Nat) : State.reset.litbuf.wf size := wf_empty size

theorem inByte_of_two (s : State) (a : Nat) (h : s.oneMemory = false) : s.inByte a = s.inp.byte a := by
  simp [State.inByte, State.inByteOver, h]

theorem inByte_of_one (s : State) (a : Nat) (h : s.oneMemory = true) : s.inByte a = s.out.byte a := by
  simp [State.inByte, State.inByteOver, h]

end Sys2Proof.Machine
end

