-- ==== Sys2Proof/Laws/PerInstr.lean ====
section
/-! SUPPORT. Statements made per instruction. `WordFits`: the encoding of an instruction has the length of its row and the word of
a well-formed instruction fits it, so that encoding drops no bit (R91). -/
namespace Sys2Proof.Laws.WordFits

/-- An encoding has the instruction's length, and a well-formed instruction's word fits it. -/
def Statement (i : Instr) : Prop := (encode i).length = i.bytes ∧ (WellFormed i → i.word < 256 ^ i.bytes)

theorem code_lt_table (t : TableId) : t.code < 4 := by cases t <;> decide

theorem code_lt_alphabet (x : Alphabet) : x.code < 3 := by cases x <;> decide

/-- A well-formed instruction's word fits its bytes. -/
theorem word_lt {i : Instr} (h : WellFormed i) : i.word < 256 ^ i.bytes := by
  cases i with
  | magic => decide
  | magicLegacy => decide
  | fhd csel ss ign ck dsel =>
    have h0 := csel.isLt
    have h1 := bitNat_lt ss
    have h2 := ign.isLt
    have h3 := bitNat_lt ck
    have h4 := dsel.isLt
    simp only [Instr.word, Instr.bytes]
    omega
  | wd exp man =>
    have h0 := exp.isLt
    have h1 := man.isLt
    simp only [Instr.word, Instr.bytes]
    omega
  | did n value => exact of_decide_eq_true h
  | fcs n value => exact of_decide_eq_true h
  | blkRaw last size =>
    have h0 := bitNat_lt last
    have h1 := size.isLt
    simp only [Instr.word, Instr.bytes]
    omega
  | blkRle last size =>
    have h0 := bitNat_lt last
    have h1 := size.isLt
    simp only [Instr.word, Instr.bytes]
    omega
  | blkCmp last size =>
    have h0 := bitNat_lt last
    have h1 := size.isLt
    simp only [Instr.word, Instr.bytes]
    omega
  | blkRsv last size =>
    have h0 := bitNat_lt last
    have h1 := size.isLt
    simp only [Instr.word, Instr.bytes]
    omega
  | litRaw1 regen =>
    have h0 := regen.isLt
    simp only [Instr.word, Instr.bytes]
    omega
  | litRaw2 regen =>
    have h0 := regen.isLt
    simp only [Instr.word, Instr.bytes]
    omega
  | litRaw3 regen =>
    have h0 := regen.isLt
    simp only [Instr.word, Instr.bytes]
    omega
  | litRle1 regen =>
    have h0 := regen.isLt
    simp only [Instr.word, Instr.bytes]
    omega
  | litRle2 regen =>
    have h0 := regen.isLt
    simp only [Instr.word, Instr.bytes]
    omega
  | litRle3 regen =>
    have h0 := regen.isLt
    simp only [Instr.word, Instr.bytes]
    omega
  | litHufS3 regen comp =>
    have h0 := regen.isLt
    have h1 := comp.isLt
    simp only [Instr.word, Instr.bytes]
    omega
  | litHuf3 regen comp =>
    have h0 := regen.isLt
    have h1 := comp.isLt
    simp only [Instr.word, Instr.bytes]
    omega
  | litHuf4 regen comp =>
    have h0 := regen.isLt
    have h1 := comp.isLt
    simp only [Instr.word, Instr.bytes]
    omega
  | litHuf5 regen comp =>
    have h0 := regen.isLt
    have h1 := comp.isLt
    simp only [Instr.word, Instr.bytes]
    omega
  | litRepS3 regen comp =>
    have h0 := regen.isLt
    have h1 := comp.isLt
    simp only [Instr.word, Instr.bytes]
    omega
  | litRep3 regen comp =>
    have h0 := regen.isLt
    have h1 := comp.isLt
    simp only [Instr.word, Instr.bytes]
    omega
  | litRep4 regen comp =>
    have h0 := regen.isLt
    have h1 := comp.isLt
    simp only [Instr.word, Instr.bytes]
    omega
  | litRep5 regen comp =>
    have h0 := regen.isLt
    have h1 := comp.isLt
    simp only [Instr.word, Instr.bytes]
    omega
  | htreeDirect low =>
    have h0 := low.isLt
    simp only [Instr.word, Instr.bytes]
    omega
  | htreeFse len =>
    have h0 := len.isLt
    simp only [Instr.word, Instr.bytes]
    omega
  | jump len1 len2 len3 =>
    have h0 := len1.isLt
    have h1 := len2.isLt
    have h2 := len3.isLt
    simp only [Instr.word, Instr.bytes]
    omega
  | seqn0 => decide
  | seqn1 count =>
    have h0 := count.isLt
    simp only [Instr.word, Instr.bytes]
    omega
  | seqn2 high b1 =>
    have h0 := high.isLt
    have h1 := b1.isLt
    simp only [Instr.word, Instr.bytes]
    omega
  | seqn3 b1 b2 =>
    have h0 := b1.isLt
    have h1 := b2.isLt
    simp only [Instr.word, Instr.bytes]
    omega
  | seqm llmode ofmode mlmode ign =>
    have h0 := llmode.isLt
    have h1 := ofmode.isLt
    have h2 := mlmode.isLt
    have h3 := ign.isLt
    simp only [Instr.word, Instr.bytes]
    omega
  | modePredef x => cases x <;> decide
  | modeRle x => cases x <;> decide
  | modeFse x => cases x <;> decide
  | modeRepeat x => cases x <;> decide
  | rlesym x symbol =>
    have h0 := symbol.isLt
    simp only [Instr.word, Instr.bytes]
    omega
  | fsedesc x logMinus5 high =>
    have h0 := logMinus5.isLt
    have h1 := high.isLt
    simp only [Instr.word, Instr.bytes]
    omega
  | checksum value =>
    have h0 := value.isLt
    simp only [Instr.word, Instr.bytes]
    omega
  | brInit k start limit =>
    have h0 := k.isLt
    have h1 := start.isLt
    have h2 := limit.isLt
    simp only [Instr.word, Instr.bytes]
    omega
  | brPeek k n =>
    have h0 := k.isLt
    have h1 := n.isLt
    simp only [Instr.word, Instr.bytes]
    omega
  | brPeekFast k nMinus1 =>
    have h0 := k.isLt
    have h1 := nMinus1.isLt
    simp only [Instr.word, Instr.bytes]
    omega
  | brRefill k =>
    have h0 := k.isLt
    simp only [Instr.word, Instr.bytes]
    omega
  | fseReadTable t start limit maxSymbol maxLogMinus5 =>
    have h0 := code_lt_table t
    have h1 := start.isLt
    have h2 := limit.isLt
    have h3 := maxSymbol.isLt
    have h4 := maxLogMinus5.isLt
    simp only [Instr.word, Instr.bytes]
    omega
  | fseBuild t logMinus5 nsymMinus1 =>
    have h0 := code_lt_table t
    have h1 := logMinus5.isLt
    have h2 := nsymMinus1.isLt
    simp only [Instr.word, Instr.bytes]
    omega
  | fseRle t v =>
    have h0 := code_lt_table t
    have h1 := v.isLt
    simp only [Instr.word, Instr.bytes]
    omega
  | fsePredef x =>
    have h0 := code_lt_alphabet x
    simp only [Instr.word, Instr.bytes]
    omega
  | fseDecompress t start limit cap =>
    have h0 := code_lt_table t
    have h1 := start.isLt
    have h2 := limit.isLt
    have h3 := cap.isLt
    simp only [Instr.word, Instr.bytes]
    omega
  | hufReadTable start size =>
    have h0 := start.isLt
    have h1 := size.isLt
    simp only [Instr.word, Instr.bytes]
    omega
  | hufBuild nMinus1 =>
    have h0 := nMinus1.isLt
    simp only [Instr.word, Instr.bytes]
    omega
  | hufDec1 start limit n =>
    have h0 := start.isLt
    have h1 := limit.isLt
    have h2 := n.isLt
    simp only [Instr.word, Instr.bytes]
    omega
  | hufDec4 start limit n =>
    have h0 := start.isLt
    have h1 := limit.isLt
    have h2 := n.isLt
    simp only [Instr.word, Instr.bytes]
    omega
  | xxhHash a len =>
    have h0 := a.isLt
    have h1 := len.isLt
    simp only [Instr.word, Instr.bytes]
    omega
  | seqDecode => decide
  | seqResolve oc raw ll0 =>
    have h0 := oc.isLt
    have h1 := raw.isLt
    have h2 := bitNat_lt ll0
    simp only [Instr.word, Instr.bytes]
    omega
  | seqExec => decide
  | seqLastlit => decide
  | cmdStart ign =>
    have h0 := ign.isLt
    simp only [Instr.word, Instr.bytes]
    omega
  | cmdReset start ign =>
    have h0 := bitNat_lt start
    have h1 := ign.isLt
    simp only [Instr.word, Instr.bytes]
    omega

theorem all (i : Instr) : Statement i := ⟨leBytes_length _ _, word_lt⟩

theorem magic : Statement (.magic) := all _

theorem magicLegacy : Statement (.magicLegacy) := all _

theorem fhd (csel : BitVec 2) (ss : Bool) (ign : BitVec 2) (ck : Bool) (dsel : BitVec 2) : Statement (.fhd csel ss ign ck dsel) := all _

theorem wd (exp : BitVec 5) (man : BitVec 3) : Statement (.wd exp man) := all _

theorem did (n : DidLen) (value : BitVec 32) : Statement (.did n value) := all _

theorem fcs (n : FcsLen) (value : BitVec 64) : Statement (.fcs n value) := all _

theorem blkRaw (last : Bool) (size : BitVec 21) : Statement (.blkRaw last size) := all _

theorem blkRle (last : Bool) (size : BitVec 21) : Statement (.blkRle last size) := all _

theorem blkCmp (last : Bool) (size : BitVec 21) : Statement (.blkCmp last size) := all _

theorem blkRsv (last : Bool) (size : BitVec 21) : Statement (.blkRsv last size) := all _

theorem litRaw1 (regen : BitVec 5) : Statement (.litRaw1 regen) := all _

theorem litRaw2 (regen : BitVec 12) : Statement (.litRaw2 regen) := all _

theorem litRaw3 (regen : BitVec 20) : Statement (.litRaw3 regen) := all _

theorem litRle1 (regen : BitVec 5) : Statement (.litRle1 regen) := all _

theorem litRle2 (regen : BitVec 12) : Statement (.litRle2 regen) := all _

theorem litRle3 (regen : BitVec 20) : Statement (.litRle3 regen) := all _

theorem litHufS3 (regen comp : BitVec 10) : Statement (.litHufS3 regen comp) := all _

theorem litHuf3 (regen comp : BitVec 10) : Statement (.litHuf3 regen comp) := all _

theorem litHuf4 (regen comp : BitVec 14) : Statement (.litHuf4 regen comp) := all _

theorem litHuf5 (regen comp : BitVec 18) : Statement (.litHuf5 regen comp) := all _

theorem litRepS3 (regen comp : BitVec 10) : Statement (.litRepS3 regen comp) := all _

theorem litRep3 (regen comp : BitVec 10) : Statement (.litRep3 regen comp) := all _

theorem litRep4 (regen comp : BitVec 14) : Statement (.litRep4 regen comp) := all _

theorem litRep5 (regen comp : BitVec 18) : Statement (.litRep5 regen comp) := all _

theorem htreeDirect (low : BitVec 7) : Statement (.htreeDirect low) := all _

theorem htreeFse (len : BitVec 7) : Statement (.htreeFse len) := all _

theorem jump (len1 len2 len3 : BitVec 16) : Statement (.jump len1 len2 len3) := all _

theorem seqn0 : Statement (.seqn0) := all _

theorem seqn1 (count : BitVec 7) : Statement (.seqn1 count) := all _

theorem seqn2 (high : BitVec 7) (b1 : BitVec 8) : Statement (.seqn2 high b1) := all _

theorem seqn3 (b1 b2 : BitVec 8) : Statement (.seqn3 b1 b2) := all _

theorem seqm (llmode ofmode mlmode : BitVec 2) (ign : BitVec 2) : Statement (.seqm llmode ofmode mlmode ign) := all _

theorem modePredef (x : Alphabet) : Statement (.modePredef x) := all _

theorem modeRle (x : Alphabet) : Statement (.modeRle x) := all _

theorem modeFse (x : Alphabet) : Statement (.modeFse x) := all _

theorem modeRepeat (x : Alphabet) : Statement (.modeRepeat x) := all _

theorem rlesym (x : Alphabet) (symbol : BitVec 8) : Statement (.rlesym x symbol) := all _

theorem fsedesc (x : Alphabet) (logMinus5 : BitVec 4) (high : BitVec 4) : Statement (.fsedesc x logMinus5 high) := all _

theorem checksum (value : BitVec 32) : Statement (.checksum value) := all _

theorem brInit (k : Fin 4) (start limit : Addr) : Statement (.brInit k start limit) := all _

theorem brPeek (k : Fin 4) (n : BitVec 6) : Statement (.brPeek k n) := all _

theorem brPeekFast (k : Fin 4) (nMinus1 : BitVec 6) : Statement (.brPeekFast k nMinus1) := all _

theorem brRefill (k : Fin 4) : Statement (.brRefill k) := all _

theorem fseReadTable (t : TableId) (start limit : Addr) (maxSymbol : BitVec 8) (maxLogMinus5 : BitVec 3) : Statement (.fseReadTable t start limit maxSymbol maxLogMinus5) := all _

theorem fseBuild (t : TableId) (logMinus5 : BitVec 3) (nsymMinus1 : BitVec 8) : Statement (.fseBuild t logMinus5 nsymMinus1) := all _

theorem fseRle (t : TableId) (v : BitVec 8) : Statement (.fseRle t v) := all _

theorem fsePredef (x : Alphabet) : Statement (.fsePredef x) := all _

theorem fseDecompress (t : TableId) (start limit : Addr) (cap : BitVec 8) : Statement (.fseDecompress t start limit cap) := all _

theorem hufReadTable (start : Addr) (size : BitVec 18) : Statement (.hufReadTable start size) := all _

theorem hufBuild (nMinus1 : BitVec 8) : Statement (.hufBuild nMinus1) := all _

theorem hufDec1 (start limit : Addr) (n : BitVec 20) : Statement (.hufDec1 start limit n) := all _

theorem hufDec4 (start limit : Addr) (n : BitVec 20) : Statement (.hufDec4 start limit n) := all _

theorem xxhHash (a : Addr) (len : BitVec 32) : Statement (.xxhHash a len) := all _

theorem seqDecode : Statement (.seqDecode) := all _

theorem seqResolve (oc : BitVec 5) (raw : BitVec 32) (ll0 : Bool) : Statement (.seqResolve oc raw ll0) := all _

theorem seqExec : Statement (.seqExec) := all _

theorem seqLastlit : Statement (.seqLastlit) := all _

theorem cmdStart (ign : BitVec 30) : Statement (.cmdStart ign) := all _

theorem cmdReset (start : Bool) (ign : BitVec 30) : Statement (.cmdReset start ign) := all _

end Sys2Proof.Laws.WordFits
end

