-- ==== Sys2Proof/Laws/State.lean ====
section
/-! SUPPORT. One lemma per field of State per named update: what the update writes and what it leaves (true by rfl). -/
namespace Sys2Proof.Machine

section advance
variable (s : State) (n : Nat)

@[simp] theorem advance_inStart : (s.advance n).inStart = s.inStart := rfl
@[simp] theorem advance_inEnd : (s.advance n).inEnd = s.inEnd := rfl
@[simp] theorem advance_outStart : (s.advance n).outStart = s.outStart := rfl
@[simp] theorem advance_outLimit : (s.advance n).outLimit = s.outLimit := rfl
@[simp] theorem advance_cfgEnforce : (s.advance n).cfgEnforce = s.cfgEnforce := rfl
@[simp] theorem advance_bytesWritten : (s.advance n).bytesWritten = s.bytesWritten := rfl
@[simp] theorem advance_errClass : (s.advance n).errClass = s.errClass := rfl
@[simp] theorem advance_errCode : (s.advance n).errCode = s.errCode := rfl
@[simp] theorem advance_errOffset : (s.advance n).errOffset = s.errOffset := rfl
@[simp] theorem advance_cksumBad : (s.advance n).cksumBad = s.cksumBad := rfl
@[simp] theorem advance_ip : (s.advance n).ip = s.ip + BitVec.ofNat 32 n := rfl
@[simp] theorem advance_op : (s.advance n).op = s.op := rfl
@[simp] theorem advance_phase : (s.advance n).phase = s.phase := rfl
@[simp] theorem advance_lInStart : (s.advance n).lInStart = s.lInStart := rfl
@[simp] theorem advance_lInEnd : (s.advance n).lInEnd = s.lInEnd := rfl
@[simp] theorem advance_lOutStart : (s.advance n).lOutStart = s.lOutStart := rfl
@[simp] theorem advance_lOutLimit : (s.advance n).lOutLimit = s.lOutLimit := rfl
@[simp] theorem advance_lEnforce : (s.advance n).lEnforce = s.lEnforce := rfl
@[simp] theorem advance_fh : (s.advance n).fh = s.fh := rfl
@[simp] theorem advance_frameOutStart : (s.advance n).frameOutStart = s.frameOutStart := rfl
@[simp] theorem advance_blk : (s.advance n).blk = s.blk := rfl
@[simp] theorem advance_lit : (s.advance n).lit = s.lit := rfl
@[simp] theorem advance_seq : (s.advance n).seq = s.seq := rfl
@[simp] theorem advance_rep : (s.advance n).rep = s.rep := rfl
@[simp] theorem advance_llSel : (s.advance n).llSel = s.llSel := rfl
@[simp] theorem advance_ofSel : (s.advance n).ofSel = s.ofSel := rfl
@[simp] theorem advance_mlSel : (s.advance n).mlSel = s.mlSel := rfl
@[simp] theorem advance_br : (s.advance n).br = s.br := rfl
@[simp] theorem advance_llt : (s.advance n).llt = s.llt := rfl
@[simp] theorem advance_oft : (s.advance n).oft = s.oft := rfl
@[simp] theorem advance_mlt : (s.advance n).mlt = s.mlt := rfl
@[simp] theorem advance_hwt : (s.advance n).hwt = s.hwt := rfl
@[simp] theorem advance_fse : (s.advance n).fse = s.fse := rfl
@[simp] theorem advance_huf : (s.advance n).huf = s.huf := rfl
@[simp] theorem advance_xxh : (s.advance n).xxh = s.xxh := rfl
@[simp] theorem advance_inp : (s.advance n).inp = s.inp := rfl
@[simp] theorem advance_out : (s.advance n).out = s.out := rfl
@[simp] theorem advance_litbuf : (s.advance n).litbuf = s.litbuf := rfl
@[simp] theorem advance_sub : (s.advance n).sub = s.sub := rfl
@[simp] theorem advance_fhdByte : (s.advance n).fhdByte = s.fhdByte := rfl
@[simp] theorem advance_litLim : (s.advance n).litLim = s.litLim := rfl
@[simp] theorem advance_issue : (s.advance n).issue = s.issue := rfl
@[simp] theorem advance_result : (s.advance n).result = s.result := rfl
@[simp] theorem advance_hostQueue : (s.advance n).hostQueue = s.hostQueue := rfl
@[simp] theorem advance_hostData : (s.advance n).hostData = s.hostData := rfl
@[simp] theorem advance_oneMemory : (s.advance n).oneMemory = s.oneMemory := rfl
@[simp] theorem advance_draws : (s.advance n).draws = s.draws := rfl

end advance

section setBr
variable (s : State) (k : Fin 4) (b : BitReader)

@[simp] theorem setBr_inStart : (s.setBr k b).inStart = s.inStart := rfl
@[simp] theorem setBr_inEnd : (s.setBr k b).inEnd = s.inEnd := rfl
@[simp] theorem setBr_outStart : (s.setBr k b).outStart = s.outStart := rfl
@[simp] theorem setBr_outLimit : (s.setBr k b).outLimit = s.outLimit := rfl
@[simp] theorem setBr_cfgEnforce : (s.setBr k b).cfgEnforce = s.cfgEnforce := rfl
@[simp] theorem setBr_bytesWritten : (s.setBr k b).bytesWritten = s.bytesWritten := rfl
@[simp] theorem setBr_errClass : (s.setBr k b).errClass = s.errClass := rfl
@[simp] theorem setBr_errCode : (s.setBr k b).errCode = s.errCode := rfl
@[simp] theorem setBr_errOffset : (s.setBr k b).errOffset = s.errOffset := rfl
@[simp] theorem setBr_cksumBad : (s.setBr k b).cksumBad = s.cksumBad := rfl
@[simp] theorem setBr_ip : (s.setBr k b).ip = s.ip := rfl
@[simp] theorem setBr_op : (s.setBr k b).op = s.op := rfl
@[simp] theorem setBr_phase : (s.setBr k b).phase = s.phase := rfl
@[simp] theorem setBr_lInStart : (s.setBr k b).lInStart = s.lInStart := rfl
@[simp] theorem setBr_lInEnd : (s.setBr k b).lInEnd = s.lInEnd := rfl
@[simp] theorem setBr_lOutStart : (s.setBr k b).lOutStart = s.lOutStart := rfl
@[simp] theorem setBr_lOutLimit : (s.setBr k b).lOutLimit = s.lOutLimit := rfl
@[simp] theorem setBr_lEnforce : (s.setBr k b).lEnforce = s.lEnforce := rfl
@[simp] theorem setBr_fh : (s.setBr k b).fh = s.fh := rfl
@[simp] theorem setBr_frameOutStart : (s.setBr k b).frameOutStart = s.frameOutStart := rfl
@[simp] theorem setBr_blk : (s.setBr k b).blk = s.blk := rfl
@[simp] theorem setBr_lit : (s.setBr k b).lit = s.lit := rfl
@[simp] theorem setBr_seq : (s.setBr k b).seq = s.seq := rfl
@[simp] theorem setBr_rep : (s.setBr k b).rep = s.rep := rfl
@[simp] theorem setBr_llSel : (s.setBr k b).llSel = s.llSel := rfl
@[simp] theorem setBr_ofSel : (s.setBr k b).ofSel = s.ofSel := rfl
@[simp] theorem setBr_mlSel : (s.setBr k b).mlSel = s.mlSel := rfl
@[simp] theorem setBr_br : (s.setBr k b).br = s.br.set k b := rfl
@[simp] theorem setBr_llt : (s.setBr k b).llt = s.llt := rfl
@[simp] theorem setBr_oft : (s.setBr k b).oft = s.oft := rfl
@[simp] theorem setBr_mlt : (s.setBr k b).mlt = s.mlt := rfl
@[simp] theorem setBr_hwt : (s.setBr k b).hwt = s.hwt := rfl
@[simp] theorem setBr_fse : (s.setBr k b).fse = s.fse := rfl
@[simp] theorem setBr_huf : (s.setBr k b).huf = s.huf := rfl
@[simp] theorem setBr_xxh : (s.setBr k b).xxh = s.xxh := rfl
@[simp] theorem setBr_inp : (s.setBr k b).inp = s.inp := rfl
@[simp] theorem setBr_out : (s.setBr k b).out = s.out := rfl
@[simp] theorem setBr_litbuf : (s.setBr k b).litbuf = s.litbuf := rfl
@[simp] theorem setBr_sub : (s.setBr k b).sub = s.sub := rfl
@[simp] theorem setBr_fhdByte : (s.setBr k b).fhdByte = s.fhdByte := rfl
@[simp] theorem setBr_litLim : (s.setBr k b).litLim = s.litLim := rfl
@[simp] theorem setBr_issue : (s.setBr k b).issue = s.issue := rfl
@[simp] theorem setBr_result : (s.setBr k b).result = s.result := rfl
@[simp] theorem setBr_hostQueue : (s.setBr k b).hostQueue = s.hostQueue := rfl
@[simp] theorem setBr_hostData : (s.setBr k b).hostData = s.hostData := rfl
@[simp] theorem setBr_oneMemory : (s.setBr k b).oneMemory = s.oneMemory := rfl
@[simp] theorem setBr_draws : (s.setBr k b).draws = s.draws := rfl

end setBr

section putOut
variable (s : State) (a : Nat) (b : Byte)

@[simp] theorem putOut_inStart : (s.putOut a b).inStart = s.inStart := rfl
@[simp] theorem putOut_inEnd : (s.putOut a b).inEnd = s.inEnd := rfl
@[simp] theorem putOut_outStart : (s.putOut a b).outStart = s.outStart := rfl
@[simp] theorem putOut_outLimit : (s.putOut a b).outLimit = s.outLimit := rfl
@[simp] theorem putOut_cfgEnforce : (s.putOut a b).cfgEnforce = s.cfgEnforce := rfl
@[simp] theorem putOut_bytesWritten : (s.putOut a b).bytesWritten = s.bytesWritten := rfl
@[simp] theorem putOut_errClass : (s.putOut a b).errClass = s.errClass := rfl
@[simp] theorem putOut_errCode : (s.putOut a b).errCode = s.errCode := rfl
@[simp] theorem putOut_errOffset : (s.putOut a b).errOffset = s.errOffset := rfl
@[simp] theorem putOut_cksumBad : (s.putOut a b).cksumBad = s.cksumBad := rfl
@[simp] theorem putOut_ip : (s.putOut a b).ip = s.ip := rfl
@[simp] theorem putOut_op : (s.putOut a b).op = s.op := rfl
@[simp] theorem putOut_phase : (s.putOut a b).phase = s.phase := rfl
@[simp] theorem putOut_lInStart : (s.putOut a b).lInStart = s.lInStart := rfl
@[simp] theorem putOut_lInEnd : (s.putOut a b).lInEnd = s.lInEnd := rfl
@[simp] theorem putOut_lOutStart : (s.putOut a b).lOutStart = s.lOutStart := rfl
@[simp] theorem putOut_lOutLimit : (s.putOut a b).lOutLimit = s.lOutLimit := rfl
@[simp] theorem putOut_lEnforce : (s.putOut a b).lEnforce = s.lEnforce := rfl
@[simp] theorem putOut_fh : (s.putOut a b).fh = s.fh := rfl
@[simp] theorem putOut_frameOutStart : (s.putOut a b).frameOutStart = s.frameOutStart := rfl
@[simp] theorem putOut_blk : (s.putOut a b).blk = s.blk := rfl
@[simp] theorem putOut_lit : (s.putOut a b).lit = s.lit := rfl
@[simp] theorem putOut_seq : (s.putOut a b).seq = s.seq := rfl
@[simp] theorem putOut_rep : (s.putOut a b).rep = s.rep := rfl
@[simp] theorem putOut_llSel : (s.putOut a b).llSel = s.llSel := rfl
@[simp] theorem putOut_ofSel : (s.putOut a b).ofSel = s.ofSel := rfl
@[simp] theorem putOut_mlSel : (s.putOut a b).mlSel = s.mlSel := rfl
@[simp] theorem putOut_br : (s.putOut a b).br = s.br := rfl
@[simp] theorem putOut_llt : (s.putOut a b).llt = s.llt := rfl
@[simp] theorem putOut_oft : (s.putOut a b).oft = s.oft := rfl
@[simp] theorem putOut_mlt : (s.putOut a b).mlt = s.mlt := rfl
@[simp] theorem putOut_hwt : (s.putOut a b).hwt = s.hwt := rfl
@[simp] theorem putOut_fse : (s.putOut a b).fse = s.fse := rfl
@[simp] theorem putOut_huf : (s.putOut a b).huf = s.huf := rfl
@[simp] theorem putOut_xxh : (s.putOut a b).xxh = s.xxh := rfl
@[simp] theorem putOut_inp : (s.putOut a b).inp = s.inp := rfl
@[simp] theorem putOut_out : (s.putOut a b).out = s.out.write a b := rfl
@[simp] theorem putOut_litbuf : (s.putOut a b).litbuf = s.litbuf := rfl
@[simp] theorem putOut_sub : (s.putOut a b).sub = s.sub := rfl
@[simp] theorem putOut_fhdByte : (s.putOut a b).fhdByte = s.fhdByte := rfl
@[simp] theorem putOut_litLim : (s.putOut a b).litLim = s.litLim := rfl
@[simp] theorem putOut_issue : (s.putOut a b).issue = s.issue := rfl
@[simp] theorem putOut_result : (s.putOut a b).result = s.result := rfl
@[simp] theorem putOut_hostQueue : (s.putOut a b).hostQueue = s.hostQueue := rfl
@[simp] theorem putOut_hostData : (s.putOut a b).hostData = s.hostData := rfl
@[simp] theorem putOut_oneMemory : (s.putOut a b).oneMemory = s.oneMemory := rfl
@[simp] theorem putOut_draws : (s.putOut a b).draws = s.draws := rfl

end putOut

section faultEntry
variable (e : ErrCode) (s : State)

@[simp] theorem faultEntry_inStart : (faultEntry e s).inStart = s.inStart := rfl
@[simp] theorem faultEntry_inEnd : (faultEntry e s).inEnd = s.inEnd := rfl
@[simp] theorem faultEntry_outStart : (faultEntry e s).outStart = s.outStart := rfl
@[simp] theorem faultEntry_outLimit : (faultEntry e s).outLimit = s.outLimit := rfl
@[simp] theorem faultEntry_cfgEnforce : (faultEntry e s).cfgEnforce = s.cfgEnforce := rfl
@[simp] theorem faultEntry_bytesWritten : (faultEntry e s).bytesWritten = s.bytesWritten := rfl
@[simp] theorem faultEntry_errClass : (faultEntry e s).errClass = e.cls := rfl
@[simp] theorem faultEntry_errCode : (faultEntry e s).errCode = e.code := rfl
@[simp] theorem faultEntry_errOffset : (faultEntry e s).errOffset = s.ip - s.lInStart := rfl
@[simp] theorem faultEntry_cksumBad : (faultEntry e s).cksumBad = s.cksumBad := rfl
@[simp] theorem faultEntry_ip : (faultEntry e s).ip = s.ip := rfl
@[simp] theorem faultEntry_op : (faultEntry e s).op = s.op := rfl
@[simp] theorem faultEntry_phase : (faultEntry e s).phase = .fault := rfl
@[simp] theorem faultEntry_lInStart : (faultEntry e s).lInStart = s.lInStart := rfl
@[simp] theorem faultEntry_lInEnd : (faultEntry e s).lInEnd = s.lInEnd := rfl
@[simp] theorem faultEntry_lOutStart : (faultEntry e s).lOutStart = s.lOutStart := rfl
@[simp] theorem faultEntry_lOutLimit : (faultEntry e s).lOutLimit = s.lOutLimit := rfl
@[simp] theorem faultEntry_lEnforce : (faultEntry e s).lEnforce = s.lEnforce := rfl
@[simp] theorem faultEntry_fh : (faultEntry e s).fh = s.fh := rfl
@[simp] theorem faultEntry_frameOutStart : (faultEntry e s).frameOutStart = s.frameOutStart := rfl
@[simp] theorem faultEntry_blk : (faultEntry e s).blk = s.blk := rfl
@[simp] theorem faultEntry_lit : (faultEntry e s).lit = s.lit := rfl
@[simp] theorem faultEntry_seq : (faultEntry e s).seq = s.seq := rfl
@[simp] theorem faultEntry_rep : (faultEntry e s).rep = s.rep := rfl
@[simp] theorem faultEntry_llSel : (faultEntry e s).llSel = s.llSel := rfl
@[simp] theorem faultEntry_ofSel : (faultEntry e s).ofSel = s.ofSel := rfl
@[simp] theorem faultEntry_mlSel : (faultEntry e s).mlSel = s.mlSel := rfl
@[simp] theorem faultEntry_br : (faultEntry e s).br = s.br := rfl
@[simp] theorem faultEntry_llt : (faultEntry e s).llt = s.llt := rfl
@[simp] theorem faultEntry_oft : (faultEntry e s).oft = s.oft := rfl
@[simp] theorem faultEntry_mlt : (faultEntry e s).mlt = s.mlt := rfl
@[simp] theorem faultEntry_hwt : (faultEntry e s).hwt = s.hwt := rfl
@[simp] theorem faultEntry_fse : (faultEntry e s).fse = s.fse := rfl
@[simp] theorem faultEntry_huf : (faultEntry e s).huf = s.huf := rfl
@[simp] theorem faultEntry_xxh : (faultEntry e s).xxh = s.xxh := rfl
@[simp] theorem faultEntry_inp : (faultEntry e s).inp = s.inp := rfl
@[simp] theorem faultEntry_out : (faultEntry e s).out = s.out.scrap s.lOutStart.toNat s.lOutLimit.toNat s.draws := rfl
@[simp] theorem faultEntry_litbuf : (faultEntry e s).litbuf = s.litbuf := rfl
@[simp] theorem faultEntry_sub : (faultEntry e s).sub = .start := rfl
@[simp] theorem faultEntry_fhdByte : (faultEntry e s).fhdByte = s.fhdByte := rfl
@[simp] theorem faultEntry_litLim : (faultEntry e s).litLim = s.litLim := rfl
@[simp] theorem faultEntry_issue : (faultEntry e s).issue = [] := rfl
@[simp] theorem faultEntry_result : (faultEntry e s).result = s.result := rfl
@[simp] theorem faultEntry_hostQueue : (faultEntry e s).hostQueue = s.hostQueue := rfl
@[simp] theorem faultEntry_hostData : (faultEntry e s).hostData = s.hostData := rfl
@[simp] theorem faultEntry_oneMemory : (faultEntry e s).oneMemory = s.oneMemory := rfl
@[simp] theorem faultEntry_draws : (faultEntry e s).draws = s.draws + 1 := rfl

end faultEntry

section frameStart
variable (s : State)

@[simp] theorem frameStart_inStart : (frameStart s).inStart = s.inStart := rfl
@[simp] theorem frameStart_inEnd : (frameStart s).inEnd = s.inEnd := rfl
@[simp] theorem frameStart_outStart : (frameStart s).outStart = s.outStart := rfl
@[simp] theorem frameStart_outLimit : (frameStart s).outLimit = s.outLimit := rfl
@[simp] theorem frameStart_cfgEnforce : (frameStart s).cfgEnforce = s.cfgEnforce := rfl
@[simp] theorem frameStart_bytesWritten : (frameStart s).bytesWritten = s.bytesWritten := rfl
@[simp] theorem frameStart_errClass : (frameStart s).errClass = s.errClass := rfl
@[simp] theorem frameStart_errCode : (frameStart s).errCode = s.errCode := rfl
@[simp] theorem frameStart_errOffset : (frameStart s).errOffset = s.errOffset := rfl
@[simp] theorem frameStart_cksumBad : (frameStart s).cksumBad = s.cksumBad := rfl
@[simp] theorem frameStart_ip : (frameStart s).ip = s.ip := rfl
@[simp] theorem frameStart_op : (frameStart s).op = s.op := rfl
@[simp] theorem frameStart_phase : (frameStart s).phase = s.phase := rfl
@[simp] theorem frameStart_lInStart : (frameStart s).lInStart = s.lInStart := rfl
@[simp] theorem frameStart_lInEnd : (frameStart s).lInEnd = s.lInEnd := rfl
@[simp] theorem frameStart_lOutStart : (frameStart s).lOutStart = s.lOutStart := rfl
@[simp] theorem frameStart_lOutLimit : (frameStart s).lOutLimit = s.lOutLimit := rfl
@[simp] theorem frameStart_lEnforce : (frameStart s).lEnforce = s.lEnforce := rfl
@[simp] theorem frameStart_fh : (frameStart s).fh = s.fh := rfl
@[simp] theorem frameStart_frameOutStart : (frameStart s).frameOutStart = s.op := rfl
@[simp] theorem frameStart_blk : (frameStart s).blk = s.blk := rfl
@[simp] theorem frameStart_lit : (frameStart s).lit = s.lit := rfl
@[simp] theorem frameStart_seq : (frameStart s).seq = s.seq := rfl
@[simp] theorem frameStart_rep : (frameStart s).rep = ⟨1, 4, 8⟩ := rfl
@[simp] theorem frameStart_llSel : (frameStart s).llSel = .none := rfl
@[simp] theorem frameStart_ofSel : (frameStart s).ofSel = .none := rfl
@[simp] theorem frameStart_mlSel : (frameStart s).mlSel = .none := rfl
@[simp] theorem frameStart_br : (frameStart s).br = s.br := rfl
@[simp] theorem frameStart_llt : (frameStart s).llt = s.llt := rfl
@[simp] theorem frameStart_oft : (frameStart s).oft = s.oft := rfl
@[simp] theorem frameStart_mlt : (frameStart s).mlt = s.mlt := rfl
@[simp] theorem frameStart_hwt : (frameStart s).hwt = s.hwt := rfl
@[simp] theorem frameStart_fse : (frameStart s).fse = s.fse := rfl
@[simp] theorem frameStart_huf : (frameStart s).huf = s.huf := rfl
@[simp] theorem frameStart_xxh : (frameStart s).xxh = s.xxh := rfl
@[simp] theorem frameStart_inp : (frameStart s).inp = s.inp := rfl
@[simp] theorem frameStart_out : (frameStart s).out = s.out := rfl
@[simp] theorem frameStart_litbuf : (frameStart s).litbuf = s.litbuf := rfl
@[simp] theorem frameStart_sub : (frameStart s).sub = s.sub := rfl
@[simp] theorem frameStart_fhdByte : (frameStart s).fhdByte = s.fhdByte := rfl
@[simp] theorem frameStart_litLim : (frameStart s).litLim = s.litLim := rfl
@[simp] theorem frameStart_issue : (frameStart s).issue = s.issue := rfl
@[simp] theorem frameStart_result : (frameStart s).result = s.result := rfl
@[simp] theorem frameStart_hostQueue : (frameStart s).hostQueue = s.hostQueue := rfl
@[simp] theorem frameStart_hostData : (frameStart s).hostData = s.hostData := rfl
@[simp] theorem frameStart_oneMemory : (frameStart s).oneMemory = s.oneMemory := rfl
@[simp] theorem frameStart_draws : (frameStart s).draws = s.draws := rfl

end frameStart

section engDone
variable (s : State)

@[simp] theorem engDone_inStart : (engDone s).inStart = s.inStart := rfl
@[simp] theorem engDone_inEnd : (engDone s).inEnd = s.inEnd := rfl
@[simp] theorem engDone_outStart : (engDone s).outStart = s.outStart := rfl
@[simp] theorem engDone_outLimit : (engDone s).outLimit = s.outLimit := rfl
@[simp] theorem engDone_cfgEnforce : (engDone s).cfgEnforce = s.cfgEnforce := rfl
@[simp] theorem engDone_bytesWritten : (engDone s).bytesWritten = s.op - s.lOutStart := rfl
@[simp] theorem engDone_errClass : (engDone s).errClass = s.errClass := rfl
@[simp] theorem engDone_errCode : (engDone s).errCode = s.errCode := rfl
@[simp] theorem engDone_errOffset : (engDone s).errOffset = s.errOffset := rfl
@[simp] theorem engDone_cksumBad : (engDone s).cksumBad = s.cksumBad := rfl
@[simp] theorem engDone_ip : (engDone s).ip = s.ip := rfl
@[simp] theorem engDone_op : (engDone s).op = s.op := rfl
@[simp] theorem engDone_phase : (engDone s).phase = .done := rfl
@[simp] theorem engDone_lInStart : (engDone s).lInStart = s.lInStart := rfl
@[simp] theorem engDone_lInEnd : (engDone s).lInEnd = s.lInEnd := rfl
@[simp] theorem engDone_lOutStart : (engDone s).lOutStart = s.lOutStart := rfl
@[simp] theorem engDone_lOutLimit : (engDone s).lOutLimit = s.lOutLimit := rfl
@[simp] theorem engDone_lEnforce : (engDone s).lEnforce = s.lEnforce := rfl
@[simp] theorem engDone_fh : (engDone s).fh = s.fh := rfl
@[simp] theorem engDone_frameOutStart : (engDone s).frameOutStart = s.frameOutStart := rfl
@[simp] theorem engDone_blk : (engDone s).blk = s.blk := rfl
@[simp] theorem engDone_lit : (engDone s).lit = s.lit := rfl
@[simp] theorem engDone_seq : (engDone s).seq = s.seq := rfl
@[simp] theorem engDone_rep : (engDone s).rep = s.rep := rfl
@[simp] theorem engDone_llSel : (engDone s).llSel = s.llSel := rfl
@[simp] theorem engDone_ofSel : (engDone s).ofSel = s.ofSel := rfl
@[simp] theorem engDone_mlSel : (engDone s).mlSel = s.mlSel := rfl
@[simp] theorem engDone_br : (engDone s).br = s.br := rfl
@[simp] theorem engDone_llt : (engDone s).llt = s.llt := rfl
@[simp] theorem engDone_oft : (engDone s).oft = s.oft := rfl
@[simp] theorem engDone_mlt : (engDone s).mlt = s.mlt := rfl
@[simp] theorem engDone_hwt : (engDone s).hwt = s.hwt := rfl
@[simp] theorem engDone_fse : (engDone s).fse = s.fse := rfl
@[simp] theorem engDone_huf : (engDone s).huf = s.huf := rfl
@[simp] theorem engDone_xxh : (engDone s).xxh = s.xxh := rfl
@[simp] theorem engDone_inp : (engDone s).inp = s.inp := rfl
@[simp] theorem engDone_out : (engDone s).out = s.out.scrap s.op.toNat s.lOutLimit.toNat s.draws := rfl
@[simp] theorem engDone_litbuf : (engDone s).litbuf = s.litbuf := rfl
@[simp] theorem engDone_sub : (engDone s).sub = .start := rfl
@[simp] theorem engDone_fhdByte : (engDone s).fhdByte = s.fhdByte := rfl
@[simp] theorem engDone_litLim : (engDone s).litLim = s.litLim := rfl
@[simp] theorem engDone_issue : (engDone s).issue = s.issue := rfl
@[simp] theorem engDone_result : (engDone s).result = s.result := rfl
@[simp] theorem engDone_hostQueue : (engDone s).hostQueue = s.hostQueue := rfl
@[simp] theorem engDone_hostData : (engDone s).hostData = s.hostData := rfl
@[simp] theorem engDone_oneMemory : (engDone s).oneMemory = s.oneMemory := rfl
@[simp] theorem engDone_draws : (engDone s).draws = s.draws + 1 := rfl

end engDone

section engStart
variable (s : State)

@[simp] theorem engStart_inStart : (engStart s).inStart = s.inStart := rfl
@[simp] theorem engStart_inEnd : (engStart s).inEnd = s.inEnd := rfl
@[simp] theorem engStart_outStart : (engStart s).outStart = s.outStart := rfl
@[simp] theorem engStart_outLimit : (engStart s).outLimit = s.outLimit := rfl
@[simp] theorem engStart_cfgEnforce : (engStart s).cfgEnforce = s.cfgEnforce := rfl
@[simp] theorem engStart_bytesWritten : (engStart s).bytesWritten = 0 := rfl
@[simp] theorem engStart_errClass : (engStart s).errClass = 0 := rfl
@[simp] theorem engStart_errCode : (engStart s).errCode = 0 := rfl
@[simp] theorem engStart_errOffset : (engStart s).errOffset = 0 := rfl
@[simp] theorem engStart_cksumBad : (engStart s).cksumBad = false := rfl
@[simp] theorem engStart_ip : (engStart s).ip = s.inStart := rfl
@[simp] theorem engStart_op : (engStart s).op = s.outStart := rfl
@[simp] theorem engStart_phase : (engStart s).phase = .magic := rfl
@[simp] theorem engStart_lInStart : (engStart s).lInStart = s.inStart := rfl
@[simp] theorem engStart_lInEnd : (engStart s).lInEnd = s.inEnd := rfl
@[simp] theorem engStart_lOutStart : (engStart s).lOutStart = s.outStart := rfl
@[simp] theorem engStart_lOutLimit : (engStart s).lOutLimit = s.outLimit := rfl
@[simp] theorem engStart_lEnforce : (engStart s).lEnforce = s.cfgEnforce := rfl
@[simp] theorem engStart_fh : (engStart s).fh = s.fh := rfl
@[simp] theorem engStart_frameOutStart : (engStart s).frameOutStart = s.frameOutStart := rfl
@[simp] theorem engStart_blk : (engStart s).blk = s.blk := rfl
@[simp] theorem engStart_lit : (engStart s).lit = s.lit := rfl
@[simp] theorem engStart_seq : (engStart s).seq = s.seq := rfl
@[simp] theorem engStart_rep : (engStart s).rep = s.rep := rfl
@[simp] theorem engStart_llSel : (engStart s).llSel = s.llSel := rfl
@[simp] theorem engStart_ofSel : (engStart s).ofSel = s.ofSel := rfl
@[simp] theorem engStart_mlSel : (engStart s).mlSel = s.mlSel := rfl
@[simp] theorem engStart_br : (engStart s).br = s.br := rfl
@[simp] theorem engStart_llt : (engStart s).llt = s.llt := rfl
@[simp] theorem engStart_oft : (engStart s).oft = s.oft := rfl
@[simp] theorem engStart_mlt : (engStart s).mlt = s.mlt := rfl
@[simp] theorem engStart_hwt : (engStart s).hwt = s.hwt := rfl
@[simp] theorem engStart_fse : (engStart s).fse = s.fse := rfl
@[simp] theorem engStart_huf : (engStart s).huf = s.huf := rfl
@[simp] theorem engStart_xxh : (engStart s).xxh = s.xxh := rfl
@[simp] theorem engStart_inp : (engStart s).inp = s.inp := rfl
@[simp] theorem engStart_out : (engStart s).out = s.out := rfl
@[simp] theorem engStart_litbuf : (engStart s).litbuf = s.litbuf := rfl
@[simp] theorem engStart_sub : (engStart s).sub = .start := rfl
@[simp] theorem engStart_fhdByte : (engStart s).fhdByte = s.fhdByte := rfl
@[simp] theorem engStart_litLim : (engStart s).litLim = s.litLim := rfl
@[simp] theorem engStart_issue : (engStart s).issue = [] := rfl
@[simp] theorem engStart_result : (engStart s).result = s.result := rfl
@[simp] theorem engStart_hostQueue : (engStart s).hostQueue = s.hostQueue := rfl
@[simp] theorem engStart_hostData : (engStart s).hostData = s.hostData := rfl
@[simp] theorem engStart_oneMemory : (engStart s).oneMemory = s.oneMemory := rfl
@[simp] theorem engStart_draws : (engStart s).draws = s.draws := rfl

end engStart

section hufUnload
variable (s : State)

@[simp] theorem hufUnload_inStart : (hufUnload s).inStart = s.inStart := rfl
@[simp] theorem hufUnload_inEnd : (hufUnload s).inEnd = s.inEnd := rfl
@[simp] theorem hufUnload_outStart : (hufUnload s).outStart = s.outStart := rfl
@[simp] theorem hufUnload_outLimit : (hufUnload s).outLimit = s.outLimit := rfl
@[simp] theorem hufUnload_cfgEnforce : (hufUnload s).cfgEnforce = s.cfgEnforce := rfl
@[simp] theorem hufUnload_bytesWritten : (hufUnload s).bytesWritten = s.bytesWritten := rfl
@[simp] theorem hufUnload_errClass : (hufUnload s).errClass = s.errClass := rfl
@[simp] theorem hufUnload_errCode : (hufUnload s).errCode = s.errCode := rfl
@[simp] theorem hufUnload_errOffset : (hufUnload s).errOffset = s.errOffset := rfl
@[simp] theorem hufUnload_cksumBad : (hufUnload s).cksumBad = s.cksumBad := rfl
@[simp] theorem hufUnload_ip : (hufUnload s).ip = s.ip := rfl
@[simp] theorem hufUnload_op : (hufUnload s).op = s.op := rfl
@[simp] theorem hufUnload_phase : (hufUnload s).phase = s.phase := rfl
@[simp] theorem hufUnload_lInStart : (hufUnload s).lInStart = s.lInStart := rfl
@[simp] theorem hufUnload_lInEnd : (hufUnload s).lInEnd = s.lInEnd := rfl
@[simp] theorem hufUnload_lOutStart : (hufUnload s).lOutStart = s.lOutStart := rfl
@[simp] theorem hufUnload_lOutLimit : (hufUnload s).lOutLimit = s.lOutLimit := rfl
@[simp] theorem hufUnload_lEnforce : (hufUnload s).lEnforce = s.lEnforce := rfl
@[simp] theorem hufUnload_fh : (hufUnload s).fh = s.fh := rfl
@[simp] theorem hufUnload_frameOutStart : (hufUnload s).frameOutStart = s.frameOutStart := rfl
@[simp] theorem hufUnload_blk : (hufUnload s).blk = s.blk := rfl
@[simp] theorem hufUnload_lit : (hufUnload s).lit = s.lit := rfl
@[simp] theorem hufUnload_seq : (hufUnload s).seq = s.seq := rfl
@[simp] theorem hufUnload_rep : (hufUnload s).rep = s.rep := rfl
@[simp] theorem hufUnload_llSel : (hufUnload s).llSel = s.llSel := rfl
@[simp] theorem hufUnload_ofSel : (hufUnload s).ofSel = s.ofSel := rfl
@[simp] theorem hufUnload_mlSel : (hufUnload s).mlSel = s.mlSel := rfl
@[simp] theorem hufUnload_br : (hufUnload s).br = s.br := rfl
@[simp] theorem hufUnload_llt : (hufUnload s).llt = s.llt := rfl
@[simp] theorem hufUnload_oft : (hufUnload s).oft = s.oft := rfl
@[simp] theorem hufUnload_mlt : (hufUnload s).mlt = s.mlt := rfl
@[simp] theorem hufUnload_hwt : (hufUnload s).hwt = s.hwt := rfl
@[simp] theorem hufUnload_fse : (hufUnload s).fse = s.fse := rfl
@[simp] theorem hufUnload_huf : (hufUnload s).huf = { s.huf with loaded := false } := rfl
@[simp] theorem hufUnload_xxh : (hufUnload s).xxh = s.xxh := rfl
@[simp] theorem hufUnload_inp : (hufUnload s).inp = s.inp := rfl
@[simp] theorem hufUnload_out : (hufUnload s).out = s.out := rfl
@[simp] theorem hufUnload_litbuf : (hufUnload s).litbuf = s.litbuf := rfl
@[simp] theorem hufUnload_sub : (hufUnload s).sub = s.sub := rfl
@[simp] theorem hufUnload_fhdByte : (hufUnload s).fhdByte = s.fhdByte := rfl
@[simp] theorem hufUnload_litLim : (hufUnload s).litLim = s.litLim := rfl
@[simp] theorem hufUnload_issue : (hufUnload s).issue = s.issue := rfl
@[simp] theorem hufUnload_result : (hufUnload s).result = s.result := rfl
@[simp] theorem hufUnload_hostQueue : (hufUnload s).hostQueue = s.hostQueue := rfl
@[simp] theorem hufUnload_hostData : (hufUnload s).hostData = s.hostData := rfl
@[simp] theorem hufUnload_oneMemory : (hufUnload s).oneMemory = s.oneMemory := rfl
@[simp] theorem hufUnload_draws : (hufUnload s).draws = s.draws := rfl

end hufUnload

section scrapLit
variable (s : State) (w : List (Nat × Nat))

@[simp] theorem scrapLit_inStart : (s.scrapLit w).inStart = s.inStart := rfl
@[simp] theorem scrapLit_inEnd : (s.scrapLit w).inEnd = s.inEnd := rfl
@[simp] theorem scrapLit_outStart : (s.scrapLit w).outStart = s.outStart := rfl
@[simp] theorem scrapLit_outLimit : (s.scrapLit w).outLimit = s.outLimit := rfl
@[simp] theorem scrapLit_cfgEnforce : (s.scrapLit w).cfgEnforce = s.cfgEnforce := rfl
@[simp] theorem scrapLit_bytesWritten : (s.scrapLit w).bytesWritten = s.bytesWritten := rfl
@[simp] theorem scrapLit_errClass : (s.scrapLit w).errClass = s.errClass := rfl
@[simp] theorem scrapLit_errCode : (s.scrapLit w).errCode = s.errCode := rfl
@[simp] theorem scrapLit_errOffset : (s.scrapLit w).errOffset = s.errOffset := rfl
@[simp] theorem scrapLit_cksumBad : (s.scrapLit w).cksumBad = s.cksumBad := rfl
@[simp] theorem scrapLit_ip : (s.scrapLit w).ip = s.ip := rfl
@[simp] theorem scrapLit_op : (s.scrapLit w).op = s.op := rfl
@[simp] theorem scrapLit_phase : (s.scrapLit w).phase = s.phase := rfl
@[simp] theorem scrapLit_lInStart : (s.scrapLit w).lInStart = s.lInStart := rfl
@[simp] theorem scrapLit_lInEnd : (s.scrapLit w).lInEnd = s.lInEnd := rfl
@[simp] theorem scrapLit_lOutStart : (s.scrapLit w).lOutStart = s.lOutStart := rfl
@[simp] theorem scrapLit_lOutLimit : (s.scrapLit w).lOutLimit = s.lOutLimit := rfl
@[simp] theorem scrapLit_lEnforce : (s.scrapLit w).lEnforce = s.lEnforce := rfl
@[simp] theorem scrapLit_fh : (s.scrapLit w).fh = s.fh := rfl
@[simp] theorem scrapLit_frameOutStart : (s.scrapLit w).frameOutStart = s.frameOutStart := rfl
@[simp] theorem scrapLit_blk : (s.scrapLit w).blk = s.blk := rfl
@[simp] theorem scrapLit_lit : (s.scrapLit w).lit = s.lit := rfl
@[simp] theorem scrapLit_seq : (s.scrapLit w).seq = s.seq := rfl
@[simp] theorem scrapLit_rep : (s.scrapLit w).rep = s.rep := rfl
@[simp] theorem scrapLit_llSel : (s.scrapLit w).llSel = s.llSel := rfl
@[simp] theorem scrapLit_ofSel : (s.scrapLit w).ofSel = s.ofSel := rfl
@[simp] theorem scrapLit_mlSel : (s.scrapLit w).mlSel = s.mlSel := rfl
@[simp] theorem scrapLit_br : (s.scrapLit w).br = s.br := rfl
@[simp] theorem scrapLit_llt : (s.scrapLit w).llt = s.llt := rfl
@[simp] theorem scrapLit_oft : (s.scrapLit w).oft = s.oft := rfl
@[simp] theorem scrapLit_mlt : (s.scrapLit w).mlt = s.mlt := rfl
@[simp] theorem scrapLit_hwt : (s.scrapLit w).hwt = s.hwt := rfl
@[simp] theorem scrapLit_fse : (s.scrapLit w).fse = s.fse := rfl
@[simp] theorem scrapLit_huf : (s.scrapLit w).huf = s.huf := rfl
@[simp] theorem scrapLit_xxh : (s.scrapLit w).xxh = s.xxh := rfl
@[simp] theorem scrapLit_inp : (s.scrapLit w).inp = s.inp := rfl
@[simp] theorem scrapLit_out : (s.scrapLit w).out = s.out := rfl
@[simp] theorem scrapLit_litbuf : (s.scrapLit w).litbuf = s.litbuf.scrapRanges s.draws w := rfl
@[simp] theorem scrapLit_sub : (s.scrapLit w).sub = s.sub := rfl
@[simp] theorem scrapLit_fhdByte : (s.scrapLit w).fhdByte = s.fhdByte := rfl
@[simp] theorem scrapLit_litLim : (s.scrapLit w).litLim = s.litLim := rfl
@[simp] theorem scrapLit_issue : (s.scrapLit w).issue = s.issue := rfl
@[simp] theorem scrapLit_result : (s.scrapLit w).result = s.result := rfl
@[simp] theorem scrapLit_hostQueue : (s.scrapLit w).hostQueue = s.hostQueue := rfl
@[simp] theorem scrapLit_hostData : (s.scrapLit w).hostData = s.hostData := rfl
@[simp] theorem scrapLit_oneMemory : (s.scrapLit w).oneMemory = s.oneMemory := rfl
@[simp] theorem scrapLit_draws : (s.scrapLit w).draws = s.draws + 1 := rfl

end scrapLit

section xxhHash
variable (s : State) (a n : Nat)

@[simp] theorem xxhHash_inStart : (s.xxhHash a n).inStart = s.inStart := rfl
@[simp] theorem xxhHash_inEnd : (s.xxhHash a n).inEnd = s.inEnd := rfl
@[simp] theorem xxhHash_outStart : (s.xxhHash a n).outStart = s.outStart := rfl
@[simp] theorem xxhHash_outLimit : (s.xxhHash a n).outLimit = s.outLimit := rfl
@[simp] theorem xxhHash_cfgEnforce : (s.xxhHash a n).cfgEnforce = s.cfgEnforce := rfl
@[simp] theorem xxhHash_bytesWritten : (s.xxhHash a n).bytesWritten = s.bytesWritten := rfl
@[simp] theorem xxhHash_errClass : (s.xxhHash a n).errClass = s.errClass := rfl
@[simp] theorem xxhHash_errCode : (s.xxhHash a n).errCode = s.errCode := rfl
@[simp] theorem xxhHash_errOffset : (s.xxhHash a n).errOffset = s.errOffset := rfl
@[simp] theorem xxhHash_cksumBad : (s.xxhHash a n).cksumBad = s.cksumBad := rfl
@[simp] theorem xxhHash_ip : (s.xxhHash a n).ip = s.ip := rfl
@[simp] theorem xxhHash_op : (s.xxhHash a n).op = s.op := rfl
@[simp] theorem xxhHash_phase : (s.xxhHash a n).phase = s.phase := rfl
@[simp] theorem xxhHash_lInStart : (s.xxhHash a n).lInStart = s.lInStart := rfl
@[simp] theorem xxhHash_lInEnd : (s.xxhHash a n).lInEnd = s.lInEnd := rfl
@[simp] theorem xxhHash_lOutStart : (s.xxhHash a n).lOutStart = s.lOutStart := rfl
@[simp] theorem xxhHash_lOutLimit : (s.xxhHash a n).lOutLimit = s.lOutLimit := rfl
@[simp] theorem xxhHash_lEnforce : (s.xxhHash a n).lEnforce = s.lEnforce := rfl
@[simp] theorem xxhHash_fh : (s.xxhHash a n).fh = s.fh := rfl
@[simp] theorem xxhHash_frameOutStart : (s.xxhHash a n).frameOutStart = s.frameOutStart := rfl
@[simp] theorem xxhHash_blk : (s.xxhHash a n).blk = s.blk := rfl
@[simp] theorem xxhHash_lit : (s.xxhHash a n).lit = s.lit := rfl
@[simp] theorem xxhHash_seq : (s.xxhHash a n).seq = s.seq := rfl
@[simp] theorem xxhHash_rep : (s.xxhHash a n).rep = s.rep := rfl
@[simp] theorem xxhHash_llSel : (s.xxhHash a n).llSel = s.llSel := rfl
@[simp] theorem xxhHash_ofSel : (s.xxhHash a n).ofSel = s.ofSel := rfl
@[simp] theorem xxhHash_mlSel : (s.xxhHash a n).mlSel = s.mlSel := rfl
@[simp] theorem xxhHash_br : (s.xxhHash a n).br = s.br := rfl
@[simp] theorem xxhHash_llt : (s.xxhHash a n).llt = s.llt := rfl
@[simp] theorem xxhHash_oft : (s.xxhHash a n).oft = s.oft := rfl
@[simp] theorem xxhHash_mlt : (s.xxhHash a n).mlt = s.mlt := rfl
@[simp] theorem xxhHash_hwt : (s.xxhHash a n).hwt = s.hwt := rfl
@[simp] theorem xxhHash_fse : (s.xxhHash a n).fse = s.fse := rfl
@[simp] theorem xxhHash_huf : (s.xxhHash a n).huf = s.huf := rfl
@[simp] theorem xxhHash_xxh : (s.xxhHash a n).xxh = Machine.xxhHash s.outByte a n s.xxh := rfl
@[simp] theorem xxhHash_inp : (s.xxhHash a n).inp = s.inp := rfl
@[simp] theorem xxhHash_out : (s.xxhHash a n).out = s.out := rfl
@[simp] theorem xxhHash_litbuf : (s.xxhHash a n).litbuf = s.litbuf := rfl
@[simp] theorem xxhHash_sub : (s.xxhHash a n).sub = s.sub := rfl
@[simp] theorem xxhHash_fhdByte : (s.xxhHash a n).fhdByte = s.fhdByte := rfl
@[simp] theorem xxhHash_litLim : (s.xxhHash a n).litLim = s.litLim := rfl
@[simp] theorem xxhHash_issue : (s.xxhHash a n).issue = s.issue := rfl
@[simp] theorem xxhHash_result : (s.xxhHash a n).result = s.result := rfl
@[simp] theorem xxhHash_hostQueue : (s.xxhHash a n).hostQueue = s.hostQueue := rfl
@[simp] theorem xxhHash_hostData : (s.xxhHash a n).hostData = s.hostData := rfl
@[simp] theorem xxhHash_oneMemory : (s.xxhHash a n).oneMemory = s.oneMemory := rfl
@[simp] theorem xxhHash_draws : (s.xxhHash a n).draws = s.draws := rfl

end xxhHash

section setBlockEnd
variable (s : State)

@[simp] theorem setBlockEnd_inStart : s.setBlockEnd.inStart = s.inStart := rfl
@[simp] theorem setBlockEnd_inEnd : s.setBlockEnd.inEnd = s.inEnd := rfl
@[simp] theorem setBlockEnd_outStart : s.setBlockEnd.outStart = s.outStart := rfl
@[simp] theorem setBlockEnd_outLimit : s.setBlockEnd.outLimit = s.outLimit := rfl
@[simp] theorem setBlockEnd_cfgEnforce : s.setBlockEnd.cfgEnforce = s.cfgEnforce := rfl
@[simp] theorem setBlockEnd_bytesWritten : s.setBlockEnd.bytesWritten = s.bytesWritten := rfl
@[simp] theorem setBlockEnd_errClass : s.setBlockEnd.errClass = s.errClass := rfl
@[simp] theorem setBlockEnd_errCode : s.setBlockEnd.errCode = s.errCode := rfl
@[simp] theorem setBlockEnd_errOffset : s.setBlockEnd.errOffset = s.errOffset := rfl
@[simp] theorem setBlockEnd_cksumBad : s.setBlockEnd.cksumBad = s.cksumBad := rfl
@[simp] theorem setBlockEnd_ip : s.setBlockEnd.ip = s.ip := rfl
@[simp] theorem setBlockEnd_op : s.setBlockEnd.op = s.op := rfl
@[simp] theorem setBlockEnd_phase : s.setBlockEnd.phase = s.phase := rfl
@[simp] theorem setBlockEnd_lInStart : s.setBlockEnd.lInStart = s.lInStart := rfl
@[simp] theorem setBlockEnd_lInEnd : s.setBlockEnd.lInEnd = s.lInEnd := rfl
@[simp] theorem setBlockEnd_lOutStart : s.setBlockEnd.lOutStart = s.lOutStart := rfl
@[simp] theorem setBlockEnd_lOutLimit : s.setBlockEnd.lOutLimit = s.lOutLimit := rfl
@[simp] theorem setBlockEnd_lEnforce : s.setBlockEnd.lEnforce = s.lEnforce := rfl
@[simp] theorem setBlockEnd_fh : s.setBlockEnd.fh = s.fh := rfl
@[simp] theorem setBlockEnd_frameOutStart : s.setBlockEnd.frameOutStart = s.frameOutStart := rfl
@[simp] theorem setBlockEnd_blk : s.setBlockEnd.blk = { s.blk with limit := s.ip + BitVec.ofNat 32 s.blk.size.toNat } := rfl
@[simp] theorem setBlockEnd_lit : s.setBlockEnd.lit = s.lit := rfl
@[simp] theorem setBlockEnd_seq : s.setBlockEnd.seq = s.seq := rfl
@[simp] theorem setBlockEnd_rep : s.setBlockEnd.rep = s.rep := rfl
@[simp] theorem setBlockEnd_llSel : s.setBlockEnd.llSel = s.llSel := rfl
@[simp] theorem setBlockEnd_ofSel : s.setBlockEnd.ofSel = s.ofSel := rfl
@[simp] theorem setBlockEnd_mlSel : s.setBlockEnd.mlSel = s.mlSel := rfl
@[simp] theorem setBlockEnd_br : s.setBlockEnd.br = s.br := rfl
@[simp] theorem setBlockEnd_llt : s.setBlockEnd.llt = s.llt := rfl
@[simp] theorem setBlockEnd_oft : s.setBlockEnd.oft = s.oft := rfl
@[simp] theorem setBlockEnd_mlt : s.setBlockEnd.mlt = s.mlt := rfl
@[simp] theorem setBlockEnd_hwt : s.setBlockEnd.hwt = s.hwt := rfl
@[simp] theorem setBlockEnd_fse : s.setBlockEnd.fse = s.fse := rfl
@[simp] theorem setBlockEnd_huf : s.setBlockEnd.huf = s.huf := rfl
@[simp] theorem setBlockEnd_xxh : s.setBlockEnd.xxh = s.xxh := rfl
@[simp] theorem setBlockEnd_inp : s.setBlockEnd.inp = s.inp := rfl
@[simp] theorem setBlockEnd_out : s.setBlockEnd.out = s.out := rfl
@[simp] theorem setBlockEnd_litbuf : s.setBlockEnd.litbuf = s.litbuf := rfl
@[simp] theorem setBlockEnd_sub : s.setBlockEnd.sub = s.sub := rfl
@[simp] theorem setBlockEnd_fhdByte : s.setBlockEnd.fhdByte = s.fhdByte := rfl
@[simp] theorem setBlockEnd_litLim : s.setBlockEnd.litLim = s.litLim := rfl
@[simp] theorem setBlockEnd_issue : s.setBlockEnd.issue = s.issue := rfl
@[simp] theorem setBlockEnd_result : s.setBlockEnd.result = s.result := rfl
@[simp] theorem setBlockEnd_hostQueue : s.setBlockEnd.hostQueue = s.hostQueue := rfl
@[simp] theorem setBlockEnd_hostData : s.setBlockEnd.hostData = s.hostData := rfl
@[simp] theorem setBlockEnd_oneMemory : s.setBlockEnd.oneMemory = s.oneMemory := rfl
@[simp] theorem setBlockEnd_draws : s.setBlockEnd.draws = s.draws := rfl

end setBlockEnd

section produce
variable (s : State) (src : Memory → Nat → Byte) (n : Nat)

@[simp] theorem produce_inStart : (s.produce src n).inStart = s.inStart := rfl
@[simp] theorem produce_inEnd : (s.produce src n).inEnd = s.inEnd := rfl
@[simp] theorem produce_outStart : (s.produce src n).outStart = s.outStart := rfl
@[simp] theorem produce_outLimit : (s.produce src n).outLimit = s.outLimit := rfl
@[simp] theorem produce_cfgEnforce : (s.produce src n).cfgEnforce = s.cfgEnforce := rfl
@[simp] theorem produce_bytesWritten : (s.produce src n).bytesWritten = s.bytesWritten := rfl
@[simp] theorem produce_errClass : (s.produce src n).errClass = s.errClass := rfl
@[simp] theorem produce_errCode : (s.produce src n).errCode = s.errCode := rfl
@[simp] theorem produce_errOffset : (s.produce src n).errOffset = s.errOffset := rfl
@[simp] theorem produce_cksumBad : (s.produce src n).cksumBad = s.cksumBad := rfl
@[simp] theorem produce_ip : (s.produce src n).ip = s.ip := rfl
@[simp] theorem produce_op : (s.produce src n).op = s.op + BitVec.ofNat 32 n := rfl
@[simp] theorem produce_phase : (s.produce src n).phase = s.phase := rfl
@[simp] theorem produce_lInStart : (s.produce src n).lInStart = s.lInStart := rfl
@[simp] theorem produce_lInEnd : (s.produce src n).lInEnd = s.lInEnd := rfl
@[simp] theorem produce_lOutStart : (s.produce src n).lOutStart = s.lOutStart := rfl
@[simp] theorem produce_lOutLimit : (s.produce src n).lOutLimit = s.lOutLimit := rfl
@[simp] theorem produce_lEnforce : (s.produce src n).lEnforce = s.lEnforce := rfl
@[simp] theorem produce_fh : (s.produce src n).fh = s.fh := rfl
@[simp] theorem produce_frameOutStart : (s.produce src n).frameOutStart = s.frameOutStart := rfl
@[simp] theorem produce_blk : (s.produce src n).blk = s.blk := rfl
@[simp] theorem produce_lit : (s.produce src n).lit = s.lit := rfl
@[simp] theorem produce_seq : (s.produce src n).seq = s.seq := rfl
@[simp] theorem produce_rep : (s.produce src n).rep = s.rep := rfl
@[simp] theorem produce_llSel : (s.produce src n).llSel = s.llSel := rfl
@[simp] theorem produce_ofSel : (s.produce src n).ofSel = s.ofSel := rfl
@[simp] theorem produce_mlSel : (s.produce src n).mlSel = s.mlSel := rfl
@[simp] theorem produce_br : (s.produce src n).br = s.br := rfl
@[simp] theorem produce_llt : (s.produce src n).llt = s.llt := rfl
@[simp] theorem produce_oft : (s.produce src n).oft = s.oft := rfl
@[simp] theorem produce_mlt : (s.produce src n).mlt = s.mlt := rfl
@[simp] theorem produce_hwt : (s.produce src n).hwt = s.hwt := rfl
@[simp] theorem produce_fse : (s.produce src n).fse = s.fse := rfl
@[simp] theorem produce_huf : (s.produce src n).huf = s.huf := rfl
@[simp] theorem produce_xxh : (s.produce src n).xxh = s.xxh := rfl
@[simp] theorem produce_inp : (s.produce src n).inp = s.inp := rfl
@[simp] theorem produce_out : (s.produce src n).out = copyLoop src s.op.toNat n 0 s.out := rfl
@[simp] theorem produce_litbuf : (s.produce src n).litbuf = s.litbuf := rfl
@[simp] theorem produce_sub : (s.produce src n).sub = s.sub := rfl
@[simp] theorem produce_fhdByte : (s.produce src n).fhdByte = s.fhdByte := rfl
@[simp] theorem produce_litLim : (s.produce src n).litLim = s.litLim := rfl
@[simp] theorem produce_issue : (s.produce src n).issue = s.issue := rfl
@[simp] theorem produce_result : (s.produce src n).result = s.result := rfl
@[simp] theorem produce_hostQueue : (s.produce src n).hostQueue = s.hostQueue := rfl
@[simp] theorem produce_hostData : (s.produce src n).hostData = s.hostData := rfl
@[simp] theorem produce_oneMemory : (s.produce src n).oneMemory = s.oneMemory := rfl
@[simp] theorem produce_draws : (s.produce src n).draws = s.draws := rfl

end produce

section litFill
variable (s : State) (src : Memory → Nat → Byte) (n : Nat)

@[simp] theorem litFill_inStart : (s.litFill src n).inStart = s.inStart := rfl
@[simp] theorem litFill_inEnd : (s.litFill src n).inEnd = s.inEnd := rfl
@[simp] theorem litFill_outStart : (s.litFill src n).outStart = s.outStart := rfl
@[simp] theorem litFill_outLimit : (s.litFill src n).outLimit = s.outLimit := rfl
@[simp] theorem litFill_cfgEnforce : (s.litFill src n).cfgEnforce = s.cfgEnforce := rfl
@[simp] theorem litFill_bytesWritten : (s.litFill src n).bytesWritten = s.bytesWritten := rfl
@[simp] theorem litFill_errClass : (s.litFill src n).errClass = s.errClass := rfl
@[simp] theorem litFill_errCode : (s.litFill src n).errCode = s.errCode := rfl
@[simp] theorem litFill_errOffset : (s.litFill src n).errOffset = s.errOffset := rfl
@[simp] theorem litFill_cksumBad : (s.litFill src n).cksumBad = s.cksumBad := rfl
@[simp] theorem litFill_ip : (s.litFill src n).ip = s.ip := rfl
@[simp] theorem litFill_op : (s.litFill src n).op = s.op := rfl
@[simp] theorem litFill_phase : (s.litFill src n).phase = s.phase := rfl
@[simp] theorem litFill_lInStart : (s.litFill src n).lInStart = s.lInStart := rfl
@[simp] theorem litFill_lInEnd : (s.litFill src n).lInEnd = s.lInEnd := rfl
@[simp] theorem litFill_lOutStart : (s.litFill src n).lOutStart = s.lOutStart := rfl
@[simp] theorem litFill_lOutLimit : (s.litFill src n).lOutLimit = s.lOutLimit := rfl
@[simp] theorem litFill_lEnforce : (s.litFill src n).lEnforce = s.lEnforce := rfl
@[simp] theorem litFill_fh : (s.litFill src n).fh = s.fh := rfl
@[simp] theorem litFill_frameOutStart : (s.litFill src n).frameOutStart = s.frameOutStart := rfl
@[simp] theorem litFill_blk : (s.litFill src n).blk = s.blk := rfl
@[simp] theorem litFill_lit : (s.litFill src n).lit = { s.lit with src := false, ptr := 0, limit := BitVec.ofNat 32 n } := rfl
@[simp] theorem litFill_seq : (s.litFill src n).seq = s.seq := rfl
@[simp] theorem litFill_rep : (s.litFill src n).rep = s.rep := rfl
@[simp] theorem litFill_llSel : (s.litFill src n).llSel = s.llSel := rfl
@[simp] theorem litFill_ofSel : (s.litFill src n).ofSel = s.ofSel := rfl
@[simp] theorem litFill_mlSel : (s.litFill src n).mlSel = s.mlSel := rfl
@[simp] theorem litFill_br : (s.litFill src n).br = s.br := rfl
@[simp] theorem litFill_llt : (s.litFill src n).llt = s.llt := rfl
@[simp] theorem litFill_oft : (s.litFill src n).oft = s.oft := rfl
@[simp] theorem litFill_mlt : (s.litFill src n).mlt = s.mlt := rfl
@[simp] theorem litFill_hwt : (s.litFill src n).hwt = s.hwt := rfl
@[simp] theorem litFill_fse : (s.litFill src n).fse = s.fse := rfl
@[simp] theorem litFill_huf : (s.litFill src n).huf = s.huf := rfl
@[simp] theorem litFill_xxh : (s.litFill src n).xxh = s.xxh := rfl
@[simp] theorem litFill_inp : (s.litFill src n).inp = s.inp := rfl
@[simp] theorem litFill_out : (s.litFill src n).out = s.out := rfl
@[simp] theorem litFill_litbuf : (s.litFill src n).litbuf = copyLoop src 0 n 0 s.litbuf := rfl
@[simp] theorem litFill_sub : (s.litFill src n).sub = s.sub := rfl
@[simp] theorem litFill_fhdByte : (s.litFill src n).fhdByte = s.fhdByte := rfl
@[simp] theorem litFill_litLim : (s.litFill src n).litLim = s.litLim := rfl
@[simp] theorem litFill_issue : (s.litFill src n).issue = s.issue := rfl
@[simp] theorem litFill_result : (s.litFill src n).result = s.result := rfl
@[simp] theorem litFill_hostQueue : (s.litFill src n).hostQueue = s.hostQueue := rfl
@[simp] theorem litFill_hostData : (s.litFill src n).hostData = s.hostData := rfl
@[simp] theorem litFill_oneMemory : (s.litFill src n).oneMemory = s.oneMemory := rfl
@[simp] theorem litFill_draws : (s.litFill src n).draws = s.draws := rfl

end litFill

section litEnd
variable (s : State)

@[simp] theorem litEnd_inStart : (litEnd s).inStart = s.inStart := rfl
@[simp] theorem litEnd_inEnd : (litEnd s).inEnd = s.inEnd := rfl
@[simp] theorem litEnd_outStart : (litEnd s).outStart = s.outStart := rfl
@[simp] theorem litEnd_outLimit : (litEnd s).outLimit = s.outLimit := rfl
@[simp] theorem litEnd_cfgEnforce : (litEnd s).cfgEnforce = s.cfgEnforce := rfl
@[simp] theorem litEnd_bytesWritten : (litEnd s).bytesWritten = s.bytesWritten := rfl
@[simp] theorem litEnd_errClass : (litEnd s).errClass = s.errClass := rfl
@[simp] theorem litEnd_errCode : (litEnd s).errCode = s.errCode := rfl
@[simp] theorem litEnd_errOffset : (litEnd s).errOffset = s.errOffset := rfl
@[simp] theorem litEnd_cksumBad : (litEnd s).cksumBad = s.cksumBad := rfl
@[simp] theorem litEnd_ip : (litEnd s).ip = s.litLim := rfl
@[simp] theorem litEnd_op : (litEnd s).op = s.op := rfl
@[simp] theorem litEnd_phase : (litEnd s).phase = s.phase := rfl
@[simp] theorem litEnd_lInStart : (litEnd s).lInStart = s.lInStart := rfl
@[simp] theorem litEnd_lInEnd : (litEnd s).lInEnd = s.lInEnd := rfl
@[simp] theorem litEnd_lOutStart : (litEnd s).lOutStart = s.lOutStart := rfl
@[simp] theorem litEnd_lOutLimit : (litEnd s).lOutLimit = s.lOutLimit := rfl
@[simp] theorem litEnd_lEnforce : (litEnd s).lEnforce = s.lEnforce := rfl
@[simp] theorem litEnd_fh : (litEnd s).fh = s.fh := rfl
@[simp] theorem litEnd_frameOutStart : (litEnd s).frameOutStart = s.frameOutStart := rfl
@[simp] theorem litEnd_blk : (litEnd s).blk = s.blk := rfl
@[simp] theorem litEnd_lit : (litEnd s).lit = { s.lit with src := false, ptr := 0, limit := BitVec.ofNat 32 s.lit.regen.toNat } := rfl
@[simp] theorem litEnd_seq : (litEnd s).seq = s.seq := rfl
@[simp] theorem litEnd_rep : (litEnd s).rep = s.rep := rfl
@[simp] theorem litEnd_llSel : (litEnd s).llSel = s.llSel := rfl
@[simp] theorem litEnd_ofSel : (litEnd s).ofSel = s.ofSel := rfl
@[simp] theorem litEnd_mlSel : (litEnd s).mlSel = s.mlSel := rfl
@[simp] theorem litEnd_br : (litEnd s).br = s.br := rfl
@[simp] theorem litEnd_llt : (litEnd s).llt = s.llt := rfl
@[simp] theorem litEnd_oft : (litEnd s).oft = s.oft := rfl
@[simp] theorem litEnd_mlt : (litEnd s).mlt = s.mlt := rfl
@[simp] theorem litEnd_hwt : (litEnd s).hwt = s.hwt := rfl
@[simp] theorem litEnd_fse : (litEnd s).fse = s.fse := rfl
@[simp] theorem litEnd_huf : (litEnd s).huf = s.huf := rfl
@[simp] theorem litEnd_xxh : (litEnd s).xxh = s.xxh := rfl
@[simp] theorem litEnd_inp : (litEnd s).inp = s.inp := rfl
@[simp] theorem litEnd_out : (litEnd s).out = s.out := rfl
@[simp] theorem litEnd_litbuf : (litEnd s).litbuf = s.litbuf := rfl
@[simp] theorem litEnd_sub : (litEnd s).sub = .seqn := rfl
@[simp] theorem litEnd_fhdByte : (litEnd s).fhdByte = s.fhdByte := rfl
@[simp] theorem litEnd_litLim : (litEnd s).litLim = s.litLim := rfl
@[simp] theorem litEnd_issue : (litEnd s).issue = s.issue := rfl
@[simp] theorem litEnd_result : (litEnd s).result = s.result := rfl
@[simp] theorem litEnd_hostQueue : (litEnd s).hostQueue = s.hostQueue := rfl
@[simp] theorem litEnd_hostData : (litEnd s).hostData = s.hostData := rfl
@[simp] theorem litEnd_oneMemory : (litEnd s).oneMemory = s.oneMemory := rfl
@[simp] theorem litEnd_draws : (litEnd s).draws = s.draws := rfl

end litEnd

section copyMatch
variable (s : State) (d n : Nat)

@[simp] theorem copyMatch_inStart : (s.copyMatch d n).inStart = s.inStart := rfl
@[simp] theorem copyMatch_inEnd : (s.copyMatch d n).inEnd = s.inEnd := rfl
@[simp] theorem copyMatch_outStart : (s.copyMatch d n).outStart = s.outStart := rfl
@[simp] theorem copyMatch_outLimit : (s.copyMatch d n).outLimit = s.outLimit := rfl
@[simp] theorem copyMatch_cfgEnforce : (s.copyMatch d n).cfgEnforce = s.cfgEnforce := rfl
@[simp] theorem copyMatch_bytesWritten : (s.copyMatch d n).bytesWritten = s.bytesWritten := rfl
@[simp] theorem copyMatch_errClass : (s.copyMatch d n).errClass = s.errClass := rfl
@[simp] theorem copyMatch_errCode : (s.copyMatch d n).errCode = s.errCode := rfl
@[simp] theorem copyMatch_errOffset : (s.copyMatch d n).errOffset = s.errOffset := rfl
@[simp] theorem copyMatch_cksumBad : (s.copyMatch d n).cksumBad = s.cksumBad := rfl
@[simp] theorem copyMatch_ip : (s.copyMatch d n).ip = s.ip := rfl
@[simp] theorem copyMatch_op : (s.copyMatch d n).op = s.op + BitVec.ofNat 32 n := rfl
@[simp] theorem copyMatch_phase : (s.copyMatch d n).phase = s.phase := rfl
@[simp] theorem copyMatch_lInStart : (s.copyMatch d n).lInStart = s.lInStart := rfl
@[simp] theorem copyMatch_lInEnd : (s.copyMatch d n).lInEnd = s.lInEnd := rfl
@[simp] theorem copyMatch_lOutStart : (s.copyMatch d n).lOutStart = s.lOutStart := rfl
@[simp] theorem copyMatch_lOutLimit : (s.copyMatch d n).lOutLimit = s.lOutLimit := rfl
@[simp] theorem copyMatch_lEnforce : (s.copyMatch d n).lEnforce = s.lEnforce := rfl
@[simp] theorem copyMatch_fh : (s.copyMatch d n).fh = s.fh := rfl
@[simp] theorem copyMatch_frameOutStart : (s.copyMatch d n).frameOutStart = s.frameOutStart := rfl
@[simp] theorem copyMatch_blk : (s.copyMatch d n).blk = s.blk := rfl
@[simp] theorem copyMatch_lit : (s.copyMatch d n).lit = s.lit := rfl
@[simp] theorem copyMatch_seq : (s.copyMatch d n).seq = s.seq := rfl
@[simp] theorem copyMatch_rep : (s.copyMatch d n).rep = s.rep := rfl
@[simp] theorem copyMatch_llSel : (s.copyMatch d n).llSel = s.llSel := rfl
@[simp] theorem copyMatch_ofSel : (s.copyMatch d n).ofSel = s.ofSel := rfl
@[simp] theorem copyMatch_mlSel : (s.copyMatch d n).mlSel = s.mlSel := rfl
@[simp] theorem copyMatch_br : (s.copyMatch d n).br = s.br := rfl
@[simp] theorem copyMatch_llt : (s.copyMatch d n).llt = s.llt := rfl
@[simp] theorem copyMatch_oft : (s.copyMatch d n).oft = s.oft := rfl
@[simp] theorem copyMatch_mlt : (s.copyMatch d n).mlt = s.mlt := rfl
@[simp] theorem copyMatch_hwt : (s.copyMatch d n).hwt = s.hwt := rfl
@[simp] theorem copyMatch_fse : (s.copyMatch d n).fse = s.fse := rfl
@[simp] theorem copyMatch_huf : (s.copyMatch d n).huf = s.huf := rfl
@[simp] theorem copyMatch_xxh : (s.copyMatch d n).xxh = s.xxh := rfl
@[simp] theorem copyMatch_inp : (s.copyMatch d n).inp = s.inp := rfl
@[simp] theorem copyMatch_out : (s.copyMatch d n).out = copyLoop (fun out i => out.byte (s.op.toNat + i - d)) s.op.toNat n 0 s.out := rfl
@[simp] theorem copyMatch_litbuf : (s.copyMatch d n).litbuf = s.litbuf := rfl
@[simp] theorem copyMatch_sub : (s.copyMatch d n).sub = s.sub := rfl
@[simp] theorem copyMatch_fhdByte : (s.copyMatch d n).fhdByte = s.fhdByte := rfl
@[simp] theorem copyMatch_litLim : (s.copyMatch d n).litLim = s.litLim := rfl
@[simp] theorem copyMatch_issue : (s.copyMatch d n).issue = s.issue := rfl
@[simp] theorem copyMatch_result : (s.copyMatch d n).result = s.result := rfl
@[simp] theorem copyMatch_hostQueue : (s.copyMatch d n).hostQueue = s.hostQueue := rfl
@[simp] theorem copyMatch_hostData : (s.copyMatch d n).hostData = s.hostData := rfl
@[simp] theorem copyMatch_oneMemory : (s.copyMatch d n).oneMemory = s.oneMemory := rfl
@[simp] theorem copyMatch_draws : (s.copyMatch d n).draws = s.draws := rfl

end copyMatch

section copyLiterals
variable (s : State) (n : Nat)

@[simp] theorem copyLiterals_inStart : (s.copyLiterals n).inStart = s.inStart := rfl
@[simp] theorem copyLiterals_inEnd : (s.copyLiterals n).inEnd = s.inEnd := rfl
@[simp] theorem copyLiterals_outStart : (s.copyLiterals n).outStart = s.outStart := rfl
@[simp] theorem copyLiterals_outLimit : (s.copyLiterals n).outLimit = s.outLimit := rfl
@[simp] theorem copyLiterals_cfgEnforce : (s.copyLiterals n).cfgEnforce = s.cfgEnforce := rfl
@[simp] theorem copyLiterals_bytesWritten : (s.copyLiterals n).bytesWritten = s.bytesWritten := rfl
@[simp] theorem copyLiterals_errClass : (s.copyLiterals n).errClass = s.errClass := rfl
@[simp] theorem copyLiterals_errCode : (s.copyLiterals n).errCode = s.errCode := rfl
@[simp] theorem copyLiterals_errOffset : (s.copyLiterals n).errOffset = s.errOffset := rfl
@[simp] theorem copyLiterals_cksumBad : (s.copyLiterals n).cksumBad = s.cksumBad := rfl
@[simp] theorem copyLiterals_ip : (s.copyLiterals n).ip = s.ip := rfl
@[simp] theorem copyLiterals_op : (s.copyLiterals n).op = s.op + BitVec.ofNat 32 n := rfl
@[simp] theorem copyLiterals_phase : (s.copyLiterals n).phase = s.phase := rfl
@[simp] theorem copyLiterals_lInStart : (s.copyLiterals n).lInStart = s.lInStart := rfl
@[simp] theorem copyLiterals_lInEnd : (s.copyLiterals n).lInEnd = s.lInEnd := rfl
@[simp] theorem copyLiterals_lOutStart : (s.copyLiterals n).lOutStart = s.lOutStart := rfl
@[simp] theorem copyLiterals_lOutLimit : (s.copyLiterals n).lOutLimit = s.lOutLimit := rfl
@[simp] theorem copyLiterals_lEnforce : (s.copyLiterals n).lEnforce = s.lEnforce := rfl
@[simp] theorem copyLiterals_fh : (s.copyLiterals n).fh = s.fh := rfl
@[simp] theorem copyLiterals_frameOutStart : (s.copyLiterals n).frameOutStart = s.frameOutStart := rfl
@[simp] theorem copyLiterals_blk : (s.copyLiterals n).blk = s.blk := rfl
@[simp] theorem copyLiterals_lit : (s.copyLiterals n).lit = { s.lit with ptr := s.lit.ptr + BitVec.ofNat 32 n } := rfl
@[simp] theorem copyLiterals_seq : (s.copyLiterals n).seq = s.seq := rfl
@[simp] theorem copyLiterals_rep : (s.copyLiterals n).rep = s.rep := rfl
@[simp] theorem copyLiterals_llSel : (s.copyLiterals n).llSel = s.llSel := rfl
@[simp] theorem copyLiterals_ofSel : (s.copyLiterals n).ofSel = s.ofSel := rfl
@[simp] theorem copyLiterals_mlSel : (s.copyLiterals n).mlSel = s.mlSel := rfl
@[simp] theorem copyLiterals_br : (s.copyLiterals n).br = s.br := rfl
@[simp] theorem copyLiterals_llt : (s.copyLiterals n).llt = s.llt := rfl
@[simp] theorem copyLiterals_oft : (s.copyLiterals n).oft = s.oft := rfl
@[simp] theorem copyLiterals_mlt : (s.copyLiterals n).mlt = s.mlt := rfl
@[simp] theorem copyLiterals_hwt : (s.copyLiterals n).hwt = s.hwt := rfl
@[simp] theorem copyLiterals_fse : (s.copyLiterals n).fse = s.fse := rfl
@[simp] theorem copyLiterals_huf : (s.copyLiterals n).huf = s.huf := rfl
@[simp] theorem copyLiterals_xxh : (s.copyLiterals n).xxh = s.xxh := rfl
@[simp] theorem copyLiterals_inp : (s.copyLiterals n).inp = s.inp := rfl
@[simp] theorem copyLiterals_out : (s.copyLiterals n).out = copyLoop (fun out i => s.literalOver out (s.lit.ptr.toNat + i)) s.op.toNat n 0 s.out := rfl
@[simp] theorem copyLiterals_litbuf : (s.copyLiterals n).litbuf = s.litbuf := rfl
@[simp] theorem copyLiterals_sub : (s.copyLiterals n).sub = s.sub := rfl
@[simp] theorem copyLiterals_fhdByte : (s.copyLiterals n).fhdByte = s.fhdByte := rfl
@[simp] theorem copyLiterals_litLim : (s.copyLiterals n).litLim = s.litLim := rfl
@[simp] theorem copyLiterals_issue : (s.copyLiterals n).issue = s.issue := rfl
@[simp] theorem copyLiterals_result : (s.copyLiterals n).result = s.result := rfl
@[simp] theorem copyLiterals_hostQueue : (s.copyLiterals n).hostQueue = s.hostQueue := rfl
@[simp] theorem copyLiterals_hostData : (s.copyLiterals n).hostData = s.hostData := rfl
@[simp] theorem copyLiterals_oneMemory : (s.copyLiterals n).oneMemory = s.oneMemory := rfl
@[simp] theorem copyLiterals_draws : (s.copyLiterals n).draws = s.draws := rfl

end copyLiterals

section setSel
variable (s : State) (x : Alphabet) (v : Sel)

@[simp] theorem setSel_inStart : (s.setSel x v).inStart = s.inStart := by cases x <;> rfl
@[simp] theorem setSel_inEnd : (s.setSel x v).inEnd = s.inEnd := by cases x <;> rfl
@[simp] theorem setSel_outStart : (s.setSel x v).outStart = s.outStart := by cases x <;> rfl
@[simp] theorem setSel_outLimit : (s.setSel x v).outLimit = s.outLimit := by cases x <;> rfl
@[simp] theorem setSel_cfgEnforce : (s.setSel x v).cfgEnforce = s.cfgEnforce := by cases x <;> rfl
@[simp] theorem setSel_bytesWritten : (s.setSel x v).bytesWritten = s.bytesWritten := by cases x <;> rfl
@[simp] theorem setSel_errClass : (s.setSel x v).errClass = s.errClass := by cases x <;> rfl
@[simp] theorem setSel_errCode : (s.setSel x v).errCode = s.errCode := by cases x <;> rfl
@[simp] theorem setSel_errOffset : (s.setSel x v).errOffset = s.errOffset := by cases x <;> rfl
@[simp] theorem setSel_cksumBad : (s.setSel x v).cksumBad = s.cksumBad := by cases x <;> rfl
@[simp] theorem setSel_ip : (s.setSel x v).ip = s.ip := by cases x <;> rfl
@[simp] theorem setSel_op : (s.setSel x v).op = s.op := by cases x <;> rfl
@[simp] theorem setSel_phase : (s.setSel x v).phase = s.phase := by cases x <;> rfl
@[simp] theorem setSel_lInStart : (s.setSel x v).lInStart = s.lInStart := by cases x <;> rfl
@[simp] theorem setSel_lInEnd : (s.setSel x v).lInEnd = s.lInEnd := by cases x <;> rfl
@[simp] theorem setSel_lOutStart : (s.setSel x v).lOutStart = s.lOutStart := by cases x <;> rfl
@[simp] theorem setSel_lOutLimit : (s.setSel x v).lOutLimit = s.lOutLimit := by cases x <;> rfl
@[simp] theorem setSel_lEnforce : (s.setSel x v).lEnforce = s.lEnforce := by cases x <;> rfl
@[simp] theorem setSel_fh : (s.setSel x v).fh = s.fh := by cases x <;> rfl
@[simp] theorem setSel_frameOutStart : (s.setSel x v).frameOutStart = s.frameOutStart := by cases x <;> rfl
@[simp] theorem setSel_blk : (s.setSel x v).blk = s.blk := by cases x <;> rfl
@[simp] theorem setSel_lit : (s.setSel x v).lit = s.lit := by cases x <;> rfl
@[simp] theorem setSel_seq : (s.setSel x v).seq = s.seq := by cases x <;> rfl
@[simp] theorem setSel_rep : (s.setSel x v).rep = s.rep := by cases x <;> rfl
@[simp] theorem setSel_br : (s.setSel x v).br = s.br := by cases x <;> rfl
@[simp] theorem setSel_llt : (s.setSel x v).llt = s.llt := by cases x <;> rfl
@[simp] theorem setSel_oft : (s.setSel x v).oft = s.oft := by cases x <;> rfl
@[simp] theorem setSel_mlt : (s.setSel x v).mlt = s.mlt := by cases x <;> rfl
@[simp] theorem setSel_hwt : (s.setSel x v).hwt = s.hwt := by cases x <;> rfl
@[simp] theorem setSel_fse : (s.setSel x v).fse = s.fse := by cases x <;> rfl
@[simp] theorem setSel_huf : (s.setSel x v).huf = s.huf := by cases x <;> rfl
@[simp] theorem setSel_xxh : (s.setSel x v).xxh = s.xxh := by cases x <;> rfl
@[simp] theorem setSel_inp : (s.setSel x v).inp = s.inp := by cases x <;> rfl
@[simp] theorem setSel_out : (s.setSel x v).out = s.out := by cases x <;> rfl
@[simp] theorem setSel_litbuf : (s.setSel x v).litbuf = s.litbuf := by cases x <;> rfl
@[simp] theorem setSel_sub : (s.setSel x v).sub = s.sub := by cases x <;> rfl
@[simp] theorem setSel_fhdByte : (s.setSel x v).fhdByte = s.fhdByte := by cases x <;> rfl
@[simp] theorem setSel_litLim : (s.setSel x v).litLim = s.litLim := by cases x <;> rfl
@[simp] theorem setSel_issue : (s.setSel x v).issue = s.issue := by cases x <;> rfl
@[simp] theorem setSel_result : (s.setSel x v).result = s.result := by cases x <;> rfl
@[simp] theorem setSel_hostQueue : (s.setSel x v).hostQueue = s.hostQueue := by cases x <;> rfl
@[simp] theorem setSel_hostData : (s.setSel x v).hostData = s.hostData := by cases x <;> rfl
@[simp] theorem setSel_oneMemory : (s.setSel x v).oneMemory = s.oneMemory := by cases x <;> rfl
@[simp] theorem setSel_draws : (s.setSel x v).draws = s.draws := by cases x <;> rfl

end setSel

section fseRle
variable (s : State) (t : TableId) (v : Byte)

@[simp] theorem fseRle_inStart : (s.fseRle t v).inStart = s.inStart := by cases t <;> rfl
@[simp] theorem fseRle_inEnd : (s.fseRle t v).inEnd = s.inEnd := by cases t <;> rfl
@[simp] theorem fseRle_outStart : (s.fseRle t v).outStart = s.outStart := by cases t <;> rfl
@[simp] theorem fseRle_outLimit : (s.fseRle t v).outLimit = s.outLimit := by cases t <;> rfl
@[simp] theorem fseRle_cfgEnforce : (s.fseRle t v).cfgEnforce = s.cfgEnforce := by cases t <;> rfl
@[simp] theorem fseRle_bytesWritten : (s.fseRle t v).bytesWritten = s.bytesWritten := by cases t <;> rfl
@[simp] theorem fseRle_errClass : (s.fseRle t v).errClass = s.errClass := by cases t <;> rfl
@[simp] theorem fseRle_errCode : (s.fseRle t v).errCode = s.errCode := by cases t <;> rfl
@[simp] theorem fseRle_errOffset : (s.fseRle t v).errOffset = s.errOffset := by cases t <;> rfl
@[simp] theorem fseRle_cksumBad : (s.fseRle t v).cksumBad = s.cksumBad := by cases t <;> rfl
@[simp] theorem fseRle_ip : (s.fseRle t v).ip = s.ip := by cases t <;> rfl
@[simp] theorem fseRle_op : (s.fseRle t v).op = s.op := by cases t <;> rfl
@[simp] theorem fseRle_phase : (s.fseRle t v).phase = s.phase := by cases t <;> rfl
@[simp] theorem fseRle_lInStart : (s.fseRle t v).lInStart = s.lInStart := by cases t <;> rfl
@[simp] theorem fseRle_lInEnd : (s.fseRle t v).lInEnd = s.lInEnd := by cases t <;> rfl
@[simp] theorem fseRle_lOutStart : (s.fseRle t v).lOutStart = s.lOutStart := by cases t <;> rfl
@[simp] theorem fseRle_lOutLimit : (s.fseRle t v).lOutLimit = s.lOutLimit := by cases t <;> rfl
@[simp] theorem fseRle_lEnforce : (s.fseRle t v).lEnforce = s.lEnforce := by cases t <;> rfl
@[simp] theorem fseRle_fh : (s.fseRle t v).fh = s.fh := by cases t <;> rfl
@[simp] theorem fseRle_frameOutStart : (s.fseRle t v).frameOutStart = s.frameOutStart := by cases t <;> rfl
@[simp] theorem fseRle_blk : (s.fseRle t v).blk = s.blk := by cases t <;> rfl
@[simp] theorem fseRle_lit : (s.fseRle t v).lit = s.lit := by cases t <;> rfl
@[simp] theorem fseRle_seq : (s.fseRle t v).seq = s.seq := by cases t <;> rfl
@[simp] theorem fseRle_rep : (s.fseRle t v).rep = s.rep := by cases t <;> rfl
@[simp] theorem fseRle_llSel : (s.fseRle t v).llSel = s.llSel := by cases t <;> rfl
@[simp] theorem fseRle_ofSel : (s.fseRle t v).ofSel = s.ofSel := by cases t <;> rfl
@[simp] theorem fseRle_mlSel : (s.fseRle t v).mlSel = s.mlSel := by cases t <;> rfl
@[simp] theorem fseRle_br : (s.fseRle t v).br = s.br := by cases t <;> rfl
@[simp] theorem fseRle_fse : (s.fseRle t v).fse = s.fse := by cases t <;> rfl
@[simp] theorem fseRle_huf : (s.fseRle t v).huf = s.huf := by cases t <;> rfl
@[simp] theorem fseRle_xxh : (s.fseRle t v).xxh = s.xxh := by cases t <;> rfl
@[simp] theorem fseRle_inp : (s.fseRle t v).inp = s.inp := by cases t <;> rfl
@[simp] theorem fseRle_out : (s.fseRle t v).out = s.out := by cases t <;> rfl
@[simp] theorem fseRle_litbuf : (s.fseRle t v).litbuf = s.litbuf := by cases t <;> rfl
@[simp] theorem fseRle_sub : (s.fseRle t v).sub = s.sub := by cases t <;> rfl
@[simp] theorem fseRle_fhdByte : (s.fseRle t v).fhdByte = s.fhdByte := by cases t <;> rfl
@[simp] theorem fseRle_litLim : (s.fseRle t v).litLim = s.litLim := by cases t <;> rfl
@[simp] theorem fseRle_issue : (s.fseRle t v).issue = s.issue := by cases t <;> rfl
@[simp] theorem fseRle_result : (s.fseRle t v).result = s.result := by cases t <;> rfl
@[simp] theorem fseRle_hostQueue : (s.fseRle t v).hostQueue = s.hostQueue := by cases t <;> rfl
@[simp] theorem fseRle_hostData : (s.fseRle t v).hostData = s.hostData := by cases t <;> rfl
@[simp] theorem fseRle_oneMemory : (s.fseRle t v).oneMemory = s.oneMemory := by cases t <;> rfl
@[simp] theorem fseRle_draws : (s.fseRle t v).draws = s.draws := by cases t <;> rfl

end fseRle

section scrapTable
variable (s : State) (t : TableId)

@[simp] theorem scrapTable_inStart : (s.scrapTable t).inStart = s.inStart := by cases t <;> rfl
@[simp] theorem scrapTable_inEnd : (s.scrapTable t).inEnd = s.inEnd := by cases t <;> rfl
@[simp] theorem scrapTable_outStart : (s.scrapTable t).outStart = s.outStart := by cases t <;> rfl
@[simp] theorem scrapTable_outLimit : (s.scrapTable t).outLimit = s.outLimit := by cases t <;> rfl
@[simp] theorem scrapTable_cfgEnforce : (s.scrapTable t).cfgEnforce = s.cfgEnforce := by cases t <;> rfl
@[simp] theorem scrapTable_bytesWritten : (s.scrapTable t).bytesWritten = s.bytesWritten := by cases t <;> rfl
@[simp] theorem scrapTable_errClass : (s.scrapTable t).errClass = s.errClass := by cases t <;> rfl
@[simp] theorem scrapTable_errCode : (s.scrapTable t).errCode = s.errCode := by cases t <;> rfl
@[simp] theorem scrapTable_errOffset : (s.scrapTable t).errOffset = s.errOffset := by cases t <;> rfl
@[simp] theorem scrapTable_cksumBad : (s.scrapTable t).cksumBad = s.cksumBad := by cases t <;> rfl
@[simp] theorem scrapTable_ip : (s.scrapTable t).ip = s.ip := by cases t <;> rfl
@[simp] theorem scrapTable_op : (s.scrapTable t).op = s.op := by cases t <;> rfl
@[simp] theorem scrapTable_phase : (s.scrapTable t).phase = s.phase := by cases t <;> rfl
@[simp] theorem scrapTable_lInStart : (s.scrapTable t).lInStart = s.lInStart := by cases t <;> rfl
@[simp] theorem scrapTable_lInEnd : (s.scrapTable t).lInEnd = s.lInEnd := by cases t <;> rfl
@[simp] theorem scrapTable_lOutStart : (s.scrapTable t).lOutStart = s.lOutStart := by cases t <;> rfl
@[simp] theorem scrapTable_lOutLimit : (s.scrapTable t).lOutLimit = s.lOutLimit := by cases t <;> rfl
@[simp] theorem scrapTable_lEnforce : (s.scrapTable t).lEnforce = s.lEnforce := by cases t <;> rfl
@[simp] theorem scrapTable_fh : (s.scrapTable t).fh = s.fh := by cases t <;> rfl
@[simp] theorem scrapTable_frameOutStart : (s.scrapTable t).frameOutStart = s.frameOutStart := by cases t <;> rfl
@[simp] theorem scrapTable_blk : (s.scrapTable t).blk = s.blk := by cases t <;> rfl
@[simp] theorem scrapTable_lit : (s.scrapTable t).lit = s.lit := by cases t <;> rfl
@[simp] theorem scrapTable_seq : (s.scrapTable t).seq = s.seq := by cases t <;> rfl
@[simp] theorem scrapTable_rep : (s.scrapTable t).rep = s.rep := by cases t <;> rfl
@[simp] theorem scrapTable_llSel : (s.scrapTable t).llSel = s.llSel := by cases t <;> rfl
@[simp] theorem scrapTable_ofSel : (s.scrapTable t).ofSel = s.ofSel := by cases t <;> rfl
@[simp] theorem scrapTable_mlSel : (s.scrapTable t).mlSel = s.mlSel := by cases t <;> rfl
@[simp] theorem scrapTable_br : (s.scrapTable t).br = s.br := by cases t <;> rfl
@[simp] theorem scrapTable_fse : (s.scrapTable t).fse = s.fse := by cases t <;> rfl
@[simp] theorem scrapTable_huf : (s.scrapTable t).huf = s.huf := by cases t <;> rfl
@[simp] theorem scrapTable_xxh : (s.scrapTable t).xxh = s.xxh := by cases t <;> rfl
@[simp] theorem scrapTable_inp : (s.scrapTable t).inp = s.inp := by cases t <;> rfl
@[simp] theorem scrapTable_out : (s.scrapTable t).out = s.out := by cases t <;> rfl
@[simp] theorem scrapTable_litbuf : (s.scrapTable t).litbuf = s.litbuf := by cases t <;> rfl
@[simp] theorem scrapTable_sub : (s.scrapTable t).sub = s.sub := by cases t <;> rfl
@[simp] theorem scrapTable_fhdByte : (s.scrapTable t).fhdByte = s.fhdByte := by cases t <;> rfl
@[simp] theorem scrapTable_litLim : (s.scrapTable t).litLim = s.litLim := by cases t <;> rfl
@[simp] theorem scrapTable_issue : (s.scrapTable t).issue = s.issue := by cases t <;> rfl
@[simp] theorem scrapTable_result : (s.scrapTable t).result = s.result := by cases t <;> rfl
@[simp] theorem scrapTable_hostQueue : (s.scrapTable t).hostQueue = s.hostQueue := by cases t <;> rfl
@[simp] theorem scrapTable_hostData : (s.scrapTable t).hostData = s.hostData := by cases t <;> rfl
@[simp] theorem scrapTable_oneMemory : (s.scrapTable t).oneMemory = s.oneMemory := by cases t <;> rfl

end scrapTable

section nextTable
variable (x : Alphabet) (s : State)

@[simp] theorem nextTable_inStart : (nextTable x s).inStart = s.inStart := by cases x <;> rfl
@[simp] theorem nextTable_inEnd : (nextTable x s).inEnd = s.inEnd := by cases x <;> rfl
@[simp] theorem nextTable_outStart : (nextTable x s).outStart = s.outStart := by cases x <;> rfl
@[simp] theorem nextTable_outLimit : (nextTable x s).outLimit = s.outLimit := by cases x <;> rfl
@[simp] theorem nextTable_cfgEnforce : (nextTable x s).cfgEnforce = s.cfgEnforce := by cases x <;> rfl
@[simp] theorem nextTable_bytesWritten : (nextTable x s).bytesWritten = s.bytesWritten := by cases x <;> rfl
@[simp] theorem nextTable_errClass : (nextTable x s).errClass = s.errClass := by cases x <;> rfl
@[simp] theorem nextTable_errCode : (nextTable x s).errCode = s.errCode := by cases x <;> rfl
@[simp] theorem nextTable_errOffset : (nextTable x s).errOffset = s.errOffset := by cases x <;> rfl
@[simp] theorem nextTable_cksumBad : (nextTable x s).cksumBad = s.cksumBad := by cases x <;> rfl
@[simp] theorem nextTable_ip : (nextTable x s).ip = s.ip := by cases x <;> rfl
@[simp] theorem nextTable_op : (nextTable x s).op = s.op := by cases x <;> rfl
@[simp] theorem nextTable_phase : (nextTable x s).phase = s.phase := by cases x <;> rfl
@[simp] theorem nextTable_lInStart : (nextTable x s).lInStart = s.lInStart := by cases x <;> rfl
@[simp] theorem nextTable_lInEnd : (nextTable x s).lInEnd = s.lInEnd := by cases x <;> rfl
@[simp] theorem nextTable_lOutStart : (nextTable x s).lOutStart = s.lOutStart := by cases x <;> rfl
@[simp] theorem nextTable_lOutLimit : (nextTable x s).lOutLimit = s.lOutLimit := by cases x <;> rfl
@[simp] theorem nextTable_lEnforce : (nextTable x s).lEnforce = s.lEnforce := by cases x <;> rfl
@[simp] theorem nextTable_fh : (nextTable x s).fh = s.fh := by cases x <;> rfl
@[simp] theorem nextTable_frameOutStart : (nextTable x s).frameOutStart = s.frameOutStart := by cases x <;> rfl
@[simp] theorem nextTable_blk : (nextTable x s).blk = s.blk := by cases x <;> rfl
@[simp] theorem nextTable_lit : (nextTable x s).lit = s.lit := by cases x <;> rfl
@[simp] theorem nextTable_seq : (nextTable x s).seq = s.seq := by cases x <;> rfl
@[simp] theorem nextTable_rep : (nextTable x s).rep = s.rep := by cases x <;> rfl
@[simp] theorem nextTable_llSel : (nextTable x s).llSel = s.llSel := by cases x <;> rfl
@[simp] theorem nextTable_ofSel : (nextTable x s).ofSel = s.ofSel := by cases x <;> rfl
@[simp] theorem nextTable_mlSel : (nextTable x s).mlSel = s.mlSel := by cases x <;> rfl
@[simp] theorem nextTable_br : (nextTable x s).br = s.br := by cases x <;> rfl
@[simp] theorem nextTable_llt : (nextTable x s).llt = s.llt := by cases x <;> rfl
@[simp] theorem nextTable_oft : (nextTable x s).oft = s.oft := by cases x <;> rfl
@[simp] theorem nextTable_mlt : (nextTable x s).mlt = s.mlt := by cases x <;> rfl
@[simp] theorem nextTable_hwt : (nextTable x s).hwt = s.hwt := by cases x <;> rfl
@[simp] theorem nextTable_fse : (nextTable x s).fse = s.fse := by cases x <;> rfl
@[simp] theorem nextTable_huf : (nextTable x s).huf = s.huf := by cases x <;> rfl
@[simp] theorem nextTable_xxh : (nextTable x s).xxh = s.xxh := by cases x <;> rfl
@[simp] theorem nextTable_inp : (nextTable x s).inp = s.inp := by cases x <;> rfl
@[simp] theorem nextTable_out : (nextTable x s).out = s.out := by cases x <;> rfl
@[simp] theorem nextTable_litbuf : (nextTable x s).litbuf = s.litbuf := by cases x <;> rfl
@[simp] theorem nextTable_fhdByte : (nextTable x s).fhdByte = s.fhdByte := by cases x <;> rfl
@[simp] theorem nextTable_litLim : (nextTable x s).litLim = s.litLim := by cases x <;> rfl
@[simp] theorem nextTable_result : (nextTable x s).result = s.result := by cases x <;> rfl
@[simp] theorem nextTable_hostQueue : (nextTable x s).hostQueue = s.hostQueue := by cases x <;> rfl
@[simp] theorem nextTable_hostData : (nextTable x s).hostData = s.hostData := by cases x <;> rfl
@[simp] theorem nextTable_oneMemory : (nextTable x s).oneMemory = s.oneMemory := by cases x <;> rfl
@[simp] theorem nextTable_draws : (nextTable x s).draws = s.draws := by cases x <;> rfl

end nextTable

section seqLoop
variable (s : State)

@[simp] theorem seqLoop_inStart : (seqLoop s).inStart = s.inStart := by unfold seqLoop; split <;> rfl
@[simp] theorem seqLoop_inEnd : (seqLoop s).inEnd = s.inEnd := by unfold seqLoop; split <;> rfl
@[simp] theorem seqLoop_outStart : (seqLoop s).outStart = s.outStart := by unfold seqLoop; split <;> rfl
@[simp] theorem seqLoop_outLimit : (seqLoop s).outLimit = s.outLimit := by unfold seqLoop; split <;> rfl
@[simp] theorem seqLoop_cfgEnforce : (seqLoop s).cfgEnforce = s.cfgEnforce := by unfold seqLoop; split <;> rfl
@[simp] theorem seqLoop_bytesWritten : (seqLoop s).bytesWritten = s.bytesWritten := by unfold seqLoop; split <;> rfl
@[simp] theorem seqLoop_errClass : (seqLoop s).errClass = s.errClass := by unfold seqLoop; split <;> rfl
@[simp] theorem seqLoop_errCode : (seqLoop s).errCode = s.errCode := by unfold seqLoop; split <;> rfl
@[simp] theorem seqLoop_errOffset : (seqLoop s).errOffset = s.errOffset := by unfold seqLoop; split <;> rfl
@[simp] theorem seqLoop_cksumBad : (seqLoop s).cksumBad = s.cksumBad := by unfold seqLoop; split <;> rfl
@[simp] theorem seqLoop_ip : (seqLoop s).ip = s.ip := by unfold seqLoop; split <;> rfl
@[simp] theorem seqLoop_op : (seqLoop s).op = s.op := by unfold seqLoop; split <;> rfl
@[simp] theorem seqLoop_phase : (seqLoop s).phase = s.phase := by unfold seqLoop; split <;> rfl
@[simp] theorem seqLoop_lInStart : (seqLoop s).lInStart = s.lInStart := by unfold seqLoop; split <;> rfl
@[simp] theorem seqLoop_lInEnd : (seqLoop s).lInEnd = s.lInEnd := by unfold seqLoop; split <;> rfl
@[simp] theorem seqLoop_lOutStart : (seqLoop s).lOutStart = s.lOutStart := by unfold seqLoop; split <;> rfl
@[simp] theorem seqLoop_lOutLimit : (seqLoop s).lOutLimit = s.lOutLimit := by unfold seqLoop; split <;> rfl
@[simp] theorem seqLoop_lEnforce : (seqLoop s).lEnforce = s.lEnforce := by unfold seqLoop; split <;> rfl
@[simp] theorem seqLoop_fh : (seqLoop s).fh = s.fh := by unfold seqLoop; split <;> rfl
@[simp] theorem seqLoop_frameOutStart : (seqLoop s).frameOutStart = s.frameOutStart := by unfold seqLoop; split <;> rfl
@[simp] theorem seqLoop_blk : (seqLoop s).blk = s.blk := by unfold seqLoop; split <;> rfl
@[simp] theorem seqLoop_lit : (seqLoop s).lit = s.lit := by unfold seqLoop; split <;> rfl
@[simp] theorem seqLoop_seq : (seqLoop s).seq = s.seq := by unfold seqLoop; split <;> rfl
@[simp] theorem seqLoop_rep : (seqLoop s).rep = s.rep := by unfold seqLoop; split <;> rfl
@[simp] theorem seqLoop_llSel : (seqLoop s).llSel = s.llSel := by unfold seqLoop; split <;> rfl
@[simp] theorem seqLoop_ofSel : (seqLoop s).ofSel = s.ofSel := by unfold seqLoop; split <;> rfl
@[simp] theorem seqLoop_mlSel : (seqLoop s).mlSel = s.mlSel := by unfold seqLoop; split <;> rfl
@[simp] theorem seqLoop_br : (seqLoop s).br = s.br := by unfold seqLoop; split <;> rfl
@[simp] theorem seqLoop_llt : (seqLoop s).llt = s.llt := by unfold seqLoop; split <;> rfl
@[simp] theorem seqLoop_oft : (seqLoop s).oft = s.oft := by unfold seqLoop; split <;> rfl
@[simp] theorem seqLoop_mlt : (seqLoop s).mlt = s.mlt := by unfold seqLoop; split <;> rfl
@[simp] theorem seqLoop_hwt : (seqLoop s).hwt = s.hwt := by unfold seqLoop; split <;> rfl
@[simp] theorem seqLoop_fse : (seqLoop s).fse = s.fse := by unfold seqLoop; split <;> rfl
@[simp] theorem seqLoop_huf : (seqLoop s).huf = s.huf := by unfold seqLoop; split <;> rfl
@[simp] theorem seqLoop_xxh : (seqLoop s).xxh = s.xxh := by unfold seqLoop; split <;> rfl
@[simp] theorem seqLoop_inp : (seqLoop s).inp = s.inp := by unfold seqLoop; split <;> rfl
@[simp] theorem seqLoop_out : (seqLoop s).out = s.out := by unfold seqLoop; split <;> rfl
@[simp] theorem seqLoop_litbuf : (seqLoop s).litbuf = s.litbuf := by unfold seqLoop; split <;> rfl
@[simp] theorem seqLoop_fhdByte : (seqLoop s).fhdByte = s.fhdByte := by unfold seqLoop; split <;> rfl
@[simp] theorem seqLoop_litLim : (seqLoop s).litLim = s.litLim := by unfold seqLoop; split <;> rfl
@[simp] theorem seqLoop_result : (seqLoop s).result = s.result := by unfold seqLoop; split <;> rfl
@[simp] theorem seqLoop_hostQueue : (seqLoop s).hostQueue = s.hostQueue := by unfold seqLoop; split <;> rfl
@[simp] theorem seqLoop_hostData : (seqLoop s).hostData = s.hostData := by unfold seqLoop; split <;> rfl
@[simp] theorem seqLoop_oneMemory : (seqLoop s).oneMemory = s.oneMemory := by unfold seqLoop; split <;> rfl
@[simp] theorem seqLoop_draws : (seqLoop s).draws = s.draws := by unfold seqLoop; split <;> rfl

end seqLoop

section engNext
variable (s : State)

@[simp] theorem engNext_inStart : (engNext s).inStart = s.inStart := by unfold engNext; split <;> rfl
@[simp] theorem engNext_inEnd : (engNext s).inEnd = s.inEnd := by unfold engNext; split <;> rfl
@[simp] theorem engNext_outStart : (engNext s).outStart = s.outStart := by unfold engNext; split <;> rfl
@[simp] theorem engNext_outLimit : (engNext s).outLimit = s.outLimit := by unfold engNext; split <;> rfl
@[simp] theorem engNext_cfgEnforce : (engNext s).cfgEnforce = s.cfgEnforce := by unfold engNext; split <;> rfl
@[simp] theorem engNext_errClass : (engNext s).errClass = s.errClass := by unfold engNext; split <;> rfl
@[simp] theorem engNext_errCode : (engNext s).errCode = s.errCode := by unfold engNext; split <;> rfl
@[simp] theorem engNext_errOffset : (engNext s).errOffset = s.errOffset := by unfold engNext; split <;> rfl
@[simp] theorem engNext_cksumBad : (engNext s).cksumBad = s.cksumBad := by unfold engNext; split <;> rfl
@[simp] theorem engNext_ip : (engNext s).ip = s.ip := by unfold engNext; split <;> rfl
@[simp] theorem engNext_op : (engNext s).op = s.op := by unfold engNext; split <;> rfl
@[simp] theorem engNext_lInStart : (engNext s).lInStart = s.lInStart := by unfold engNext; split <;> rfl
@[simp] theorem engNext_lInEnd : (engNext s).lInEnd = s.lInEnd := by unfold engNext; split <;> rfl
@[simp] theorem engNext_lOutStart : (engNext s).lOutStart = s.lOutStart := by unfold engNext; split <;> rfl
@[simp] theorem engNext_lOutLimit : (engNext s).lOutLimit = s.lOutLimit := by unfold engNext; split <;> rfl
@[simp] theorem engNext_lEnforce : (engNext s).lEnforce = s.lEnforce := by unfold engNext; split <;> rfl
@[simp] theorem engNext_fh : (engNext s).fh = s.fh := by unfold engNext; split <;> rfl
@[simp] theorem engNext_frameOutStart : (engNext s).frameOutStart = s.frameOutStart := by unfold engNext; split <;> rfl
@[simp] theorem engNext_blk : (engNext s).blk = s.blk := by unfold engNext; split <;> rfl
@[simp] theorem engNext_lit : (engNext s).lit = s.lit := by unfold engNext; split <;> rfl
@[simp] theorem engNext_seq : (engNext s).seq = s.seq := by unfold engNext; split <;> rfl
@[simp] theorem engNext_rep : (engNext s).rep = s.rep := by unfold engNext; split <;> rfl
@[simp] theorem engNext_llSel : (engNext s).llSel = s.llSel := by unfold engNext; split <;> rfl
@[simp] theorem engNext_ofSel : (engNext s).ofSel = s.ofSel := by unfold engNext; split <;> rfl
@[simp] theorem engNext_mlSel : (engNext s).mlSel = s.mlSel := by unfold engNext; split <;> rfl
@[simp] theorem engNext_br : (engNext s).br = s.br := by unfold engNext; split <;> rfl
@[simp] theorem engNext_llt : (engNext s).llt = s.llt := by unfold engNext; split <;> rfl
@[simp] theorem engNext_oft : (engNext s).oft = s.oft := by unfold engNext; split <;> rfl
@[simp] theorem engNext_mlt : (engNext s).mlt = s.mlt := by unfold engNext; split <;> rfl
@[simp] theorem engNext_hwt : (engNext s).hwt = s.hwt := by unfold engNext; split <;> rfl
@[simp] theorem engNext_fse : (engNext s).fse = s.fse := by unfold engNext; split <;> rfl
@[simp] theorem engNext_huf : (engNext s).huf = s.huf := by unfold engNext; split <;> rfl
@[simp] theorem engNext_xxh : (engNext s).xxh = s.xxh := by unfold engNext; split <;> rfl
@[simp] theorem engNext_inp : (engNext s).inp = s.inp := by unfold engNext; split <;> rfl
@[simp] theorem engNext_litbuf : (engNext s).litbuf = s.litbuf := by unfold engNext; split <;> rfl
@[simp] theorem engNext_fhdByte : (engNext s).fhdByte = s.fhdByte := by unfold engNext; split <;> rfl
@[simp] theorem engNext_litLim : (engNext s).litLim = s.litLim := by unfold engNext; split <;> rfl
@[simp] theorem engNext_issue : (engNext s).issue = s.issue := by unfold engNext; split <;> rfl
@[simp] theorem engNext_result : (engNext s).result = s.result := by unfold engNext; split <;> rfl
@[simp] theorem engNext_hostQueue : (engNext s).hostQueue = s.hostQueue := by unfold engNext; split <;> rfl
@[simp] theorem engNext_hostData : (engNext s).hostData = s.hostData := by unfold engNext; split <;> rfl
@[simp] theorem engNext_oneMemory : (engNext s).oneMemory = s.oneMemory := by unfold engNext; split <;> rfl

end engNext

section blockEnd
variable (s : State)

@[simp] theorem blockEnd_inStart : (blockEnd s).inStart = s.inStart := by unfold blockEnd engNext; repeat (first | rfl | split)
@[simp] theorem blockEnd_inEnd : (blockEnd s).inEnd = s.inEnd := by unfold blockEnd engNext; repeat (first | rfl | split)
@[simp] theorem blockEnd_outStart : (blockEnd s).outStart = s.outStart := by unfold blockEnd engNext; repeat (first | rfl | split)
@[simp] theorem blockEnd_outLimit : (blockEnd s).outLimit = s.outLimit := by unfold blockEnd engNext; repeat (first | rfl | split)
@[simp] theorem blockEnd_cfgEnforce : (blockEnd s).cfgEnforce = s.cfgEnforce := by unfold blockEnd engNext; repeat (first | rfl | split)
@[simp] theorem blockEnd_errClass : (blockEnd s).errClass = s.errClass := by unfold blockEnd engNext; repeat (first | rfl | split)
@[simp] theorem blockEnd_errCode : (blockEnd s).errCode = s.errCode := by unfold blockEnd engNext; repeat (first | rfl | split)
@[simp] theorem blockEnd_errOffset : (blockEnd s).errOffset = s.errOffset := by unfold blockEnd engNext; repeat (first | rfl | split)
@[simp] theorem blockEnd_cksumBad : (blockEnd s).cksumBad = s.cksumBad := by unfold blockEnd engNext; repeat (first | rfl | split)
@[simp] theorem blockEnd_ip : (blockEnd s).ip = s.ip := by unfold blockEnd engNext; repeat (first | rfl | split)
@[simp] theorem blockEnd_op : (blockEnd s).op = s.op := by unfold blockEnd engNext; repeat (first | rfl | split)
@[simp] theorem blockEnd_lInStart : (blockEnd s).lInStart = s.lInStart := by unfold blockEnd engNext; repeat (first | rfl | split)
@[simp] theorem blockEnd_lInEnd : (blockEnd s).lInEnd = s.lInEnd := by unfold blockEnd engNext; repeat (first | rfl | split)
@[simp] theorem blockEnd_lOutStart : (blockEnd s).lOutStart = s.lOutStart := by unfold blockEnd engNext; repeat (first | rfl | split)
@[simp] theorem blockEnd_lOutLimit : (blockEnd s).lOutLimit = s.lOutLimit := by unfold blockEnd engNext; repeat (first | rfl | split)
@[simp] theorem blockEnd_lEnforce : (blockEnd s).lEnforce = s.lEnforce := by unfold blockEnd engNext; repeat (first | rfl | split)
@[simp] theorem blockEnd_fh : (blockEnd s).fh = s.fh := by unfold blockEnd engNext; repeat (first | rfl | split)
@[simp] theorem blockEnd_frameOutStart : (blockEnd s).frameOutStart = s.frameOutStart := by unfold blockEnd engNext; repeat (first | rfl | split)
@[simp] theorem blockEnd_blk : (blockEnd s).blk = s.blk := by unfold blockEnd engNext; repeat (first | rfl | split)
@[simp] theorem blockEnd_lit : (blockEnd s).lit = s.lit := by unfold blockEnd engNext; repeat (first | rfl | split)
@[simp] theorem blockEnd_seq : (blockEnd s).seq = s.seq := by unfold blockEnd engNext; repeat (first | rfl | split)
@[simp] theorem blockEnd_rep : (blockEnd s).rep = s.rep := by unfold blockEnd engNext; repeat (first | rfl | split)
@[simp] theorem blockEnd_llSel : (blockEnd s).llSel = s.llSel := by unfold blockEnd engNext; repeat (first | rfl | split)
@[simp] theorem blockEnd_ofSel : (blockEnd s).ofSel = s.ofSel := by unfold blockEnd engNext; repeat (first | rfl | split)
@[simp] theorem blockEnd_mlSel : (blockEnd s).mlSel = s.mlSel := by unfold blockEnd engNext; repeat (first | rfl | split)
@[simp] theorem blockEnd_br : (blockEnd s).br = s.br := by unfold blockEnd engNext; repeat (first | rfl | split)
@[simp] theorem blockEnd_llt : (blockEnd s).llt = s.llt := by unfold blockEnd engNext; repeat (first | rfl | split)
@[simp] theorem blockEnd_oft : (blockEnd s).oft = s.oft := by unfold blockEnd engNext; repeat (first | rfl | split)
@[simp] theorem blockEnd_mlt : (blockEnd s).mlt = s.mlt := by unfold blockEnd engNext; repeat (first | rfl | split)
@[simp] theorem blockEnd_hwt : (blockEnd s).hwt = s.hwt := by unfold blockEnd engNext; repeat (first | rfl | split)
@[simp] theorem blockEnd_fse : (blockEnd s).fse = s.fse := by unfold blockEnd engNext; repeat (first | rfl | split)
@[simp] theorem blockEnd_huf : (blockEnd s).huf = s.huf := by unfold blockEnd engNext; repeat (first | rfl | split)
@[simp] theorem blockEnd_xxh : (blockEnd s).xxh = s.xxh := by unfold blockEnd engNext; repeat (first | rfl | split)
@[simp] theorem blockEnd_inp : (blockEnd s).inp = s.inp := by unfold blockEnd engNext; repeat (first | rfl | split)
@[simp] theorem blockEnd_litbuf : (blockEnd s).litbuf = s.litbuf := by unfold blockEnd engNext; repeat (first | rfl | split)
@[simp] theorem blockEnd_fhdByte : (blockEnd s).fhdByte = s.fhdByte := by unfold blockEnd engNext; repeat (first | rfl | split)
@[simp] theorem blockEnd_litLim : (blockEnd s).litLim = s.litLim := by unfold blockEnd engNext; repeat (first | rfl | split)
@[simp] theorem blockEnd_issue : (blockEnd s).issue = s.issue := by unfold blockEnd engNext; repeat (first | rfl | split)
@[simp] theorem blockEnd_result : (blockEnd s).result = s.result := by unfold blockEnd engNext; repeat (first | rfl | split)
@[simp] theorem blockEnd_hostQueue : (blockEnd s).hostQueue = s.hostQueue := by unfold blockEnd engNext; repeat (first | rfl | split)
@[simp] theorem blockEnd_hostData : (blockEnd s).hostData = s.hostData := by unfold blockEnd engNext; repeat (first | rfl | split)
@[simp] theorem blockEnd_oneMemory : (blockEnd s).oneMemory = s.oneMemory := by unfold blockEnd engNext; repeat (first | rfl | split)

end blockEnd

section litStreams
variable (s : State)

@[simp] theorem litStreams_inStart : (litStreams s).inStart = s.inStart := by unfold litStreams; split <;> rfl
@[simp] theorem litStreams_inEnd : (litStreams s).inEnd = s.inEnd := by unfold litStreams; split <;> rfl
@[simp] theorem litStreams_outStart : (litStreams s).outStart = s.outStart := by unfold litStreams; split <;> rfl
@[simp] theorem litStreams_outLimit : (litStreams s).outLimit = s.outLimit := by unfold litStreams; split <;> rfl
@[simp] theorem litStreams_cfgEnforce : (litStreams s).cfgEnforce = s.cfgEnforce := by unfold litStreams; split <;> rfl
@[simp] theorem litStreams_bytesWritten : (litStreams s).bytesWritten = s.bytesWritten := by unfold litStreams; split <;> rfl
@[simp] theorem litStreams_errClass : (litStreams s).errClass = s.errClass := by unfold litStreams; split <;> rfl
@[simp] theorem litStreams_errCode : (litStreams s).errCode = s.errCode := by unfold litStreams; split <;> rfl
@[simp] theorem litStreams_errOffset : (litStreams s).errOffset = s.errOffset := by unfold litStreams; split <;> rfl
@[simp] theorem litStreams_cksumBad : (litStreams s).cksumBad = s.cksumBad := by unfold litStreams; split <;> rfl
@[simp] theorem litStreams_ip : (litStreams s).ip = s.ip := by unfold litStreams; split <;> rfl
@[simp] theorem litStreams_op : (litStreams s).op = s.op := by unfold litStreams; split <;> rfl
@[simp] theorem litStreams_phase : (litStreams s).phase = s.phase := by unfold litStreams; split <;> rfl
@[simp] theorem litStreams_lInStart : (litStreams s).lInStart = s.lInStart := by unfold litStreams; split <;> rfl
@[simp] theorem litStreams_lInEnd : (litStreams s).lInEnd = s.lInEnd := by unfold litStreams; split <;> rfl
@[simp] theorem litStreams_lOutStart : (litStreams s).lOutStart = s.lOutStart := by unfold litStreams; split <;> rfl
@[simp] theorem litStreams_lOutLimit : (litStreams s).lOutLimit = s.lOutLimit := by unfold litStreams; split <;> rfl
@[simp] theorem litStreams_lEnforce : (litStreams s).lEnforce = s.lEnforce := by unfold litStreams; split <;> rfl
@[simp] theorem litStreams_fh : (litStreams s).fh = s.fh := by unfold litStreams; split <;> rfl
@[simp] theorem litStreams_frameOutStart : (litStreams s).frameOutStart = s.frameOutStart := by unfold litStreams; split <;> rfl
@[simp] theorem litStreams_blk : (litStreams s).blk = s.blk := by unfold litStreams; split <;> rfl
@[simp] theorem litStreams_lit : (litStreams s).lit = s.lit := by unfold litStreams; split <;> rfl
@[simp] theorem litStreams_seq : (litStreams s).seq = s.seq := by unfold litStreams; split <;> rfl
@[simp] theorem litStreams_rep : (litStreams s).rep = s.rep := by unfold litStreams; split <;> rfl
@[simp] theorem litStreams_llSel : (litStreams s).llSel = s.llSel := by unfold litStreams; split <;> rfl
@[simp] theorem litStreams_ofSel : (litStreams s).ofSel = s.ofSel := by unfold litStreams; split <;> rfl
@[simp] theorem litStreams_mlSel : (litStreams s).mlSel = s.mlSel := by unfold litStreams; split <;> rfl
@[simp] theorem litStreams_br : (litStreams s).br = s.br := by unfold litStreams; split <;> rfl
@[simp] theorem litStreams_llt : (litStreams s).llt = s.llt := by unfold litStreams; split <;> rfl
@[simp] theorem litStreams_oft : (litStreams s).oft = s.oft := by unfold litStreams; split <;> rfl
@[simp] theorem litStreams_mlt : (litStreams s).mlt = s.mlt := by unfold litStreams; split <;> rfl
@[simp] theorem litStreams_hwt : (litStreams s).hwt = s.hwt := by unfold litStreams; split <;> rfl
@[simp] theorem litStreams_fse : (litStreams s).fse = s.fse := by unfold litStreams; split <;> rfl
@[simp] theorem litStreams_huf : (litStreams s).huf = s.huf := by unfold litStreams; split <;> rfl
@[simp] theorem litStreams_xxh : (litStreams s).xxh = s.xxh := by unfold litStreams; split <;> rfl
@[simp] theorem litStreams_inp : (litStreams s).inp = s.inp := by unfold litStreams; split <;> rfl
@[simp] theorem litStreams_out : (litStreams s).out = s.out := by unfold litStreams; split <;> rfl
@[simp] theorem litStreams_litbuf : (litStreams s).litbuf = s.litbuf := by unfold litStreams; split <;> rfl
@[simp] theorem litStreams_fhdByte : (litStreams s).fhdByte = s.fhdByte := by unfold litStreams; split <;> rfl
@[simp] theorem litStreams_litLim : (litStreams s).litLim = s.litLim := by unfold litStreams; split <;> rfl
@[simp] theorem litStreams_result : (litStreams s).result = s.result := by unfold litStreams; split <;> rfl
@[simp] theorem litStreams_hostQueue : (litStreams s).hostQueue = s.hostQueue := by unfold litStreams; split <;> rfl
@[simp] theorem litStreams_hostData : (litStreams s).hostData = s.hostData := by unfold litStreams; split <;> rfl
@[simp] theorem litStreams_oneMemory : (litStreams s).oneMemory = s.oneMemory := by unfold litStreams; split <;> rfl
@[simp] theorem litStreams_draws : (litStreams s).draws = s.draws := by unfold litStreams; split <;> rfl

end litStreams

section putIn
variable (s : State) (a : Nat) (b : Byte)

@[simp] theorem putIn_inStart : (s.putIn a b).inStart = s.inStart := by unfold State.putIn; split <;> rfl
@[simp] theorem putIn_inEnd : (s.putIn a b).inEnd = s.inEnd := by unfold State.putIn; split <;> rfl
@[simp] theorem putIn_outStart : (s.putIn a b).outStart = s.outStart := by unfold State.putIn; split <;> rfl
@[simp] theorem putIn_outLimit : (s.putIn a b).outLimit = s.outLimit := by unfold State.putIn; split <;> rfl
@[simp] theorem putIn_cfgEnforce : (s.putIn a b).cfgEnforce = s.cfgEnforce := by unfold State.putIn; split <;> rfl
@[simp] theorem putIn_bytesWritten : (s.putIn a b).bytesWritten = s.bytesWritten := by unfold State.putIn; split <;> rfl
@[simp] theorem putIn_errClass : (s.putIn a b).errClass = s.errClass := by unfold State.putIn; split <;> rfl
@[simp] theorem putIn_errCode : (s.putIn a b).errCode = s.errCode := by unfold State.putIn; split <;> rfl
@[simp] theorem putIn_errOffset : (s.putIn a b).errOffset = s.errOffset := by unfold State.putIn; split <;> rfl
@[simp] theorem putIn_cksumBad : (s.putIn a b).cksumBad = s.cksumBad := by unfold State.putIn; split <;> rfl
@[simp] theorem putIn_ip : (s.putIn a b).ip = s.ip := by unfold State.putIn; split <;> rfl
@[simp] theorem putIn_op : (s.putIn a b).op = s.op := by unfold State.putIn; split <;> rfl
@[simp] theorem putIn_phase : (s.putIn a b).phase = s.phase := by unfold State.putIn; split <;> rfl
@[simp] theorem putIn_lInStart : (s.putIn a b).lInStart = s.lInStart := by unfold State.putIn; split <;> rfl
@[simp] theorem putIn_lInEnd : (s.putIn a b).lInEnd = s.lInEnd := by unfold State.putIn; split <;> rfl
@[simp] theorem putIn_lOutStart : (s.putIn a b).lOutStart = s.lOutStart := by unfold State.putIn; split <;> rfl
@[simp] theorem putIn_lOutLimit : (s.putIn a b).lOutLimit = s.lOutLimit := by unfold State.putIn; split <;> rfl
@[simp] theorem putIn_lEnforce : (s.putIn a b).lEnforce = s.lEnforce := by unfold State.putIn; split <;> rfl
@[simp] theorem putIn_fh : (s.putIn a b).fh = s.fh := by unfold State.putIn; split <;> rfl
@[simp] theorem putIn_frameOutStart : (s.putIn a b).frameOutStart = s.frameOutStart := by unfold State.putIn; split <;> rfl
@[simp] theorem putIn_blk : (s.putIn a b).blk = s.blk := by unfold State.putIn; split <;> rfl
@[simp] theorem putIn_lit : (s.putIn a b).lit = s.lit := by unfold State.putIn; split <;> rfl
@[simp] theorem putIn_seq : (s.putIn a b).seq = s.seq := by unfold State.putIn; split <;> rfl
@[simp] theorem putIn_rep : (s.putIn a b).rep = s.rep := by unfold State.putIn; split <;> rfl
@[simp] theorem putIn_llSel : (s.putIn a b).llSel = s.llSel := by unfold State.putIn; split <;> rfl
@[simp] theorem putIn_ofSel : (s.putIn a b).ofSel = s.ofSel := by unfold State.putIn; split <;> rfl
@[simp] theorem putIn_mlSel : (s.putIn a b).mlSel = s.mlSel := by unfold State.putIn; split <;> rfl
@[simp] theorem putIn_br : (s.putIn a b).br = s.br := by unfold State.putIn; split <;> rfl
@[simp] theorem putIn_llt : (s.putIn a b).llt = s.llt := by unfold State.putIn; split <;> rfl
@[simp] theorem putIn_oft : (s.putIn a b).oft = s.oft := by unfold State.putIn; split <;> rfl
@[simp] theorem putIn_mlt : (s.putIn a b).mlt = s.mlt := by unfold State.putIn; split <;> rfl
@[simp] theorem putIn_hwt : (s.putIn a b).hwt = s.hwt := by unfold State.putIn; split <;> rfl
@[simp] theorem putIn_fse : (s.putIn a b).fse = s.fse := by unfold State.putIn; split <;> rfl
@[simp] theorem putIn_huf : (s.putIn a b).huf = s.huf := by unfold State.putIn; split <;> rfl
@[simp] theorem putIn_xxh : (s.putIn a b).xxh = s.xxh := by unfold State.putIn; split <;> rfl
@[simp] theorem putIn_litbuf : (s.putIn a b).litbuf = s.litbuf := by unfold State.putIn; split <;> rfl
@[simp] theorem putIn_sub : (s.putIn a b).sub = s.sub := by unfold State.putIn; split <;> rfl
@[simp] theorem putIn_fhdByte : (s.putIn a b).fhdByte = s.fhdByte := by unfold State.putIn; split <;> rfl
@[simp] theorem putIn_litLim : (s.putIn a b).litLim = s.litLim := by unfold State.putIn; split <;> rfl
@[simp] theorem putIn_issue : (s.putIn a b).issue = s.issue := by unfold State.putIn; split <;> rfl
@[simp] theorem putIn_result : (s.putIn a b).result = s.result := by unfold State.putIn; split <;> rfl
@[simp] theorem putIn_hostQueue : (s.putIn a b).hostQueue = s.hostQueue := by unfold State.putIn; split <;> rfl
@[simp] theorem putIn_hostData : (s.putIn a b).hostData = s.hostData := by unfold State.putIn; split <;> rfl
@[simp] theorem putIn_oneMemory : (s.putIn a b).oneMemory = s.oneMemory := by unfold State.putIn; split <;> rfl
@[simp] theorem putIn_draws : (s.putIn a b).draws = s.draws := by unfold State.putIn; split <;> rfl

end putIn

/-- The draw of a scrapped table. -/
@[simp] theorem scrapTable_draws (s : State) (t : TableId) : (s.scrapTable t).draws = s.draws + 1 := by cases t <;> rfl

@[simp] theorem sel_setSel (s : State) (x y : Alphabet) (v : Sel) :
    (s.setSel x v).sel y = if x = y then v else s.sel y := by
  cases x <;> cases y <;> rfl

@[simp] theorem busy_faultEntry (e : ErrCode) (s : State) : (faultEntry e s).busy = false := rfl

@[simp] theorem busy_engDone (s : State) : (engDone s).busy = false := rfl

theorem engNext_sub (s : State) : (engNext s).sub = .start := by unfold engNext; split <;> rfl

theorem blockEnd_sub (s : State) : (blockEnd s).sub = .start := by
  unfold blockEnd engNext
  repeat (first | rfl | split)

/-- Where the end of a command or of a frame leads (R267). -/
theorem engNext_phase (s : State) :
    (engNext s).phase = if s.ip.toNat < s.lInEnd.toNat then .magic else .done := by
  unfold engNext
  split <;> rfl

/-- Where the end of a block leads (R250). -/
theorem blockEnd_phase (s : State) :
    (blockEnd s).phase =
      if s.blk.last then (if s.fh.hasChecksum then .checksum else (engNext s).phase) else .blockHeader := by
  unfold blockEnd
  split
  · split <;> rfl
  · rfl

end Sys2Proof.Machine
end

