-- ==== Sys2Proof/Laws/Run.lean ====
section
/-! SUPPORT. How pieces of pseudocode compose, and for each shared operation what it can do when it completes. -/
namespace Sys2Proof.Machine

variable {σ τ α β : Type}

/-! ## Composition -/

@[simp] theorem bind_ok (a : α) (s : σ) (f : α → σ → Run σ β) : (Run.ok a s).bind f = f a s := rfl

@[simp] theorem bind_raise (e : ErrCode) (s : σ) (f : α → σ → Run σ β) : (Run.raise e s).bind f = .raise e s := rfl

@[simp] theorem bind_stop (x : Fault) (f : α → σ → Run σ β) : (Run.stop x).bind f = .stop x := rfl

@[simp] theorem lift_ok (a : α) (s : σ) (f : σ → τ) : (Run.ok a s).lift f = .ok a (f s) := rfl

@[simp] theorem lift_raise (e : ErrCode) (s : σ) (f : σ → τ) : (Run.raise e s : Run σ α).lift f = .raise e (f s) := rfl

@[simp] theorem lift_stop (x : Fault) (f : σ → τ) : (Run.stop x : Run σ α).lift f = .stop x := rfl

@[simp] theorem finish_ok (a : α) (s : State) : finish (.ok a s) = .next s := rfl

@[simp] theorem finish_raise (e : ErrCode) (s : State) :
    finish (.raise e s : Run State α) = .next (faultEntry e s) := rfl

@[simp] theorem finish_stop (x : Fault) : finish (.stop x : Run State α) = .fault x := rfl

@[simp] theorem finishWith_ok (v : Nat) (s : State) :
    finishWith (.ok v s) = .next { s with result := BitVec.ofNat 64 v } := rfl

@[simp] theorem finishWith_raise (e : ErrCode) (s : State) : finishWith (.raise e s) = .next (faultEntry e s) := rfl

@[simp] theorem finishWith_stop (x : Fault) : finishWith (.stop x) = .fault x := rfl

@[simp] theorem raised_eq (e : ErrCode) (s : State) : raised e s = .next (faultEntry e s) := rfl

@[simp] theorem onRaise_ok (a : α) (s : σ) (f : σ → σ) : (Run.ok a s).onRaise f = .ok a s := rfl

@[simp] theorem onRaise_raise (e : ErrCode) (s : σ) (f : σ → σ) :
    (Run.raise e s : Run σ α).onRaise f = .raise e (f s) := rfl

@[simp] theorem onRaise_stop (x : Fault) (f : σ → σ) : (Run.stop x : Run σ α).onRaise f = .stop x := rfl

theorem bind_eq_ok {r : Run σ α} {f : α → σ → Run σ β} {b : β} {t : σ} :
    r.bind f = .ok b t ↔ ∃ a s, r = .ok a s ∧ f a s = .ok b t := by
  cases r <;> simp

theorem bind_eq_raise {r : Run σ α} {f : α → σ → Run σ β} {e : ErrCode} {t : σ} :
    r.bind f = .raise e t ↔ r = .raise e t ∨ ∃ a s, r = .ok a s ∧ f a s = .raise e t := by
  cases r <;> simp

theorem bind_eq_stop {r : Run σ α} {f : α → σ → Run σ β} {x : Fault} :
    r.bind f = .stop x ↔ r = .stop x ∨ ∃ a s, r = .ok a s ∧ f a s = .stop x := by
  cases r <;> simp

theorem lift_eq_ok {r : Run σ α} {f : σ → τ} {a : α} {t : τ} :
    r.lift f = .ok a t ↔ ∃ s, r = .ok a s ∧ t = f s := by
  cases r <;> simp [eq_comm]

theorem lift_eq_raise {r : Run σ α} {f : σ → τ} {e : ErrCode} {t : τ} :
    r.lift f = .raise e t ↔ ∃ s, r = .raise e s ∧ t = f s := by
  cases r <;> simp [eq_comm]

theorem lift_eq_stop {r : Run σ α} {f : σ → τ} {x : Fault} : r.lift f = .stop x ↔ r = .stop x := by
  cases r <;> simp

/-- What a completed instruction can be: its rule completed, or it raised and the fault was entered. -/
theorem finish_eq_next {r : Run State α} {t : State} :
    finish r = .next t ↔ (∃ a, r = .ok a t) ∨ ∃ e s, r = .raise e s ∧ t = faultEntry e s := by
  cases r <;> simp [eq_comm]

theorem finishWith_eq_next {r : Run State Nat} {t : State} :
    finishWith r = .next t ↔
      (∃ v s, r = .ok v s ∧ t = { s with result := BitVec.ofNat 64 v }) ∨ ∃ e s, r = .raise e s ∧ t = faultEntry e s := by
  cases r <;> simp [eq_comm]

theorem finish_eq_fault {r : Run State α} {x : Fault} : finish r = .fault x ↔ r = .stop x := by
  cases r <;> simp

theorem finish_ne_refused (r : Run State α) (x : Refusal) : finish r ≠ .refused x := by
  cases r <;> simp

theorem onRaise_eq_ok {r : Run σ α} {f : σ → σ} {a : α} {t : σ} : r.onRaise f = .ok a t ↔ r = .ok a t := by
  cases r <;> simp

theorem onRaise_eq_raise {r : Run σ α} {f : σ → σ} {e : ErrCode} {t : σ} :
    r.onRaise f = .raise e t ↔ ∃ s, r = .raise e s ∧ t = f s := by
  cases r <;> simp [eq_comm]

theorem onRaise_eq_stop {r : Run σ α} {f : σ → σ} {x : Fault} : r.onRaise f = .stop x ↔ r = .stop x := by
  cases r <;> simp

theorem scrapOnFault_eq_ok {r : Run State α} {tb : TableId} {a : α} {t : State} :
    r.scrapOnFault tb = .ok a t ↔ r = .ok a t := onRaise_eq_ok

theorem scrapOnFault_eq_raise {r : Run State α} {tb : TableId} {e : ErrCode} {t : State} :
    r.scrapOnFault tb = .raise e t ↔ ∃ s, r = .raise e s ∧ t = s.scrapTable tb := onRaise_eq_raise

/-! ## RAMs -/

theorem ramGet_set_same {n : Nat} (v : Vector α n) (i : Nat) (x d : α) (h : i < n) : ramGet (ramSet v i x) i d = x := by
  simp [ramGet, ramSet, h]

theorem ramGet_set_other {n : Nat} (v : Vector α n) (i j : Nat) (x d : α) (h : j ≠ i) :
    ramGet (ramSet v i x) j d = ramGet v j d := by
  have : ¬ i = j := fun e => h e.symm
  simp [ramGet, ramSet, this]

theorem ramSet_beyond {n : Nat} (v : Vector α n) (i : Nat) (x : α) (h : n ≤ i) : ramSet v i x = v := by
  have hn : ¬ i < n := by omega
  simp [ramSet, Vector.setIfInBounds, Array.setIfInBounds, hn]

/-! ## Bounds of the elements -/

theorem need_iff (s : State) (n : Nat) (lim : Addr) : s.need n lim = true ↔ s.ip.toNat + n ≤ lim.toNat := by
  simp [State.need]

theorem not_need_iff (s : State) (n : Nat) (lim : Addr) : s.need n lim = false ↔ lim.toNat < s.ip.toNat + n := by
  simp [State.need]

theorem room_iff (s : State) (n : Nat) : s.room n = true ↔ s.op.toNat + n ≤ s.lOutLimit.toNat := by
  simp [State.room]

/-- A cursor that stays below a limit does not wrap. -/
theorem toNat_add_of_le {a lim : Addr} {n : Nat} (h : a.toNat + n ≤ lim.toNat) :
    (a + BitVec.ofNat 32 n).toNat = a.toNat + n := by
  have hl := lim.isLt
  rw [BitVec.toNat_add, BitVec.toNat_ofNat, Nat.mod_eq_of_lt (by omega : n < 2 ^ 32),
    Nat.mod_eq_of_lt (by omega : a.toNat + n < 2 ^ 32)]

theorem advance_toNat {s : State} {n : Nat} {lim : Addr} (h : s.need n lim = true) :
    (s.advance n).ip.toNat = s.ip.toNat + n :=
  toNat_add_of_le ((need_iff s n lim).mp h)

/-! ## What a shared operation can do -/

/-- BR.INIT completes exactly on a region that is not empty and whose last byte is not 0. -/
theorem brInit_isOk (rd : Nat → Byte) (start limit : Nat) (b : BitReader) :
    (∃ b', brInit rd start limit b = .ok () b') ↔ start + 1 ≤ limit ∧ (rd (limit - 1)).toNat ≠ 0 := by
  unfold brInit
  by_cases h1 : limit < start + 1
  · have h3 : ¬ start + 1 ≤ limit := by omega
    simp only [h1, h3, if_true, false_and, iff_false, not_exists]
    simp
  · by_cases h2 : (rd (limit - 1)).toNat = 0
    · simp [h1, h2]
    · simp only [h1, h2, if_false]
      have h3 : start + 1 ≤ limit := by omega
      split <;> simp [h2, h3]

/-- BR.INIT never leaves what the rules define. -/
theorem brInit_ne_stop (rd : Nat → Byte) (start limit : Nat) (b : BitReader) (x : Fault) :
    brInit rd start limit b ≠ .stop x := by
  unfold brInit
  split
  · simp
  · simp only
    split
    · simp
    · split <;> simp

/-- A fault of BR.INIT leaves the reader as it was. -/
theorem brInit_raise {rd : Nat → Byte} {start limit : Nat} {b b' : BitReader} {e : ErrCode}
    (h : brInit rd start limit b = .raise e b') : b' = b ∧ (e = .bitstreamEmpty ∨ e = .noEndMark) := by
  unfold brInit at h
  split at h
  · cases h; exact ⟨rfl, .inl rfl⟩
  · simp only at h
    split at h
    · cases h; exact ⟨rfl, .inr rfl⟩
    · split at h <;> cases h

/-- BR.INIT turns an empty region away, and one whose last byte is 0 (R141). -/
theorem brInit_empty (rd : Nat → Byte) {start limit : Nat} (b : BitReader) (h : limit ≤ start) :
    brInit rd start limit b = .raise .bitstreamEmpty b := by
  simp [brInit, show limit < start + 1 by omega]

theorem brInit_noEndMark {rd : Nat → Byte} {start limit : Nat} (b : BitReader) (h : start < limit)
    (h0 : rd (limit - 1) = 0) : brInit rd start limit b = .raise .noEndMark b := by
  simp [brInit, show ¬ limit < start + 1 by omega, h0]

@[simp] theorem setBr_get_self (s : State) (k : Fin 4) : s.setBr k (s.br.get k) = s := by
  simp [State.setBr, Vector.get]

/-- A fault of BR.INIT leaves the state as it was. -/
theorem stateBrInit_raise {s t : State} {k : Fin 4} {start limit : Nat} {e : ErrCode}
    (h : s.brInit k start limit = .raise e t) : t = s ∧ (e = .bitstreamEmpty ∨ e = .noEndMark) := by
  unfold State.brInit at h
  cases hr : Machine.brInit s.inByte start limit (s.br.get k) with
  | ok a b => rw [hr] at h; cases h
  | stop x => rw [hr] at h; cases h
  | raise e' b =>
    obtain ⟨rfl, he⟩ := brInit_raise hr
    rw [hr] at h
    cases h
    exact ⟨setBr_get_self s k, he⟩

/-- BR.REFILL returns MORE exactly where the reader is not at its start and the step fits, one that lands on the start too. -/
theorem brRefill_more (rd : Nat → Byte) (b : BitReader) :
    (brRefill rd b).1 = .more ↔
      b.consumed.toNat ≤ 64 ∧ b.cur ≠ b.start ∧ b.start.toNat + b.consumed.toNat / 8 ≤ b.cur.toNat := by
  simp only [brRefill]
  split
  · simp; omega
  · split
    · simp_all
    · split
      · simp_all; omega
      · split <;> simp_all

/-- BR.REFILL leaves START alone, and OVERFLOW is exactly a count above 64 (R144). -/
theorem brRefill_start (rd : Nat → Byte) (b : BitReader) : (brRefill rd b).2.start = b.start := by
  simp only [brRefill, brReload]
  repeat' split
  all_goals rfl

theorem brRefill_overflow (rd : Nat → Byte) (b : BitReader) :
    (brRefill rd b).1 = .overflow ↔ 64 < b.consumed.toNat := by
  simp only [brRefill]
  by_cases h : 64 < b.consumed.toNat
  · simp [h]
  · simp only [h, if_false, iff_false]
    repeat' split
    all_goals simp

theorem brRefill_overflow_same (rd : Nat → Byte) (b : BitReader) (h : 64 < b.consumed.toNat) :
    brRefill rd b = (.overflow, b) := by
  unfold brRefill
  simp [h]

/-- BR.PEEK of 1 to 63 bits is BR.PEEKFAST (R143). -/
theorem brPeek_eq_peekFast (b : BitReader) (n : Nat) (h1 : 1 ≤ n) (h2 : n ≤ 63) : brPeek b n = brPeekFast b n := by
  unfold brPeek brPeekFast
  rw [← BitVec.shiftRight_add, show 1 + (63 - n) = 64 - n by omega]

theorem brPeek_lt (b : BitReader) (n : Nat) (h : n ≤ 63) : brPeek b n < 2 ^ n := by
  unfold brPeek
  rw [← BitVec.shiftRight_add, BitVec.toNat_ushiftRight, Nat.shiftRight_eq_div_pow]
  refine Nat.div_lt_of_lt_mul ?_
  rw [← pow_add, show 1 + (63 - n) + n = 64 by omega]
  exact BitVec.isLt _

/-- The header of LIT.SECTION: when it completes, LIT.* holds the header, IP is past it and nothing else has changed. -/
theorem litHeader_ok {typ fmt : BitVec 2} {hs : Nat} {regen : BitVec 20} {comp : BitVec 18} {single : Bool} {s t : State}
    (h : litHeader typ fmt hs regen comp single s = .ok () t) :
    t = { s.advance hs with
      lit := { s.lit with typ := typ, fmt := fmt, regen := regen, comp := comp, single := single } } ∧
    s.ip.toNat + hs ≤ s.blk.limit.toNat ∧ regen.toNat ≤ Config.maxBlock ∧
    (2 ≤ typ.toNat → s.ip.toNat + hs + comp.toNat ≤ s.blk.limit.toNat) ∧
    (typ = 3 → s.huf.loaded = true) := by
  unfold litHeader at h
  split at h
  · cases h
  · simp only at h
    split at h
    · cases h
    · rename_i _ h2
      simp only [Bool.not_eq_true', Bool.not_eq_false] at h2
      have hn := (need_iff _ _ _).mp h2
      split at h
      · cases h
      · rename_i h3
        split at h
        · rename_i h4
          cases h
          refine ⟨rfl, hn, by omega, fun h => by omega, fun h => ?_⟩
          subst h
          simp at h4
        · rename_i h4
          split at h
          · cases h
          · rename_i h5
            split at h
            · cases h
            · rename_i h6
              cases h
              refine ⟨rfl, hn, by omega, fun _ => by simpa using h5, fun h => ?_⟩
              simpa [h] using h6

/-- ENG.BLOCKHEADER: when it completes, BLK.* holds the header, IP is past it and the block is next. -/
theorem blockHeader_ok {typ : BitVec 2} {last : Bool} {size : BitVec 21} {s t : State}
    (h : blockHeader typ last size s = .ok () t) :
    t = { s.advance 3 with
      blk := { s.blk with last := last, typ := typ, size := size }, phase := .block, sub := .start } ∧
    s.ip.toNat + 3 ≤ s.lInEnd.toNat ∧ typ ≠ 3 ∧ size.toNat ≤ Config.maxBlock := by
  unfold blockHeader at h
  split at h
  · cases h
  · rename_i h1
    simp only [Bool.not_eq_true', Bool.not_eq_false] at h1
    simp only at h
    split at h
    · cases h
    · rename_i h2
      split at h
      · cases h
      · rename_i h3
        cases h
        exact ⟨rfl, (need_iff _ _ _).mp h1, h2, by omega⟩

/-! ## Table operations and decodes -/

/-- A rank that R169 gives fields: no free value is drawn. -/
theorem rankFields_of_stated {log r : Nat} (h : rankStated log r = true) (draw : Nat) :
    rankFields log r draw =
      (BitVec.ofNat 4 (log - highbit r), BitVec.ofNat 16 (r * 2 ^ (log - highbit r) - 2 ^ log)) := by
  simp [rankFields, h]

/-- A rank that R169 gives no fields: a free value. -/
theorem rankFields_of_open {log r : Nat} (h : rankStated log r = false) (draw : Nat) :
    rankFields log r draw = Config.openRankFields draw := by
  simp [rankFields, h]

/-- One slot: its symbol stays and its symbol's counter advances, whatever its rank (R167). -/
theorem slotFields_succ {cap : Nat} (log n i : Nat) (b : BuildSt cap) :
    slotFields log (n + 1) i b =
      let e := ramGet b.ram i ⟨0, 0, 0⟩
      let r := (ramGet b.next e.sym.toNat 0).toNat
      let f := rankFields log r b.draws
      slotFields log n (i + 1)
        ⟨ramSet b.ram i ⟨e.sym, f.1, f.2⟩, ramSet b.next e.sym.toNat (BitVec.ofNat 16 (r + 1)),
          if rankStated log r then b.draws else b.draws + 1⟩ := rfl

/-- The ranges that a faulting HUF.DEC4 had written end at or below `n`. -/
theorem dec4Written_le {n seg c k : Nat} {r : Nat × Nat} (h : r ∈ dec4Written n seg c k) : r.2 ≤ n := by
  simp only [dec4Written, List.mem_map] at h
  obtain ⟨j, _, rfl⟩ := h
  exact Nat.min_le_left _ _

/-- A table operation touches its table, the builder scratch and the model's counter of free values only. -/
theorem runTable_ok {s t : State} {tb : TableId} {a : α}
    {f : (cap : Nat) → TableUnit cap → Run (TableUnit cap) α}
    (h : s.runTable tb f = .ok a t) :
    t = { s with llt := t.llt, oft := t.oft, mlt := t.mlt, hwt := t.hwt, fse := t.fse, draws := t.draws } ∧
    (tb ≠ .llt → t.llt = s.llt) ∧ (tb ≠ .oft → t.oft = s.oft) ∧ (tb ≠ .mlt → t.mlt = s.mlt) ∧
    (tb ≠ .hwt → t.hwt = s.hwt) := by
  cases tb <;>
    · simp only [State.runTable, lift_eq_ok] at h
      obtain ⟨u, _, rfl⟩ := h
      simp

/-- A host access to a byte of IN or OUT goes on exactly while the engine is not BUSY (R6, R72). -/
theorem hostBytes_eq_next {s t u : State} : hostBytes s t = .next u ↔ s.busy = false ∧ u = t := by
  cases hb : s.busy <;> simp [hostBytes, hb, eq_comm]

/-- While BUSY no access of the host changes anything but the value of the host's last read (R6, R22, R72, R410). -/
theorem hostAccess_busy {h : HostAccess} {s t : State} (hb : s.busy = true) (hn : hostAccess h s = .next t) :
    t = { s with hostData := t.hostData } := by
  cases h with
  | regWrite r v => simp only [hostAccess, hb, if_true] at hn; cases hn; rfl
  | regRead r =>
    simp only [hostAccess, hostRead] at hn
    split at hn
    · cases hn
    · cases hn; rfl
  | inWrite a b => simp [hostAccess, hostBytes, hb] at hn
  | outWrite a b => simp [hostAccess, hostBytes, hb] at hn
  | inRead a => simp [hostAccess, hostBytes, hb] at hn
  | outRead a => simp [hostAccess, hostBytes, hb] at hn

/-- A first distance above 0 has a distance below it: no free value is drawn (R322, R323). -/
theorem belowFirst_of_pos {r : RepRegs} (h : 1 ≤ r.r0.toNat) : belowFirst r = r.r0 - 1 := by
  unfold belowFirst
  split
  · rename_i h0
    simp [h0] at h
  · rfl

/-- A selected distance, with a 0 replaced by 1, is never 0 (R322). -/
theorem ne_zero_of_replaced (d : BitVec 32) : (if d = 0 then 1 else d) ≠ 0 := by
  split <;> simp_all

/-- What one access of the host can do: it is refused, or one of the outcomes of its kind. -/
theorem hostAccess_cases {h : HostAccess} {s t : State} (hn : hostAccess h s = .next t) :
    (∃ r v, h = .regWrite r v ∧ (t = s ∨ (s.busy = false ∧ hostWrite r v s = .next t))) ∨
    (∃ r, h = .regRead r ∧ t = { s with hostData := s.regValue r }) ∨
    (∃ a b, h = .inWrite a b ∧ s.busy = false ∧ t = s.putIn a.toNat b) ∨
    (∃ a b, h = .outWrite a b ∧ s.busy = false ∧ t = s.putOut a.toNat b) ∨
    (∃ a, h = .inRead a ∧ s.busy = false ∧ t = { s with hostData := (s.inByte a.toNat).setWidth 32 }) ∨
    (∃ a, h = .outRead a ∧ s.busy = false ∧ t = { s with hostData := (s.outByte a.toNat).setWidth 32 }) := by
  cases h with
  | regWrite r v =>
    simp only [hostAccess] at hn
    split at hn
    · cases hn; exact .inl ⟨r, v, rfl, .inl rfl⟩
    · rename_i hb
      exact .inl ⟨r, v, rfl, .inr ⟨by simpa using hb, hn⟩⟩
  | regRead r =>
    simp only [hostAccess, hostRead] at hn
    split at hn
    · cases hn
    · cases hn; exact .inr (.inl ⟨r, rfl, rfl⟩)
  | inWrite a b => exact .inr (.inr (.inl ⟨a, b, rfl, hostBytes_eq_next.mp hn⟩))
  | outWrite a b => exact .inr (.inr (.inr (.inl ⟨a, b, rfl, hostBytes_eq_next.mp hn⟩)))
  | inRead a => exact .inr (.inr (.inr (.inr (.inl ⟨a, rfl, hostBytes_eq_next.mp hn⟩))))
  | outRead a => exact .inr (.inr (.inr (.inr (.inr ⟨a, rfl, hostBytes_eq_next.mp hn⟩))))

/-- What one step of the engine can be. -/
theorem engineStep_cases (s : State) :
    (∃ i r, s.issue = i :: r ∧ engineStep s = exec i { s with issue := r }) ∨
    (s.issue = [] ∧ ∃ c i rest, s.nextCtx = some c ∧ decode c (s.window c) = .ok (i, rest) ∧ engineStep s = exec i s) ∨
    (s.issue = [] ∧ ∃ c r, s.nextCtx = some c ∧ decode c (s.window c) = .error r ∧
      engineStep s = .next (faultEntry (rejectCode c r) (beforeReject c (s.window c) s))) ∨
    (s.issue = [] ∧ s.nextCtx = none ∧ engineStep s = innerStep s) := by
  unfold engineStep
  cases hi : s.issue with
  | cons i r => exact .inl ⟨i, r, rfl, rfl⟩
  | nil =>
    cases hc : s.nextCtx with
    | none => exact .inr (.inr (.inr ⟨rfl, rfl, rfl⟩))
    | some c =>
      cases hd : decode c (s.window c) with
      | ok p =>
        obtain ⟨i, rest⟩ := p
        refine .inr (.inl ⟨rfl, c, i, rest, rfl, hd, ?_⟩)
        simp [elementStep, hd]
      | error r =>
        refine .inr (.inr (.inl ⟨rfl, c, r, rfl, hd, ?_⟩))
        simp [elementStep, hd]

/-- What one step of the machine can be. -/
theorem machineStep_cases (s : State) :
    (s.hostQueue = [] ∧ machineStep s = engineStep s) ∨
    (∃ h q, s.hostQueue = (0, h) :: q ∧ machineStep s = hostAccess h { s with hostQueue := q }) ∨
    (∃ n h q, s.hostQueue = (n + 1, h) :: q ∧ machineStep s = engineStep { s with hostQueue := (n, h) :: q }) := by
  unfold machineStep
  cases hq : s.hostQueue with
  | nil => exact .inl ⟨rfl, rfl⟩
  | cons p q =>
    obtain ⟨n, h⟩ := p
    cases n with
    | zero => exact .inr (.inl ⟨h, q, rfl, rfl⟩)
    | succ n => exact .inr (.inr ⟨n, h, q, rfl, rfl⟩)

/-- A state that holds after every step holds after every run: an invariant that every step keeps, packaged once. -/
theorem runSteps_keeps {P : State → Prop} (hstep : ∀ s t, P s → step s = .next t → P t) :
    ∀ (n : Nat) (s t : State), P s → runSteps n s = .next t → P t := by
  intro n
  induction n with
  | zero => intro s t hs h; cases h; exact hs
  | succ n ih =>
    intro s t hs h
    unfold runSteps at h
    split at h
    · rename_i u hu
      exact ih u t (hstep s u hs hu) h
    · cases h
    · cases h

/-! ## Memories of the state -/

theorem memOk_putIn {s : State} {a : Addr} {b : Byte} (h : s.memOk) : (s.putIn a.toNat b).memOk := by
  have ha : a.toNat < Config.space := a.isLt
  unfold State.putIn
  split
  · exact ⟨h.1, wf_write h.2.1 ha, h.2.2⟩
  · exact ⟨wf_write h.1 ha, h.2.1, h.2.2⟩

theorem memOk_putOut {s : State} {a : Addr} {b : Byte} (h : s.memOk) : (s.putOut a.toNat b).memOk :=
  ⟨h.1, wf_write h.2.1 a.isLt, h.2.2⟩

theorem memOk_faultEntry {e : ErrCode} {s : State} (h : s.memOk) : (faultEntry e s).memOk :=
  ⟨h.1, wf_scrap h.2.1 (le_of_lt s.lOutLimit.isLt), h.2.2⟩

theorem memOk_scrapLit {s : State} {w : List (Nat × Nat)} (h : s.memOk) (hw : ∀ r ∈ w, r.2 ≤ Config.litSize) :
    (s.scrapLit w).memOk := ⟨h.1, h.2.1, wf_scrapRanges h.2.2 hw⟩

theorem memOk_engDone {s : State} (h : s.memOk) : (engDone s).memOk :=
  ⟨h.1, wf_scrap h.2.1 (le_of_lt s.lOutLimit.isLt), h.2.2⟩

theorem memOk_blockEnd {s : State} (h : s.memOk) : (blockEnd s).memOk := by
  unfold blockEnd engNext
  split
  · split
    · exact h
    · split
      · exact h
      · exact memOk_engDone h
  · exact h

end Sys2Proof.Machine
end

