-- ==== Sys2Proof/Tests/Slice0.lean ====
section
/-! SUPPORT. The model's own tests. Expected results are the spec's worked examples and vectors (spec/95_test_vectors.md and the
rules named), or words written out from the layouts of spec/30_encoding.md. -/
namespace Sys2Proof.Tests

open Sys2Proof Sys2Proof.Machine

set_option Elab.async false

/-! ## Helpers -/

/-- The listed cells of a byte string at an address. -/
def cellsAt (a : Nat) : List Byte → List Host.Cell
  | [] => []
  | b :: r => if b = 0 then cellsAt (a + 1) r else (a, b) :: cellsAt (a + 1) r

/-- A running command: the bytes at 16 in IN, the output region 256 to 320, both cursors at their starts. -/
def base (bs : List Byte) : State :=
  { State.reset with
    inp := ⟨cellsAt 16 bs, []⟩
    ip := 16
    lInStart := 16
    lInEnd := BitVec.ofNat 32 (16 + bs.length)
    op := 256
    lOutStart := 256
    lOutLimit := 320
    frameOutStart := 256
    phase := .blockHeader }

/-- A command inside a compressed block that fills the input. -/
def inBlock (sub : Sub) (bs : List Byte) : State :=
  { base bs with
    phase := .block
    sub := sub
    blk := ⟨true, 2, BitVec.ofNat 21 bs.length, BitVec.ofNat 32 (16 + bs.length)⟩ }

/-- Whether an outcome is a next state with a property. -/
def after (o : Host.Outcome State Fault Refusal) (p : State → Bool) : Bool :=
  match o with
  | .next t => p t
  | .fault _ => false
  | .refused _ => false

/-- Whether an outcome is a refusal. -/
def refuses (o : Host.Outcome State Fault Refusal) (r : Refusal) : Bool :=
  match o with
  | .refused x => decide (x = r)
  | .fault _ => false
  | .next _ => false

theorem next_of_after {o : Host.Outcome State Fault Refusal} {p : State → Bool} (h : after o p = true) :
    ∃ t, o = .next t ∧ p t = true := by
  cases o with
  | next t => exact ⟨t, rfl, h⟩
  | fault f => cases h
  | refused r => cases h

theorem next_of_completes {o : Host.Outcome State Fault Refusal} (h : after o (fun _ => true) = true) :
    ∃ t, o = .next t :=
  let ⟨t, ht, _⟩ := next_of_after h
  ⟨t, ht⟩

/-- A state that has taken a fault with the given code and class. -/
def faulted (code cls : Nat) (t : State) : Bool :=
  decide (t.phase = .fault) && t.errCode.toNat == code && t.errClass.toNat == cls

/-- Whether the decoder reads the given instructions, and leaves the given rests. -/
def reads (l : List (Ctx × List Byte × Instr × List Byte)) : Bool :=
  l.all fun (c, bs, i, rest) =>
    match decode c bs with
    | .ok (j, r) => decide (j = i) && decide (r = rest)
    | .error _ => false

/-- Whether the decoder rejects a word for the given reason. -/
def rejects (c : Ctx) (bs : List Byte) (r : Reject) : Bool :=
  match decode c bs with
  | .ok _ => false
  | .error e => decide (e = r)

/-- The first entries of a RAM. -/
def fill {α : Type} {n : Nat} (v : Vector α n) : Nat → List α → Vector α n
  | _, [] => v
  | i, x :: r => fill (ramSet v i x) (i + 1) r

/-- The Huffman table of R215, written out. -/
def table215 : HufRegs :=
  { HufRegs.zero with
    loaded := true
    log := 3
    ram := fill HufRegs.zero.ram 0 [⟨1, 3⟩, ⟨2, 3⟩, ⟨0, 2⟩, ⟨0, 2⟩, ⟨3, 1⟩, ⟨3, 1⟩, ⟨3, 1⟩, ⟨3, 1⟩] }

/-- The entries of the FSE table of R179, written out. -/
def entries179 : List FseEntry :=
  [⟨0, 1, 4⟩, ⟨0, 1, 6⟩, ⟨0, 1, 8⟩, ⟨1, 3, 16⟩, ⟨3, 4, 0⟩, ⟨0, 1, 10⟩, ⟨0, 1, 12⟩, ⟨0, 1, 14⟩] ++
  [⟨2, 4, 0⟩, ⟨5, 5, 0⟩, ⟨0, 1, 16⟩, ⟨0, 1, 18⟩, ⟨1, 3, 24⟩, ⟨3, 4, 16⟩, ⟨0, 1, 20⟩, ⟨0, 1, 22⟩] ++
  [⟨0, 1, 24⟩, ⟨1, 2, 0⟩, ⟨4, 4, 0⟩, ⟨0, 1, 26⟩, ⟨0, 1, 28⟩, ⟨1, 2, 4⟩, ⟨2, 4, 16⟩, ⟨0, 1, 30⟩] ++
  [⟨0, 0, 0⟩, ⟨0, 0, 1⟩, ⟨1, 2, 8⟩, ⟨4, 4, 16⟩, ⟨0, 0, 2⟩, ⟨0, 0, 3⟩, ⟨1, 2, 12⟩, ⟨6, 5, 0⟩]

/-- A state whose weights' table is that of R179. -/
def with179 (s : State) : State := { s with hwt := ⟨5, fill s.hwt.ram 0 entries179⟩ }

/-- A state whose Huffman table is that of R215. -/
def with215 (s : State) : State := { s with huf := table215 }

/-- Counts in NORM. -/
def withCounts (s : State) (l : List Int) : State :=
  { s with fse := ⟨fill s.fse.norm 0 (l.map (BitVec.ofInt 16)), s.fse.next⟩ }

/-- Weights in HUF.W. -/
def withWeights (s : State) (l : List Nat) : State :=
  { s with huf := { s.huf with w := fill s.huf.w 0 (l.map (BitVec.ofNat 8)) } }

/-! ## Ill-formed terms are refused (WellFormed) -/

theorem test_wf_did : wellFormed (.did .one 256) = false ∧ wellFormed (.did .one 255) = true := by decide
theorem test_wf_fcs : wellFormed (.fcs .two 65536) = false ∧ wellFormed (.fcs .two 65535) = true := by decide
theorem test_wf_seqn1 : wellFormed (.seqn1 0) = false ∧ wellFormed (.seqn1 1) = true := by decide
theorem test_wf_seqn2 : wellFormed (.seqn2 127 0) = false ∧ wellFormed (.seqn2 126 255) = true := by decide
theorem test_wf_fseReadTable_region :
    wellFormed (.fseReadTable .llt 5 4 35 4) = false ∧ wellFormed (.fseReadTable .llt 4 4 35 4) = true := by decide
theorem test_wf_fseReadTable_log :
    wellFormed (.fseReadTable .oft 0 4 31 4) = false ∧ wellFormed (.fseReadTable .oft 0 4 31 3) = true := by decide
theorem test_wf_fseBuild : wellFormed (.fseBuild .hwt 2 0) = false ∧ wellFormed (.fseBuild .hwt 1 0) = true := by decide
theorem test_wf_hufBuild : wellFormed (.hufBuild 255) = false ∧ wellFormed (.hufBuild 254) = true := by decide
theorem test_wf_hufDec1 :
    wellFormed (.hufDec1 0 1 131073) = false ∧ wellFormed (.hufDec1 0 1 131072) = true := by decide
theorem test_wf_hufDec4 :
    wellFormed (.hufDec4 0 1 131073) = false ∧ wellFormed (.hufDec4 0 1 131072) = true := by decide
theorem test_wf_seqResolve :
    wellFormed (.seqResolve 5 28 false) = false ∧ wellFormed (.seqResolve 5 61 false) = false ∧
    wellFormed (.seqResolve 5 29 false) = true ∧ wellFormed (.seqResolve 5 60 false) = true := by decide

/-! ## Words written out decode to their instructions -/

/-- R92 to R95: magics, header descriptor, window descriptor, dictionary ID, content size. -/
theorem test_decode_frame : reads [
    (.magic, [0x28, 0xB5, 0x2F, 0xFD], .magic, []),
    (.magic, [0x27, 0xB5, 0x2F, 0xFD], .magicLegacy, []),
    (.fhd, [0x9D], .fhd 2 false 3 true 1, []),
    (.wd, [0x69], .wd 13 1, []),
    (.did .two, [0x34, 0x12], .did .two 0x1234, []),
    (.fcs .two, [0x10, 0x00], .fcs .two 16, []),
    (.fcs .eight, [1, 0, 0, 0, 0, 0, 0, 0x80], .fcs .eight 0x8000000000000001, [])] = true ∧
    rejects .magic [0x50, 0x2A, 0x4D, 0x18] .badMagic = true := by decide +kernel

/-- R96, R97: block headers of S1, S2, K3 and H21. -/
theorem test_decode_block : reads [
    (.blk, [0x19, 0x00, 0x00], .blkRaw true 3, []),
    (.blk, [0x53, 0x00, 0x00], .blkRle true 10, []),
    (.blk, [0x4D, 0x00, 0x00, 0x62], .blkCmp true 9, [0x62]),
    (.blk, [0x06, 0x00, 0x10], .blkRsv false 131072, [])] = true ∧
    rejects .blk [0x09, 0x00] .truncated = true := by decide +kernel

/-- R98 to R100: the literals headers of R299, L1, L4, L6 and H23. -/
theorem test_decode_literals : reads [
    (.lith, [0x18], .litRaw1 3, []),
    (.lith, [0x44, 0x06], .litRaw2 100, []),
    (.lith, [0x0C, 0x17, 0x11], .litRaw3 70000, []),
    (.lith, [0x29], .litRle1 5, []),
    (.lith, [0x45, 0x06], .litRle2 100, []),
    (.lith, [0x1D, 0x00, 0x20], .litRle3 131073, []),
    (.lith, [0x62, 0x40, 0x01], .litHufS3 6 5, []),
    (.lith, [0x86, 0x40, 0x03], .litHuf3 8 13, []),
    (.lith, [0x8A, 0x38, 0xE1, 0x2E], .litHuf4 5000 3000, []),
    (.lith, [0x0E, 0x6A, 0x18, 0xD4, 0x30], .litHuf5 100000 50000, []),
    (.lith, [0x63, 0x80, 0x00], .litRepS3 6 2, []),
    (.lith, [0x87, 0x40, 0x03], .litRep3 8 13, []),
    (.lith, [0x8B, 0x38, 0xE1, 0x2E], .litRep4 5000 3000, []),
    (.lith, [0x0F, 0x6A, 0x18, 0xD4, 0x30], .litRep5 100000 50000, [])] = true := by decide +kernel

/-- R102, R107: tree headers and a jump table. -/
theorem test_decode_huffman : reads [
    (.htree, [0x82, 0x21], .htreeDirect 2, [0x21]),
    (.htree, [0x06], .htreeFse 6, []),
    (.jump, [0x01, 0x00, 0x02, 0x00, 0x09, 0x01], .jump 1 2 0x109, [])] = true := by decide +kernel

/-- R108 to R112: sequence counts (section 2.8), modes, an RLE symbol, the head of a description. -/
theorem test_decode_sequences : reads [
    (.seqn, [0x00], .seqn0, []),
    (.seqn, [0x7F], .seqn1 127, []),
    (.seqn, [0xFE, 0xFF], .seqn2 126 255, []),
    (.seqn, [0xFF, 0x01, 0x02], .seqn3 1 2, []),
    (.seqm, [0x64], .seqm 1 2 1 0, []),
    (.mode .ll, [0], .modePredef .ll, []),
    (.mode .of, [1], .modeRle .of, []),
    (.mode .ml, [2], .modeFse .ml, []),
    (.mode .ll, [3], .modeRepeat .ll, []),
    (.rlesym .of, [0x20], .rlesym .of 0x20, []),
    (.fsedesc .ml, [0x53], .fsedesc .ml 3 5, []),
    (.checksum, [0x99, 0x09, 0x77, 0xAD], .checksum 0xAD770999, [])] = true := by decide +kernel

/-- R121: the numbers of the unit operations; the operand bytes are the model's (log 7). -/
theorem test_decode_units : reads [
    (.uop, [0x10, 2, 0x10, 0, 0, 0, 0x18, 0, 0, 0], .brInit 2 16 24, []),
    (.uop, [0x11, 3, 63], .brPeek 3 63, []),
    (.uop, [0x12, 0, 0], .brPeekFast 0 0, []),
    (.uop, [0x13, 1], .brRefill 1, []),
    (.uop, [0x20, 3, 1, 0, 0, 0, 7, 0, 0, 0, 255, 1], .fseReadTable .hwt 1 7 255 1, []),
    (.uop, [0x21, 0, 4, 35], .fseBuild .llt 4 35, []),
    (.uop, [0x22, 1, 7], .fseRle .oft 7, []),
    (.uop, [0x23, 2], .fsePredef .ml, []),
    (.uop, [0x28, 3, 1, 0, 0, 0, 7, 0, 0, 0, 255], .fseDecompress .hwt 1 7 255, []),
    (.uop, [0x30, 0x10, 0, 0, 0, 3, 0, 2], .hufReadTable 16 131075, []),
    (.uop, [0x31, 2], .hufBuild 2, []),
    (.uop, [0x32, 0x10, 0, 0, 0, 0x12, 0, 0, 0, 6, 0, 0], .hufDec1 16 18 6, []),
    (.uop, [0x33, 0x10, 0, 0, 0, 0x1A, 0, 0, 0, 8, 0, 0], .hufDec4 16 26 8, []),
    (.uop, [0x40, 0, 1, 0, 0, 3, 0, 0, 0], .xxhHash 256 3, []),
    (.uop, [0x50], .seqDecode, []),
    (.uop, [0x51, 5, 33, 0, 0, 0, 1], .seqResolve 5 33 true, []),
    (.uop, [0x52], .seqExec, []),
    (.uop, [0x53], .seqLastlit, [])] = true ∧
    rejects .uop [0x54] .unknownUnitOp = true := by decide +kernel

/-- R122: RESET wins where both strobes are set. -/
theorem test_decode_host : reads [
    (.host, [0x01, 0x00, 0x00, 0x00], .cmdStart 0, []),
    (.host, [0x03, 0x00, 0x00, 0x80], .cmdReset true 0x20000000, [])] = true ∧
    rejects .host [0x04, 0x00, 0x00, 0x00] .noStrobe = true := by decide +kernel

/-! ## One step of each instruction -/

/-- R253, R254. -/
theorem test_magic : after (exec .magic { base [0x28, 0xB5, 0x2F, 0xFD] with op := 300 }) (fun t =>
    t.ip.toNat == 20 && decide (t.phase = .frameHeader) && decide (t.rep = ⟨1, 4, 8⟩) && t.frameOutStart.toNat == 300) =
    true := by decide +kernel

/-- Section 2.6: `27 B5 2F FD` gives E_LEGACY_MAGIC 0x3003 at its first byte. -/
theorem test_magicLegacy : after (exec .magicLegacy (base [0x27, 0xB5, 0x2F, 0xFD])) (fun t =>
    t.errWord.toNat == 0x3003 && t.errOffset.toNat == 0) = true := by decide +kernel

/-- F2: `40 00 10 00`, no single segment: the window descriptor is next. -/
theorem test_fhd_window : after (exec (.fhd 1 false 0 false 0) (base [0x40, 0x00, 0x10, 0x00])) (fun t =>
    decide (t.sub = .wd) && t.fh.windowValid && t.ip.toNat == 16) = true := by decide +kernel

/-- F14: the header of `01` is cut off. -/
theorem test_fhd_truncated : after (exec (.fhd 0 false 0 false 1) (base [0x01])) (faulted 1 1) = true := by
  decide +kernel

/-- F2: `WD = 0x00` is a window of 1024 bytes. -/
theorem test_wd_small : after (exec (.wd 0 0) { base [0x40, 0x00, 0x10, 0x00] with fhdByte := 0x40 }) (fun t =>
    t.fh.windowSize.toNat == 1024 && decide (t.sub = .fcs) && t.fh.contentValid) = true := by decide +kernel

/-- F8: `WD = 0x69` is a window of 9437184 bytes. -/
theorem test_wd_large : after (exec (.wd 13 1) (base [0x00, 0x69])) (fun t =>
    t.fh.windowSize.toNat == 9437184 && t.errWord.toNat == 0x3203) = true := by decide +kernel

/-- F11: a present field of value 0 takes E_DICTIONARY. -/
theorem test_did : after (exec (.did .one 0) (base [0x01, 0x00, 0x00])) (fun t => t.errWord.toNat == 0x3103) = true := by
  decide +kernel

/-- F3: `60 10 00` is a content size of 272. -/
theorem test_fcs : after (exec (.fcs .two 16) { base [0x60, 0x10, 0x00] with fhdByte := 0x60 }) (fun t =>
    t.fh.contentSize.toNat == 272 && t.fh.headerSize.toNat == 3 && t.ip.toNat == 19 && decide (t.phase = .blockHeader)) =
    true := by decide +kernel

/-- S1: a raw block of "abc", the last of its input. -/
theorem test_blkRaw : after (exec (.blkRaw true 3) (base [0x19, 0x00, 0x00, 0x61, 0x62, 0x63])) (fun t =>
    decide (readBytes t.outByte 256 3 = [0x61, 0x62, 0x63]) && t.bytesWritten.toNat == 3 && decide (t.phase = .done) &&
    t.blk.limit.toNat == 22) = true := by decide +kernel

/-- K3: a size of 131073 takes E_BLOCK_TOO_LARGE. -/
theorem test_blkRaw_large : after (exec (.blkRaw true 131073) (base [0x09, 0x00, 0x10])) (fun t =>
    t.errWord.toNat == 0x2102) = true := by decide +kernel

/-- S2: ten times 41. -/
theorem test_blkRle : after (exec (.blkRle true 10) (base [0x53, 0x00, 0x00, 0x41])) (fun t =>
    decide (readBytes t.outByte 256 10 = List.replicate 10 0x41) && t.op.toNat == 266) = true := by decide +kernel

/-- K7: the payload byte is required even for a size of 0. -/
theorem test_blkRle_truncated : after (exec (.blkRle true 0) (base [0x03, 0x00, 0x00])) (fun t =>
    t.errWord.toNat == 0x0101 && t.errOffset.toNat == 3) = true := by decide +kernel

/-- K11: a compressed block of two bytes. -/
theorem test_blkCmp : after (exec (.blkCmp true 2) (base [0x15, 0x00, 0x00, 0x00, 0x00])) (fun t =>
    t.blk.limit.toNat == 21 && t.ip.toNat == 19 && decide (t.phase = .block)) = true := by decide +kernel

/-- K2: block type 3. -/
theorem test_blkRsv : after (exec (.blkRsv true 0) (base [0x07, 0x00, 0x00])) (fun t => t.errWord.toNat == 0x0301) =
    true := by decide +kernel

/-- L2: a one-byte header whose bit 3 is set, one literal copied to LIT. -/
theorem test_litRaw1 : after (exec (.litRaw1 1) (inBlock .start [0x08, 0x61, 0x00])) (fun t =>
    decide (t.lit.fmt = 2) && !t.lit.src && t.lit.limit.toNat == 1 && decide (t.litByte 0 = 0x61) && t.ip.toNat == 18) =
    true := by decide +kernel

/-- R294: the literals stay in place when eight more bytes of the block follow them. -/
theorem test_litRaw1_in_place : after (exec (.litRaw1 1) (inBlock .start [0x08, 0x61, 1, 2, 3, 4, 5, 6, 7, 8]))
    (fun t => t.lit.src && t.lit.ptr.toNat == 17 && t.lit.limit.toNat == 18) = true := by decide +kernel

/-- R299 (a) in the two-byte form; L3's fault. -/
theorem test_litRaw2 : after (exec (.litRaw2 3) (inBlock .start [0x34, 0x00, 0x61, 0x62, 0x63])) (fun t =>
    decide (readBytes t.litByte 0 3 = [0x61, 0x62, 0x63]) && t.lit.limit.toNat == 3) = true := by decide +kernel

theorem test_litRaw3 : after (exec (.litRaw3 3) (inBlock .start [0x3C, 0x00, 0x00, 0x61, 0x62])) (fun t =>
    t.errWord.toNat == 0x0101 && t.errOffset.toNat == 3) = true := by decide +kernel

theorem test_litRle1 : after (exec (.litRle1 5) (inBlock .start [0x29, 0x5A])) (fun t =>
    decide (readBytes t.litByte 0 6 = [0x5A, 0x5A, 0x5A, 0x5A, 0x5A, 0]) && decide (t.sub = .seqn)) = true := by
  decide +kernel

/-- L1 with fewer literals. -/
theorem test_litRle2 : after (exec (.litRle2 7) (inBlock .start [0x75, 0x00, 0x5A])) (fun t =>
    t.lit.regen.toNat == 7 && decide (t.litByte 6 = 0x5A) && decide (t.litByte 7 = 0) && t.ip.toNat == 19) = true := by
  decide +kernel

/-- L4: 131073 literals. -/
theorem test_litRle3 : after (exec (.litRle3 131073) (inBlock .start [0x1D, 0x00, 0x20, 0x5A, 0x00])) (fun t =>
    t.errWord.toNat == 0x2102) = true := by decide +kernel

/-- H21: the tree comes next, the body ends five bytes on. -/
theorem test_litHufS3 : after (exec (.litHufS3 6 5)
    (inBlock .start [0x62, 0x40, 0x01, 0x82, 0x21, 0x10, 0x83, 0x0D, 0x00])) (fun t =>
    decide (t.sub = .htree) && t.lit.single && t.litLim.toNat == 24 && t.ip.toNat == 19) = true := by decide +kernel

/-- H23: the four-stream form. -/
theorem test_litHuf3 : after (exec (.litHuf3 8 13) (inBlock .start ([0x86, 0x40, 0x03] ++ List.replicate 14 0)))
    (fun t => decide (t.sub = .htree) && !t.lit.single && t.litLim.toNat == 32) = true := by decide +kernel

/-- A body that does not fit the block. -/
theorem test_litHuf4 : after (exec (.litHuf4 5000 3000) (inBlock .start [0x8A, 0x38, 0xE1, 0x2E])) (faulted 1 1) = true := by
  decide +kernel

theorem test_litHuf5 : after (exec (.litHuf5 131073 1) (inBlock .start [0x1E, 0x00, 0x60, 0x00, 0x00, 0x00]))
    (faulted 33 2) = true := by decide +kernel

/-- L7: with a table loaded the single stream is decoded next; L6: without one E_NO_HUF_TABLE. -/
theorem test_litRepS3 : after (exec (.litRepS3 6 2) (with215 (inBlock .start [0x63, 0x80, 0x00, 0x83, 0x0D, 0x00])))
    (fun t => decide (t.issue = [.hufDec1 19 21 6]) && decide (t.sub = .litEnd)) = true := by decide +kernel

theorem test_litRepS3_unloaded : after (exec (.litRepS3 6 2) (inBlock .start [0x63, 0x80, 0x00, 0x83, 0x0D, 0x00]))
    (fun t => t.errWord.toNat == 0x1301) = true := by decide +kernel

theorem test_litRep3 : after (exec (.litRep3 8 10) (with215 (inBlock .start ([0x87, 0x80, 0x02] ++ List.replicate 11 1))))
    (fun t => decide (t.sub = .jump) && t.litLim.toNat == 29 && decide (t.issue = [])) = true := by decide +kernel

theorem test_litRep4 : after (exec (.litRep4 8 10)
    (with215 (inBlock .start ([0x8B, 0x00, 0x28, 0x00] ++ List.replicate 10 1)))) (fun t =>
    decide (t.sub = .jump) && t.ip.toNat == 20 && decide (t.lit.fmt = 2)) = true := by decide +kernel

theorem test_litRep5 : after (exec (.litRep5 8 10)
    (with215 (inBlock .start ([0x8F, 0x00, 0x80, 0x02, 0x00] ++ List.replicate 10 1)))) (fun t =>
    t.ip.toNat == 21 && t.litLim.toNat == 31 && t.lit.comp.toNat == 10) = true := by decide +kernel

/-- The literals registers of H21 at the tree. -/
def atTree (single : Bool) (regen : BitVec 20) (bs : List Byte) : State :=
  { inBlock .htree bs with
    lit := ⟨2, if single then 0 else 1, regen, BitVec.ofNat 18 bs.length, single, false, 0, 0⟩
    litLim := BitVec.ofNat 32 (16 + bs.length) }

/-- R215: the tree `82 21 10`. -/
theorem test_htreeDirect : after (exec (.htreeDirect 2) (atTree true 6 [0x82, 0x21, 0x10, 0x83, 0x0D])) (fun t =>
    t.huf.loaded && t.huf.log.toNat == 3 && decide (ramGet t.huf.ram 2 ⟨0, 0⟩ = ⟨0, 2⟩) &&
    decide (ramGet t.huf.ram 7 ⟨0, 0⟩ = ⟨3, 1⟩) && decide (t.issue = [.hufDec1 19 21 6])) = true := by decide +kernel

/-- H4: the tree `83 22 10` takes E_HUF_REST. -/
theorem test_htreeDirect_rest : after (exec (.htreeDirect 3) (atTree true 6 [0x83, 0x22, 0x10, 0x83, 0x0D])) (fun t =>
    t.errWord.toNat == 0x0E01 && !t.huf.loaded) = true := by decide +kernel

/-- H2: the tree `06 30 6F 9B 00 00 D5`. -/
theorem test_htreeFse : after (exec (.htreeFse 6)
    (atTree true 5 [0x06, 0x30, 0x6F, 0x9B, 0x00, 0x00, 0xD5, 0x83, 0x06])) (fun t =>
    t.huf.loaded && decide ((List.range 8).map (fun i => (ramGet t.huf.ram i ⟨0, 0⟩).sym.toNat) = [0, 3, 1, 1, 2, 2, 2, 2]) &&
    decide ((List.range 8).map (fun i => (ramGet t.huf.ram i ⟨0, 0⟩).nb.toNat) = [3, 3, 2, 2, 1, 1, 1, 1]) &&
    t.ip.toNat == 23) = true := by decide +kernel

/-- The four streams of H15 as the rest of a section. -/
def atJump (bs : List Byte) (n : BitVec 20) : State :=
  with215 { inBlock .jump bs with
    lit := ⟨3, 1, n, BitVec.ofNat 18 bs.length, false, false, 0, 0⟩, litLim := BitVec.ofNat 32 (16 + bs.length) }

/-- H15, H23. -/
theorem test_jump : after (exec (.jump 1 1 1) (atJump [0x01, 0, 0x01, 0, 0x01, 0, 0x0D, 0x41, 0x07, 0x28] 8)) (fun t =>
    decide (readBytes t.litByte 0 8 = [3, 0, 1, 2, 3, 3, 0, 1]) && t.ip.toNat == 26 && t.lit.limit.toNat == 8) =
    true := by decide +kernel

/-- H16 to H19: the jump table leaves the region, five symbols, four bytes, an empty second stream. -/
theorem test_jump_faults :
    after (exec (.jump 1 1 9) (atJump [0x01, 0, 0x01, 0, 0x09, 0, 0x0D, 0x41, 0x07, 0x28] 8)) (faulted 17 1) = true ∧
    after (exec (.jump 1 1 1) (atJump [0x01, 0, 0x01, 0, 0x01, 0, 0x0D, 0x41, 0x07, 0x28] 5)) (faulted 18 1) = true ∧
    after (exec (.jump 1 1 0) (atJump [0x01, 0, 0x01, 0] 8)) (faulted 17 1) = true ∧
    after (exec (.jump 1 0 1) (atJump [0x01, 0, 0, 0, 0x01, 0, 0x0D, 0x07, 0x28, 0x01] 8)) (faulted 4 1) = true := by
  decide +kernel

/-- Q10: a first byte of 0 ends the section early. -/
theorem test_seqn0 : after (exec .seqn0 (inBlock .seqn [0x00, 0xAA, 0xBB])) (fun t =>
    decide (t.issue = [.seqLastlit]) && decide (t.sub = .blkEnd)) = true := by decide +kernel

theorem test_seqn1 : after (exec (.seqn1 127) (inBlock .seqn [0x7F, 0x00])) (fun t =>
    t.seq.count.toNat == 127 && decide (t.sub = .seqm) && t.ip.toNat == 17) = true := by decide +kernel

/-- Section 2.8: `FE FF` = 32511, `FF FF FF` = 98047. -/
theorem test_seqn2 : after (exec (.seqn2 126 255) (inBlock .seqn [0xFE, 0xFF])) (fun t =>
    t.seq.count.toNat == 32511) = true := by decide +kernel

theorem test_seqn3 : after (exec (.seqn3 255 255) (inBlock .seqn [0xFF, 0xFF, 0xFF])) (fun t =>
    t.seq.count.toNat == 98047 && t.ip.toNat == 19) = true := by decide +kernel

/-- Q8: the modes byte is missing. -/
theorem test_seqm : after (exec (.seqm 2 1 3 1) (inBlock .seqm [0x9D])) (fun t =>
    modeField t.seq.modes .ll == 2 && modeField t.seq.modes .of == 1 && modeField t.seq.modes .ml == 3) = true := by
  decide +kernel

theorem test_seqm_truncated : after (exec (.seqm 0 0 0 0) (inBlock .seqm [])) (faulted 1 1) = true := by decide +kernel

theorem test_modePredef : after (exec (.modePredef .of) (inBlock (.mode .of) [0x01])) (fun t =>
    decide (t.ofSel = .predef) && decide (t.llSel = .none) && decide (t.sub = .mode .ml)) = true := by decide +kernel

theorem test_modeRle : after (exec (.modeRle .ml) (inBlock (.mode .ml) [0x01])) (fun t =>
    decide (t.sub = .rlesym .ml) && decide (t.mlSel = .none)) = true := by decide +kernel

theorem test_modeFse : after (exec (.modeFse .ll) (inBlock (.mode .ll) [0x01])) (fun t =>
    decide (t.sub = .fsedesc .ll)) = true := by decide +kernel

/-- R314: REPEAT keeps the table; Q18: without one E_NO_PREV_TABLE. -/
theorem test_modeRepeat : after (exec (.modeRepeat .ml) { inBlock (.mode .ml) [0x05] with mlSel := .ram }) (fun t =>
    decide (t.mlSel = .ram) && decide (t.issue = [.brInit 0 16 17])) = true := by decide +kernel

theorem test_modeRepeat_none : after (exec (.modeRepeat .ll) (inBlock (.mode .ll) [0x05])) (fun t =>
    t.errWord.toNat == 0x1501) = true := by decide +kernel

/-- R172, R314; Q7: 36 is no literal-length code. -/
theorem test_rlesym : after (exec (.rlesym .ll 35) (inBlock (.rlesym .ll) [0x23, 0x01])) (fun t =>
    decide (t.llSel = .ram) && t.llt.log.toNat == 0 && decide (t.tableEntry .llt 0 = some ⟨35, 0, 0⟩) && t.ip.toNat == 17) =
    true := by decide +kernel

theorem test_rlesym_above : after (exec (.rlesym .ll 36) (inBlock (.rlesym .ll) [0x24, 0x01])) (fun t =>
    t.errWord.toNat == 0x1401) = true := by decide +kernel

/-- T2: `10 C0 0F A7` is log 5, counts 0 23 9, three bytes. -/
theorem test_fsedesc : after (exec (.fsedesc .ml 0 1) (inBlock (.fsedesc .ml) [0x10, 0xC0, 0x0F, 0xA7])) (fun t =>
    t.ip.toNat == 19 && t.mlt.log.toNat == 5 && decide (t.mlSel = .ram) &&
    decide ((List.range 3).map (normAt t.fse.norm) = [0, 23, 9])) = true := by decide +kernel

/-- Q13: T5's log 10 takes E_FSE_LOG. -/
theorem test_fsedesc_log : after (exec (.fsedesc .ll 5 0) (inBlock (.fsedesc .ll) [0x05, 0, 0, 0, 1])) (fun t =>
    t.errWord.toNat == 0x0601 && t.errOffset.toNat == 0) = true := by decide +kernel

/-- "abc" in OUT below OP, the checksum field in IN. -/
def atChecksum (bs : List Byte) : State :=
  { base bs with phase := .checksum, out := ⟨[(256, 0x61), (257, 0x62), (258, 0x63)], []⟩, op := 259 }

/-- S4: the hash of "abc" passes; another field does not. -/
theorem test_checksum : after (exec (.checksum 0xAD770999) (atChecksum [0x99, 0x09, 0x77, 0xAD])) (fun t =>
    decide (t.phase = .done) && !t.cksumBad && decide (t.xxh.h = 0x44BC2CF5AD770999)) = true := by decide +kernel

theorem test_checksum_bad : after (exec (.checksum 0) (atChecksum [0, 0, 0, 0])) (fun t =>
    t.errWord.toNat == 0x1901 && t.cksumBad && t.status.toNat == 7) = true := by decide +kernel

/-- R151: the two-byte region `B4 03`; B2: `83 00` has no end mark. -/
theorem test_brInit : after (exec (.brInit 1 16 18) (base [0xB4, 0x03])) (fun t =>
    decide (t.br.get 1 = ⟨0x3B4, 55, 16, 16⟩)) = true := by decide +kernel

theorem test_brInit_noEndMark : after (exec (.brInit 0 16 18) (base [0x83, 0x00])) (faulted 5 1) = true := by
  decide +kernel

/-- R151: three bits of `3B4` at 55; B12: five bits at a count of 74. -/
theorem test_brPeek : after (exec (.brPeek 1 3) { base [] with br := (base []).br.set 1 ⟨0x3B4, 55, 16, 16⟩ }) (fun t =>
    t.result.toNat == 6) = true := by decide +kernel

theorem test_brPeek_reduced : after (exec (.brPeek 0 5)
    { base [] with br := (base []).br.set 0 ⟨0x0004373109605A5D, 74, 16, 16⟩ }) (fun t => t.result.toNat == 2) = true := by
  decide +kernel

/-- B11: one bit, and all 64. -/
theorem test_brPeekFast : after (exec (.brPeekFast 0 0)
    { base [] with br := (base []).br.set 0 ⟨0x8000000000000001, 0, 16, 16⟩ }) (fun t => t.result.toNat == 1) = true := by
  decide +kernel

theorem test_brPeekFast_all : after (exec (.brPeekFast 0 63)
    { base [] with br := (base []).br.set 0 ⟨0x8000000000000001, 0, 16, 16⟩ }) (fun t =>
    decide (t.result = 0x8000000000000001)) = true := by decide +kernel

/-- B7's region with a reader. -/
def atB7 (b : BitReader) : State :=
  { base [0x2F, 0x00, 0x2E, 0x00, 0x00, 0x80, 0x17, 0x38, 0x17, 0x60, 0x00, 0x88, 0x03] with
    br := (base []).br.set 0 b }

/-- B8 and B9: MORE, the second time landing on the start; B9's next refill: EXHAUSTED. -/
theorem test_brRefill_more :
    after (exec (.brRefill 0) (atB7 ⟨0x0388006017381780, 24, 21, 16⟩)) (fun t =>
      t.result.toNat == 0 && decide (t.br.get 0 = ⟨0x601738178000002E, 0, 18, 16⟩)) = true ∧
    after (exec (.brRefill 0) (atB7 ⟨0x601738178000002E, 16, 18, 16⟩)) (fun t =>
      t.result.toNat == 0 && decide (t.br.get 0 = ⟨0x38178000002E002F, 0, 16, 16⟩)) = true ∧
    after (exec (.brRefill 0) (atB7 ⟨0x38178000002E002F, 0, 16, 16⟩)) (fun t =>
      t.result.toNat == 1 && decide (t.br.get 0 = ⟨0x38178000002E002F, 0, 16, 16⟩)) = true := by decide +kernel

/-- R151: EXHAUSTED on the nine-byte region. -/
theorem test_brRefill_exhausted : after (exec (.brRefill 0)
    { base [0x00, 0x11, 0x22, 0x33, 0x44, 0x55, 0x66, 0x77, 0x80] with
      br := (base []).br.set 0 ⟨0x8077665544332211, 16, 17, 16⟩ }) (fun t =>
    t.result.toNat == 1 && decide (t.br.get 0 = ⟨0x7766554433221100, 8, 16, 16⟩)) = true := by decide +kernel

/-- R179: the description `30 6F 9B 00`. -/
theorem test_fseReadTable : after (exec (.fseReadTable .hwt 16 20 255 1) (base [0x30, 0x6F, 0x9B, 0x00])) (fun t =>
    t.result.toNat == 4 && t.hwt.log.toNat == 5 &&
    decide ((List.range 32).map (fun i => ramGet t.hwt.ram i ⟨0, 0, 0⟩) = entries179)) = true := by decide +kernel

/-- T7: three bytes are too few. -/
theorem test_fseReadTable_truncated : after (exec (.fseReadTable .hwt 16 19 255 1) (base [0x04, 0x00, 0x00]))
    (faulted 1 1) = true := by decide +kernel

/-- T3's counts, section 2.2: symbol 1 in slot 9 only. -/
theorem test_fseBuild : after (exec (.fseBuild .oft 0 1) (withCounts (base []) [31, 1])) (fun t =>
    t.oft.log.toNat == 5 && decide (t.tableEntry .oft 9 = some ⟨1, 5, 0⟩) && decide (t.tableEntry .oft 0 = some ⟨0, 1, 30⟩) &&
    decide (t.tableEntry .oft 8 = some ⟨0, 0, 7⟩) && decide (t.tableEntry .oft 31 = some ⟨0, 0, 29⟩)) = true := by
  decide +kernel

/-- Counts of 0, outside the preconditions of R167: rank 0 of slot 0 has no stated fields and one free value is drawn; T.LOG,
NEXT and the slots of rank 1 and 2 are as R167 and R169 say. -/
theorem test_fseBuild_openRank : after (exec (.fseBuild .oft 0 0) (base [])) (fun t =>
    t.oft.log.toNat == 5 && decide (t.tableEntry .oft 1 = some ⟨0, 5, 0⟩) && decide (t.tableEntry .oft 2 = some ⟨0, 4, 0⟩) &&
    (ramGet t.fse.next 0 0).toNat == 32 && t.draws == 1) = true := by decide +kernel

theorem test_fseRle : after (exec (.fseRle .mlt 52) (base [])) (fun t =>
    t.mlt.log.toNat == 0 && decide (t.tableEntry .mlt 0 = some ⟨52, 0, 0⟩) && decide (t.mlSel = .none)) = true := by
  decide +kernel

theorem test_fsePredef : after (exec (.fsePredef .ll) (base [])) (fun t =>
    decide (t.llSel = .predef) && decide (t.curEntry .ll 3 = some ⟨3, 5, 0⟩)) = true := by decide +kernel

/-- R195: the stream `49 23` gives 1 5 1. X1: `00 D5` gives 1 2 3. -/
theorem test_fseDecompress : after (exec (.fseDecompress .hwt 16 18 255) (with179 (base [0x49, 0x23]))) (fun t =>
    t.result.toNat == 3 && decide ((List.range 3).map (fun i => (ramGet t.huf.w i 0).toNat) = [1, 5, 1])) = true := by
  decide +kernel

theorem test_fseDecompress_zeros : after (exec (.fseDecompress .hwt 16 18 255) (with179 (base [0x00, 0xD5]))) (fun t =>
    t.result.toNat == 3 && decide ((List.range 3).map (fun i => (ramGet t.huf.w i 0).toNat) = [1, 2, 3])) = true := by
  decide +kernel

/-- R215: three bytes of tree. H5: a weight of 13. -/
theorem test_hufReadTable : after (exec (.hufReadTable 16 3) (base [0x82, 0x21, 0x10])) (fun t =>
    t.result.toNat == 3 && t.huf.loaded &&
    decide ((List.range 8).map (fun i => ramGet t.huf.ram i ⟨0, 0⟩) =
      [⟨1, 3⟩, ⟨2, 3⟩, ⟨0, 2⟩, ⟨0, 2⟩, ⟨3, 1⟩, ⟨3, 1⟩, ⟨3, 1⟩, ⟨3, 1⟩])) = true := by decide +kernel

theorem test_hufReadTable_weight : after (exec (.hufReadTable 16 2) (with215 (base [0x81, 0xD0]))) (fun t =>
    faulted 11 1 t && !t.huf.loaded) = true := by decide +kernel

/-- R215: weights 2 1 1 imply a last weight of 3. H8: weights 2 0 take E_HUF_RANK1. -/
theorem test_hufBuild : after (exec (.hufBuild 2) (withWeights (base []) [2, 1, 1])) (fun t =>
    t.huf.log.toNat == 3 && (ramGet t.huf.w 3 0).toNat == 3 && decide (ramGet t.huf.ram 4 ⟨0, 0⟩ = ⟨3, 1⟩)) = true := by
  decide +kernel

theorem test_hufBuild_rank1 : after (exec (.hufBuild 1) (withWeights (base []) [2, 0])) (faulted 15 1) = true := by
  decide +kernel

/-- R215: `83 0D` with 6 symbols. H12: with 5 bits are left over. -/
theorem test_hufDec1 : after (exec (.hufDec1 16 18 6) (with215 (base [0x83, 0x0D]))) (fun t =>
    decide (readBytes t.litByte 0 7 = [3, 0, 3, 1, 2, 3, 0]) && (t.br.get 0).consumed.toNat == 64) = true := by
  decide +kernel

/-- H14: no end mark; R214: an empty region. -/
theorem test_hufDec1_faults : after (exec (.hufDec1 16 18 5) (with215 (base [0x83, 0x0D]))) (faulted 16 1) = true ∧
    after (exec (.hufDec1 16 18 6) (with215 (base [0x83, 0x00]))) (faulted 5 1) = true ∧
    after (exec (.hufDec1 16 16 6) (with215 (base [0x83, 0x0D]))) (faulted 4 1) = true := by
  decide +kernel

/-- H15 and H17. -/
theorem test_hufDec4 : after (exec (.hufDec4 16 26 8)
    (with215 (base [0x01, 0, 0x01, 0, 0x01, 0, 0x0D, 0x41, 0x07, 0x28]))) (fun t =>
    decide (readBytes t.litByte 0 8 = [3, 0, 1, 2, 3, 3, 0, 1])) = true := by decide +kernel

/-- H17; H19; and H15 with a first stream that leaves bits: the bytes of the later segments were not written (R375). -/
theorem test_hufDec4_faults : after (exec (.hufDec4 16 26 5)
    (with215 (base [0x01, 0, 0x01, 0, 0x01, 0, 0x0D, 0x41, 0x07, 0x28]))) (faulted 18 1) = true ∧
    after (exec (.hufDec4 16 26 8) (with215 (base [0x01, 0, 0, 0, 0x01, 0, 0x0D, 0x07, 0x28, 0x01]))) (fun t =>
      faulted 4 1 t && (t.br.get 0).consumed.toNat == 61 && decide (t.br.get 1 = ⟨0, 0, 0, 0⟩)) = true ∧
    after (exec (.hufDec4 16 26 8)
      { with215 (base [0x01, 0, 0x01, 0, 0x01, 0, 0x8D, 0x41, 0x07, 0x28]) with
        litbuf := ⟨[(0, 0x55), (2, 0x66), (7, 0x77)], []⟩ }) (fun t =>
      faulted 16 1 t && t.litByte 2 == 0x66 && t.litByte 7 == 0x77 && decide (t.litbuf.junk = [⟨0, 2, 0⟩])) = true := by
  decide +kernel

/-- R236: "abc". -/
theorem test_xxhHash : after (exec (.xxhHash 256 3) (atChecksum [])) (fun t =>
    decide (t.xxh.h = 0x44BC2CF5AD770999) && t.xxh.len.toNat == 3) = true := by decide +kernel

/-- R236, section 2.5: ten times 41, 40 rising bytes, the output of P4: tails of 8 and 1, of 8, of 8 and 4 bytes. -/
theorem test_xxhHash_tails :
    (xxhHash (fun _ => 0x41) 0 10 ⟨0, 0, 0, 0, 0, 0⟩).h = 0x0624ED1F2ACA5533 ∧
    (xxhHash (fun i => BitVec.ofNat 8 i) 0 40 ⟨0, 0, 0, 0, 0, 0⟩).h = 0xF5DA40F1B11741E9 ∧
    (xxhHash (([3, 0, 3, 1, 2, 3, 3, 0, 3, 3, 0, 3, 3, 1, 2, 3] ++ List.replicate 6 0x7A).getD · 0) 0 22
      ⟨0, 0, 0, 0, 0, 0⟩).h = 0xDBA5B233671D91E4 := by decide +kernel

/-- Q1 before its sequence: states 24, 14, 0 of the predefined tables and one bit of extra offset. -/
def atSequence : State :=
  { inBlock .seqCount [0x01, 0x0E, 0x0B] with
    llSel := .predef, ofSel := .predef, mlSel := .predef, rep := ⟨1, 4, 8⟩
    seq := { State.reset.seq with count := 1, llState := 24, ofState := 14, mlState := 0 }
    br := State.reset.br.set 0 ⟨0x0B0E01, 62, 16, 16⟩ }

/-- Q1: literal length 2, match length 3, offset 2. -/
theorem test_seqDecode : after (exec .seqDecode atSequence) (fun t =>
    t.seq.ll.toNat == 2 && t.seq.ml.toNat == 3 && t.seq.off.toNat == 2 && decide (t.rep = ⟨2, 1, 4⟩)) = true := by
  decide +kernel

/-- Q6: a stream already overrun. -/
theorem test_seqDecode_overrun : after (exec .seqDecode { atSequence with br := State.reset.br.set 0 ⟨1, 81, 16, 16⟩ })
    (faulted 22 1) = true := by decide +kernel

/-- R336, rows 6 and 7. -/
theorem test_seqResolve_minus : after (exec (.seqResolve 1 2 true) { base [] with rep := ⟨1, 4, 8⟩ }) (fun t =>
    t.result.toNat == 1 && decide (t.rep = ⟨1, 1, 4⟩)) = true ∧
    after (exec (.seqResolve 1 2 true) { base [] with rep := ⟨0, 4, 8⟩ }) (fun t =>
      decide (t.rep.r1 = 0 ∧ t.rep.r2 = 4)) = true := by decide +kernel

theorem test_seqResolve_new : after (exec (.seqResolve 5 33 false) { base [] with rep := ⟨1, 1, 4⟩ }) (fun t =>
    t.result.toNat == 33 && decide (t.rep = ⟨33, 1, 1⟩)) = true := by decide +kernel

/-- Two literals "ab" in LIT and a sequence of given lengths and distance. -/
def atExec (ll ml off : Nat) : State :=
  { inBlock .seqCount [] with
    litbuf := ⟨[(0, 0x61), (1, 0x62)], []⟩
    lit := { State.reset.lit with limit := 2 }
    seq := { State.reset.seq with ll := BitVec.ofNat 17 ll, ml := BitVec.ofNat 18 ml, off := BitVec.ofNat 32 off } }

/-- Q1: an overlapping copy. Q2: a distance beyond what the frame has produced. -/
theorem test_seqExec : after (exec .seqExec (atExec 2 3 2)) (fun t =>
    decide (readBytes t.outByte 256 6 = [0x61, 0x62, 0x61, 0x62, 0x61, 0]) && t.op.toNat == 261 && t.lit.ptr.toNat == 2) =
    true := by decide +kernel

theorem test_seqExec_range : after (exec .seqExec (atExec 2 3 3)) (faulted 24 1) = true := by decide +kernel

/-- Q10: the whole literals section is the output. -/
theorem test_seqLastlit : after (exec .seqLastlit (atExec 0 0 0)) (fun t =>
    decide (readBytes t.outByte 256 2 = [0x61, 0x62]) && t.op.toNat == 258 && t.lit.ptr.toNat == 2) = true := by
  decide +kernel

theorem test_seqLastlit_full : after (exec .seqLastlit { atExec 0 0 0 with lOutLimit := 257 }) (faulted 32 2) = true := by
  decide +kernel

/-- A core at rest after a fault, its host registers written. -/
def atRest : State :=
  { State.reset with
    phase := .fault, errCode := 2, errClass := 1, inStart := 16, inEnd := 20, outStart := 256, outLimit := 320
    cfgEnforce := false, huf := { HufRegs.zero with loaded := true } }

/-- HP2: a fault does not need a reset. -/
theorem test_cmdStart : after (exec (.cmdStart 0) atRest) (fun t =>
    t.errWord.toNat == 0 && t.status.toNat == 9 && t.ip.toNat == 16 && t.op.toNat == 256 && !t.lEnforce &&
    t.lInEnd.toNat == 20) = true := by decide +kernel

/-- HP3, HP5. -/
theorem test_cmdReset : after (exec (.cmdReset true 0) atRest) (fun t =>
    t.status.toNat == 0 && t.cfgWord.toNat == 1 && t.inEnd.toNat == 0 && !t.huf.loaded) = true := by decide +kernel

/-! ## The word that the next step runs -/

/-- A magic, a mode, a unit operation and a host command, placed after reset. -/
theorem test_withFetchWord :
    after (step (State.reset.withFetchWord 32 0xFD2FB528)) (fun t => decide (t.phase = .frameHeader)) = true ∧
    after (step (State.reset.withFetchWord 8 3)) (fun t => t.errCode.toNat == 21) = true ∧
    after (step (State.reset.withFetchWord 8 0x53)) (fun t => t.op.toNat == 0 && decide (t.phase = .idle)) = true ∧
    after (step (State.reset.withFetchWord 32 1)) (fun t => decide (t.phase = .magic)) = true := by decide +kernel

/-! ## Witnesses: states and operands that meet the hypotheses of each statement -/

theorem ok_of_toOption {ε α : Type} {e : Except ε α} {a : α} (h : e.toOption = some a) : e = .ok a := by
  cases e with
  | ok b => simpa [Except.toOption] using h
  | error x => simp [Except.toOption] at h

/-- A command that stands before a magic. -/
def running : State := { base [0x28, 0xB5, 0x2F, 0xFD] with phase := .magic }

/-- A command in one physical memory, its regions touching. -/
def touching : State :=
  { State.reset with inStart := 16, inEnd := 256, outStart := 256, outLimit := 320, oneMemory := true }

theorem step_running : ∃ t, step running = .next t ∧ t.phase = .frameHeader := by
  obtain ⟨t, h, p⟩ := next_of_after (o := step running) (p := fun t => decide (t.phase = .frameHeader)) (by decide +kernel)
  exact ⟨t, h, of_decide_eq_true p⟩

theorem witness_ResetLeavesGivenValues : State.reset.busy = false ∧ atRest.busy = false := by decide

theorem witness_CmdStartLoadsCommand : ∀ s ∈ [State.reset, atRest, touching],
    s.busy = false ∧ s.inStart.toNat ≤ s.inEnd.toNat ∧ s.outStart.toNat ≤ s.outLimit.toNat ∧
    (s.oneMemory = false ∨ s.inEnd.toNat ≤ s.outStart.toNat ∨ s.outLimit.toNat ≤ s.inStart.toNat) := by decide +kernel

theorem witness_CmdStartRefusals :
    (∃ s : State, s.busy = false ∧ s.inEnd.toNat < s.inStart.toNat) ∧
    (∃ s : State, s.busy = false ∧ s.outLimit.toNat < s.outStart.toNat) ∧
    (∃ (s : State) (a : Nat), s.busy = false ∧ s.oneMemory = true ∧ s.inStart.toNat ≤ a ∧ a < s.inEnd.toNat ∧
      s.outStart.toNat ≤ a ∧ a < s.outLimit.toNat) :=
  ⟨⟨{ State.reset with inStart := 1 }, by decide +kernel⟩, ⟨{ State.reset with outStart := 1 }, by decide +kernel⟩,
    ⟨{ touching with inEnd := 257 }, 256, by decide +kernel⟩⟩

theorem witness_HostAccessRules : running.busy = true ∧ HostReg.cmd ≠ .status ∧ atRest.busy = false ∧
    (2 : Word).getLsbD 1 = true ∧ (3 : Word).getLsbD 1 = true ∧
    ((1 : Word).getLsbD 1 = false ∧ (1 : Word).getLsbD 0 = true) ∧
    ((4 : Word).getLsbD 1 = false ∧ (4 : Word).getLsbD 0 = false) := by decide +kernel

theorem witness_HostRegistersReadBack : atRest.busy = false ∧ HostReg.cfg ≠ .cmd ∧ HostReg.err ≠ .cmd := by decide

theorem witness_HostBytesAccess : (running.memOk ∧ running.busy = true) ∧ (State.reset.memOk ∧ State.reset.busy = false) ∧
    (touching.memOk ∧ touching.busy = false ∧ touching.oneMemory = true) :=
  ⟨by decide +kernel, by decide +kernel, by decide +kernel⟩

/-- R6, R72: while BUSY the host has no access to IN or OUT, inside the command's regions or not; after DONE it has. -/
theorem test_hostBytes : refuses (hostAccess (.inRead 16) running) .hostMemoryBusy = true ∧
    refuses (hostAccess (.outWrite 0x1000 1) running) .hostMemoryBusy = true ∧
    after (hostAccess (.outRead 256) { atExec 0 0 0 with phase := .done, out := ⟨[(256, 0x61)], []⟩ })
      (fun t => t.hostData.toNat == 0x61) = true := by decide +kernel

theorem witness_StepRunsDecoded :
    (running.hostQueue = [] ∧ running.issue = [] ∧ running.nextCtx = some .magic ∧
      (decode .magic (running.window .magic)).toOption = some (.magic, [])) ∧
    (∃ s : State, s.hostQueue = [] ∧ s.issue = [.seqDecode, .seqExec]) ∧
    (∃ s : State, s.hostQueue = [(0, .regWrite .cmd 1)] ∧ s.busy = false ∧
      (decode .host (leBytes 4 (1 : Word).toNat)).toOption = some (.cmdStart 0, [])) ∧
    (∃ s : State, s.hostQueue = [(1, .regRead .status)]) ∧
    (State.reset.hostQueue = [] ∧ State.reset.issue = [] ∧ State.reset.busy = false) :=
  ⟨by decide +kernel, ⟨{ running with issue := [.seqDecode, .seqExec] }, by decide +kernel⟩,
    ⟨{ State.reset with hostQueue := [(0, .regWrite .cmd 1)] }, by decide +kernel⟩,
    ⟨{ running with hostQueue := [(1, .regRead .status)] }, by decide +kernel⟩, by decide +kernel⟩

/-- An element at IP, an optional field inside the frame header, and a mode. -/
theorem witness_StepRunsEncoded :
    (running.hostQueue = [] ∧ running.issue = [] ∧ WellFormed .magic ∧ running.nextCtx = some .magic ∧
      readBytes running.inByte (running.elementAddr .magic) 4 = encode .magic ∧
      running.elementAddr .magic + 4 ≤ running.elementLimit .magic) ∧
    (∃ s : State, s.hostQueue = [] ∧ s.issue = [] ∧ s.nextCtx = some (.fcs .one) ∧ WellFormed (.fcs .one 3) ∧
      readBytes s.inByte (s.elementAddr (.fcs .one)) 1 = encode (.fcs .one 3) ∧
      s.elementAddr (.fcs .one) + 1 ≤ s.elementLimit (.fcs .one)) ∧
    (∃ s : State, s.hostQueue = [] ∧ s.issue = [] ∧ s.nextCtx = some (.mode .ml) ∧
      modeField s.seq.modes .ml = (Instr.modeRepeat .ml).word) :=
  ⟨by decide +kernel,
    ⟨{ base [0x20, 0x03] with phase := .frameHeader, sub := .fcs, fhdByte := 0x20 }, by decide +kernel⟩,
    ⟨{ inBlock (.mode .ml) [0x01] with seq := { State.reset.seq with modes := 0x0C } }, by decide +kernel⟩⟩

theorem witness_FetchWordRuns : State.reset.memOk ∧ decodeTableWord 8 0xA5 = some (.htreeDirect 0x25) ∧
    decodeTableWord 32 0xFD2FB528 = some .magic ∧ decodeTableWord 48 0x000900010001 = some (.jump 1 1 9) := by
  decide +kernel

/-- Four bytes that are no magic, three bytes, a cut-off jump table; twelve bytes of a block header. -/
theorem witness_ElementFaults :
    (∃ s : State, s.hostQueue = [] ∧ s.issue = [] ∧ s.nextCtx = some .magic ∧
      rejects .magic (s.window .magic) .badMagic = true ∧ (s.window .magic).length = 4) ∧
    (∃ s : State, s.hostQueue = [] ∧ s.issue = [] ∧ s.nextCtx = some .magic ∧
      rejects .magic (s.window .magic) .truncated = true ∧ (s.window .magic).length = 3) ∧
    (∃ s : State, s.hostQueue = [] ∧ s.issue = [] ∧ s.nextCtx = some .jump ∧
      rejects .jump (s.window .jump) .truncated = true) ∧
    12 ≤ (List.replicate 12 (0xFF : Byte)).length :=
  ⟨⟨{ base [0, 0, 0, 0] with phase := .magic }, by decide +kernel⟩,
    ⟨{ base [0x28, 0xB5, 0x2F] with phase := .magic }, by decide +kernel⟩,
    ⟨atJump [1, 0, 1, 0, 1] 8, by decide +kernel⟩, by decide⟩

/-- Boundary values of the checks. -/
theorem witness_DecodeOfEncode : WellFormed (.seqn1 1) ∧ WellFormed (.seqn2 126 255) ∧ WellFormed (.did .one 255) ∧
    WellFormed (.seqResolve 31 0xFFFFFFFC true) ∧ WellFormed (.hufDec4 0 0 131072) := by decide

theorem witness_EncodeOfDecode : decode .seqn [0xFE, 0xFF, 7] = .ok (.seqn2 126 255, [7]) :=
  ok_of_toOption (by decide +kernel)

theorem witness_MemoryFormKept : running.memOk ∧ ∃ t, step running = .next t :=
  ⟨by decide +kernel, let ⟨t, h, _⟩ := step_running; ⟨t, h⟩⟩

/-- A running command, and the inside of a literals section. -/
theorem witness_CursorBoundsKept : running.cursorsOk ∧ (atJump [1, 0, 1, 0, 1, 0, 0x0D, 0x41, 0x07, 0x28] 8).cursorsOk ∧
    ∃ t, step running = .next t :=
  ⟨by decide +kernel, by decide +kernel, let ⟨t, h, _⟩ := step_running; ⟨t, h⟩⟩

/-- A step of the engine with no access to come, with one to come, and an access that is due. -/
theorem witness_RegionsKept : running.cursorsOk ∧ running.busy = true ∧ (∃ t, step running = .next t) ∧
    (∃ t, step { running with hostQueue := [(1, .regRead .status)] } = .next t) ∧
    (∃ t, step { running with hostQueue := [(0, .regRead .status)] } = .next t) ∧
    ∃ t, hostAccess (.regRead .status) running = .next t :=
  ⟨by decide +kernel, by decide, let ⟨t, h, _⟩ := step_running; ⟨t, h⟩, next_of_completes (by decide +kernel),
    next_of_completes (by decide +kernel), next_of_completes (by decide +kernel)⟩

theorem witness_CursorsMoveForward : running.cursorsOk ∧ running.busy = true ∧ ∃ t, step running = .next t :=
  ⟨by decide +kernel, by decide, let ⟨t, h, _⟩ := step_running; ⟨t, h⟩⟩

theorem witness_LatchesConstant : running.busy = true ∧ ∃ t, step running = .next t :=
  ⟨by decide, let ⟨t, h, _⟩ := step_running; ⟨t, h⟩⟩

/-- A step in each busy phase; the last block's step ends the command, the cut-off block's takes a fault. -/
theorem witness_PhaseTransitions :
    (running.issueOk ∧ running.busy = true ∧ after (step running) (fun _ => true) = true) ∧
    (∃ s : State, s.issueOk ∧ s.phase = .frameHeader ∧ after (step s) (fun t => decide (t.sub = .fcs)) = true) ∧
    (∃ s : State, s.issueOk ∧ s.phase = .blockHeader ∧ after (step s) (fun t => decide (t.phase = .done)) = true) ∧
    (∃ s : State, s.issueOk ∧ s.phase = .block ∧ after (step s) (fun t => decide (t.phase = .fault)) = true) ∧
    (∃ s : State, s.issueOk ∧ s.phase = .checksum ∧ after (step s) (fun t => decide (t.phase = .done)) = true) :=
  ⟨by decide +kernel, ⟨{ base [0x20, 0x03] with phase := .frameHeader }, by decide +kernel⟩,
    ⟨base [0x09, 0x00, 0x00, 0x55], by decide +kernel⟩, ⟨inBlock .seqm [], by decide +kernel⟩,
    ⟨atChecksum [0x99, 0x09, 0x77, 0xAD], by decide +kernel⟩⟩

/-- Steps that change HUF.LOADED: the host's CMD.RESET, HUF.READTABLE, a tree description, and one that is cut off. -/
theorem witness_LoadedOnlyByTables_steps :
    (let s := { atRest with hostQueue := [(0, .regWrite .cmd 2)] }
     s.issueOk ∧ s.huf.loaded = true ∧ after (step s) (fun t => !t.huf.loaded) = true) ∧
    (let s := { base [0x82, 0x21, 0x10] with issue := [.hufReadTable 16 3] }
     s.issueOk ∧ s.huf.loaded = false ∧ after (step s) (fun t => t.huf.loaded) = true) ∧
    (let s := { atTree true 5 [0x82, 0x21, 0x10, 0x83, 0x0D] with hostQueue := [(1, .regRead .status)] }
     s.issueOk ∧ s.issue = [] ∧ s.nextCtx = some .htree ∧ s.huf.loaded = false ∧
     after (step s) (fun t => t.huf.loaded && decide (t.phase ≠ .fault)) = true) ∧
    (let s := with215 { atTree true 5 [] with lit := { State.reset.lit with comp := 0 } }
     s.issueOk ∧ s.issue = [] ∧ s.nextCtx = some .htree ∧ s.huf.loaded = true ∧
     after (step s) (fun t => !t.huf.loaded && decide (t.phase = .fault)) = true) := by decide +kernel

theorem witness_LoadedOnlyByTables :
    (∃ s : State, s.huf.loaded = false ∧ s.phase ≠ .fault ∧
      after (exec (.hufReadTable 16 3) s) (fun t => t.huf.loaded && decide (t.phase ≠ .fault)) = true) ∧
    (∃ s : State, s.phase ≠ .fault ∧ after (exec (.hufReadTable 16 0) s) (fun t => decide (t.phase = .fault)) = true) ∧
    (atRest.busy = false ∧ atRest.huf.loaded = true ∧ after (exec (.cmdReset false 0) atRest) (fun _ => true) = true) :=
  ⟨⟨base [0x82, 0x21, 0x10], by decide +kernel⟩, ⟨base [], by decide +kernel⟩, by decide +kernel⟩

theorem witness_UnitOperationFrames : Instr.seqExec.isUnitOp = true ∧ (atExec 2 3 2).phase ≠ .fault ∧
    after (exec .seqExec (atExec 2 3 2)) (fun t => decide (t.phase ≠ .fault)) = true := by decide +kernel

/-- A sequence decoded with every REP value at its least. -/
theorem witness_HistoryPositive : ∃ s : State, s.issueOk ∧ (∀ i ∈ s.issue, WellFormed i) ∧ s.busy = true ∧
    s.phase ≠ .magic ∧ s.rep.r0.toNat = 1 ∧ s.rep.r1.toNat = 1 ∧ s.rep.r2.toNat = 1 ∧
    after (step s) (fun t => t.busy && decide (t.phase ≠ .magic)) = true :=
  ⟨{ atSequence with rep := ⟨1, 1, 1⟩, issue := [.seqDecode] }, by decide +kernel⟩

theorem witness_MagicStartsFrame : running.ip.toNat + 4 ≤ running.lInEnd.toNat ∧
    (base [0x28, 0xB5, 0x2F]).lInEnd.toNat < (base [0x28, 0xB5, 0x2F]).ip.toNat + 4 := by decide +kernel

/-- FHD whole and cut off; WD before each next field and at both sides of the ceiling; FCS with and without a window. -/
theorem witness_HeaderElements :
    (∃ s : State, s.ip.toNat + hsizeOf 0 true 0 = s.lInEnd.toNat) ∧
    (∃ s : State, s.lInEnd.toNat + 1 = s.ip.toNat + hsizeOf 0 true 0) ∧
    didLen 0x01 ≠ none ∧ (didLen 0x40 = none ∧ fcsLen 0x40 ≠ none) ∧ (didLen 0x00 = none ∧ fcsLen 0x00 = none) ∧
    2 ^ (10 + (13 : BitVec 5).toNat) + 2 ^ (10 + (13 : BitVec 5).toNat) / 8 * (0 : BitVec 3).toNat ≤ 8388608 ∧
    8388608 < 2 ^ (10 + (13 : BitVec 5).toNat) + 2 ^ (10 + (13 : BitVec 5).toNat) / 8 * (1 : BitVec 3).toNat ∧
    fhdSs 0x60 = true ∧ WellFormed (.fcs .two 65535) ∧
    (∃ s : State, fhdSs s.fhdByte = false ∧ 8388608 < s.fh.windowSize.toNat) :=
  ⟨⟨base [0x20, 0x03], by decide +kernel⟩, ⟨base [0x20], by decide +kernel⟩, by decide, by decide, by decide, by decide,
    by decide, by decide, by decide,
    ⟨{ base [] with fhdByte := 0x40, fh := { State.reset.fh with windowSize := 8388609 } }, by decide +kernel⟩⟩

/-- A single-segment header, and F2 with its window. -/
theorem witness_HeaderRun :
    (∃ s : State, s.hostQueue = [] ∧ s.issue = [] ∧ s.phase = .frameHeader ∧ s.sub = .start ∧
      s.inByte s.ip.toNat = 0x20 ∧ s.ip.toNat + hsizeOf 0 true 0 = s.lInEnd.toNat) ∧
    (∃ s : State, s.hostQueue = [] ∧ s.issue = [] ∧ s.phase = .frameHeader ∧ s.sub = .start ∧
      s.inByte s.ip.toNat = 0x40 ∧ s.ip.toNat + hsizeOf 1 false 0 ≤ s.lInEnd.toNat ∧
      (s.inByte (s.ip.toNat + 1)).toNat = 0x68) :=
  ⟨⟨{ base [0x20, 0x03] with phase := .frameHeader }, by decide +kernel⟩,
    ⟨{ base [0x40, 0x68, 0x10, 0x00] with phase := .frameHeader }, by decide +kernel⟩⟩

theorem witness_CompressedBlockOpensOrFaults :
    (∃ s : State, s.ip.toNat + 3 + (2 : BitVec 21).toNat = s.lInEnd.toNat) ∧
    (∃ s : State, s.lInEnd.toNat < s.ip.toNat + 3) ∧
    (∃ s : State, s.ip.toNat + 3 ≤ s.lInEnd.toNat ∧ 131072 < (131073 : BitVec 21).toNat) ∧
    (∃ s : State, s.ip.toNat + 3 ≤ s.lInEnd.toNat ∧ s.lInEnd.toNat < s.ip.toNat + 3 + (1 : BitVec 21).toNat ∧
      s.lInEnd.toNat < s.ip.toNat + 4) ∧
    (∃ s : State, s.lOutLimit.toNat < s.op.toNat + (2 : BitVec 21).toNat ∧
      s.ip.toNat + 3 + (2 : BitVec 21).toNat ≤ s.lInEnd.toNat ∧ s.ip.toNat + 4 ≤ s.lInEnd.toNat) :=
  ⟨⟨base [0x15, 0, 0, 0, 0], by decide +kernel⟩, ⟨base [0x15, 0], by decide +kernel⟩, ⟨base [0x15, 0, 0], by decide +kernel⟩,
    ⟨base [0x15, 0, 0], by decide +kernel⟩, ⟨{ base [0x11, 0, 0, 1, 2] with op := 319 }, by decide +kernel⟩⟩

/-- Room for exactly the block, in two memories and in one. -/
theorem witness_RawBlockCopies : ∀ s ∈ [{ base [0x11, 0, 0, 1, 2] with op := 318 },
      { base [] with oneMemory := true, lInEnd := 21, op := 254, lOutLimit := 256 }],
    s.memOk ∧ s.ip.toNat + 3 + (2 : BitVec 21).toNat ≤ s.lInEnd.toNat ∧
    s.op.toNat + (2 : BitVec 21).toNat ≤ s.lOutLimit.toNat ∧ s.apart (s.ip.toNat + 3) s.op.toNat (2 : BitVec 21).toNat := by
  decide +kernel

theorem witness_RleBlockFills : (base [0x53, 0, 0, 0x41]).memOk ∧
    (base [0x53, 0, 0, 0x41]).ip.toNat + 4 ≤ (base [0x53, 0, 0, 0x41]).lInEnd.toNat ∧
    (base [0x53, 0, 0, 0x41]).op.toNat + (64 : BitVec 21).toNat ≤ (base [0x53, 0, 0, 0x41]).lOutLimit.toNat := by
  decide +kernel

theorem witness_FrameAndCommandEnd :
    (∃ s : State, s.blk.last = false) ∧ (∃ s : State, s.blk.last = true ∧ s.fh.hasChecksum = true) ∧
    (∃ s : State, s.blk.last = true ∧ s.fh.hasChecksum = false) ∧ running.ip.toNat < running.lInEnd.toNat ∧
    (base []).lInEnd.toNat ≤ (base []).ip.toNat :=
  ⟨⟨State.reset, rfl⟩,
    ⟨{ State.reset with blk := ⟨true, 0, 0, 0⟩, fh := { State.reset.fh with hasChecksum := true } }, rfl, rfl⟩,
    ⟨{ State.reset with blk := ⟨true, 0, 0, 0⟩ }, rfl, rfl⟩, by decide +kernel, by decide +kernel⟩

theorem witness_ChecksumCompared :
    let s := atChecksum [0x99, 0x09, 0x77, 0xAD]
    let x := xxhHash s.outByte s.frameOutStart.toNat (s.op.toNat - s.frameOutStart.toNat) s.xxh
    s.ip.toNat + 4 ≤ s.lInEnd.toNat ∧ (0xAD770999 : BitVec 32) = x.h.extractLsb' 0 32 ∧
    (0 : BitVec 32) ≠ x.h.extractLsb' 0 32 ∧ s.lEnforce = true ∧ { s with lEnforce := false }.lEnforce = false ∧
    (atChecksum [1, 2, 3]).lInEnd.toNat < (atChecksum [1, 2, 3]).ip.toNat + 4 := by decide +kernel

/-- Eight more bytes of the block after the literals, and seven. -/
theorem witness_RawLiterals : ∀ bs ∈ [[0x08, 0x61, 1, 2, 3, 4, 5, 6, 7, 8], [0x08, 0x61, 1, 2, 3, 4, 5, 6, 7]],
    litForm (.litRaw1 1) = some ⟨0, 2, 1, 1, 0⟩ ∧ (inBlock .start bs).memOk ∧
    (inBlock .start bs).ip.toNat + 1 + 1 ≤ (inBlock .start bs).blk.limit.toNat := by decide +kernel

theorem witness_RleLiterals : litForm (.litRle2 100) = some ⟨1, 1, 2, 100, 0⟩ ∧ (inBlock .start [0x45, 0x06, 0x5A]).memOk ∧
    (inBlock .start [0x45, 0x06, 0x5A]).ip.toNat + 2 + 1 ≤ (inBlock .start [0x45, 0x06, 0x5A]).blk.limit.toNat := by
  decide +kernel

theorem witness_HuffmanLiteralsOpen :
    litForm (.litHufS3 6 2) = some ⟨2, 0, 3, 6, 2⟩ ∧ litForm (.litRepS3 6 2) = some ⟨3, 0, 3, 6, 2⟩ ∧
    litForm (.litRep3 6 2) = some ⟨3, 1, 3, 6, 2⟩ ∧
    (let s := with215 (inBlock .start [0x63, 0x80, 0x00, 0x83, 0x0D])
     s.ip.toNat + 3 + 2 ≤ s.blk.limit.toNat ∧ s.huf.loaded = true) := by decide +kernel

theorem witness_LiteralsFaults :
    (∃ s : State, s.blk.limit.toNat < s.ip.toNat + 1) ∧
    (∃ s : State, litForm (.litRaw2 3) = some ⟨0, 1, 2, 3, 0⟩ ∧ s.ip.toNat + 1 ≤ s.blk.limit.toNat ∧
      s.blk.limit.toNat < s.ip.toNat + 2) ∧
    (∃ s : State, litForm (.litRaw3 131073) = some ⟨0, 3, 3, 131073, 0⟩ ∧ s.ip.toNat + 3 ≤ s.blk.limit.toNat) ∧
    (∃ s : State, litForm (.litHufS3 6 2) = some ⟨2, 0, 3, 6, 2⟩ ∧ s.ip.toNat + 3 ≤ s.blk.limit.toNat ∧
      s.blk.limit.toNat < s.ip.toNat + 3 + 2) ∧
    (∃ s : State, litForm (.litRepS3 6 2) = some ⟨3, 0, 3, 6, 2⟩ ∧ s.ip.toNat + 3 + 2 ≤ s.blk.limit.toNat ∧
      s.huf.loaded = false) ∧
    (∃ s : State, litForm (.litRaw1 3) = some ⟨0, 2, 1, 3, 0⟩ ∧ litForm (.litRle1 0) = some ⟨1, 0, 1, 0, 0⟩ ∧
      s.ip.toNat + 1 ≤ s.blk.limit.toNat ∧ s.blk.limit.toNat < s.ip.toNat + 1 + 3 ∧
      s.blk.limit.toNat < s.ip.toNat + 1 + 1) :=
  ⟨⟨inBlock .start [], by decide +kernel⟩, ⟨inBlock .start [0x34], by decide +kernel⟩,
    ⟨inBlock .start [0x1C, 0x00, 0x20], by decide +kernel⟩, ⟨inBlock .start [0x62, 0x80, 0x00, 1], by decide +kernel⟩,
    ⟨inBlock .start [0x63, 0x80, 0x00, 1, 2], by decide +kernel⟩, ⟨inBlock .start [0x18], by decide +kernel⟩⟩

/-- The tree of R215 where it completes, and H4 where it does not. -/
theorem witness_TreeElements :
    (let s := atTree true 6 [0x82, 0x21, 0x10, 0x83, 0x0D]
     s.inByte s.ip.toNat = (2 : BitVec 7).setWidth 8 ||| 128 ∧ s.phase = .block ∧
     after (exec (.hufReadTable s.ip s.lit.comp) s) (fun t => decide (t.phase = .block)) = true ∧
     1 + ceilDiv ((2 : BitVec 7).toNat + 1) 2 ≤ s.lit.comp.toNat ∧
     weightFault (directWeightList s.inByte (128 + (2 : BitVec 7).toNat) s.ip.toNat) = none) ∧
    (let s := atTree true 6 [0x83, 0x22, 0x10, 0x83, 0x0D]
     s.inByte s.ip.toNat = (3 : BitVec 7).setWidth 8 ||| 128 ∧ s.phase = .block ∧
     after (exec (.hufReadTable s.ip s.lit.comp) s) (fun t => decide (t.phase = .fault)) = true) := by decide +kernel

/-- The hypotheses that every clause about JUMP shares. -/
abbrev jumpReads (l1 l2 l3 : BitVec 16) (s : State) : Prop :=
  s.memOk ∧ s.lit.regen.toNat ≤ 131072 ∧ l1.toNat = memRead s.inByte s.ip.toNat 2 ∧
  l2.toNat = memRead s.inByte (s.ip.toNat + 2) 2 ∧ l3.toNat = memRead s.inByte (s.ip.toNat + 4) 2

/-- H15, the same streams with a fourth stream that is too short, and H16 to H19 with the same streams' last byte 0. -/
theorem witness_JumpDecodesLiterals :
    (let s := atJump [1, 0, 1, 0, 1, 0, 0x0D, 0x41, 0x07, 0x28] 8
     jumpReads 1 1 1 s ∧ fourStreamsOk s.inByte s.ip.toNat s.litLim.toNat 8 ∧ hufTableOk s.huf ∧
     fourSymbols s.inByte s.huf s.ip.toNat s.litLim.toNat 8 = some [3, 0, 1, 2, 3, 3, 0, 1]) ∧
    (let s := atJump [1, 0, 1, 0, 1, 0, 0x0D, 0x41, 0x07, 0x08] 8
     jumpReads 1 1 1 s ∧ fourStreamsOk s.inByte s.ip.toNat s.litLim.toNat 8 ∧ hufTableOk s.huf ∧
     fourSymbols s.inByte s.huf s.ip.toNat s.litLim.toNat 8 = none) ∧
    (let s := atJump [1, 0, 1, 0, 9, 0, 0x0D, 0x41, 0x07, 0x28] 8
     jumpReads 1 1 9 s ∧ s.ip.toNat + 10 ≤ s.litLim.toNat ∧
     3 * ceilDiv 8 4 ≤ 8 ∧ s.litLim.toNat < jumpStart s.inByte s.ip.toNat s.litLim.toNat 3) ∧
    (let s := atJump [1, 0, 1, 0] 8
     jumpReads 1 1 0 s ∧ s.litLim.toNat < s.ip.toNat + 10) ∧
    (let s := atJump [1, 0, 1, 0, 1, 0, 0x0D, 0x41, 0x07, 0x28] 5
     jumpReads 1 1 1 s ∧ s.ip.toNat + 10 ≤ s.litLim.toNat ∧ s.lit.regen.toNat = 5) ∧
    (let s := atJump [1, 0, 0, 0, 1, 0, 0x0D, 0x07, 0x28, 0x01] 8
     jumpReads 1 0 1 s ∧ streamTurnedAway s.inByte s.ip.toNat s.litLim.toNat 8 1 .bitstreamEmpty) ∧
    (let s := atJump [1, 0, 1, 0, 1, 0, 0x0D, 0x41, 0x07, 0x00] 8
     jumpReads 1 1 1 s ∧ streamTurnedAway s.inByte s.ip.toNat s.litLim.toNat 8 3 .noEndMark) :=
  ⟨by decide +kernel, by decide +kernel, by decide +kernel, by decide +kernel, by decide +kernel, by decide +kernel,
    by decide +kernel⟩

theorem witness_SectionTransitions :
    (∃ s : State, s.hostQueue = [] ∧ s.issue = [] ∧ s.phase = .block ∧ s.sub = .litEnd) ∧
    (∃ s : State, s.hostQueue = [] ∧ s.issue = [] ∧ s.phase = .block ∧ s.sub = .seqCount ∧ s.seq.count = 1) ∧
    (∃ s : State, s.hostQueue = [] ∧ s.issue = [] ∧ s.phase = .block ∧ s.sub = .blkEnd) ∧
    (∃ s : State, s.hostQueue = [] ∧ s.issue = [] ∧ s.phase = .block ∧ s.sub = .prime ∧ s.curLog .ll = some 6 ∧
      s.curLog .of = some 5 ∧ s.curLog .ml = some 6) :=
  ⟨⟨inBlock .litEnd [], by decide +kernel⟩, ⟨atSequence, by decide +kernel⟩, ⟨inBlock .blkEnd [], by decide +kernel⟩,
    ⟨{ atSequence with sub := .prime }, by decide +kernel⟩⟩

theorem witness_SequenceCounts : ∀ n ∈ [1, 2, 3],
    (inBlock .seqn (List.replicate n 1)).ip.toNat + n ≤ (inBlock .seqn (List.replicate n 1)).blk.limit.toNat ∧
    (inBlock .seqn (List.replicate (n - 1) 1)).blk.limit.toNat < (inBlock .seqn (List.replicate (n - 1) 1)).ip.toNat + n := by
  decide +kernel

theorem witness_SequenceModes :
    (inBlock .seqm [0]).ip.toNat + 1 ≤ (inBlock .seqm [0]).blk.limit.toNat ∧
    (inBlock .seqm []).blk.limit.toNat < (inBlock .seqm []).ip.toNat + 1 ∧
    (∃ u : State, u.seq.modes = ((2 : BitVec 2) ++ (1 : BitVec 2) ++ (3 : BitVec 2) ++ (0 : BitVec 2)).cast (by decide)) ∧
    atSequence.sel .ml ≠ .none ∧ State.reset.sel .ml = .none :=
  ⟨by decide +kernel, by decide +kernel, ⟨{ State.reset with seq := { State.reset.seq with modes := 0x9C } }, by decide⟩,
    by decide +kernel, by decide +kernel⟩

/-- The largest symbol and the one above it; a description that is read and one that is cut off. -/
theorem witness_TableElements :
    (inBlock (.rlesym .of) [31]).ip.toNat + 1 ≤ (inBlock (.rlesym .of) [31]).blk.limit.toNat ∧
    (31 : Byte).toNat ≤ [35, 31, 52].getD Alphabet.of.code 0 ∧ [35, 31, 52].getD Alphabet.of.code 0 < (32 : Byte).toNat ∧
    (inBlock (.rlesym .of) []).blk.limit.toNat < (inBlock (.rlesym .of) []).ip.toNat + 1 ∧
    (let s := inBlock (.fsedesc .ml) [0x10, 0xC0, 0x0F, 0xA7]
     (0 : BitVec 4) = (s.inByte s.ip.toNat).extractLsb' 0 4 ∧ s.phase = .block ∧
     after (exec (.fseReadTable .mlt s.ip s.blk.limit 52 4) s) (fun t => decide (t.phase = .block)) = true) ∧
    (let s := inBlock (.fsedesc .ml) [0x10, 0xC0, 0x0F]
     (0 : BitVec 4) = (s.inByte s.ip.toNat).extractLsb' 0 4 ∧ s.phase = .block ∧
     after (exec (.fseReadTable .mlt s.ip s.blk.limit 52 4) s) (fun t => decide (t.phase = .fault)) = true) := by
  decide +kernel

theorem witness_SequenceDecoded :
    atSequence.seqCodes ⟨2, 5, 0⟩ ⟨2, 5, 0⟩ ⟨0, 6, 0⟩ ∧ (atSequence.br.get 0).consumed.toNat ≤ 64 ∧
    (∃ s : State, 64 < (s.br.get 0).consumed.toNat) :=
  ⟨by decide +kernel, by decide +kernel, ⟨{ atSequence with br := State.reset.br.set 0 ⟨1, 65, 16, 16⟩ }, by decide +kernel⟩⟩

theorem witness_OffsetResolved :
    2 ≤ (2 : BitVec 5).toNat ∧ (1 : BitVec 5).toNat < 2 ∧
    (0 : BitVec 32).toNat + (if false then 1 else 0) = 0 ∧ (0 : BitVec 32).toNat + (if true then 1 else 0) = 1 ∧
    (1 : BitVec 32).toNat + (if true then 1 else 0) = 2 ∧ (2 : BitVec 32).toNat + (if true then 1 else 0) = 3 ∧
    1 ≤ atSequence.rep.r0.toNat ∧ State.reset.rep.r0 = 0 := by decide +kernel

/-- Q1 with the output exactly full, and each check failing alone. -/
theorem witness_SequenceExecuted :
    (let s := { atExec 2 3 2 with lOutLimit := 261 }
     s.memOk ∧ s.seqFits ∧ s.literalsOk s.seq.ll.toNat) ∧
    (let s := { atExec 2 3 2 with lOutLimit := 260 }
     s.lOutLimit.toNat < s.op.toNat + s.seq.ll.toNat + s.seq.ml.toNat) ∧
    (let s := atExec 3 3 2
     s.op.toNat + s.seq.ll.toNat + s.seq.ml.toNat ≤ s.lOutLimit.toNat ∧
     s.lit.limit.toNat < s.lit.ptr.toNat + s.seq.ll.toNat) ∧
    (let s := atExec 2 3 3
     s.op.toNat + s.seq.ll.toNat + s.seq.ml.toNat ≤ s.lOutLimit.toNat ∧
     s.lit.ptr.toNat + s.seq.ll.toNat ≤ s.lit.limit.toNat ∧
     s.op.toNat + s.seq.ll.toNat < s.seq.off.toNat + s.frameOutStart.toNat) := by decide +kernel

theorem witness_LastLiteralsCopied :
    (let s := { atExec 0 0 0 with lOutLimit := 258 }
     s.memOk ∧ s.op.toNat + s.restLiterals ≤ s.lOutLimit.toNat ∧ s.literalsOk s.restLiterals) ∧
    (let s := { atExec 0 0 0 with lOutLimit := 257 }
     s.lOutLimit.toNat < s.op.toNat + s.restLiterals) := by decide +kernel

/-- Regions of eight and of seven bytes; an empty one; one with no end mark. -/
theorem witness_BitReaderInitialised :
    (let s := base [0, 0, 0, 0, 0, 0, 0, 1, 0]
     streamOk s.inByte 16 24 ∧ streamOk s.inByte 23 24 ∧ (23 : Addr).toNat ≤ (23 : Addr).toNat ∧
     (s.inByte (25 - 1)).toNat = 0) := by decide +kernel

theorem witness_BitReaderPeeks : (1 : BitVec 6) ≠ 0 ∧
    (atSequence.br.get 0).consumed.toNat + (2 : BitVec 6).toNat ≤ 64 := by decide +kernel

/-- The readers of B8, B9 (whose step lands on the start) and B10, one at its start, and R151's, whose step does not fit. -/
theorem witness_BitReaderRefilled :
    let bs := [0x2F, 0x00, 0x2E, 0x00, 0x00, 0x80, 0x17, 0x38, 0x17, 0x60, 0x00, 0x88, 0x03]
    (let s := { base bs with br := State.reset.br.set 0 ⟨0x0388006017381780, 24, 21, 16⟩ }
     readerOk s.inByte 16 29 (s.br.get 0) ∧ (s.br.get 0).consumed.toNat ≤ 64) ∧
    (let s := { base bs with br := State.reset.br.set 0 ⟨0x0388006017381780, 65, 21, 16⟩ }
     readerOk s.inByte 16 29 (s.br.get 0) ∧ 64 < (s.br.get 0).consumed.toNat) ∧
    (let s := { base bs with br := State.reset.br.set 0 ⟨0x38178000002E002F, 64, 16, 16⟩ }
     readerOk s.inByte 16 29 (s.br.get 0) ∧ (s.br.get 0).consumed.toNat ≤ 64 ∧ (s.br.get 0).cur = (s.br.get 0).start) ∧
    (let s := atB7 ⟨0x601738178000002E, 16, 18, 16⟩
     readerOk s.inByte 16 29 (s.br.get 0) ∧ (s.br.get 0).cur ≠ (s.br.get 0).start ∧
     (s.br.get 0).start.toNat + (s.br.get 0).consumed.toNat / 8 = (s.br.get 0).cur.toNat) ∧
    (let s := { base [0x00, 0x11, 0x22, 0x33, 0x44, 0x55, 0x66, 0x77, 0x80] with
       br := State.reset.br.set 0 ⟨0x8077665544332211, 16, 17, 16⟩ }
     readerOk s.inByte 16 25 (s.br.get 0) ∧
     (s.br.get 0).cur.toNat < (s.br.get 0).start.toNat + (s.br.get 0).consumed.toNat / 8) := by
  decide +kernel

theorem witness_SmallTables : TableId.llt ≠ .oft ∧ (Alphabet.of, ofDefault) ∈ [(Alphabet.ll, llDefault), (.of, ofDefault),
    (.ml, mlDefault)] := by decide

theorem witness_FseTableBuilt : WellFormed (.fseBuild .hwt 0 6) ∧
    countsOk (withCounts (base []) [18, 6, 2, 2, 2, 1, -1]).fse.norm 5 7 := by decide +kernel

/-- Whether a piece of pseudocode raises a fault. -/
def raises {σ α : Type} (r : Run σ α) (e : ErrCode) : Bool :=
  match r with
  | .ok _ _ => false
  | .raise x _ => decide (x = e)
  | .stop _ => false

/-- R179; a region of three bytes; a log above the limit; T8 and T9. -/
theorem witness_FseTableRead :
    WellFormed (.fseReadTable .hwt 16 20 255 1) ∧
    (let s := base [0x30, 0x6F, 0x9B, 0x00]
     (16 : Addr).toNat + 4 ≤ (20 : Addr).toNat ∧ (s.inByte 16).toNat % 16 + 5 ≤ (1 : BitVec 3).toNat + 5 ∧
     (readNorm s.inByte 16 20 255 5 s.fse.norm).isOk = true ∧ (19 : Addr).toNat < (16 : Addr).toNat + 4) ∧
    (let s := base [0x02, 0x00, 0x00, 0x00]
     (16 : Addr).toNat + 4 ≤ (20 : Addr).toNat ∧ (1 : BitVec 3).toNat + 5 < (s.inByte 16).toNat % 16 + 5) ∧
    WellFormed (.fseReadTable .oft 16 21 31 3) ∧
    (let s := base [0x10, 0xFE, 0xFF, 0x7F, 0x00]
     raises (readNorm s.inByte 16 21 31 5 s.fse.norm) .fseSymbol = true) ∧
    (let s := base [0x20, 0x84, 0x10, 0x42]
     raises (readNorm s.inByte 16 20 31 5 s.fse.norm) .fseHeader = true) := by
  decide +kernel

/-- T8's zero run at bit 9: one group of 16 ones, three groups of 3, a last group of 0, above the limit 31 and within 52; and
T2's first count field, a short one of five bits, and T3's, a long one. -/
theorem witness_FseTableRead_passes :
    (let rd := (base [0x10, 0xFE, 0xFF, 0x7F, 0x00]).inByte
     let st : NormSt := { norm := State.reset.fse.norm, remaining := 33, threshold := 32, nbits := 6, sym := 1, pos := 9, prev0 := true }
     1 < st.remaining ∧ st.sym ≤ 31 ∧ fwdBits rd 16 21 9 16 = 0xFFFF ∧ fwdBits rd 16 21 25 16 ≠ 0xFFFF ∧
     (∀ j < 3, fwdBits rd 16 21 (25 + 2 * j) 2 = 3) ∧ fwdBits rd 16 21 31 2 = 0 ∧ 31 < 1 + 24 * 1 + 3 * 3 + 0 ∧
     1 + 24 * 1 + 3 * 3 + 0 ≤ 52) ∧
    (let st : NormSt := { norm := State.reset.fse.norm, remaining := 33, threshold := 32, nbits := 6, sym := 0, pos := 4, prev0 := false }
     1 < st.remaining ∧ st.threshold = 2 ^ (st.nbits - 1) ∧ st.threshold ≤ st.remaining ∧ st.remaining < 2 * st.threshold ∧
     fwdBits (base [0x10, 0xC0, 0x0F, 0xA7]).inByte 16 20 4 5 < 2 * 32 - 1 - 33 ∧
     2 * 32 - 1 - 33 ≤ fwdBits (base [0xE0, 0x0F, 0x69, 0xB0]).inByte 16 20 4 5) := by
  decide +kernel

theorem witness_DescriptionElementCompletes :
    let s := inBlock (.fsedesc .ml) [0x10, 0xC0, 0x0F, 0xA7]
    (0 : BitVec 4) = (s.inByte s.ip.toNat).extractLsb' 0 4 ∧
    descriptionOk s.inByte s.ip.toNat s.blk.limit.toNat ([35, 31, 52].getD Alphabet.ml.code 0)
      ([9, 8, 9].getD Alphabet.ml.code 0) s.fse.norm := by decide +kernel

/-- R195, where the region holds both initial states, with room for the symbols and without. -/
theorem witness_FseStreamDecompressed :
    let s := with179 (base [0x49, 0x23])
    s.tableLog .hwt ≤ 9 ∧ tableClosed (s.tableEntry .hwt) (s.tableLog .hwt) ∧ streamOk s.inByte 16 18 ∧ s.phase ≠ .fault ∧
    2 * s.tableLog .hwt ≤ streamBits s.inByte 16 18 ∧ s.fseRegion .hwt 16 18 3 = some [1, 5, 1] ∧
    s.fseRegion .hwt 16 18 2 = none := by decide +kernel

/-- R215 and H5 in the direct form, an empty and a cut-off description, and H2 step by step in the other form. -/
theorem witness_HuffmanTableRead :
    (let s := base [0x82, 0x21, 0x10]
     128 ≤ (s.inByte 16).toNat ∧ (2 : BitVec 18).toNat < 1 + ceilDiv (130 - 127) 2 ∧
     1 + ceilDiv (130 - 127) 2 ≤ (3 : BitVec 18).toNat ∧ weightFault (directWeightList s.inByte 130 16) = none) ∧
    (let s := base [0x81, 0xD0]
     1 + ceilDiv (129 - 127) 2 ≤ (2 : BitVec 18).toNat ∧
     weightFault (directWeightList s.inByte 129 16) = some .hufWeight) ∧
    (let s := base [0x06, 0x30, 0x6F, 0x9B, 0x00, 0x00, 0xD5]
     (s.inByte 16).toNat = 6 ∧ s.phase ≠ .fault ∧ (6 : BitVec 18).toNat < 1 + 6 ∧ 1 + 6 ≤ (7 : BitVec 18).toNat) := by
  decide +kernel

theorem witness_HuffmanTableRead_steps : ∃ s t1 t2 t3 : State, s.inByte 16 = 6 ∧ s.phase ≠ .fault ∧
    exec (.fseReadTable .hwt 17 23 255 1) { s with huf := { s.huf with loaded := false } } = .next t1 ∧ t1.phase ≠ .fault ∧
    exec (.fseDecompress .hwt (17 + t1.result.setWidth 32) 23 255) t1 = .next t2 ∧ t2.phase ≠ .fault ∧
    exec (.hufBuild (t2.result.setWidth 8 - 1)) t2 = .next t3 ∧ t3.phase ≠ .fault := by
  let s := base [0x06, 0x30, 0x6F, 0x9B, 0x00, 0x00, 0xD5]
  let step1 := exec (.fseReadTable .hwt 17 23 255 1) { s with huf := { s.huf with loaded := false } }
  have h : after step1 (fun t1 => decide (t1.phase ≠ .fault) &&
      after (exec (.fseDecompress .hwt (17 + t1.result.setWidth 32) 23 255) t1) fun t2 => decide (t2.phase ≠ .fault) &&
        after (exec (.hufBuild (t2.result.setWidth 8 - 1)) t2) fun t3 => decide (t3.phase ≠ .fault)) = true := by
    decide +kernel
  obtain ⟨t1, h1, p1⟩ := next_of_after h
  obtain ⟨q1, r1⟩ := (Bool.and_eq_true _ _).mp p1
  obtain ⟨t2, h2, p2⟩ := next_of_after r1
  obtain ⟨q2, r2⟩ := (Bool.and_eq_true _ _).mp p2
  obtain ⟨t3, h3, p3⟩ := next_of_after r2
  exact ⟨s, t1, t2, t3, by decide +kernel, by decide, h1, of_decide_eq_true q1, h2, of_decide_eq_true q2, h3,
    of_decide_eq_true p3⟩

/-- The three faults inside the other form: a description of three bytes (R203), one that takes all its bytes (R203), and the
weights 1 5 1 of R195, whose rest is no power of two. -/
theorem witness_HuffmanTableRead_faults :
    (let s := base [0x03, 0x30, 0x6F, 0x9B]
     (s.inByte 16).toNat = 3 ∧ 1 + 3 ≤ (4 : BitVec 18).toNat ∧
     after (exec (.fseReadTable .hwt 17 20 255 1) s) (faulted 1 1) = true ∧
     after (exec (.hufReadTable 16 4) s) (faulted 1 1) = true) ∧
    (let s := base [0x04, 0x30, 0x6F, 0x9B, 0x00]
     (s.inByte 16).toNat = 4 ∧
     after (exec (.fseReadTable .hwt 17 21 255 1) s) (fun t1 => t1.result.toNat == 4 && decide (t1.phase ≠ .fault) &&
       after (exec (.fseDecompress .hwt 21 21 255) t1) (faulted 4 1)) = true ∧
     after (exec (.hufReadTable 16 5) s) (faulted 4 1) = true) ∧
    (let s := base [0x06, 0x30, 0x6F, 0x9B, 0x00, 0x49, 0x23]
     after (exec (.fseReadTable .hwt 17 23 255 1) s) (fun t1 =>
       after (exec (.fseDecompress .hwt 21 23 255) t1) (fun t2 => t2.result.toNat == 3 && decide (t2.phase ≠ .fault) &&
         after (exec (.hufBuild 2) t2) (faulted 14 1))) = true ∧
     after (exec (.hufReadTable 16 7) s) (fun t => faulted 14 1 t && !t.huf.loaded && t.result.toNat == 0) = true) := by
  decide +kernel

/-- H2, whose stream holds both initial states. -/
theorem witness_CompressedTreeCompletes :
    let s := atTree true 5 [0x06, 0x30, 0x6F, 0x9B, 0x00, 0x00, 0xD5, 0x83, 0x06]
    s.inByte 16 = (6 : BitVec 7).setWidth 8 ∧ 16 + 1 + 6 < 2 ^ 32 ∧ 1 + 6 ≤ s.lit.comp.toNat ∧ s.phase = .block ∧
    descriptionOk s.inByte 17 23 255 6 s.fse.norm ∧
    after (exec (.fseReadTable .hwt (s.ip + 1) (s.ip + 1 + (6 : BitVec 7).setWidth 32) 255 1) s) (fun t1 =>
      t1.result.toNat == 4 && decide (streamOk s.inByte 21 23) &&
      decide (2 * t1.tableLog .hwt ≤ streamBits s.inByte 21 23) &&
      decide (t1.fseRegion .hwt 21 23 255 = some [1, 2, 3])) = true ∧
    weightFault (([1, 2, 3] : List Byte).map BitVec.toNat) = none := by decide +kernel

/-- R215, and H5 to H8 with the check each fails. -/
theorem witness_HuffmanTableBuilt :
    WellFormed (.hufBuild 2) ∧ weightFault (hufWeights (withWeights (base []) [2, 1, 1]).huf 3) = none ∧
    weightFault [13, 0] = some .hufWeight ∧ weightFault [0, 0] = some .hufTotal ∧ weightFault [12, 12, 0] = some .hufLog ∧
    weightFault [2, 2, 1] = some .hufRest ∧ weightFault [2, 0] = some .hufRank1 := by decide +kernel

/-- R215; H14; an empty region. -/
theorem witness_OneStreamDecoded :
    (let t := with215 (base [0x83, 0x00])
     t.memOk ∧ (16 : Addr).toNat < (18 : Addr).toNat ∧ t.inByte ((18 : Addr).toNat - 1) = 0 ∧
     WellFormed (.hufDec1 16 16 6) ∧ (16 : Addr).toNat ≤ (16 : Addr).toNat) ∧
    (let s := with215 (base [0x83, 0x0D])
     s.memOk ∧ WellFormed (.hufDec1 16 18 6) ∧ streamOk s.inByte 16 18 ∧ hufTableOk s.huf ∧
     regionSymbols s.inByte s.huf 16 18 6 = some [3, 0, 3, 1, 2, 3] ∧ regionSymbols s.inByte s.huf 16 18 5 = none ∧
     regionSymbols s.inByte s.huf 16 18 7 = none) := ⟨by decide +kernel, by decide +kernel⟩

/-- H15 to H19 and a stream that leaves a bit. -/
theorem witness_FourStreamsDecoded :
    (let s := with215 (base [1, 0, 1, 0, 1, 0, 0x0D, 0x41, 0x07, 0x28])
     s.memOk ∧ WellFormed (.hufDec4 16 26 8) ∧ fourStreamsOk s.inByte 16 26 8 ∧ hufTableOk s.huf ∧
     fourSymbols s.inByte s.huf 16 26 8 = some [3, 0, 1, 2, 3, 3, 0, 1] ∧ fourSymbols s.inByte s.huf 16 26 7 = none) ∧
    ((25 : Addr).toNat < (16 : Addr).toNat + 10 ∧ (16 : Addr).toNat + 10 ≤ (26 : Addr).toNat ∧
     3 * ceilDiv (8 : BitVec 20).toNat 4 ≤ (8 : BitVec 20).toNat) ∧
    (let s := base [1, 0, 1, 0, 9, 0, 0x0D, 0x41, 0x07, 0x28]
     26 < jumpStart s.inByte 16 26 3) ∧
    streamTurnedAway (base [1, 0, 0, 0, 1, 0, 0x0D, 0x07, 0x28, 0x01]).inByte 16 26 8 1 .bitstreamEmpty ∧
    streamTurnedAway (base [1, 0, 1, 0, 1, 0, 0x0D, 0x41, 0x07, 0x00]).inByte 16 26 8 3 .noEndMark :=
  ⟨by decide +kernel, by decide, by decide +kernel, by decide +kernel, by decide +kernel⟩

theorem witness_ContentHashed : (∃ t, exec (.xxhHash 256 3) (atChecksum []) = .next t) ∧
    (∃ t, exec (.xxhHash 256 3) (atChecksum [1]) = .next t) ∧
    (∀ i < (3 : BitVec 32).toNat, (atChecksum []).outByte (256 + i) = (atChecksum [1]).outByte (256 + i)) ∧
    (31 : BitVec 32).toNat < 32 :=
  ⟨next_of_completes (by decide +kernel), next_of_completes (by decide +kernel), by decide +kernel, by decide⟩

end Sys2Proof.Tests
end

section
/-! PROOFS. The host's accesses to the bytes of IN and OUT (R6, R72, R410), and what CMD.RESET leaves of them (R402). -/
namespace Sys2Proof.Machine

/-! ## The bytes after the host has placed one -/

theorem putIn_of_one {s : State} (h : s.oneMemory = true) (a : Nat) (b : Byte) : s.putIn a b = s.putOut a b := by
  simp [State.putIn, State.putOut, h]

theorem putIn_of_two {s : State} (h : s.oneMemory = false) (a : Nat) (b : Byte) :
    s.putIn a b = { s with inp := s.inp.write a b } := by
  simp [State.putIn, h]

/-- Placing a byte in IN changes no register. -/
theorem putIn_eq (s : State) (a : Nat) (b : Byte) :
    s.putIn a b = { s with inp := (s.putIn a b).inp, out := (s.putIn a b).out } := by
  unfold State.putIn
  split <;> rfl

theorem outByte_putOut {s : State} (h : s.memOk) (a : Nat) (b : Byte) (x : Nat) :
    (s.putOut a b).outByte x = if x = a then b else s.outByte x := by
  obtain ⟨_, hout, _⟩ := h
  exact byte_write hout

theorem inByte_putOut_of_two {s : State} (h : s.oneMemory = false) (a : Nat) (b : Byte) (x : Nat) :
    (s.putOut a b).inByte x = s.inByte x := by
  rw [inByte_of_two s x h, inByte_of_two _ x (by simpa using h), putOut_inp]

theorem inByte_putIn {s : State} (h : s.memOk) (a : Nat) (b : Byte) (x : Nat) :
    (s.putIn a b).inByte x = if x = a then b else s.inByte x := by
  have hone : (s.putIn a b).oneMemory = s.oneMemory := putIn_oneMemory s a b
  cases h1 : s.oneMemory with
  | true =>
    rw [inByte_of_one s x h1, inByte_of_one _ x (hone.trans h1), putIn_of_one h1]
    exact outByte_putOut h a b x
  | false =>
    obtain ⟨hin, _, _⟩ := h
    rw [inByte_of_two s x h1, inByte_of_two _ x (hone.trans h1), putIn_of_two h1]
    exact byte_write hin

theorem outByte_putIn_of_two {s : State} (h : s.oneMemory = false) (a : Nat) (b : Byte) (x : Nat) :
    (s.putIn a b).outByte x = s.outByte x := by
  rw [putIn_of_two h]
  rfl

/-! ## Hardware reset (R400, R402) -/

@[simp] theorem hwReset_inByte (s : State) (x : Nat) : (hwReset s).inByte x = s.inByte x := rfl

@[simp] theorem hwReset_outByte (s : State) (x : Nat) : (hwReset s).outByte x = s.outByte x := rfl

@[simp] theorem hwReset_issue (s : State) : (hwReset s).issue = [] := rfl

/-! ## Accesses -/

theorem hostBytes_of_busy {s : State} (h : s.busy = true) (t : State) : hostBytes s t = .refused .hostMemoryBusy := by
  simp [hostBytes, h]

theorem hostBytes_of_not_busy {s : State} (h : s.busy = false) (t : State) : hostBytes s t = .next t :=
  hostBytes_eq_next.mpr ⟨h, rfl⟩

theorem cmdReset_of_not_busy {s : State} (h : s.busy = false) (start : Bool) (ign : BitVec 30) :
    exec (.cmdReset start ign) s = .next (hwReset s) := by
  simp [exec, execCmdReset, h]

/-- Settles O6: every access to a byte is `hostBytes`, which refuses exactly while BUSY; the rest is a byte read after
`putIn`, `putOut` or a hardware reset. -/
theorem hostBytesAccess : Obligations.HostBytesAccess := by
  intro s a b hm
  refine ⟨fun hb => ⟨hostBytes_of_busy hb _, hostBytes_of_busy hb _, hostBytes_of_busy hb _, hostBytes_of_busy hb _⟩,
    fun hb => ⟨?inWrite, ?outWrite, hostBytes_of_not_busy hb _, hostBytes_of_not_busy hb _, fun start ign => ?reset⟩⟩
  case inWrite =>
    exact ⟨s.putIn a.toNat b, hostBytes_of_not_busy hb _, putIn_eq s a.toNat b, inByte_putIn hm a.toNat b,
      fun htwo => outByte_putIn_of_two htwo a.toNat b⟩
  case outWrite =>
    exact ⟨s.putOut a.toNat b, hostBytes_of_not_busy hb _, rfl, outByte_putOut hm a.toNat b,
      fun htwo => inByte_putOut_of_two htwo a.toNat b⟩
  case reset =>
    exact ⟨hwReset s, cmdReset_of_not_busy hb start ign, fun x => ⟨hwReset_inByte s x, hwReset_outByte s x⟩,
      hwReset_issue s⟩

end Sys2Proof.Machine
end

section
/-! PROOFS. Where the engine may write (R61, R72, R79): what any instruction leaves of IN, and of OUT outside the output
region of the command. -/
namespace Sys2Proof.Machine

/-! ## What every state that a piece of pseudocode or an instruction leaves has in common -/

/-- Every state in which the pseudocode completes or raises satisfies `P`. -/
inductive Run.Leaves {σ α : Type} (P : σ → Prop) : Run σ α → Prop
  | ok {a : α} {t : σ} (h : P t) : Leaves P (.ok a t)
  | raise {e : ErrCode} {t : σ} (h : P t) : Leaves P (.raise e t)
  | stop {x : Fault} : Leaves P (.stop x)

/-- The next state, if the outcome has one, satisfies `P`. -/
inductive Leads (P : State → Prop) : Host.Outcome State Fault Refusal → Prop
  | next {t : State} (h : P t) : Leads P (.next t)
  | fault {x : Fault} : Leads P (.fault x)
  | refused {x : Refusal} : Leads P (.refused x)

section Run
variable {σ τ α β : Type} {P Q : σ → Prop}

theorem Run.Leaves.mono {r : Run σ α} (h : r.Leaves P) (hpq : ∀ t, P t → Q t) : r.Leaves Q := by
  cases h with
  | ok h => exact .ok (hpq _ h)
  | raise h => exact .raise (hpq _ h)
  | stop => exact .stop

theorem Run.Leaves.bind {r : Run σ α} {f : α → σ → Run σ β} (h : r.Leaves P)
    (hf : ∀ a t, P t → (f a t).Leaves P) : (r.bind f).Leaves P := by
  cases h with
  | ok h => exact hf _ _ h
  | raise h => exact .raise h
  | stop => exact .stop

theorem Run.Leaves.onRaise {r : Run σ α} {f : σ → σ} (h : r.Leaves P) (hf : ∀ t, P t → P (f t)) :
    (r.onRaise f).Leaves P := by
  cases h with
  | ok h => exact .ok h
  | raise h => exact .raise (hf _ h)
  | stop => exact .stop

theorem Run.leaves_lift (r : Run σ α) {f : σ → τ} {P : τ → Prop} (hf : ∀ t, P (f t)) : (r.lift f).Leaves P := by
  cases r with
  | ok a t => exact .ok (hf t)
  | raise e t => exact .raise (hf t)
  | stop x => exact .stop

end Run

theorem Leads.mono {P Q : State → Prop} {o : Host.Outcome State Fault Refusal} (h : Leads P o) (hpq : ∀ t, P t → Q t) :
    Leads Q o := by
  cases h with
  | next h => exact .next (hpq _ h)
  | fault => exact .fault
  | refused => exact .refused

theorem Leads.of_next {P : State → Prop} {t : State} (h : Leads P (.next t)) : P t := by
  cases h with
  | next h => exact h

/-! ## The frame of an instruction -/

/-- The fields that say where OUT may be written and what IN and OUT hold. -/
def State.outView (s : State) : Addr × Addr × Bool × Memory × Addr × Memory :=
  (s.lOutStart, s.lOutLimit, s.oneMemory, s.inp, s.op, s.out)

/-- `t` has the output region, the arrangement of the memories and the bytes of IN that `s` has. If OP lies at or above the
region's start in `s`, it does so in `t`, and outside the region OUT holds in `t` what it holds in `s`. -/
structure RegionFrame (s t : State) : Prop where
  lOutStart : t.lOutStart = s.lOutStart
  lOutLimit : t.lOutLimit = s.lOutLimit
  oneMemory : t.oneMemory = s.oneMemory
  inp : t.inp = s.inp
  op : s.lOutStart.toNat ≤ s.op.toNat → s.lOutStart.toNat ≤ t.op.toNat
  out : s.lOutStart.toNat ≤ s.op.toNat →
    ∀ a, a < s.lOutStart.toNat ∨ s.lOutLimit.toNat ≤ a → t.outByte a = s.outByte a

namespace RegionFrame

theorem refl (s : State) : RegionFrame s s := ⟨rfl, rfl, rfl, rfl, id, fun _ _ _ => rfl⟩

theorem trans {s t u : State} (h : RegionFrame s t) (k : RegionFrame t u) : RegionFrame s u where
  lOutStart := k.lOutStart.trans h.lOutStart
  lOutLimit := k.lOutLimit.trans h.lOutLimit
  oneMemory := k.oneMemory.trans h.oneMemory
  inp := k.inp.trans h.inp
  op h0 := h.lOutStart ▸ k.op (h.lOutStart ▸ h.op h0)
  out h0 a ha :=
    (k.out (h.lOutStart ▸ h.op h0) a (by rw [h.lOutStart, h.lOutLimit]; exact ha)).trans (h.out h0 a ha)

/-- An update that touches none of the fields the frame is about. Where it is one by definition, `by rfl` says so once both
states are known, where `rfl` would take them for equal. -/
theorem of_view {s t : State} (h : t.outView = s.outView) : RegionFrame s t := by
  simp only [State.outView, Prod.mk.injEq] at h
  obtain ⟨hstart, hlimit, hone, hinp, hop, hout⟩ := h
  exact ⟨hstart, hlimit, hone, hinp, fun h0 => hop ▸ h0, fun _ a _ => congrArg (·.byte a) hout⟩

theorem inByte {s t : State} (h : RegionFrame s t) (h0 : s.lOutStart.toNat ≤ s.op.toNat) (a : Nat)
    (ha : s.oneMemory = false ∨ a < s.lOutStart.toNat ∨ s.lOutLimit.toNat ≤ a) : t.inByte a = s.inByte a := by
  cases hone : s.oneMemory with
  | false => rw [inByte_of_two s a hone, inByte_of_two t a (h.oneMemory.trans hone), h.inp]
  | true =>
    rw [inByte_of_one s a hone, inByte_of_one t a (h.oneMemory.trans hone)]
    exact h.out h0 a (ha.resolve_left (by simp [hone]))

end RegionFrame

/-! ## Updates that leave the view alone in each of their cases -/

theorem outView_setSel (s : State) (x : Alphabet) (v : Sel) : (s.setSel x v).outView = s.outView := by cases x <;> rfl

theorem outView_fseRle (s : State) (t : TableId) (v : Byte) : (s.fseRle t v).outView = s.outView := by cases t <;> rfl

theorem outView_scrapTable (s : State) (t : TableId) : (s.scrapTable t).outView = s.outView := by cases t <;> rfl

theorem outView_nextTable (x : Alphabet) (s : State) : (nextTable x s).outView = s.outView := by cases x <;> rfl

theorem outView_seqLoop (s : State) : (seqLoop s).outView = s.outView := by
  unfold seqLoop
  split <;> rfl

theorem outView_litStreams (s : State) : (litStreams s).outView = s.outView := by
  unfold litStreams
  split <;> rfl

/-! ## Composition -/

/-- What runs from a state that has the frame of `s` has the frame of `s`. -/
theorem Run.Leaves.after {α : Type} {s t : State} {r : Run State α} (h : RegionFrame s t) (hr : r.Leaves (RegionFrame t)) :
    r.Leaves (RegionFrame s) := hr.mono fun _ => h.trans

/-- Two pieces of pseudocode, each with the frame of the state it starts from. -/
theorem Run.Leaves.andThen {α β : Type} {s : State} {r : Run State α} {f : α → State → Run State β}
    (h : r.Leaves (RegionFrame s)) (hf : ∀ a t, (f a t).Leaves (RegionFrame t)) : (r.bind f).Leaves (RegionFrame s) :=
  h.bind fun a t ht => (hf a t).after ht

theorem Leads.after {s t : State} {o : Host.Outcome State Fault Refusal} (h : RegionFrame s t)
    (ho : Leads (RegionFrame t) o) : Leads (RegionFrame s) o := ho.mono fun _ => h.trans

/-! ## Taking a fault, finishing an instruction -/

theorem regionFrame_faultEntry (e : ErrCode) (s : State) : RegionFrame s (faultEntry e s) :=
  ⟨rfl, rfl, rfl, rfl, id, fun _ _ ha => byte_scrap_outside ha⟩

theorem leads_raised (e : ErrCode) {s t : State} (h : RegionFrame s t) : Leads (RegionFrame s) (raised e t) :=
  .next (h.trans (regionFrame_faultEntry e t))

theorem leads_finish {α : Type} {s : State} {r : Run State α} (h : r.Leaves (RegionFrame s)) :
    Leads (RegionFrame s) (finish r) := by
  cases h with
  | ok h => exact .next h
  | raise h => exact leads_raised _ h
  | stop => exact .fault

theorem leads_finishWith {s : State} {r : Run State Nat} (h : r.Leaves (RegionFrame s)) :
    Leads (RegionFrame s) (finishWith r) := by
  cases h with
  | ok h => exact .next (h.trans (.of_view (by rfl)))
  | raise h => exact leads_raised _ h
  | stop => exact .fault

/-! ## The operations that write OUT (R79, R252, R258, R259, R330, R334) -/

theorem regionFrame_engDone (s : State) : RegionFrame s (engDone s) :=
  ⟨rfl, rfl, rfl, rfl, id, fun _ _ _ => byte_scrap_outside (by omega)⟩

theorem regionFrame_engNext (s : State) : RegionFrame s (engNext s) := by
  unfold engNext
  split
  · exact .of_view (by rfl)
  · exact regionFrame_engDone s

theorem regionFrame_blockEnd (s : State) : RegionFrame s (blockEnd s) := by
  unfold blockEnd
  split
  · split
    · exact .of_view (by rfl)
    · exact regionFrame_engNext s
  · exact .of_view (by rfl)

/-- Bytes produced at OP, with room for them, lie in the output region, and OP does not wrap. -/
theorem regionFrame_produce {s : State} {n : Nat} (src : Memory → Nat → Byte)
    (h : s.op.toNat + n ≤ s.lOutLimit.toNat) : RegionFrame s (s.produce src n) where
  lOutStart := rfl
  lOutLimit := rfl
  oneMemory := rfl
  inp := rfl
  op h0 := by
    have hop : (s.produce src n).op.toNat = s.op.toNat + n := toNat_add_of_le h
    omega
  out _ _ _ := byte_copyLoop_outside (by omega)

theorem regionFrame_copyLiterals {s : State} {n : Nat} (h : s.op.toNat + n ≤ s.lOutLimit.toNat) :
    RegionFrame s (s.copyLiterals n) :=
  (regionFrame_produce (fun out i => s.literalOver out (s.lit.ptr.toNat + i)) h).trans (.of_view (by rfl))

theorem regionFrame_copyMatch {s : State} (d : Nat) {n : Nat} (h : s.op.toNat + n ≤ s.lOutLimit.toNat) :
    RegionFrame s (s.copyMatch d n) :=
  regionFrame_produce _ h

/-! ## Frame elements (R253 to R255, R266) -/

theorem magic_frame (s : State) : Leads (RegionFrame s) (execMagic s) := by
  unfold execMagic
  dsimp only
  split
  · exact .next (.of_view (by rfl))
  · exact leads_raised _ (.of_view (by rfl))

theorem magicLegacy_frame (s : State) : Leads (RegionFrame s) (execMagicLegacy s) := by
  unfold execMagicLegacy
  dsimp only
  split
  · exact leads_raised _ (.of_view (by rfl))
  · exact leads_raised _ (.of_view (by rfl))

theorem headerEnd_frame (s : State) : Leads (RegionFrame s) (headerEnd s) := by
  unfold headerEnd
  split
  · exact leads_raised _ (.refl s)
  · exact .next (.of_view (by rfl))

theorem headerContent_frame (s : State) : Leads (RegionFrame s) (headerContent s) := by
  unfold headerContent
  split
  · exact (headerEnd_frame _).after (.of_view (by rfl))
  · exact .next (.of_view (by rfl))

theorem headerDict_frame (s : State) : Leads (RegionFrame s) (headerDict s) := by
  unfold headerDict
  split
  · exact (headerContent_frame _).after (.of_view (by rfl))
  · exact .next (.of_view (by rfl))

theorem fhd_frame (csel : BitVec 2) (ss : Bool) (ign : BitVec 2) (ck : Bool) (dsel : BitVec 2) (s : State) :
    Leads (RegionFrame s) (execFhd csel ss ign ck dsel s) := by
  unfold execFhd
  dsimp only
  split
  · exact leads_raised _ (.refl s)
  · split
    · exact leads_raised _ (.refl s)
    · split
      · exact (headerDict_frame _).after (.of_view (by rfl))
      · exact .next (.of_view (by rfl))

theorem wd_frame (e : BitVec 5) (m : BitVec 3) (s : State) : Leads (RegionFrame s) (execWd e m s) :=
  (headerDict_frame _).after (.of_view (by rfl))

theorem did_frame (n : DidLen) (v : BitVec 32) (s : State) : Leads (RegionFrame s) (execDid n v s) :=
  leads_raised _ (.of_view (by rfl))

theorem fcs_frame (n : FcsLen) (v : BitVec 64) (s : State) : Leads (RegionFrame s) (execFcs n v s) :=
  (headerEnd_frame _).after (.of_view (by rfl))

theorem checksum_frame (v : BitVec 32) (s : State) : Leads (RegionFrame s) (execChecksum v s) := by
  unfold execChecksum
  dsimp only
  split
  · exact leads_raised _ (.refl s)
  · split
    · exact .next (RegionFrame.trans (.of_view (by rfl)) (regionFrame_engNext _))
    · split
      · exact leads_raised _ (.of_view (by rfl))
      · exact .next (RegionFrame.trans (.of_view (by rfl)) (regionFrame_engNext _))

/-! ## Blocks (R257 to R260) -/

theorem blockHeader_frame (typ : BitVec 2) (last : Bool) (size : BitVec 21) (s : State) :
    (blockHeader typ last size s).Leaves (RegionFrame s) := by
  unfold blockHeader
  dsimp only
  split
  · exact .raise (.refl s)
  · split
    · exact .raise (.of_view (by rfl))
    · split
      · exact .raise (.of_view (by rfl))
      · exact .ok (.of_view (by rfl))

theorem rawBlock_frame (s : State) : (rawBlock s).Leaves (RegionFrame s) := by
  unfold rawBlock
  dsimp only
  split
  · exact .raise (.refl s)
  · split
    · exact .raise (.refl s)
    case isFalse hroom =>
      have hprod := regionFrame_produce (s := s.setBlockEnd) (fun out i => s.inByteOver out (s.ip.toNat + i))
        ((room_iff s _).mp (by simpa using hroom))
      refine .ok (RegionFrame.trans (.of_view (by rfl)) (hprod.trans ?_))
      exact RegionFrame.trans (.of_view (by rfl)) (regionFrame_blockEnd _)

theorem rleBlock_frame (s : State) : (rleBlock s).Leaves (RegionFrame s) := by
  unfold rleBlock
  dsimp only
  split
  · exact .raise (.refl s)
  · split
    · exact .raise (.refl s)
    case isFalse hroom =>
      have hprod := regionFrame_produce (fun _ _ => s.inByte s.ip.toNat) ((room_iff s _).mp (by simpa using hroom))
      exact .ok (hprod.trans (RegionFrame.trans (.of_view (by rfl)) (regionFrame_blockEnd _)))

theorem cmpBlock_frame (s : State) : (cmpBlock s).Leaves (RegionFrame s) := by
  unfold cmpBlock
  dsimp only
  split
  · exact .raise (.refl s)
  · exact .ok (.of_view (by rfl))

/-! ## Units: bit reader, FSE, Huffman -/

theorem stateBrInit_frame (s : State) (k : Fin 4) (start limit : Nat) :
    (s.brInit k start limit).Leaves (RegionFrame s) :=
  Run.leaves_lift _ fun _ => .of_view (by rfl)

theorem brRefill_frame (k : Fin 4) (s : State) : Leads (RegionFrame s) (execBrRefill k s) :=
  .next (.of_view (by rfl))

theorem runTable_frame {α : Type} (s : State) (t : TableId)
    (f : (cap : Nat) → TableUnit cap → Run (TableUnit cap) α) : (s.runTable t f).Leaves (RegionFrame s) := by
  cases t with
  | llt => exact Run.leaves_lift _ fun _ => .of_view (by rfl)
  | oft => exact Run.leaves_lift _ fun _ => .of_view (by rfl)
  | mlt => exact Run.leaves_lift _ fun _ => .of_view (by rfl)
  | hwt => exact Run.leaves_lift _ fun _ => .of_view (by rfl)

theorem scrapOnFault_frame {α : Type} {s : State} {r : Run State α} (h : r.Leaves (RegionFrame s)) (t : TableId) :
    (r.scrapOnFault t).Leaves (RegionFrame s) :=
  h.onRaise fun u hu => hu.trans (.of_view (outView_scrapTable u t))

theorem stateFseReadTable_frame (s : State) (t : TableId) (start limit maxSymbol maxLog : Nat) :
    (s.fseReadTable t start limit maxSymbol maxLog).Leaves (RegionFrame s) :=
  scrapOnFault_frame (runTable_frame s t _) t

theorem stateFseDecompress_frame (s : State) (t : TableId) (start limit cap : Nat) :
    (s.fseDecompress t start limit cap).Leaves (RegionFrame s) :=
  (stateBrInit_frame s 0 start limit).andThen fun _ _ => Run.leaves_lift _ fun _ => .of_view (by rfl)

theorem stateHufBuild_frame (s : State) (n : Nat) : (s.hufBuild n).Leaves (RegionFrame s) :=
  Run.leaves_lift _ fun _ => .of_view (by rfl)

theorem hufInstall_frame (n used : Nat) (s : State) : (hufInstall n used s).Leaves (RegionFrame s) :=
  (stateHufBuild_frame s n).andThen fun _ _ => .ok (.of_view (by rfl))

theorem hufDirect_frame (h start size : Nat) (s : State) : (hufDirect h start size s).Leaves (RegionFrame s) := by
  unfold hufDirect
  dsimp only
  split
  · exact .raise (.refl s)
  · exact (hufInstall_frame _ _ _).after (.of_view (by rfl))

theorem hufFse_frame (h start size : Nat) (s : State) : (hufFse h start size s).Leaves (RegionFrame s) := by
  unfold hufFse
  dsimp only
  split
  · exact .raise (.refl s)
  · exact (stateFseReadTable_frame s _ _ _ _ _).andThen fun _ t =>
      (stateFseDecompress_frame t _ _ _ _).andThen fun _ u => hufInstall_frame _ _ u

theorem hufForm_frame (h start size : Nat) (s : State) : (hufForm h start size s).Leaves (RegionFrame s) := by
  unfold hufForm
  split
  · exact hufDirect_frame h start size s
  · exact hufFse_frame h start size s

theorem stateHufReadTable_frame (s : State) (start size : Nat) : (s.hufReadTable start size).Leaves (RegionFrame s) := by
  unfold State.hufReadTable
  dsimp only
  split
  · exact .raise (.of_view (by rfl))
  · exact (hufForm_frame _ _ _ _).after (.of_view (by rfl))

theorem stateHufDec1_frame (s : State) (start limit n : Nat) : (s.hufDec1 start limit n).Leaves (RegionFrame s) := by
  refine (stateBrInit_frame s 0 start limit).andThen fun _ t => ?_
  cases hufDecStop t.huf n with
  | some x => exact .stop
  | none =>
    have hloops := Run.leaves_lift (Machine.hufDec1 t.inByte t.huf n (t.br.get 0) t.litbuf)
      (f := fun r => { t.setBr 0 r.1 with litbuf := r.2 }) (P := RegionFrame t) fun _ => .of_view (by rfl)
    exact hloops.onRaise fun _ hu => hu.trans (.of_view (by rfl))

theorem stateHufDec4Streams_frame (s : State) (start limit n len1 len2 len3 : Nat) :
    (s.hufDec4Streams start limit n len1 len2 len3).Leaves (RegionFrame s) := by
  unfold State.hufDec4Streams
  dsimp only
  split
  · exact .raise (.refl s)
  · refine (stateBrInit_frame s 0 _ _).andThen fun _ t1 => (stateBrInit_frame t1 1 _ _).andThen fun _ t2 =>
      (stateBrInit_frame t2 2 _ _).andThen fun _ t3 => (stateBrInit_frame t3 3 _ _).andThen fun _ t4 => ?_
    cases hufDecStop t4.huf n with
    | some x => exact .stop
    | none =>
      dsimp only
      cases Machine.hufDec4 t4.inByte t4.huf n (t4.br, t4.litbuf) with
      | ok _ r => exact .ok (.of_view (by rfl))
      | raise e r => exact .raise (.of_view (by rfl))
      | stop x => exact .stop

theorem stateHufDec4_frame (s : State) (start limit n : Nat) : (s.hufDec4 start limit n).Leaves (RegionFrame s) := by
  unfold State.hufDec4
  cases hufDec4Test start limit n with
  | some e => exact .raise (.refl s)
  | none => exact stateHufDec4Streams_frame s _ _ _ _ _ _

/-! ## Literals (R291 to R296) -/

theorem litHeader_frame (typ fmt : BitVec 2) (hs : Nat) (regen : BitVec 20) (comp : BitVec 18) (single : Bool) (s : State) :
    (litHeader typ fmt hs regen comp single s).Leaves (RegionFrame s) := by
  unfold litHeader
  dsimp only
  split
  · exact .raise (.refl s)
  · split
    · exact .raise (.of_view (by rfl))
    · split
      · exact .raise (.of_view (by rfl))
      · split
        · exact .ok (.of_view (by rfl))
        · split
          · exact .raise (.of_view (by rfl))
          · split
            · exact .raise (.of_view (by rfl))
            · exact .ok (.of_view (by rfl))

theorem litRaw_frame (s : State) : (litRaw s).Leaves (RegionFrame s) := by
  unfold litRaw
  dsimp only
  split
  · exact .raise (.refl s)
  · split
    · exact .ok (.of_view (by rfl))
    · exact .ok (.of_view (by rfl))

theorem litRle_frame (s : State) : (litRle s).Leaves (RegionFrame s) := by
  unfold litRle
  dsimp only
  split
  · exact .raise (.refl s)
  · exact .ok (.of_view (by rfl))

theorem regionFrame_litHuf (tree : Bool) (s : State) : RegionFrame s (litHuf tree s) := by
  unfold litHuf
  dsimp only
  split
  · exact .of_view (by rfl)
  · exact .of_view (outView_litStreams _)

theorem litRawSection_frame (fmt : BitVec 2) (hs : Nat) (regen : BitVec 20) (s : State) :
    Leads (RegionFrame s) (litRawSection fmt hs regen s) :=
  leads_finish ((litHeader_frame _ _ _ _ _ _ s).andThen fun _ t => litRaw_frame t)

theorem litRleSection_frame (fmt : BitVec 2) (hs : Nat) (regen : BitVec 20) (s : State) :
    Leads (RegionFrame s) (litRleSection fmt hs regen s) :=
  leads_finish ((litHeader_frame _ _ _ _ _ _ s).andThen fun _ t => litRle_frame t)

theorem litHufSection_frame (fmt : BitVec 2) (hs : Nat) (regen : BitVec 20) (comp : BitVec 18) (s : State) :
    Leads (RegionFrame s) (litHufSection fmt hs regen comp s) :=
  leads_finish ((litHeader_frame _ _ _ _ _ _ s).andThen fun _ t => .ok (regionFrame_litHuf true t))

theorem litRepSection_frame (fmt : BitVec 2) (hs : Nat) (regen : BitVec 20) (comp : BitVec 18) (s : State) :
    Leads (RegionFrame s) (litRepSection fmt hs regen comp s) :=
  leads_finish ((litHeader_frame _ _ _ _ _ _ s).andThen fun _ t => .ok (regionFrame_litHuf false t))

theorem htreeElement_frame (h : Nat) (s : State) : Leads (RegionFrame s) (htreeElement h s) := by
  unfold htreeElement
  dsimp only
  split
  · exact leads_raised _ (.of_view (by rfl))
  · refine Leads.after (t := hufUnload s) (.of_view (by rfl)) (leads_finish ?_)
    exact (hufForm_frame _ _ _ _).andThen fun _ _ => .ok (.of_view (outView_litStreams _))

theorem jump_frame (len1 len2 len3 : BitVec 16) (s : State) : Leads (RegionFrame s) (execJump len1 len2 len3 s) := by
  unfold execJump
  split
  · exact leads_raised _ (.refl s)
  · exact leads_finish ((stateHufDec4Streams_frame s _ _ _ _ _ _).andThen fun _ _ => .ok (.of_view (by rfl)))

/-! ## Sequences (R310 to R334) -/

theorem seqHeader_frame (n count : Nat) (s : State) : Leads (RegionFrame s) (seqHeader n count s) := by
  unfold seqHeader
  split
  · exact leads_raised _ (.refl s)
  · split
    · exact leads_raised _ (.refl s)
    · exact .next (.of_view (by rfl))

theorem seqn0_frame (s : State) : Leads (RegionFrame s) (execSeqn0 s) := by
  unfold execSeqn0
  split
  · exact leads_raised _ (.refl s)
  · exact .next (.of_view (by rfl))

theorem seqm_frame (llmode ofmode mlmode ign : BitVec 2) (s : State) :
    Leads (RegionFrame s) (execSeqm llmode ofmode mlmode ign s) := by
  unfold execSeqm
  split
  · exact leads_raised _ (.refl s)
  · exact .next (.of_view (by rfl))

theorem modeRepeat_frame (x : Alphabet) (s : State) : Leads (RegionFrame s) (execModeRepeat x s) := by
  unfold execModeRepeat
  split
  · exact leads_raised _ (.refl s)
  · exact .next (.of_view (outView_nextTable x s))

theorem rlesym_frame (x : Alphabet) (v : BitVec 8) (s : State) : Leads (RegionFrame s) (execRlesym x v s) := by
  unfold execRlesym
  split
  · exact leads_raised _ (.refl s)
  · split
    · exact leads_raised _ (.refl s)
    · exact .next (.of_view ((outView_nextTable x _).trans ((outView_setSel _ x _).trans (outView_fseRle s _ v))))

theorem fsedesc_frame (x : Alphabet) (logMinus5 high : BitVec 4) (s : State) :
    Leads (RegionFrame s) (execFsedesc x logMinus5 high s) :=
  leads_finish ((scrapOnFault_frame (runTable_frame s x.table _) x.table).andThen fun _ t =>
    .ok (.of_view ((outView_nextTable x _).trans (outView_setSel t x _))))

theorem primeBits_frame (s : State) (x : Alphabet) : (primeBits s x).Leaves (RegionFrame s) := by
  unfold primeBits
  split
  · exact .stop
  · exact .ok (.of_view (by rfl))

theorem seqPrime_frame (s : State) : (seqPrime s).Leaves (RegionFrame s) := by
  refine (primeBits_frame s .ll).andThen fun _ s1 => ?_
  refine ((primeBits_frame _ .of).andThen fun _ s2 => ?_).after (.of_view (by rfl))
  refine ((primeBits_frame _ .ml).andThen fun _ s3 => ?_).after (.of_view (by rfl))
  exact .ok (.of_view (outView_seqLoop _))

theorem regionFrame_seqCounted (s : State) : RegionFrame s (seqCounted s) :=
  .of_view (outView_seqLoop _)

theorem regionFrame_seqDecodeFrom (el eo em : FseEntry) (s : State) : RegionFrame s (seqDecodeFrom el eo em s) :=
  .of_view rfl

theorem stateSeqDecode_frame (s : State) : s.seqDecode.Leaves (RegionFrame s) := by
  unfold State.seqDecode
  dsimp only
  split
  · exact .raise (.of_view (by rfl))
  · split
    · exact .stop
    · exact .ok (RegionFrame.trans (.of_view (by rfl)) (regionFrame_seqDecodeFrom _ _ _ _))

theorem stateSeqExec_frame (s : State) : s.seqExec.Leaves (RegionFrame s) := by
  unfold State.seqExec
  dsimp only
  split
  · exact .raise (.refl s)
  case isFalse hroom =>
    split
    · exact .raise (.refl s)
    · split
      · exact .raise (.refl s)
      · split
        · exact .stop
        · have hll : s.op.toNat + s.seq.ll.toNat ≤ s.lOutLimit.toNat := by omega
          have hop : (s.copyLiterals s.seq.ll.toNat).op.toNat = s.op.toNat + s.seq.ll.toNat := toNat_add_of_le hll
          refine .ok ((regionFrame_copyLiterals hll).trans (regionFrame_copyMatch _ ?_))
          rw [hop, copyLiterals_lOutLimit]
          omega

theorem stateSeqLastlit_frame (s : State) : s.seqLastlit.Leaves (RegionFrame s) := by
  unfold State.seqLastlit
  dsimp only
  split
  · exact .raise (.refl s)
  case isFalse hroom =>
    split
    · exact .stop
    · exact .ok ((regionFrame_copyLiterals ((room_iff s _).mp (by simpa using hroom))).trans (.of_view (by rfl)))

/-! ## Host commands (R22) -/

theorem cmdStart_of_busy {s : State} (h : s.busy = true) (ign : BitVec 30) : execCmdStart ign s = .next s := by
  simp [execCmdStart, h]

theorem cmdReset_of_busy {s : State} (h : s.busy = true) (start : Bool) (ign : BitVec 30) :
    execCmdReset start ign s = .next s := by
  simp [execCmdReset, h]

/-! ## Every instruction -/

/-- While a command runs, every instruction has the frame: only `produce`, `engDone` and fault entry write OUT, and CMD.START
and CMD.RESET are ignored. -/
theorem exec_frame (i : Instr) {s : State} (hb : s.busy = true) : Leads (RegionFrame s) (exec i s) := by
  cases i with
  | magic => exact magic_frame s
  | magicLegacy => exact magicLegacy_frame s
  | fhd csel ss ign ck dsel => exact fhd_frame csel ss ign ck dsel s
  | wd e m => exact wd_frame e m s
  | did n v => exact did_frame n v s
  | fcs n v => exact fcs_frame n v s
  | blkRaw last size => exact leads_finish ((blockHeader_frame 0 last size s).andThen fun _ t => rawBlock_frame t)
  | blkRle last size => exact leads_finish ((blockHeader_frame 1 last size s).andThen fun _ t => rleBlock_frame t)
  | blkCmp last size => exact leads_finish ((blockHeader_frame 2 last size s).andThen fun _ t => cmpBlock_frame t)
  | blkRsv last size => exact leads_finish (blockHeader_frame 3 last size s)
  | litRaw1 regen => exact litRawSection_frame _ _ _ s
  | litRaw2 regen => exact litRawSection_frame _ _ _ s
  | litRaw3 regen => exact litRawSection_frame _ _ _ s
  | litRle1 regen => exact litRleSection_frame _ _ _ s
  | litRle2 regen => exact litRleSection_frame _ _ _ s
  | litRle3 regen => exact litRleSection_frame _ _ _ s
  | litHufS3 regen comp => exact litHufSection_frame _ _ _ _ s
  | litHuf3 regen comp => exact litHufSection_frame _ _ _ _ s
  | litHuf4 regen comp => exact litHufSection_frame _ _ _ _ s
  | litHuf5 regen comp => exact litHufSection_frame _ _ _ _ s
  | litRepS3 regen comp => exact litRepSection_frame _ _ _ _ s
  | litRep3 regen comp => exact litRepSection_frame _ _ _ _ s
  | litRep4 regen comp => exact litRepSection_frame _ _ _ _ s
  | litRep5 regen comp => exact litRepSection_frame _ _ _ _ s
  | htreeDirect low => exact htreeElement_frame _ s
  | htreeFse len => exact htreeElement_frame _ s
  | jump len1 len2 len3 => exact jump_frame len1 len2 len3 s
  | seqn0 => exact seqn0_frame s
  | seqn1 count => exact seqHeader_frame _ _ s
  | seqn2 high b1 => exact seqHeader_frame _ _ s
  | seqn3 b1 b2 => exact seqHeader_frame _ _ s
  | seqm llmode ofmode mlmode ign => exact seqm_frame llmode ofmode mlmode ign s
  | modePredef x => exact .next (.of_view ((outView_nextTable x _).trans (outView_setSel s x _)))
  | modeRle x => exact .next (.of_view (by rfl))
  | modeFse x => exact .next (.of_view (by rfl))
  | modeRepeat x => exact modeRepeat_frame x s
  | rlesym x symbol => exact rlesym_frame x symbol s
  | fsedesc x logMinus5 high => exact fsedesc_frame x logMinus5 high s
  | checksum v => exact checksum_frame v s
  | brInit k start limit => exact leads_finish (stateBrInit_frame s k _ _)
  | brPeek k n => exact .next (.of_view (by rfl))
  | brPeekFast k n => exact .next (.of_view (by rfl))
  | brRefill k => exact brRefill_frame k s
  | fseReadTable t start limit maxSymbol maxLog => exact leads_finishWith (stateFseReadTable_frame s t _ _ _ _)
  | fseBuild t log nsym => exact leads_finish (runTable_frame s t _)
  | fseRle t v => exact .next (.of_view (outView_fseRle s t v))
  | fsePredef x => exact .next (.of_view (outView_setSel s x _))
  | fseDecompress t start limit cap => exact leads_finishWith (stateFseDecompress_frame s t _ _ _)
  | hufReadTable start size => exact leads_finishWith (stateHufReadTable_frame s _ _)
  | hufBuild n => exact leads_finish (stateHufBuild_frame s _)
  | hufDec1 start limit n => exact leads_finish (stateHufDec1_frame s _ _ _)
  | hufDec4 start limit n => exact leads_finish (stateHufDec4_frame s _ _ _)
  | xxhHash a len => exact .next (.of_view (by rfl))
  | seqDecode => exact leads_finish (stateSeqDecode_frame s)
  | seqResolve oc raw ll0 => exact .next (.of_view (by rfl))
  | seqExec => exact leads_finish (stateSeqExec_frame s)
  | seqLastlit => exact leads_finish (stateSeqLastlit_frame s)
  | cmdStart ign =>
    rw [exec, cmdStart_of_busy hb]
    exact .next (.refl s)
  | cmdReset start ign =>
    rw [exec, cmdReset_of_busy hb]
    exact .next (.refl s)

/-! ## Every step -/

theorem regionFrame_beforeReject (c : Ctx) (w : List Byte) (s : State) : RegionFrame s (beforeReject c w s) := by
  cases c with
  | magic => exact .of_view (by rfl)
  | lith =>
    cases w with
    | nil => exact .refl s
    | cons b r => exact .of_view (by rfl)
  | htree => exact .of_view (by rfl)
  | fsedesc x => exact .of_view (outView_scrapTable s x.table)
  | fhd | wd | did n | fcs n | blk | jump | seqn | seqm | mode x | rlesym x | checksum | uop | host => exact .refl s

theorem innerStep_frame (s : State) : Leads (RegionFrame s) (innerStep s) := by
  unfold innerStep
  split
  · split
    · exact .next (.of_view (by rfl))
    · exact leads_finish (seqPrime_frame s)
    · exact .next (regionFrame_seqCounted s)
    · exact .next (RegionFrame.trans (.of_view (by rfl)) (regionFrame_blockEnd _))
    all_goals exact .next (.refl s)
  all_goals exact .next (.refl s)

theorem engineStep_frame {s : State} (hb : s.busy = true) : Leads (RegionFrame s) (engineStep s) := by
  obtain ⟨i, r, _, he⟩ | ⟨_, _, i, _, _, _, he⟩ | ⟨_, c, r, _, _, he⟩ | ⟨_, _, he⟩ := engineStep_cases s
  · rw [he]
    exact (exec_frame i (s := { s with issue := r }) hb).after (.of_view (by rfl))
  · rw [he]
    exact exec_frame i hb
  · rw [he]
    exact .next ((regionFrame_beforeReject c _ s).trans (regionFrame_faultEntry _ _))
  · rw [he]
    exact innerStep_frame s

theorem hostAccess_frame {h : HostAccess} {s : State} (hb : s.busy = true) : Leads (RegionFrame s) (hostAccess h s) := by
  cases hn : hostAccess h s with
  | next t =>
    rw [hostAccess_busy hb hn]
    exact .next (.of_view (by rfl))
  | fault x => exact .fault
  | refused x => exact .refused

theorem step_frame {s : State} (hb : s.busy = true) : Leads (RegionFrame s) (step s) := by
  unfold step
  obtain ⟨_, hm⟩ | ⟨h, q, _, hm⟩ | ⟨n, h, q, _, hm⟩ := machineStep_cases s
  · rw [hm]
    exact engineStep_frame hb
  · rw [hm]
    exact (hostAccess_frame (s := { s with hostQueue := q }) hb).after (.of_view (by rfl))
  · rw [hm]
    exact (engineStep_frame (s := { s with hostQueue := (n, h) :: q }) hb).after (.of_view (by rfl))

/-- Settles O17: the frame of a step, whose premise on OP is part of `cursorsOk`; an access of the host while BUSY changes
`hostData` alone. -/
theorem regionsKept : Obligations.RegionsKept := by
  refine ⟨fun s t hc hb hstep => ?_, fun s t h hb hn a => ?_⟩
  · obtain ⟨_, hcursors⟩ := hc
    obtain ⟨_, _, hop, _⟩ := hcursors hb
    have hleads := step_frame hb
    rw [hstep] at hleads
    exact ⟨hleads.of_next.out hop, hleads.of_next.inByte hop⟩
  · rw [hostAccess_busy hb hn]
    exact ⟨rfl, rfl⟩

end Sys2Proof.Machine
end

section
/-! PROOFS. What each unit operation writes, and what it leaves unchanged (R24, R79, R141 to R334). -/
namespace Sys2Proof.Machine

/-! ## States in which pseudocode completes, and states in which it raises -/

/-- Every state in which the pseudocode completes satisfies `P`, every state in which it raises `Q`. -/
inductive Run.Ends {σ α : Type} (P Q : σ → Prop) : Run σ α → Prop
  | ok {a : α} {t : σ} (h : P t) : Ends P Q (.ok a t)
  | raise {e : ErrCode} {t : σ} (h : Q t) : Ends P Q (.raise e t)
  | stop {x : Fault} : Ends P Q (.stop x)

section Run
variable {σ τ α β : Type} {P P' Q Q' : σ → Prop}

theorem Run.Leaves.ends {r : Run σ α} (h : r.Leaves P) (hq : ∀ t, P t → Q t) : r.Ends P Q := by
  cases h with
  | ok h => exact .ok h
  | raise h => exact .raise (hq _ h)
  | stop => exact .stop

theorem Run.Ends.mono {r : Run σ α} (h : r.Ends P Q) (hp : ∀ t, P t → P' t) (hq : ∀ t, Q t → Q' t) : r.Ends P' Q' := by
  cases h with
  | ok h => exact .ok (hp _ h)
  | raise h => exact .raise (hq _ h)
  | stop => exact .stop

theorem Run.Ends.bind {r : Run σ α} {f : α → σ → Run σ β} (h : r.Ends P Q) (hf : ∀ a t, P t → (f a t).Ends P' Q) :
    (r.bind f).Ends P' Q := by
  cases h with
  | ok h => exact hf _ _ h
  | raise h => exact .raise h
  | stop => exact .stop

theorem Run.Ends.onRaise {r : Run σ α} {f : σ → σ} (h : r.Ends P Q) (hf : ∀ t, Q t → Q' (f t)) :
    (r.onRaise f).Ends P Q' := by
  cases h with
  | ok h => exact .ok h
  | raise h => exact .raise (hf _ h)
  | stop => exact .stop

theorem Run.Leaves.lift {r : Run σ α} (h : r.Leaves P) {f : σ → τ} {R : τ → Prop} (hf : ∀ t, P t → R (f t)) :
    (r.lift f).Leaves R := by
  cases h with
  | ok h => exact .ok (hf _ h)
  | raise h => exact .raise (hf _ h)
  | stop => exact .stop

end Run

theorem Run.Ends.finish_next {α : Type} {P Q : State → Prop} {r : Run State α} {t : State} (h : r.Ends P Q)
    (hn : finish r = .next t) : P t ∨ ∃ e u, Q u ∧ t = faultEntry e u := by
  cases h with
  | ok h => cases hn; exact .inl h
  | raise h => cases hn; exact .inr ⟨_, _, h, rfl⟩
  | stop => cases hn

theorem Run.Ends.finishWith_next {P Q : State → Prop} {r : Run State Nat} {t : State} (h : r.Ends P Q)
    (hn : finishWith r = .next t) : (∃ u v, P u ∧ t = { u with result := v }) ∨ ∃ e u, Q u ∧ t = faultEntry e u := by
  cases h with
  | ok h => cases hn; exact .inl ⟨_, _, h, rfl⟩
  | raise h => cases hn; exact .inr ⟨_, _, h, rfl⟩
  | stop => cases hn

/-! ## HUF.LOADED inside HUF.BUILD (R204, R207) -/

theorem countWeights_loaded {b : Bool} (n i total : Nat) {h : HufRegs} (hb : h.loaded = b) :
    (countWeights n i total h).Leaves fun g => g.loaded = b := by
  induction n generalizing i total h with
  | zero => exact .ok hb
  | succ n ih =>
    unfold countWeights
    dsimp only
    split
    · exact .raise hb
    · exact ih _ _ hb

theorem rankStarts_loaded (n w nxt : Nat) (h : HufRegs) : (rankStarts n w nxt h).loaded = h.loaded := by
  induction n generalizing w nxt h with
  | zero => rfl
  | succ n ih => exact ih _ _ _

theorem symbolSlots_loaded (log n i : Nat) (h : HufRegs) : (symbolSlots log n i h).loaded = h.loaded := by
  induction n generalizing i h with
  | zero => rfl
  | succ n ih =>
    unfold symbolSlots
    dsimp only
    split
    · exact ih _ _
    · exact ih _ _

theorem hufBuildFrom_loaded (n total : Nat) (h : HufRegs) :
    (hufBuildFrom n total h).Leaves fun g => g.loaded = h.loaded := by
  unfold hufBuildFrom
  dsimp only
  split
  · exact .raise rfl
  · split
    · exact .raise rfl
    · split
      · exact .raise rfl
      · split
        · exact .raise rfl
        · exact .ok ((symbolSlots_loaded _ _ _ _).trans (rankStarts_loaded _ _ _ _))

theorem hufBuild_loaded (n : Nat) (h : HufRegs) : (hufBuild n h).Leaves fun g => g.loaded = h.loaded :=
  (countWeights_loaded n 0 0 (h := { h with rank := Vector.replicate 13 0 }) rfl).bind fun total g hg =>
    (hufBuildFrom_loaded n total g).mono fun _ hk => hk.trans hg

/-! ## What a unit operation may write when it completes -/

/-- The state that a unit operation leaves when it completes: every field that is not named is as it was. -/
inductive UnitWrites (s : State) : Instr → State → Prop
  | brInit {k a b} (br) : UnitWrites s (.brInit k a b) { s with br := br }
  | brPeek {k n} (v) : UnitWrites s (.brPeek k n) { s with result := v }
  | brPeekFast {k n} (v) : UnitWrites s (.brPeekFast k n) { s with result := v }
  | brRefill {k} (br v) : UnitWrites s (.brRefill k) { s with br := br, result := v }
  | fseReadTable {tb a b m l} (llt oft mlt hwt fse draws v) :
    UnitWrites s (.fseReadTable tb a b m l)
      { s with llt := llt, oft := oft, mlt := mlt, hwt := hwt, fse := fse, draws := draws, result := v }
  | fseBuild {tb l n} (llt oft mlt hwt fse draws) :
    UnitWrites s (.fseBuild tb l n)
      { s with llt := llt, oft := oft, mlt := mlt, hwt := hwt, fse := fse, draws := draws }
  | fseRle {tb v} (llt oft mlt hwt) :
    UnitWrites s (.fseRle tb v) { s with llt := llt, oft := oft, mlt := mlt, hwt := hwt }
  | fsePredef {x} (llSel ofSel mlSel) :
    UnitWrites s (.fsePredef x) { s with llSel := llSel, ofSel := ofSel, mlSel := mlSel }
  | fseDecompress {tb a b cap} (br w v) :
    UnitWrites s (.fseDecompress tb a b cap) { s with br := br, huf := { s.huf with w := w }, result := v }
  | hufReadTable {a n} (br hwt fse draws huf v) (h : huf.loaded = true) :
    UnitWrites s (.hufReadTable a n)
      { s with br := br, hwt := hwt, fse := fse, draws := draws, huf := huf, result := v }
  | hufBuild {n} (huf) (h : huf.loaded = s.huf.loaded) : UnitWrites s (.hufBuild n) { s with huf := huf }
  | hufDec1 {a b n} (br litbuf) : UnitWrites s (.hufDec1 a b n) { s with br := br, litbuf := litbuf }
  | hufDec4 {a b n} (br litbuf) : UnitWrites s (.hufDec4 a b n) { s with br := br, litbuf := litbuf }
  | xxhHash {a n} (xxh) : UnitWrites s (.xxhHash a n) { s with xxh := xxh }
  | seqDecode (br rep seq) : UnitWrites s .seqDecode { s with br := br, rep := rep, seq := seq }
  | seqResolve {oc raw ll0} (rep v) : UnitWrites s (.seqResolve oc raw ll0) { s with rep := rep, result := v }
  | seqExec (op out ptr) (lo : s.op.toNat ≤ op.toNat) (hi : op.toNat ≤ s.lOutLimit.toNat) :
    UnitWrites s .seqExec { s with op := op, out := out, lit := { s.lit with ptr := ptr } }
  | seqLastlit (op out ptr) (lo : s.op.toNat ≤ op.toNat) (hi : op.toNat ≤ s.lOutLimit.toNat) :
    UnitWrites s .seqLastlit { s with op := op, out := out, lit := { s.lit with ptr := ptr } }

/-- What has been written when a unit operation raises (R360): readers, tables, arrays and LIT, never HUF.LOADED. -/
structure RaiseWrites (s t : State) : Prop where
  loaded : t.huf.loaded = s.huf.loaded
  eq : t = { s with
    br := t.br, llt := t.llt, oft := t.oft, mlt := t.mlt, hwt := t.hwt, fse := t.fse, huf := t.huf
    litbuf := t.litbuf, draws := t.draws }

theorem RaiseWrites.refl (s : State) : RaiseWrites s s := ⟨rfl, rfl⟩

/-- What a table operation may write (R162, R167): the tables, the builder scratch and the model's own counter. -/
def TableWrites (s t : State) : Prop :=
  t = { s with llt := t.llt, oft := t.oft, mlt := t.mlt, hwt := t.hwt, fse := t.fse, draws := t.draws }

theorem TableWrites.eq {s t : State} (h : TableWrites s t) :
    t = { s with llt := t.llt, oft := t.oft, mlt := t.mlt, hwt := t.hwt, fse := t.fse, draws := t.draws } := h

theorem TableWrites.trans {s t u : State} (h : TableWrites s t) (k : TableWrites t u) : TableWrites s u := by
  unfold TableWrites at h k ⊢
  refine k.trans ?_
  rw [h]

theorem TableWrites.raiseWrites {s t : State} (h : TableWrites s t) : RaiseWrites s t := by
  unfold TableWrites at h
  rw [h]
  exact ⟨rfl, rfl⟩

/-- What a part of HUF.READTABLE may write (R201 to R203), leaving HUF.LOADED at `b`. -/
structure TreeWrites (b : Bool) (s t : State) : Prop where
  loaded : t.huf.loaded = b
  eq : t = { s with br := t.br, hwt := t.hwt, fse := t.fse, draws := t.draws, huf := t.huf }

theorem TreeWrites.refl (s : State) : TreeWrites s.huf.loaded s s := ⟨rfl, rfl⟩

theorem TreeWrites.trans {a b : Bool} {s t u : State} (h : TreeWrites a s t) (k : TreeWrites b t u) :
    TreeWrites b s u := by
  refine ⟨k.loaded, k.eq.trans ?_⟩
  rw [h.eq]

/-- A part that leaves HUF.LOADED alone after one that does. -/
theorem TreeWrites.step {s t u : State} (h : TreeWrites s.huf.loaded s t) (k : TreeWrites t.huf.loaded t u) :
    TreeWrites s.huf.loaded s u := h.loaded ▸ h.trans k

theorem TreeWrites.raiseWrites {s t : State} (h : TreeWrites s.huf.loaded s t) : RaiseWrites s t := by
  refine ⟨h.loaded, ?_⟩
  rw [h.eq]

/-! ## The readers and the tables -/

/-- What an operation on the bit readers writes (R141). -/
def ReaderWrites (s t : State) : Prop := ∃ br, t = { s with br := br }

theorem ReaderWrites.trans {s t u : State} (h : ReaderWrites s t) (k : ReaderWrites t u) : ReaderWrites s u := by
  obtain ⟨_, rfl⟩ := h
  obtain ⟨_, rfl⟩ := k
  exact ⟨_, rfl⟩

theorem ReaderWrites.raiseWrites {s t : State} (h : ReaderWrites s t) : RaiseWrites s t := by
  obtain ⟨_, rfl⟩ := h
  exact ⟨rfl, rfl⟩

theorem stateBrInit_writes (s : State) (k : Fin 4) (start limit : Nat) :
    (s.brInit k start limit).Leaves (ReaderWrites s) :=
  Run.leaves_lift _ fun _ => ⟨_, rfl⟩

theorem runTable_writes {α : Type} (s : State) (tb : TableId) (f : (cap : Nat) → TableUnit cap → Run (TableUnit cap) α) :
    (s.runTable tb f).Leaves (TableWrites s) := by
  cases tb with
  | llt => exact Run.leaves_lift _ fun _ => rfl
  | oft => exact Run.leaves_lift _ fun _ => rfl
  | mlt => exact Run.leaves_lift _ fun _ => rfl
  | hwt => exact Run.leaves_lift _ fun _ => rfl

theorem scrapTable_writes (s : State) (tb : TableId) : TableWrites s (s.scrapTable tb) := by
  cases tb <;> exact rfl

theorem fseRle_writes (s : State) (tb : TableId) (v : Byte) : ∃ llt oft mlt hwt,
    s.fseRle tb v = { s with llt := llt, oft := oft, mlt := mlt, hwt := hwt } := by
  cases tb <;> exact ⟨_, _, _, _, rfl⟩

theorem setSel_writes (s : State) (x : Alphabet) (v : Sel) : ∃ llSel ofSel mlSel,
    s.setSel x v = { s with llSel := llSel, ofSel := ofSel, mlSel := mlSel } := by
  cases x <;> exact ⟨_, _, _, rfl⟩

theorem stateFseReadTable_writes (s : State) (tb : TableId) (start limit maxSymbol maxLog : Nat) :
    (s.fseReadTable tb start limit maxSymbol maxLog).Leaves (TableWrites s) :=
  (runTable_writes s tb _).onRaise fun t ht => ht.trans (scrapTable_writes t tb)

/-- What FSE.DECOMPRESS writes (R191): the reader and HUF.W. -/
def WeightWrites (s t : State) : Prop := ∃ br w, t = { s with br := br, huf := { s.huf with w := w } }

theorem stateFseDecompress_writes (s : State) (tb : TableId) (start limit cap : Nat) :
    (s.fseDecompress tb start limit cap).Leaves (WeightWrites s) := by
  refine ((stateBrInit_writes s 0 start limit).mono fun _ ⟨br, h⟩ => ⟨br, s.huf.w, h⟩).bind fun _ t ht => ?_
  obtain ⟨_, _, rfl⟩ := ht
  exact Run.leaves_lift _ fun _ => ⟨_, _, rfl⟩

/-! ## The Huffman unit -/

theorem stateFseReadTable_treeWrites (s : State) (start limit maxSymbol maxLog : Nat) :
    (s.fseReadTable .hwt start limit maxSymbol maxLog).Leaves (TreeWrites s.huf.loaded s) := by
  refine Run.Leaves.onRaise (Run.leaves_lift _ fun _ => ⟨rfl, rfl⟩) fun t ht => ?_
  exact ht.step ⟨rfl, rfl⟩

theorem stateFseDecompress_treeWrites (s : State) (tb : TableId) (start limit cap : Nat) :
    (s.fseDecompress tb start limit cap).Leaves (TreeWrites s.huf.loaded s) :=
  (stateFseDecompress_writes s tb start limit cap).mono fun _ ⟨_, _, h⟩ => h ▸ ⟨rfl, rfl⟩

/-- What HUF.BUILD writes (R204): the Huffman unit, not HUF.LOADED. -/
def BuildWrites (s t : State) : Prop := ∃ huf, huf.loaded = s.huf.loaded ∧ t = { s with huf := huf }

theorem BuildWrites.treeWrites {s t : State} (h : BuildWrites s t) : TreeWrites s.huf.loaded s t := by
  obtain ⟨_, hl, rfl⟩ := h
  exact ⟨hl, rfl⟩

theorem stateHufBuild_writes (s : State) (n : Nat) : (s.hufBuild n).Leaves (BuildWrites s) :=
  (hufBuild_loaded n s.huf).lift fun _ h => ⟨_, h, rfl⟩

/-- A table that is built is usable; one whose weights are turned away leaves HUF.LOADED alone (R207). -/
theorem hufInstall_writes (n used : Nat) (s : State) :
    (hufInstall n used s).Ends (TreeWrites true s) (TreeWrites s.huf.loaded s) := by
  refine ((stateHufBuild_writes s n).ends fun _ => BuildWrites.treeWrites).bind fun _ t ht => .ok ?_
  exact ht.treeWrites.trans ⟨rfl, rfl⟩

theorem hufDirect_writes (h start size : Nat) (s : State) :
    (hufDirect h start size s).Ends (TreeWrites true s) (TreeWrites s.huf.loaded s) := by
  unfold hufDirect
  dsimp only
  split
  · exact .raise (.refl s)
  · have hw : TreeWrites s.huf.loaded s
        { s with huf := { s.huf with w := directWeights s.inByte (start + 1) (h - 127) (ceilDiv (h - 127) 2) 0 s.huf.w } } :=
      ⟨rfl, rfl⟩
    exact (hufInstall_writes _ _ _).mono (fun _ => hw.trans) fun _ => hw.trans

theorem hufFse_writes (h start size : Nat) (s : State) :
    (hufFse h start size s).Ends (TreeWrites true s) (TreeWrites s.huf.loaded s) := by
  unfold hufFse
  dsimp only
  split
  · exact .raise (.refl s)
  · refine ((stateFseReadTable_treeWrites s _ _ _ _).ends fun _ h => h).bind fun _ t ht => ?_
    refine (((stateFseDecompress_treeWrites t _ _ _ _).mono fun _ h => ht.step h).ends fun _ h => h).bind
      fun _ u hu => ?_
    exact (hufInstall_writes _ _ u).mono (fun _ h => hu.trans h) fun _ h => hu.step h

theorem hufForm_writes (h start size : Nat) (s : State) :
    (hufForm h start size s).Ends (TreeWrites true s) (TreeWrites s.huf.loaded s) := by
  unfold hufForm
  split
  · exact hufDirect_writes h start size s
  · exact hufFse_writes h start size s

/-- HUF.READTABLE leaves HUF.LOADED set exactly when it completes (R207, R208). -/
theorem stateHufReadTable_writes (s : State) (start size : Nat) :
    (s.hufReadTable start size).Ends (TreeWrites true s) (TreeWrites false s) := by
  have hunload : TreeWrites false s (hufUnload s) := ⟨rfl, rfl⟩
  unfold State.hufReadTable
  dsimp only
  split
  · exact .raise hunload
  · exact (hufForm_writes _ _ _ _).mono (fun _ => hunload.trans) fun _ => hunload.trans

/-- What a Huffman decode writes when it completes (R210, R212): the readers and LIT. -/
def DecodeWrites (s t : State) : Prop := ∃ br litbuf, t = { s with br := br, litbuf := litbuf }

theorem stateHufDec1_writes (s : State) (start limit n : Nat) :
    (s.hufDec1 start limit n).Ends (DecodeWrites s) (RaiseWrites s) := by
  refine ((stateBrInit_writes s 0 start limit).ends fun _ => ReaderWrites.raiseWrites).bind fun _ t ⟨_, ht⟩ => ?_
  subst ht
  dsimp only
  cases hufDecStop s.huf n with
  | some x => exact .stop
  | none =>
    refine ((Run.leaves_lift (P := DecodeWrites s) _ fun _ => ⟨_, _, rfl⟩).ends fun _ h => h).onRaise ?_
    rintro _ ⟨_, _, rfl⟩
    exact ⟨rfl, rfl⟩

theorem stateHufDec4Streams_writes (s : State) (start limit n len1 len2 len3 : Nat) :
    (s.hufDec4Streams start limit n len1 len2 len3).Ends
      (DecodeWrites s) (RaiseWrites s) := by
  unfold State.hufDec4Streams
  dsimp only
  split
  · exact .raise (.refl s)
  · refine ((stateBrInit_writes s 0 _ _).ends fun _ => ReaderWrites.raiseWrites).bind fun _ t1 h1 => ?_
    refine (((stateBrInit_writes t1 1 _ _).mono fun _ => h1.trans).ends fun _ => ReaderWrites.raiseWrites).bind
      fun _ t2 h2 => ?_
    refine (((stateBrInit_writes t2 2 _ _).mono fun _ => h2.trans).ends fun _ => ReaderWrites.raiseWrites).bind
      fun _ t3 h3 => ?_
    refine (((stateBrInit_writes t3 3 _ _).mono fun _ => h3.trans).ends fun _ => ReaderWrites.raiseWrites).bind
      fun _ t4 ⟨_, h4⟩ => ?_
    subst h4
    dsimp only
    cases hufDecStop s.huf n with
    | some x => exact .stop
    | none =>
      dsimp only
      cases Machine.hufDec4 _ s.huf n _ with
      | ok _ r => exact .ok ⟨_, _, rfl⟩
      | raise e r => exact .raise ⟨rfl, rfl⟩
      | stop x => exact .stop

theorem stateHufDec4_writes (s : State) (start limit n : Nat) :
    (s.hufDec4 start limit n).Ends (DecodeWrites s) (RaiseWrites s) := by
  unfold State.hufDec4
  cases hufDec4Test start limit n with
  | some e => exact .raise (.refl s)
  | none => exact stateHufDec4Streams_writes s _ _ _ _ _ _

/-! ## Sequences -/

theorem stateSeqDecode_writes (s : State) :
    s.seqDecode.Ends (fun t => ∃ br rep seq, t = { s with br := br, rep := rep, seq := seq }) (RaiseWrites s) := by
  unfold State.seqDecode
  dsimp only
  split
  · exact .raise ⟨rfl, rfl⟩
  · split
    · exact .stop
    · exact .ok ⟨_, _, _, rfl⟩

/-- What SEQ.EXEC and SEQ.LASTLIT write when they complete: OP moves forward inside the output region (R24, R330, R334). -/
def OutputWrites (s t : State) : Prop :=
  ∃ op out ptr, s.op.toNat ≤ op.toNat ∧ op.toNat ≤ s.lOutLimit.toNat ∧
    t = { s with op := op, out := out, lit := { s.lit with ptr := ptr } }

theorem stateSeqExec_writes (s : State) : s.seqExec.Ends (OutputWrites s) (RaiseWrites s) := by
  unfold State.seqExec
  dsimp only
  split
  · exact .raise (.refl s)
  case isFalse hroom =>
    split
    · exact .raise (.refl s)
    · split
      · exact .raise (.refl s)
      · split
        · exact .stop
        · have hll : s.op.toNat + s.seq.ll.toNat ≤ s.lOutLimit.toNat := by omega
          have hop : (s.copyLiterals s.seq.ll.toNat).op.toNat = s.op.toNat + s.seq.ll.toNat := toNat_add_of_le hll
          have hml : (s.copyLiterals s.seq.ll.toNat).op.toNat + s.seq.ml.toNat ≤ s.lOutLimit.toNat := by omega
          have hend := toNat_add_of_le hml
          exact .ok ⟨_, _, _, by omega, by omega, rfl⟩

theorem stateSeqLastlit_writes (s : State) : s.seqLastlit.Ends (OutputWrites s) (RaiseWrites s) := by
  unfold State.seqLastlit
  dsimp only
  split
  · exact .raise (.refl s)
  case isFalse hroom =>
    split
    · exact .stop
    · have hfits := (room_iff s _).mp (by simpa using hroom)
      have hop : (s.copyLiterals (s.lit.limit.toNat - s.lit.ptr.toNat)).op.toNat = _ := toNat_add_of_le hfits
      exact .ok ⟨_, _, _, by omega, by omega, rfl⟩

/-! ## Every unit operation -/

/-- A unit operation completes, or it raises a fault (R360); HUF.READTABLE has cleared HUF.LOADED by then (R208). -/
def UnitOutcome (i : Instr) (s t : State) : Prop :=
  UnitWrites s i t ∨
    ∃ e u, (RaiseWrites s u ∨ (∃ a n, i = .hufReadTable a n) ∧ RaiseWrites (hufUnload s) u) ∧ t = faultEntry e u

theorem Run.Ends.unitOutcome {α : Type} {i : Instr} {s t : State} {P : State → Prop} {r : Run State α}
    (h : r.Ends P (RaiseWrites s)) (hw : ∀ u, P u → UnitWrites s i u) (hn : finish r = .next t) : UnitOutcome i s t := by
  obtain hp | ⟨e, u, hq, rfl⟩ := h.finish_next hn
  · exact .inl (hw _ hp)
  · exact .inr ⟨e, u, .inl hq, rfl⟩

theorem Run.Ends.unitOutcomeWith {i : Instr} {s t : State} {P : State → Prop} {r : Run State Nat}
    (h : r.Ends P (RaiseWrites s)) (hw : ∀ u v, P u → UnitWrites s i { u with result := v })
    (hn : finishWith r = .next t) : UnitOutcome i s t := by
  obtain ⟨u, v, hp, rfl⟩ | ⟨e, u, hq, rfl⟩ := h.finishWith_next hn
  · exact .inl (hw _ v hp)
  · exact .inr ⟨e, u, .inl hq, rfl⟩

theorem hufReadTable_outcome {a : Addr} {n : BitVec 18} {s t : State} (hn : exec (.hufReadTable a n) s = .next t) :
    UnitOutcome (.hufReadTable a n) s t := by
  obtain ⟨u, v, ⟨hl, h⟩, rfl⟩ | ⟨e, u, ⟨hl, h⟩, rfl⟩ := (stateHufReadTable_writes s _ _).finishWith_next hn
  · rw [h]
    exact .inl (.hufReadTable _ _ _ _ _ _ hl)
  · refine .inr ⟨e, u, .inr ⟨⟨_, _, rfl⟩, hl, ?_⟩, rfl⟩
    rw [h]
    rfl

theorem exec_unit {i : Instr} {s t : State} (hu : i.isUnitOp = true) (hn : exec i s = .next t) : UnitOutcome i s t := by
  cases i with
  | brInit k a b =>
    exact ((stateBrInit_writes s k _ _).ends fun _ => ReaderWrites.raiseWrites).unitOutcome
      (fun _ ⟨_, h⟩ => h ▸ .brInit _) hn
  | brPeek k n => cases hn; exact .inl (.brPeek _)
  | brPeekFast k n => cases hn; exact .inl (.brPeekFast _)
  | brRefill k => cases hn; exact .inl (.brRefill _ _)
  | fseReadTable tb a b m l =>
    exact ((stateFseReadTable_writes s tb _ _ _ _).ends fun _ => TableWrites.raiseWrites).unitOutcomeWith
      (fun _ _ h => h.eq ▸ .fseReadTable _ _ _ _ _ _ _) hn
  | fseBuild tb l n =>
    exact ((runTable_writes s tb _).ends fun _ => TableWrites.raiseWrites).unitOutcome
      (fun _ h => h.eq ▸ .fseBuild _ _ _ _ _ _) hn
  | fseRle tb v =>
    cases hn
    obtain ⟨_, _, _, _, h⟩ := fseRle_writes s tb v
    exact .inl (h ▸ .fseRle _ _ _ _)
  | fsePredef x =>
    cases hn
    obtain ⟨_, _, _, h⟩ := setSel_writes s x .predef
    exact .inl (h ▸ .fsePredef _ _ _)
  | fseDecompress tb a b cap =>
    have hraise (u) (h : WeightWrites s u) : RaiseWrites s u := by
      obtain ⟨_, _, rfl⟩ := h
      exact ⟨rfl, rfl⟩
    exact ((stateFseDecompress_writes s tb _ _ _).ends hraise).unitOutcomeWith
      (fun _ _ ⟨_, _, h⟩ => h ▸ .fseDecompress _ _ _) hn
  | hufReadTable a n => exact hufReadTable_outcome hn
  | hufBuild n =>
    exact ((stateHufBuild_writes s _).ends fun _ h => h.treeWrites.raiseWrites).unitOutcome
      (fun _ ⟨_, hl, h⟩ => h ▸ .hufBuild _ hl) hn
  | hufDec1 a b n => exact (stateHufDec1_writes s _ _ _).unitOutcome (fun _ ⟨_, _, h⟩ => h ▸ .hufDec1 _ _) hn
  | hufDec4 a b n => exact (stateHufDec4_writes s _ _ _).unitOutcome (fun _ ⟨_, _, h⟩ => h ▸ .hufDec4 _ _) hn
  | xxhHash a n => cases hn; exact .inl (.xxhHash _)
  | seqDecode => exact (stateSeqDecode_writes s).unitOutcome (fun _ ⟨_, _, _, h⟩ => h ▸ .seqDecode _ _ _) hn
  | seqResolve oc raw ll0 => cases hn; exact .inl (.seqResolve _ _)
  | seqExec =>
    exact (stateSeqExec_writes s).unitOutcome (fun _ ⟨_, _, _, lo, hi, h⟩ => h ▸ .seqExec _ _ _ lo hi) hn
  | seqLastlit =>
    exact (stateSeqLastlit_writes s).unitOutcome (fun _ ⟨_, _, _, lo, hi, h⟩ => h ▸ .seqLastlit _ _ _ lo hi) hn
  | _ => cases hu

/-- Settles O22: a unit operation that completes has written the fields of `UnitWrites` alone. -/
theorem unitOperationFrames : Obligations.UnitOperationFrames := by
  intro i s t hu hn _ ht
  obtain hw | ⟨e, u, _, rfl⟩ := exec_unit hu hn
  · cases hw with
    | hufBuild _ hl => simp [hl, State.outByte, State.litByte]
    | _ => simp [State.outByte, State.litByte]
  · exact absurd rfl ht

end Sys2Proof.Machine
end

section
/-! PROOFS. The host's register block (R21, R22): the strobes of CMD, accesses while BUSY, and what a write and a read
return while not BUSY. -/
namespace Sys2Proof.Machine

/-! ## The word written to CMD (R22, R122) -/

theorem bit_toNat (v : Word) (i : Nat) : bit v.toNat i = v.getLsbD i := by
  simp [bit, BitVec.getLsbD, Nat.testBit_eq_decide_div_mod_eq]

theorem field_toNat_eq_extract (v : Word) (lo w : Nat) : field v.toNat lo w = v.extractLsb' lo w := by
  apply BitVec.eq_of_toNat_eq
  rw [field_toNat, BitVec.extractLsb'_toNat, Nat.shiftRight_eq_div_pow]

/-- The command that a word strobes: RESET wins over START (R22). -/
theorem decodeHost_word (v : Word) :
    decodeHost v.toNat =
      if v.getLsbD 1 then .ok (.cmdReset (v.getLsbD 0) (v.extractLsb' 2 30))
      else if v.getLsbD 0 then .ok (.cmdStart (v.extractLsb' 2 30)) else .error .noStrobe := by
  have h1 : v.toNat / 2 % 2 = 1 ↔ v.getLsbD 1 = true := by rw [← bit_toNat, bit_eq_true, pow_one]
  have h0 : v.toNat % 2 = 1 ↔ v.getLsbD 0 = true := by rw [← bit_toNat, bit_eq_true, pow_zero, Nat.div_one]
  unfold decodeHost
  rw [bit_toNat, field_toNat_eq_extract]
  simp only [h1, h0]

theorem decode_host_word (v : Word) :
    decode .host (leBytes 4 v.toNat) =
      match decodeHost v.toNat with
      | .ok i => .ok (i, [])
      | .error r => .error r := by
  have hv : leNat (List.take 4 (leBytes 4 v.toNat)) = v.toNat := by
    rw [List.take_of_length_le (by simp), leNat_leBytes]
    exact Nat.mod_eq_of_lt v.isLt
  have hlen : ¬ (leBytes 4 v.toNat).length < 4 := by simp
  unfold decode withWord
  rw [if_neg hlen, hv, List.drop_of_length_le (by simp)]
  rw [decodeHost_word]
  cases v.getLsbD 1 with
  | true => rfl
  | false => cases v.getLsbD 0 <;> rfl

/-- What a write of CMD does while not BUSY (R22). -/
theorem hostWrite_cmd (v : Word) (s : State) :
    hostWrite .cmd v s =
      if v.getLsbD 1 then exec (.cmdReset (v.getLsbD 0) (v.extractLsb' 2 30)) s
      else if v.getLsbD 0 then exec (.cmdStart (v.extractLsb' 2 30)) s else .next s := by
  unfold hostWrite
  dsimp only
  rw [decode_host_word, decodeHost_word]
  cases v.getLsbD 1 with
  | true => rfl
  | false => cases v.getLsbD 0 <;> rfl

theorem hostAccess_write_of_busy {s : State} (h : s.busy = true) (r : HostReg) (v : Word) :
    hostAccess (.regWrite r v) s = .next s := by
  simp [hostAccess, h]

theorem hostAccess_write_of_not_busy {s : State} (h : s.busy = false) (r : HostReg) (v : Word) :
    hostAccess (.regWrite r v) s = hostWrite r v s := by
  simp [hostAccess, h]

/-- Settles O4: while BUSY each access is `hostAccess`'s own case, while not BUSY a write of CMD is `hostWrite_cmd`. -/
theorem hostAccessRules : Obligations.HostAccessRules := by
  refine ⟨fun s hb => ⟨hostAccess_write_of_busy hb, ?status, fun r hr => ?other, cmdStart_of_busy hb, cmdReset_of_busy hb⟩,
    fun s v hb => ?_⟩
  case status => simp [hostAccess, hostRead, State.regValue]
  case other => simp [hostAccess, hostRead, hb, hr]
  · rw [hostAccess_write_of_not_busy hb, hostWrite_cmd]
    exact ⟨fun h1 => by rw [if_pos h1], fun h1 h0 => by rw [h1, h0]; rfl, fun h1 h0 => by rw [h1, h0]; rfl⟩

/-! ## Registers while not BUSY (R21) -/

theorem hostAccess_read_of_not_busy {s : State} (h : s.busy = false) (r : HostReg) :
    hostAccess (.regRead r) s = .next { s with hostData := s.regValue r } := by
  simp [hostAccess, hostRead, h]

/-- CFG reads the bit that was written to it (R21). -/
theorem cfgWord_bit (v : Word) : BitVec.ofNat 32 (bitNat (bit v.toNat 0)) = v &&& 1 := by
  apply BitVec.eq_of_toNat_eq
  have hbit : bitNat (bit v.toNat 0) = v.toNat % 2 := by
    have := Nat.mod_two_eq_zero_or_one v.toNat
    unfold bitNat bit
    split <;> simp_all
  rw [hbit, BitVec.toNat_and, BitVec.toNat_ofNat]
  exact (Nat.mod_eq_of_lt (by omega)).trans (Nat.and_one_is_mod _).symm

theorem status_toNat (s : State) :
    s.status.toNat =
      (match s.phase with
      | .idle => 0
      | .magic | .frameHeader | .blockHeader | .block | .checksum => 1
      | .done => 2
      | .fault => 3) + 4 * (if s.cksumBad then 1 else 0) + 8 * (if s.huf.loaded then 1 else 0) := by
  unfold State.status
  cases s.phase <;> cases s.cksumBad <;> cases s.huf.loaded <;> rfl

theorem errWord_toNat (s : State) : s.errWord.toNat = s.errClass.toNat + 256 * s.errCode.toNat := by
  have hclass := s.errClass.isLt
  have hcode := s.errCode.isLt
  rw [State.errWord, BitVec.toNat_ofNat]
  omega

theorem cfgWord_toNat (s : State) : s.cfgWord.toNat = if s.cfgEnforce then 1 else 0 := by
  unfold State.cfgWord
  cases s.cfgEnforce <;> rfl

/-- Settles O5. -/
theorem hostRegistersReadBack : Obligations.HostRegistersReadBack := by
  refine ⟨fun s r v hb hr => ?_, fun s => ⟨rfl, status_toNat s, errWord_toNat s, cfgWord_toNat s⟩⟩
  rw [hostAccess_write_of_not_busy hb]
  cases r with
  | cmd => exact absurd rfl hr
  | cfg =>
    refine ⟨_, rfl, rfl, fun r' => ?_⟩
    rw [hostAccess_read_of_not_busy (by exact hb)]
    cases r' with
    | cfg =>
      exact congrArg (fun w => Host.Outcome.next { s with cfgEnforce := bit v.toNat 0, hostData := w }) (cfgWord_bit v)
    | _ => rfl
  | _ =>
    refine ⟨_, rfl, rfl, fun r' => ?_⟩
    rw [hostAccess_read_of_not_busy (by exact hb)]
    cases r' <;> rfl

end Sys2Proof.Machine
end

section
/-! PROOFS. What every step keeps while a command runs: the latches (R22, R26), the bounds and the direction of the cursors
(R24, R61), and HUF.LOADED but for the tree descriptions (R40, R207, R208). -/
namespace Sys2Proof.Machine

/-! ## Views and relations -/

/-- The command latches and the host's region and configuration registers (R22, R26). -/
def State.latches (s : State) : Addr × Addr × Addr × Addr × Bool × Word × Word × Word × Word × Bool :=
  (s.lInStart, s.lInEnd, s.lOutStart, s.lOutLimit, s.lEnforce, s.inStart, s.inEnd, s.outStart, s.outLimit, s.cfgEnforce)

/-- Neither cursor has moved back, and the bounds of the cursors hold. -/
def CursorStep (s t : State) : Prop := s.ip.toNat ≤ t.ip.toNat ∧ s.op.toNat ≤ t.op.toNat ∧ t.cursorsOk

/-- What an element or a transition does to the latches and, where `p` holds, to the cursors. -/
structure Moves (p : Prop) (s t : State) : Prop where
  latches : t.latches = s.latches
  cursors : p → CursorStep s t

/-- As `Moves`, and HUF.LOADED is left alone. -/
structure Keeps (p : Prop) (s t : State) : Prop extends Moves p s t where
  loaded : t.huf.loaded = s.huf.loaded

/-- The latches are as they were, and neither cursor has moved back. -/
def Advances (s t : State) : Prop :=
  t.latches = s.latches ∧ s.ip.toNat ≤ t.ip.toNat ∧ s.op.toNat ≤ t.op.toNat

/-- As `Advances`, and HUF.LOADED is left alone. -/
def AdvancesLoaded (s t : State) : Prop := Advances s t ∧ t.huf.loaded = s.huf.loaded

/-- An update that touches none of the fields these relations are about; `by rfl` once both states are known. -/
theorem AdvancesLoaded.of_eq {s t : State}
    (h : (t.latches, t.ip, t.op, t.huf.loaded) = (s.latches, s.ip, s.op, s.huf.loaded)) : AdvancesLoaded s t := by
  simp only [Prod.mk.injEq] at h
  obtain ⟨hl, hip, hop, hloaded⟩ := h
  exact ⟨⟨hl, by rw [hip], by rw [hop]⟩, hloaded⟩

theorem AdvancesLoaded.refl (s : State) : AdvancesLoaded s s := .of_eq rfl

theorem Advances.trans {s t u : State} (h : Advances s t) (k : Advances t u) : Advances s u :=
  ⟨k.1.trans h.1, h.2.1.trans k.2.1, h.2.2.trans k.2.2⟩

theorem AdvancesLoaded.trans {s t u : State} (h : AdvancesLoaded s t) (k : AdvancesLoaded t u) : AdvancesLoaded s u :=
  ⟨h.1.trans k.1, k.2.trans h.2⟩

theorem RaiseWrites.advances {s t : State} (h : RaiseWrites s t) : AdvancesLoaded s t := by
  have hloaded := h.loaded
  rw [h.eq] at hloaded ⊢
  exact ⟨⟨rfl, le_refl _, le_refl _⟩, hloaded⟩

theorem issueOk_of_nil {s : State} (h : s.issue = []) : s.issueOk := by
  intro i hi
  simp [h] at hi

/-- An engine that is not BUSY asks nothing of its cursors. -/
theorem cursorsOk_of_not_busy {s : State} (hi : s.issueOk) (hb : s.busy = false) : s.cursorsOk :=
  ⟨hi, fun h => by simp [hb] at h⟩

/-- Fault entry keeps both cursors (R372). -/
theorem Advances.faultEntry {s u : State} (e : ErrCode) (h : Advances s u) (p : Prop) : Moves p s (faultEntry e u) :=
  ⟨h.1, fun _ => ⟨h.2.1, h.2.2, cursorsOk_of_not_busy (issueOk_of_nil rfl) rfl⟩⟩

theorem AdvancesLoaded.faultEntry {s u : State} (e : ErrCode) (h : AdvancesLoaded s u) (p : Prop) :
    Keeps p s (faultEntry e u) := ⟨h.1.faultEntry e p, h.2⟩

theorem leads_raised_keeps {p : Prop} {s u : State} (e : ErrCode) (h : AdvancesLoaded s u) :
    Leads (Keeps p s) (raised e u) := .next (h.faultEntry e p)

theorem Run.Ends.leads {α : Type} {p : Prop} {s : State} {r : Run State α}
    (h : r.Ends (Keeps p s) (AdvancesLoaded s)) : Leads (Keeps p s) (finish r) := by
  cases h with
  | ok h => exact .next h
  | raise h => exact leads_raised_keeps _ h
  | stop => exact .fault

/-- What runs after an update that leaves HUF.LOADED alone and moves neither cursor back. -/
theorem Keeps.after {p q : Prop} {s u t : State} (h : Keeps p u t) (hs : AdvancesLoaded s u) (hp : q → p) :
    Keeps q s t := by
  obtain ⟨⟨hl, hip, hop⟩, hloaded⟩ := hs
  refine ⟨⟨h.latches.trans hl, fun hq => ?_⟩, h.loaded.trans hloaded⟩
  obtain ⟨kip, kop, hc⟩ := h.cursors (hp hq)
  exact ⟨hip.trans kip, hop.trans kop, hc⟩

theorem Keeps.mono {p q : Prop} {s t : State} (h : Keeps p s t) (hp : q → p) : Keeps q s t := h.after (.refl s) hp

theorem Leads.keepsAfter {p q : Prop} {s u : State} {o : Host.Outcome State Fault Refusal} (h : Leads (Keeps p u) o)
    (hs : AdvancesLoaded s u) (hp : q → p) : Leads (Keeps q s) o := h.mono fun _ ht => ht.after hs hp

/-- Two pieces of pseudocode, where the first one leads to what the second one asks. -/
theorem Run.Ends.bindKeeps {α β : Type} {q : Prop} {p : State → Prop} {s : State} {r : Run State α}
    {f : α → State → Run State β}
    (h : r.Ends (fun t => AdvancesLoaded s t ∧ (q → p t)) (AdvancesLoaded s))
    (hf : ∀ a t, (f a t).Ends (Keeps (p t) t) (AdvancesLoaded t)) : (r.bind f).Ends (Keeps q s) (AdvancesLoaded s) :=
  h.bind fun a t ⟨ht, hp⟩ => (hf a t).mono (fun _ hu => hu.after ht hp) fun _ hu => ht.trans hu

/-! ## Where the engine is -/

/-- The place of the engine that reads an element in position `c` (R250, R255, R296). -/
def State.placed (s : State) (c : Ctx) : Prop :=
  match c with
  | .magic => s.phase = .magic
  | .fhd => s.phase = .frameHeader
  | .wd => s.phase = .frameHeader ∧ s.sub = .wd
  | .did _ => s.phase = .frameHeader ∧ s.sub = .did
  | .fcs _ => s.phase = .frameHeader ∧ s.sub = .fcs
  | .blk => s.phase = .blockHeader
  | .checksum => s.phase = .checksum
  | .htree => s.phase = .block ∧ s.sub = .htree
  | .jump => s.phase = .block ∧ s.sub = .jump
  | .lith | .seqn | .seqm | .mode _ | .rlesym _ | .fsedesc _ => s.phase = .block
  | .uop | .host => False

theorem placed_of_nextCtx {s : State} {c : Ctx} (h : s.nextCtx = some c) : s.placed c := by
  unfold State.nextCtx at h
  cases hp : s.phase with
  | idle | done | fault => simp [hp] at h
  | magic | blockHeader | checksum =>
    simp only [hp, Option.some.injEq] at h
    subst h
    exact hp
  | frameHeader =>
    cases hs : s.sub with
    | did | fcs =>
      simp only [hp, hs, Option.map_eq_some_iff] at h
      obtain ⟨_, _, rfl⟩ := h
      exact ⟨hp, hs⟩
    | wd =>
      simp only [hp, hs, Option.some.injEq] at h
      subst h
      exact ⟨hp, hs⟩
    | _ =>
      simp only [hp, hs, Option.some.injEq] at h
      subst h
      exact hp
  | block =>
    cases hs : s.sub with
    | litEnd | prime | seqCount | blkEnd => simp [hp, hs] at h
    | htree | jump =>
      simp only [hp, hs, Option.some.injEq] at h
      subst h
      exact ⟨hp, hs⟩
    | _ =>
      simp only [hp, hs, Option.some.injEq] at h
      subst h
      exact hp

/-- Both cursors lie in the command's regions, and the frame's output start below OP (R24, R61). -/
structure State.Within (s : State) : Prop where
  issue : s.issueOk
  inStart : s.lInStart.toNat ≤ s.ip.toNat
  inEnd : s.ip.toNat ≤ s.lInEnd.toNat
  outStart : s.lOutStart.toNat ≤ s.op.toNat
  outLimit : s.op.toNat ≤ s.lOutLimit.toNat
  frameStart : s.lOutStart.toNat ≤ s.frameOutStart.toNat
  frameOp : s.frameOutStart.toNat ≤ s.op.toNat

/-- The engine is inside a compressed block, with IP below `BLK.END` (R61, R260). -/
structure State.InBlock (s : State) : Prop extends s.Within where
  phase : s.phase = .block
  limit : s.ip.toNat ≤ s.blk.limit.toNat
  limitEnd : s.blk.limit.toNat ≤ s.lInEnd.toNat

/-- The engine stands where it reads the element of position `c`, and the bounds of the cursors hold. -/
def State.At (s : State) (c : Ctx) : Prop := s.cursorsOk ∧ s.nextCtx = some c

theorem within_of_cursorsOk {s : State} (h : s.cursorsOk) (hb : s.busy = true) (hm : s.phase ≠ .magic) : s.Within := by
  obtain ⟨hi, hc⟩ := h
  obtain ⟨h1, h2, h3, h4, h5, _, _⟩ := hc hb
  obtain ⟨h6, h7⟩ := h5 hm
  exact ⟨hi, h1, h2, h3, h4, h6, h7⟩

theorem inBlock_of_cursorsOk {s : State} (h : s.cursorsOk) (hp : s.phase = .block) : s.InBlock := by
  have hb : s.busy = true := by simp [State.busy, hp, Phase.busy]
  have hw := within_of_cursorsOk h hb (by simp [hp])
  obtain ⟨_, hc⟩ := h
  obtain ⟨_, _, _, _, _, _, hblock⟩ := hc hb
  obtain ⟨h1, h2, _, _⟩ := hblock hp
  exact ⟨hw, hp, h1, h2⟩

/-- The literals body ends between IP and `BLK.END` while it is read (R296). -/
theorem litLim_of_cursorsOk {s : State} (h : s.cursorsOk) (hp : s.phase = .block)
    (hs : s.sub = .htree ∨ s.sub = .jump ∨ s.sub = .litEnd) :
    s.ip.toNat ≤ s.litLim.toNat ∧ s.litLim.toNat ≤ s.blk.limit.toNat := by
  obtain ⟨_, hc⟩ := h
  obtain ⟨_, _, _, _, _, _, hblock⟩ := hc (by simp [State.busy, hp, Phase.busy])
  obtain ⟨_, _, _, hbody⟩ := hblock hp
  exact hbody hs

/-- The body of a literals section with a tree begins at IP (R296). -/
theorem litComp_of_cursorsOk {s : State} (h : s.cursorsOk) (hp : s.phase = .block) (hs : s.sub = .htree) :
    s.ip.toNat + s.lit.comp.toNat = s.litLim.toNat := by
  obtain ⟨_, hc⟩ := h
  obtain ⟨_, _, _, _, _, _, hblock⟩ := hc (by simp [State.busy, hp, Phase.busy])
  obtain ⟨_, _, htree, _⟩ := hblock hp
  exact htree hs

/-- The whole frame header lies in the input while its optional fields are read (R255). -/
theorem header_of_cursorsOk {s : State} (h : s.cursorsOk) (hp : s.phase = .frameHeader)
    (hs : s.sub = .wd ∨ s.sub = .did ∨ s.sub = .fcs) : s.ip.toNat + headerSize s.fhdByte ≤ s.lInEnd.toNat := by
  obtain ⟨_, hc⟩ := h
  obtain ⟨_, _, _, _, _, hheader, _⟩ := hc (by simp [State.busy, hp, Phase.busy])
  exact hheader hp hs

/-- The bounds hold again once both cursors have moved forward below their limits. -/
theorem State.Within.step {s t : State} (h : s.Within) (hl : t.latches = s.latches)
    (hf : t.frameOutStart = s.frameOutStart) (hi : t.issueOk) (hip : s.ip.toNat ≤ t.ip.toNat)
    (hend : t.ip.toNat ≤ s.lInEnd.toNat) (hop : s.op.toNat ≤ t.op.toNat) (hlim : t.op.toNat ≤ s.lOutLimit.toNat)
    (hh : t.headerOk) (hb : t.blockOk) : CursorStep s t := by
  obtain ⟨_, h1, _, h3, _, h5, h6⟩ := h
  simp only [State.latches, Prod.mk.injEq] at hl
  obtain ⟨e1, e2, e3, e4, _⟩ := hl
  refine ⟨hip, hop, hi, fun _ => ⟨?_, ?_, ?_, ?_, fun _ => ⟨?_, ?_⟩, hh, hb⟩⟩
  all_goals
    simp only [e1, e2, e3, e4, hf]
    omega

/-- As `Within.step`, to a phase that asks nothing more. -/
theorem State.Within.stepOut {s t : State} (h : s.Within) (hl : t.latches = s.latches)
    (hf : t.frameOutStart = s.frameOutStart) (hi : t.issueOk) (hip : s.ip.toNat ≤ t.ip.toNat)
    (hend : t.ip.toNat ≤ s.lInEnd.toNat) (hop : s.op.toNat ≤ t.op.toNat) (hlim : t.op.toNat ≤ s.lOutLimit.toNat)
    (hp : t.phase ≠ .frameHeader ∧ t.phase ≠ .block) : CursorStep s t :=
  h.step hl hf hi hip hend hop hlim (fun h => absurd h hp.1) fun h => absurd h hp.2

/-- What stays while the engine is inside a compressed block. -/
def State.blockView (s : State) := (s.latches, s.op, s.phase, s.frameOutStart, s.blk.limit)

/-- Inside a block: IP moves forward below `BLK.END`, and the literals body nests where it is read (R61, R260, R296). -/
theorem State.InBlock.step {s t : State} (h : s.InBlock) (hv : t.blockView = s.blockView) (hi : t.issueOk)
    (hip : s.ip.toNat ≤ t.ip.toNat) (hlim : t.ip.toNat ≤ s.blk.limit.toNat)
    (htree : t.sub = .htree → t.ip.toNat + t.lit.comp.toNat = t.litLim.toNat)
    (hbody : t.sub = .htree ∨ t.sub = .jump ∨ t.sub = .litEnd →
      t.ip.toNat ≤ t.litLim.toNat ∧ t.litLim.toNat ≤ s.blk.limit.toNat) : CursorStep s t := by
  obtain ⟨hw, hp, _, hend⟩ := h
  simp only [State.blockView, Prod.mk.injEq] at hv
  obtain ⟨hl, hop, hphase, hf, hblk⟩ := hv
  have hinEnd : t.lInEnd = s.lInEnd := by
    simp only [State.latches, Prod.mk.injEq] at hl
    exact hl.2.1
  refine hw.step hl hf hi hip (by omega) (by rw [hop]) (by rw [hop]; exact hw.outLimit) (fun h => ?_) fun _ => ?_
  · simp [hphase, hp] at h
  · rw [hblk, hinEnd]
    exact ⟨hlim, hend, htree, hbody⟩

/-- The places where the literals body is read (R296). -/
def Sub.inBody : Sub → Bool
  | .htree | .jump | .litEnd => true
  | .start | .wd | .did | .fcs | .seqn | .seqm | .mode _ | .rlesym _ | .fsedesc _ | .prime | .seqCount | .blkEnd => false

/-- As `InBlock.step`, to a place outside the literals body. -/
theorem State.InBlock.stepOutside {s t : State} (h : s.InBlock) (hv : t.blockView = s.blockView) (hi : t.issueOk)
    (hip : s.ip.toNat ≤ t.ip.toNat) (hlim : t.ip.toNat ≤ s.blk.limit.toNat) (hs : t.sub.inBody = false) :
    CursorStep s t := by
  refine h.step hv hi hip hlim (fun h => ?_) fun h => ?_
  · simp [h, Sub.inBody] at hs
  · obtain h | h | h := h <;> simp [h, Sub.inBody] at hs

/-! ## Latches and issue after the shared transitions -/

@[simp] theorem latches_engNext (s : State) : (engNext s).latches = s.latches := by simp [State.latches]

@[simp] theorem latches_blockEnd (s : State) : (blockEnd s).latches = s.latches := by simp [State.latches]

@[simp] theorem latches_litStreams (s : State) : (litStreams s).latches = s.latches := by simp [State.latches]

@[simp] theorem latches_nextTable (x : Alphabet) (s : State) : (nextTable x s).latches = s.latches := by
  simp [State.latches]

@[simp] theorem latches_seqLoop (s : State) : (seqLoop s).latches = s.latches := by simp [State.latches]

theorem issueOk_engNext {s : State} (h : s.issueOk) : (engNext s).issueOk := by
  rw [State.issueOk, engNext_issue]
  exact h

theorem issueOk_blockEnd {s : State} (h : s.issueOk) : (blockEnd s).issueOk := by
  rw [State.issueOk, blockEnd_issue]
  exact h

theorem issueOk_litStreams {s : State} (h : s.issueOk) : (litStreams s).issueOk := by
  unfold litStreams
  split
  · simp [State.issueOk, Instr.isUnitOp]
  · exact h

theorem issueOk_nextTable (x : Alphabet) {s : State} (h : s.issueOk) : (nextTable x s).issueOk := by
  cases x with
  | ll => exact h
  | of => exact h
  | ml => simp [nextTable, State.issueOk, Instr.isUnitOp]

theorem issueOk_seqLoop (s : State) : (seqLoop s).issueOk := by
  unfold seqLoop
  split <;> simp [State.issueOk, Instr.isUnitOp]

theorem engNext_leaves_header (s : State) : (engNext s).phase ≠ .frameHeader ∧ (engNext s).phase ≠ .block := by
  rw [engNext_phase]
  split <;> simp

theorem blockEnd_leaves_block (s : State) : (blockEnd s).phase ≠ .frameHeader ∧ (blockEnd s).phase ≠ .block := by
  rw [blockEnd_phase]
  split
  · split
    · simp
    · exact engNext_leaves_header s
  · simp

/-- The end of a block, after the cursors have moved forward below their limits (R250, R267). -/
theorem State.Within.blockEnd {s u : State} (h : s.Within) (hl : u.latches = s.latches)
    (hf : u.frameOutStart = s.frameOutStart) (hi : u.issueOk) (hip : s.ip.toNat ≤ u.ip.toNat)
    (hend : u.ip.toNat ≤ s.lInEnd.toNat) (hop : s.op.toNat ≤ u.op.toNat) (hlim : u.op.toNat ≤ s.lOutLimit.toNat) :
    CursorStep s (blockEnd u) :=
  h.stepOut (by simpa using hl) (by simpa using hf) (issueOk_blockEnd hi) (by simpa using hip) (by simpa using hend)
    (by simpa using hop) (by simpa using hlim) (blockEnd_leaves_block u)

/-! ## Frame elements (R253 to R255, R266) -/

theorem need_of_not {s : State} {n : Nat} {lim : Addr} (h : ¬ (!s.need n lim) = true) : s.need n lim = true := by
  simpa using h

theorem magic_keeps (s : State) : Leads (Keeps (s.At .magic) s) (execMagic s) := by
  unfold execMagic
  dsimp only
  split
  case isTrue hneed =>
    refine .next ⟨⟨rfl, fun ⟨hc, hn⟩ => ?_⟩, rfl⟩
    have hp : s.phase = .magic := placed_of_nextCtx hn
    obtain ⟨hi, hc⟩ := hc
    obtain ⟨h1, h2, h3, h4, _⟩ := hc (by simp [State.busy, hp, Phase.busy])
    have hend : s.ip.toNat + 4 ≤ s.lInEnd.toNat := (need_iff _ _ _).mp hneed
    have hip : (s.advance 4).ip.toNat = s.ip.toNat + 4 := toNat_add_of_le hend
    have hle : s.ip.toNat ≤ (s.advance 4).ip.toNat := by omega
    exact ⟨hle, le_refl _, hi, fun _ => ⟨h1.trans hle, hip.trans_le hend, h3, h4, fun _ => ⟨h3, le_refl _⟩, nofun, nofun⟩⟩
  · exact leads_raised_keeps _ (.of_eq (by rfl))

theorem magicLegacy_keeps (s : State) : Leads (Keeps (s.At .magic) s) (execMagicLegacy s) := by
  unfold execMagicLegacy
  dsimp only
  split
  · exact leads_raised_keeps _ (.of_eq (by rfl))
  · exact leads_raised_keeps _ (.of_eq (by rfl))

/-- The frame header that is being read lies in the input (R255). -/
structure State.InHeader (s : State) : Prop extends s.Within where
  phase : s.phase = .frameHeader
  fits : s.ip.toNat + headerSize s.fhdByte ≤ s.lInEnd.toNat

theorem inHeader_of_at {s : State} {c : Ctx} (h : s.At c) (hp : s.phase = .frameHeader)
    (hs : s.sub = .wd ∨ s.sub = .did ∨ s.sub = .fcs) : s.InHeader :=
  ⟨within_of_cursorsOk h.1 (by simp [State.busy, hp, Phase.busy]) (by simp [hp]), hp, header_of_cursorsOk h.1 hp hs⟩

theorem State.InHeader.withFh {s : State} (h : s.InHeader) (fh : FrameRegs) : State.InHeader { s with fh := fh } :=
  ⟨⟨h.1.1, h.1.2, h.1.3, h.1.4, h.1.5, h.1.6, h.1.7⟩, h.2, h.3⟩

/-- From one optional field of the header to the next. -/
theorem State.InHeader.next {s t : State} (h : s.InHeader)
    (ht : t = { s with fh := t.fh, sub := t.sub }) : CursorStep s t := by
  obtain ⟨hw, hp, hfits⟩ := h
  rw [ht]
  refine hw.step rfl rfl hw.issue (le_refl _) hw.inEnd (le_refl _) hw.outLimit (fun _ _ => hfits) fun h => ?_
  simp [hp] at h

theorem headerEnd_keeps (s : State) : Leads (Keeps s.InHeader s) (headerEnd s) := by
  unfold headerEnd
  split
  · exact leads_raised_keeps _ (.refl s)
  · refine .next ⟨⟨rfl, fun ⟨hw, hp, hfits⟩ => ?_⟩, rfl⟩
    have hip : (s.advance (headerSize s.fhdByte)).ip.toNat = s.ip.toNat + headerSize s.fhdByte := toNat_add_of_le hfits
    refine hw.stepOut rfl rfl hw.issue ?_ ?_ (le_refl _) hw.outLimit ⟨nofun, nofun⟩
    · exact le_trans (by omega) hip.ge
    · exact hip.trans_le hfits

theorem headerContent_keeps (s : State) : Leads (Keeps s.InHeader s) (headerContent s) := by
  unfold headerContent
  split
  · exact (headerEnd_keeps _).keepsAfter (.of_eq (by rfl)) fun h => h.withFh _
  · exact .next ⟨⟨rfl, fun h => h.next rfl⟩, rfl⟩

theorem headerDict_keeps (s : State) : Leads (Keeps s.InHeader s) (headerDict s) := by
  unfold headerDict
  split
  · exact (headerContent_keeps _).keepsAfter (.of_eq (by rfl)) fun h => h.withFh _
  · exact .next ⟨⟨rfl, fun h => h.next rfl⟩, rfl⟩

theorem fhd_keeps (csel : BitVec 2) (ss : Bool) (ign : BitVec 2) (ck : Bool) (dsel : BitVec 2) (s : State) :
    Leads (Keeps (s.At .fhd) s) (execFhd csel ss ign ck dsel s) := by
  unfold execFhd
  dsimp only
  split
  · exact leads_raised_keeps _ (.refl s)
  · split
    · exact leads_raised_keeps _ (.refl s)
    case isFalse hneed =>
      have hfits := (need_iff _ _ _).mp (need_of_not hneed)
      have hin (h : s.At .fhd) : State.InHeader
          { s with fhdByte := fhdByteOf csel ss ign ck dsel, fh := { s.fh with windowValid := !ss } } := by
        have hp : s.phase = .frameHeader := placed_of_nextCtx h.2
        have hw := within_of_cursorsOk h.1 (by simp [State.busy, hp, Phase.busy]) (by simp [hp])
        exact ⟨⟨hw.1, hw.2, hw.3, hw.4, hw.5, hw.6, hw.7⟩, hp, hfits⟩
      split
      · exact (headerDict_keeps _).keepsAfter (.of_eq (by rfl)) hin
      · exact .next ⟨⟨rfl, fun h => (hin h).next rfl⟩, rfl⟩

theorem wd_keeps (e : BitVec 5) (m : BitVec 3) (s : State) : Leads (Keeps (s.At .wd) s) (execWd e m s) := by
  refine (headerDict_keeps _).keepsAfter (.of_eq (by rfl)) fun h => ?_
  obtain ⟨hp, hs⟩ : s.phase = .frameHeader ∧ s.sub = .wd := placed_of_nextCtx h.2
  exact (inHeader_of_at h hp (.inl hs)).withFh _

theorem did_keeps (n : DidLen) (v : BitVec 32) (s : State) : Leads (Keeps (s.At (.did n)) s) (execDid n v s) :=
  leads_raised_keeps _ (.of_eq (by rfl))

theorem fcs_keeps (n : FcsLen) (v : BitVec 64) (s : State) : Leads (Keeps (s.At (.fcs n)) s) (execFcs n v s) := by
  refine (headerEnd_keeps _).keepsAfter (.of_eq (by rfl)) fun h => ?_
  obtain ⟨hp, hs⟩ : s.phase = .frameHeader ∧ s.sub = .fcs := placed_of_nextCtx h.2
  exact (inHeader_of_at h hp (.inr (.inr hs))).withFh _

/-- The end of a frame after a checksum (R266, R267). -/
theorem State.Within.engNext {s u : State} (h : s.Within) (hl : u.latches = s.latches)
    (hf : u.frameOutStart = s.frameOutStart) (hi : u.issueOk) (hip : s.ip.toNat ≤ u.ip.toNat)
    (hend : u.ip.toNat ≤ s.lInEnd.toNat) (hop : u.op = s.op) : CursorStep s (engNext u) :=
  h.stepOut (by simpa using hl) (by simpa using hf) (issueOk_engNext hi) (by simpa using hip) (by simpa using hend)
    (by simp [hop]) (by simpa [hop] using h.outLimit) (engNext_leaves_header u)

theorem checksum_keeps (v : BitVec 32) (s : State) : Leads (Keeps (s.At .checksum) s) (execChecksum v s) := by
  unfold execChecksum
  dsimp only
  split
  · exact leads_raised_keeps _ (.refl s)
  case isFalse hneed =>
    have hend := (need_iff _ _ _).mp (need_of_not hneed)
    have hip : (s.advance 4).ip.toNat = s.ip.toNat + 4 := toNat_add_of_le hend
    have hw (h : s.At .checksum) : s.Within := by
      have hp : s.phase = .checksum := placed_of_nextCtx h.2
      exact within_of_cursorsOk h.1 (by simp [State.busy, hp, Phase.busy]) (by simp [hp])
    have hle : s.ip.toNat ≤ (s.advance 4).ip.toNat := by omega
    have hdone (u : State) (hu : u = { s with xxh := u.xxh, cksumBad := u.cksumBad }) :
        Keeps (s.At .checksum) s (engNext (u.advance 4)) := by
      rw [hu]
      refine ⟨⟨by rw [latches_engNext]; rfl, fun h => ?_⟩, by rw [engNext_huf]; rfl⟩
      exact (hw h).engNext rfl rfl (hw h).issue hle (hip.trans_le hend) rfl
    split
    · exact .next (hdone _ rfl)
    · split
      · exact leads_raised_keeps _ (.of_eq (by rfl))
      · exact .next (hdone _ rfl)

/-! ## Blocks (R257 to R260) -/

/-- What the body of a block may count on once its header is read. -/
def State.AtBody (s : State) : Prop := s.Within ∧ s.phase = .block

theorem blockHeader_ends (typ : BitVec 2) (last : Bool) (size : BitVec 21) (s : State) :
    (blockHeader typ last size s).Ends (fun t => AdvancesLoaded s t ∧ (s.At .blk → t.AtBody)) (AdvancesLoaded s) := by
  unfold blockHeader
  dsimp only
  split
  · exact .raise (.refl s)
  case isFalse hneed =>
    have hend := (need_iff _ _ _).mp (need_of_not hneed)
    have hip : (s.advance 3).ip.toNat = s.ip.toNat + 3 := toNat_add_of_le hend
    have hle : s.ip.toNat ≤ (s.advance 3).ip.toNat := by omega
    split
    · exact .raise (.of_eq (by rfl))
    · split
      · exact .raise (.of_eq (by rfl))
      · refine .ok ⟨⟨⟨rfl, hle, le_refl _⟩, rfl⟩, fun h => ⟨?_, rfl⟩⟩
        have hp : s.phase = .blockHeader := placed_of_nextCtx h.2
        have hw := within_of_cursorsOk h.1 (by simp [State.busy, hp, Phase.busy]) (by simp [hp])
        exact ⟨hw.1, hw.2.trans hle, hip.trans_le hend, hw.4, hw.5, hw.6, hw.7⟩

/-- The end of a block that took `m` bytes of IN and produced `n` bytes of OUT (R258, R259). -/
theorem keeps_blockEnd {s u : State} {m n : Nat} (src : Memory → Nat → Byte)
    (hin : s.ip.toNat + m ≤ s.lInEnd.toNat) (hout : s.op.toNat + n ≤ s.lOutLimit.toNat)
    (hu : u = { (s.produce src n).advance m with blk := u.blk }) : Keeps s.AtBody s (blockEnd u) := by
  have hip := toNat_add_of_le hin
  have hop := toNat_add_of_le hout
  rw [hu]
  refine ⟨⟨by rw [latches_blockEnd]; rfl, fun ⟨hw, _⟩ => ?_⟩, by rw [blockEnd_huf]; rfl⟩
  refine hw.blockEnd rfl rfl hw.issue ?_ (hip.trans_le hin) ?_ (hop.trans_le hout)
  · exact (Nat.le_add_right _ _).trans hip.ge
  · exact (Nat.le_add_right _ _).trans hop.ge

theorem rawBlock_ends (s : State) : (rawBlock s).Ends (Keeps s.AtBody s) (AdvancesLoaded s) := by
  unfold rawBlock
  dsimp only
  split
  · exact .raise (.refl s)
  case isFalse hneed =>
    split
    · exact .raise (.refl s)
    case isFalse hroom =>
      exact .ok (keeps_blockEnd (fun out i => s.inByteOver out (s.ip.toNat + i))
        ((need_iff _ _ _).mp (need_of_not hneed)) ((room_iff s _).mp (by simpa using hroom)) rfl)

theorem rleBlock_ends (s : State) : (rleBlock s).Ends (Keeps s.AtBody s) (AdvancesLoaded s) := by
  unfold rleBlock
  dsimp only
  split
  · exact .raise (.refl s)
  case isFalse hneed =>
    split
    · exact .raise (.refl s)
    case isFalse hroom =>
      exact .ok (keeps_blockEnd (fun _ _ => s.inByte s.ip.toNat) ((need_iff _ _ _).mp (need_of_not hneed))
        ((room_iff s _).mp (by simpa using hroom)) rfl)

theorem cmpBlock_ends (s : State) : (cmpBlock s).Ends (Keeps s.AtBody s) (AdvancesLoaded s) := by
  unfold cmpBlock
  dsimp only
  split
  · exact .raise (.refl s)
  case isFalse hneed =>
    have hend := (need_iff _ _ _).mp (need_of_not hneed)
    have hlim := toNat_add_of_le hend
    refine .ok ⟨⟨rfl, fun ⟨hw, hp⟩ => ?_⟩, rfl⟩
    refine hw.step rfl rfl hw.issue (le_refl _) hw.inEnd (le_refl _) hw.outLimit (fun h => ?_) fun _ => ?_
    · exact absurd (hp.symm.trans h) (by decide)
    · exact ⟨(Nat.le_add_right _ _).trans hlim.ge, hlim.trans_le hend, nofun, by simp⟩

theorem blkRsv_keeps (last : Bool) (size : BitVec 21) (s : State) :
    Leads (Keeps (s.At .blk) s) (execBlkRsv last size s) := by
  have hends := blockHeader_ends 3 last size s
  unfold execBlkRsv
  cases hr : blockHeader 3 last size s with
  | ok _ t =>
    obtain ⟨_, _, h3, _⟩ := blockHeader_ok hr
    exact absurd rfl h3
  | raise e t =>
    rw [hr] at hends
    cases hends with
    | raise h => exact leads_raised_keeps e h
  | stop x => exact .fault

/-! ## Literals (R291 to R296) -/

theorem inBlock_of_at {s : State} {c : Ctx} (h : s.At c) (hp : s.phase = .block) : s.InBlock :=
  inBlock_of_cursorsOk h.1 hp

/-- What the body of a literals section may count on once its header is read: a Huffman body lies inside the block. -/
def State.AtLiterals (huffman : Prop) (s : State) : Prop :=
  s.InBlock ∧ (huffman → s.ip.toNat + s.lit.comp.toNat ≤ s.blk.limit.toNat)

/-- IP moved forward inside a block. -/
theorem State.InBlock.forward {s t : State} (h : s.InBlock) (hv : t.blockView = s.blockView) (hi : t.issue = s.issue)
    (hip : s.ip.toNat ≤ t.ip.toNat) (hlim : t.ip.toNat ≤ s.blk.limit.toNat) : t.InBlock := by
  obtain ⟨⟨h1, h2, _, h4, h5, h6, h7⟩, hp, _, hend⟩ := h
  simp only [State.blockView, State.latches, Prod.mk.injEq] at hv
  obtain ⟨⟨e1, e2, e3, e4, _⟩, hop, hphase, hf, hblk⟩ := hv
  refine ⟨⟨?_, ?_, ?_, ?_, ?_, ?_, ?_⟩, hphase.trans hp, ?_, ?_⟩
  · rw [State.issueOk, hi]
    exact h1
  all_goals
    simp only [e1, e2, e3, e4, hf, hop, hblk]
    omega

theorem litHeader_ends (typ fmt : BitVec 2) (hs : Nat) (regen : BitVec 20) (comp : BitVec 18) (single : Bool) (s : State) :
    (litHeader typ fmt hs regen comp single s).Ends
      (fun t => AdvancesLoaded s t ∧ (s.At .lith → t.AtLiterals (2 ≤ typ.toNat))) (AdvancesLoaded s) := by
  cases hr : litHeader typ fmt hs regen comp single s with
  | ok _ t =>
    obtain ⟨rfl, hlim, _, hbody, _⟩ := litHeader_ok hr
    have hip : (s.advance hs).ip.toNat = s.ip.toNat + hs := toNat_add_of_le hlim
    have hle : s.ip.toNat ≤ (s.advance hs).ip.toNat := by omega
    refine .ok ⟨⟨⟨rfl, hle, le_refl _⟩, rfl⟩, fun h => ⟨?_, fun h2 => ?_⟩⟩
    · exact (inBlock_of_at h (placed_of_nextCtx h.2)).forward rfl rfl hle (hip.trans_le hlim)
    · exact (congrArg (· + comp.toNat) hip).trans_le (hbody h2)
  | raise e t =>
    refine .raise ?_
    unfold litHeader at hr
    dsimp only at hr
    repeat' split at hr
    all_goals cases hr
    all_goals exact .of_eq (by rfl)
  | stop x => exact .stop

/-- An element inside a block that moves IP past `n` bytes below `BLK.END` and leaves the literals body alone. -/
theorem State.InBlock.keeps {s t : State} {n : Nat} (hv : t.blockView = s.blockView) (hi : s.issueOk → t.issueOk)
    (hip : t.ip = (s.advance n).ip) (hlim : s.InBlock → s.ip.toNat + n ≤ s.blk.limit.toNat) (hs : t.sub.inBody = false)
    (hloaded : t.huf.loaded = s.huf.loaded) : Keeps s.InBlock s t := by
  have hl : t.latches = s.latches := by
    simp only [State.blockView, Prod.mk.injEq] at hv
    exact hv.1
  refine ⟨⟨hl, fun h => ?_⟩, hloaded⟩
  have hend := hlim h
  have hadd : t.ip.toNat = s.ip.toNat + n := (congrArg BitVec.toNat hip).trans (toNat_add_of_le hend)
  exact h.stepOutside hv (hi h.issue) (by omega) (by omega) hs

theorem litRaw_ends (s : State) : (litRaw s).Ends (Keeps s.InBlock s) (AdvancesLoaded s) := by
  unfold litRaw
  dsimp only
  split
  · exact .raise (.refl s)
  case isFalse hneed =>
    have hlim := (need_iff _ _ _).mp (need_of_not hneed)
    split
    · exact .ok (State.InBlock.keeps rfl id rfl (fun _ => hlim) rfl rfl)
    · exact .ok (State.InBlock.keeps rfl id rfl (fun _ => hlim) rfl rfl)

theorem litRle_ends (s : State) : (litRle s).Ends (Keeps s.InBlock s) (AdvancesLoaded s) := by
  unfold litRle
  dsimp only
  split
  · exact .raise (.refl s)
  case isFalse hneed =>
    exact .ok (State.InBlock.keeps rfl id rfl (fun _ => (need_iff _ _ _).mp (need_of_not hneed)) rfl rfl)

@[simp] theorem blockView_litStreams (s : State) : (litStreams s).blockView = s.blockView := by simp [State.blockView]

theorem litStreams_sub_ne_htree (s : State) : (litStreams s).sub ≠ .htree := by
  unfold litStreams
  split <;> simp

/-- The streams are next: IP has moved forward and the body ends inside the block (R296). -/
theorem State.InBlock.litStreams {s u : State} (h : s.InBlock) (hv : u.blockView = s.blockView) (hi : u.issue = s.issue)
    (hip : s.ip.toNat ≤ u.ip.toNat) (hbody : u.ip.toNat ≤ u.litLim.toNat) (hlim : u.litLim.toNat ≤ s.blk.limit.toNat) :
    CursorStep s (litStreams u) := by
  have hissue : u.issueOk := by
    rw [State.issueOk, hi]
    exact h.issue
  refine h.step (by rw [blockView_litStreams, hv]) (issueOk_litStreams hissue) ?_ ?_ ?_ fun _ => ?_
  · rw [litStreams_ip]
    exact hip
  · rw [litStreams_ip]
    exact hbody.trans hlim
  · exact fun h => absurd h (litStreams_sub_ne_htree u)
  · rw [litStreams_ip, litStreams_litLim]
    exact ⟨hbody, hlim⟩

theorem litHuf_keeps (tree : Bool) (s : State) : Keeps (s.AtLiterals True) s (litHuf tree s) := by
  unfold litHuf
  dsimp only
  split
  · refine ⟨⟨rfl, fun ⟨h, hbody⟩ => ?_⟩, rfl⟩
    have hlim := toNat_add_of_le (hbody trivial)
    have hle : s.ip.toNat ≤ s.ip.toNat + s.lit.comp.toNat := Nat.le_add_right _ _
    exact h.step rfl h.issue (le_refl _) h.limit (fun _ => hlim.symm) fun _ =>
      ⟨hle.trans hlim.ge, hlim.trans_le (hbody trivial)⟩
  · refine ⟨⟨by rw [latches_litStreams]; rfl, fun ⟨h, hbody⟩ => ?_⟩, by rw [litStreams_huf]⟩
    have hlim := toNat_add_of_le (hbody trivial)
    exact h.litStreams rfl rfl (le_refl _) ((Nat.le_add_right _ _).trans hlim.ge) (hlim.trans_le (hbody trivial))

theorem litRawSection_keeps (fmt : BitVec 2) (hs : Nat) (regen : BitVec 20) (s : State) :
    Leads (Keeps (s.At .lith) s) (litRawSection fmt hs regen s) :=
  ((litHeader_ends _ _ _ _ _ _ s).bindKeeps fun _ t => (litRaw_ends t).mono (fun _ h => h.mono And.left) fun _ h => h).leads

theorem litRleSection_keeps (fmt : BitVec 2) (hs : Nat) (regen : BitVec 20) (s : State) :
    Leads (Keeps (s.At .lith) s) (litRleSection fmt hs regen s) :=
  ((litHeader_ends _ _ _ _ _ _ s).bindKeeps fun _ t => (litRle_ends t).mono (fun _ h => h.mono And.left) fun _ h => h).leads

theorem litHufSection_keeps (fmt : BitVec 2) (hs : Nat) (regen : BitVec 20) (comp : BitVec 18) (s : State) :
    Leads (Keeps (s.At .lith) s) (litHufSection fmt hs regen comp s) :=
  ((litHeader_ends _ _ _ _ _ _ s).bindKeeps fun _ t =>
    .ok ((litHuf_keeps true t).mono fun h => ⟨h.1, fun _ => h.2 (by decide)⟩)).leads

theorem litRepSection_keeps (fmt : BitVec 2) (hs : Nat) (regen : BitVec 20) (comp : BitVec 18) (s : State) :
    Leads (Keeps (s.At .lith) s) (litRepSection fmt hs regen comp s) :=
  ((litHeader_ends _ _ _ _ _ _ s).bindKeeps fun _ t =>
    .ok ((litHuf_keeps false t).mono fun h => ⟨h.1, fun _ => h.2 (by decide)⟩)).leads

theorem jump_keeps (len1 len2 len3 : BitVec 16) (s : State) :
    Leads (Keeps (s.At .jump) s) (execJump len1 len2 len3 s) := by
  unfold execJump
  split
  · exact leads_raised_keeps _ (.refl s)
  · refine Run.Ends.leads (((stateHufDec4Streams_writes s _ _ _ _ _ _).mono (fun _ h => h) fun _ h => h.advances).bind
      fun _ t ⟨_, _, ht⟩ => .ok ?_)
    subst ht
    refine ⟨⟨rfl, fun h => ?_⟩, rfl⟩
    obtain ⟨hp, hs⟩ : s.phase = .block ∧ s.sub = .jump := placed_of_nextCtx h.2
    have hb := inBlock_of_at h hp
    obtain ⟨hlo, hhi⟩ := litLim_of_cursorsOk h.1 hp (.inr (.inl hs))
    exact hb.stepOutside rfl hb.issue hlo hhi rfl

/-! ## Tree descriptions (R201, R207, R208, R296) -/

theorem hufInstall_used {n used m : Nat} {s t : State} (h : hufInstall n used s = .ok m t) : m = used := by
  obtain ⟨_, _, _, h⟩ := bind_eq_ok.mp h
  cases h
  rfl

/-- A tree description takes no more bytes than the section has. -/
theorem hufForm_used {h start size used : Nat} {s t : State} (hr : hufForm h start size s = .ok used t) : used ≤ size := by
  unfold hufForm at hr
  split at hr
  · unfold hufDirect at hr
    dsimp only at hr
    split at hr
    · cases hr
    · rw [hufInstall_used hr]
      omega
  · unfold hufFse at hr
    dsimp only at hr
    split at hr
    · cases hr
    · obtain ⟨_, _, _, hr⟩ := bind_eq_ok.mp hr
      obtain ⟨_, _, _, hr⟩ := bind_eq_ok.mp hr
      rw [hufInstall_used hr]
      omega

/-- What a tree description does to the cursors, and that it leaves HUF.LOADED set exactly when it completes. -/
structure ReadsTree (s t : State) : Prop extends Moves (s.At .htree) s t where
  loaded : s.phase ≠ .fault → (t.huf.loaded = true ↔ t.phase ≠ .fault)

theorem readsTree_faultEntry {s u : State} (e : ErrCode) (h : TreeWrites false s u) : ReadsTree s (faultEntry e u) := by
  have hadv : Advances s u := by
    rw [h.eq]
    exact ⟨rfl, le_refl _, le_refl _⟩
  exact ⟨hadv.faultEntry e _, fun _ => by simp [h.loaded]⟩

theorem readsTree_litStreams {s u : State} {used : Nat} (h : TreeWrites true s u) (hused : used ≤ s.lit.comp.toNat) :
    ReadsTree s (litStreams (u.advance used)) := by
  obtain ⟨hloaded, heq⟩ := h
  have hview : u.blockView = s.blockView := by rw [heq]; rfl
  have hlatches : u.latches = s.latches := by rw [heq]; rfl
  have hfields : u.ip = s.ip ∧ u.issue = s.issue ∧ u.litLim = s.litLim ∧ u.phase = s.phase := by
    rw [heq]
    exact ⟨rfl, rfl, rfl, rfl⟩
  obtain ⟨hip, hissue, hlitLim, hphase⟩ := hfields
  refine ⟨⟨(latches_litStreams _).trans hlatches, fun hat => ?_⟩, fun hs => ?_⟩
  · obtain ⟨hp, hsub⟩ : s.phase = .block ∧ s.sub = .htree := placed_of_nextCtx hat.2
    have hb := inBlock_of_at hat hp
    obtain ⟨_, hlim⟩ := litLim_of_cursorsOk hat.1 hp (.inl hsub)
    have hcomp := litComp_of_cursorsOk hat.1 hp hsub
    have hend : s.ip.toNat + used ≤ s.litLim.toNat := by omega
    have hadd : (u.advance used).ip.toNat = s.ip.toNat + used := by
      rw [advance_ip, hip]
      exact toNat_add_of_le hend
    refine hb.litStreams hview hissue (by omega) ?_ ?_
    · rw [hadd, advance_litLim, hlitLim]
      exact hend
    · rw [advance_litLim, hlitLim]
      exact hlim
  · rw [litStreams_huf, litStreams_phase, advance_huf, advance_phase, hloaded, hphase]
    simp [hs]

theorem htreeElement_reads (h : Nat) (s : State) : Leads (ReadsTree s) (htreeElement h s) := by
  have hunload : TreeWrites false s (hufUnload s) := ⟨rfl, rfl⟩
  unfold htreeElement
  dsimp only
  split
  · exact .next (readsTree_faultEntry _ hunload)
  · have hends := hufForm_writes h (hufUnload s).ip.toNat (hufUnload s).lit.comp.toNat (hufUnload s)
    cases hr : hufForm h (hufUnload s).ip.toNat (hufUnload s).lit.comp.toNat (hufUnload s) with
    | ok used u =>
      rw [hr] at hends
      cases hends with
      | ok hw => exact .next (readsTree_litStreams (hunload.trans hw) (hufForm_used hr))
    | raise e u =>
      rw [hr] at hends
      cases hends with
      | raise hw => exact .next (readsTree_faultEntry e (hunload.trans hw))
    | stop x => exact .fault

/-! ## Sequences (R310 to R317) -/

@[simp] theorem blockView_nextTable (x : Alphabet) (s : State) : (nextTable x s).blockView = s.blockView := by
  simp [State.blockView]

@[simp] theorem blockView_seqLoop (s : State) : (seqLoop s).blockView = s.blockView := by simp [State.blockView]

theorem nextTable_inBody (x : Alphabet) (s : State) : (nextTable x s).sub.inBody = false := by cases x <;> rfl

theorem seqLoop_inBody (s : State) : (seqLoop s).sub.inBody = false := by
  unfold seqLoop
  split <;> rfl

theorem seqHeader_keeps (n count : Nat) (s : State) : Leads (Keeps s.InBlock s) (seqHeader n count s) := by
  unfold seqHeader
  split
  · exact leads_raised_keeps _ (.refl s)
  · split
    · exact leads_raised_keeps _ (.refl s)
    case isFalse hneed =>
      exact .next (State.InBlock.keeps rfl id rfl (fun _ => (need_iff _ _ _).mp (need_of_not hneed)) rfl rfl)

theorem seqn0_keeps (s : State) : Leads (Keeps s.InBlock s) (execSeqn0 s) := by
  unfold execSeqn0
  split
  · exact leads_raised_keeps _ (.refl s)
  case isFalse hneed =>
    refine .next (State.InBlock.keeps rfl (fun _ => ?_) rfl (fun _ => (need_iff _ _ _).mp (need_of_not hneed)) rfl rfl)
    simp [State.issueOk, Instr.isUnitOp]

theorem seqm_keeps (llmode ofmode mlmode ign : BitVec 2) (s : State) :
    Leads (Keeps s.InBlock s) (execSeqm llmode ofmode mlmode ign s) := by
  unfold execSeqm
  split
  · exact leads_raised_keeps _ (.refl s)
  case isFalse hneed =>
    exact .next (State.InBlock.keeps rfl id rfl (fun _ => (need_iff _ _ _).mp (need_of_not hneed)) rfl rfl)

/-- After the table of an alphabet, of which `n` bytes were read (R310). -/
theorem nextTable_keeps (x : Alphabet) {s u : State} {n : Nat} (hv : u.blockView = s.blockView)
    (hi : u.issue = s.issue) (hip : u.ip = (s.advance n).ip) (hlim : s.InBlock → s.ip.toNat + n ≤ s.blk.limit.toNat)
    (hloaded : u.huf.loaded = s.huf.loaded) : Keeps s.InBlock s (nextTable x u) := by
  refine State.InBlock.keeps (by rw [blockView_nextTable, hv]) (fun h => issueOk_nextTable x ?_)
    (by rw [nextTable_ip, hip]) hlim (nextTable_inBody x u) (by rw [nextTable_huf, hloaded])
  rw [State.issueOk, hi]
  exact h

theorem advance_zero_ip (s : State) : (s.advance 0).ip = s.ip := by simp

@[simp] theorem blockView_setSel (s : State) (x : Alphabet) (v : Sel) : (s.setSel x v).blockView = s.blockView := by
  simp [State.blockView, State.latches]

@[simp] theorem blockView_fseRle (s : State) (tb : TableId) (v : Byte) : (s.fseRle tb v).blockView = s.blockView := by
  simp [State.blockView, State.latches]

theorem modePredef_keeps (x : Alphabet) (s : State) : Leads (Keeps s.InBlock s) (execModePredef x s) :=
  .next (nextTable_keeps x (n := 0) (blockView_setSel s x _) (setSel_issue s x _)
    ((setSel_ip s x _).trans (advance_zero_ip s).symm) (fun h => h.limit) (by rw [setSel_huf]))

theorem modeRle_keeps (x : Alphabet) (s : State) : Leads (Keeps s.InBlock s) (execModeRle x s) :=
  .next (State.InBlock.keeps (n := 0) rfl id (advance_zero_ip s).symm (fun h => h.limit) rfl rfl)

theorem modeFse_keeps (x : Alphabet) (s : State) : Leads (Keeps s.InBlock s) (execModeFse x s) :=
  .next (State.InBlock.keeps (n := 0) rfl id (advance_zero_ip s).symm (fun h => h.limit) rfl rfl)

theorem modeRepeat_keeps (x : Alphabet) (s : State) : Leads (Keeps s.InBlock s) (execModeRepeat x s) := by
  unfold execModeRepeat
  split
  · exact leads_raised_keeps _ (.refl s)
  · exact .next (nextTable_keeps x (n := 0) rfl rfl (advance_zero_ip s).symm (fun h => h.limit) rfl)

theorem rlesym_keeps (x : Alphabet) (v : BitVec 8) (s : State) : Leads (Keeps s.InBlock s) (execRlesym x v s) := by
  unfold execRlesym
  split
  · exact leads_raised_keeps _ (.refl s)
  case isFalse hneed =>
    split
    · exact leads_raised_keeps _ (.refl s)
    · refine .next (nextTable_keeps x (n := 1) ?_ ?_ ?_ (fun _ => (need_iff _ _ _).mp (need_of_not hneed)) ?_)
      · exact (blockView_setSel _ x _).trans (blockView_fseRle s _ v)
      · simp
      · simp
      · simp

theorem runTable_value {α : Type} {P : α → Prop} {s t : State} {tb : TableId} {a : α}
    {f : (cap : Nat) → TableUnit cap → Run (TableUnit cap) α} (hr : s.runTable tb f = .ok a t)
    (hf : ∀ cap u v, f cap u = .ok a v → P a) : P a := by
  cases tb with
  | llt | oft | mlt | hwt =>
    obtain ⟨v, hv, _⟩ := lift_eq_ok.mp hr
    exact hf _ _ v hv

/-- A description takes no more bytes than its region has (R162). -/
theorem fseReadBody_used {cap : Nat} {rd : Nat → Byte} {start limit maxSymbol maxLog log used : Nat}
    {u v : TableUnit cap} (h : fseReadBody rd start limit maxSymbol maxLog log u = .ok used v) :
    used ≤ limit - start := by
  unfold fseReadBody at h
  split at h
  · cases h
  · obtain ⟨⟨_, m⟩, _, hnorm, hbuild⟩ := bind_eq_ok.mp h
    obtain ⟨_, _, _, hused⟩ := bind_eq_ok.mp hbuild
    cases hused
    obtain ⟨_, hnorm, _⟩ := lift_eq_ok.mp hnorm
    obtain ⟨_, st, hread, hst⟩ := bind_eq_ok.mp hnorm
    cases hst
    obtain ⟨_, st', _, hend⟩ := bind_eq_ok.mp hread
    split at hend
    · cases hend
    case isFalse hpos =>
      cases hend
      unfold ceilDiv
      omega

theorem TableWrites.advances {s t : State} (h : TableWrites s t) : AdvancesLoaded s t := h.raiseWrites.advances

theorem fsedesc_keeps (x : Alphabet) (logMinus5 high : BitVec 4) (s : State) :
    Leads (Keeps s.InBlock s) (execFsedesc x logMinus5 high s) := by
  unfold execFsedesc
  dsimp only
  refine Run.Ends.leads ?_
  generalize hr : s.runTable x.table _ = r
  have hw : r.Leaves (TableWrites s) := hr ▸ runTable_writes s x.table _
  cases hw with
  | ok hw =>
    rename_i used u
    have hused : s.ip.toNat + used ≤ s.blk.limit.toNat := by
      refine runTable_value (P := fun n => s.ip.toNat + n ≤ s.blk.limit.toNat) hr fun cap v w hv => ?_
      split at hv
      · cases hv
      · have := fseReadBody_used hv
        omega
    have hloaded := hw.advances.2
    rw [hw.eq] at hloaded ⊢
    refine .ok (nextTable_keeps x ?_ ?_ ?_ (fun _ => hused) ?_)
    · exact blockView_setSel _ x _
    · simp
    · simp
    · simp
  | raise hw => exact .raise (hw.advances.trans (scrapTable_writes _ _).advances)
  | stop => exact .stop

/-! ## Every element -/

/-- Every element but a tree description leaves HUF.LOADED alone, and moves the cursors forward inside their bounds where the
engine reads it. -/
theorem exec_keeps {i : Instr} (hu : ctxOf i ≠ .uop) (hh : ctxOf i ≠ .host) (ht : ctxOf i ≠ .htree) (s : State) :
    Leads (Keeps (s.At (ctxOf i)) s) (exec i s) := by
  have hblock {o : Host.Outcome State Fault Refusal} (c : Ctx) (h : Leads (Keeps s.InBlock s) o)
      (hc : s.placed c → s.phase = .block) : Leads (Keeps (s.At c) s) o :=
    h.mono fun _ hk => hk.mono fun hat => inBlock_of_at hat (hc (placed_of_nextCtx hat.2))
  cases i with
  | magic => exact magic_keeps s
  | magicLegacy => exact magicLegacy_keeps s
  | fhd csel ss ign ck dsel => exact fhd_keeps csel ss ign ck dsel s
  | wd e m => exact wd_keeps e m s
  | did n v => exact did_keeps n v s
  | fcs n v => exact fcs_keeps n v s
  | blkRaw last size => exact ((blockHeader_ends 0 last size s).bindKeeps fun _ t => rawBlock_ends t).leads
  | blkRle last size => exact ((blockHeader_ends 1 last size s).bindKeeps fun _ t => rleBlock_ends t).leads
  | blkCmp last size => exact ((blockHeader_ends 2 last size s).bindKeeps fun _ t => cmpBlock_ends t).leads
  | blkRsv last size => exact blkRsv_keeps last size s
  | litRaw1 regen => exact litRawSection_keeps _ _ _ s
  | litRaw2 regen => exact litRawSection_keeps _ _ _ s
  | litRaw3 regen => exact litRawSection_keeps _ _ _ s
  | litRle1 regen => exact litRleSection_keeps _ _ _ s
  | litRle2 regen => exact litRleSection_keeps _ _ _ s
  | litRle3 regen => exact litRleSection_keeps _ _ _ s
  | litHufS3 regen comp => exact litHufSection_keeps _ _ _ _ s
  | litHuf3 regen comp => exact litHufSection_keeps _ _ _ _ s
  | litHuf4 regen comp => exact litHufSection_keeps _ _ _ _ s
  | litHuf5 regen comp => exact litHufSection_keeps _ _ _ _ s
  | litRepS3 regen comp => exact litRepSection_keeps _ _ _ _ s
  | litRep3 regen comp => exact litRepSection_keeps _ _ _ _ s
  | litRep4 regen comp => exact litRepSection_keeps _ _ _ _ s
  | litRep5 regen comp => exact litRepSection_keeps _ _ _ _ s
  | jump len1 len2 len3 => exact jump_keeps len1 len2 len3 s
  | seqn0 => exact hblock _ (seqn0_keeps s) id
  | seqn1 count => exact hblock _ (seqHeader_keeps _ _ s) id
  | seqn2 high b1 => exact hblock _ (seqHeader_keeps _ _ s) id
  | seqn3 b1 b2 => exact hblock _ (seqHeader_keeps _ _ s) id
  | seqm llmode ofmode mlmode ign => exact hblock _ (seqm_keeps llmode ofmode mlmode ign s) id
  | modePredef x => exact hblock _ (modePredef_keeps x s) id
  | modeRle x => exact hblock _ (modeRle_keeps x s) id
  | modeFse x => exact hblock _ (modeFse_keeps x s) id
  | modeRepeat x => exact hblock _ (modeRepeat_keeps x s) id
  | rlesym x symbol => exact hblock _ (rlesym_keeps x symbol s) id
  | fsedesc x logMinus5 high => exact hblock _ (fsedesc_keeps x logMinus5 high s) id
  | checksum v => exact checksum_keeps v s
  | htreeDirect low | htreeFse len => exact absurd rfl ht
  | cmdStart ign | cmdReset start ign => exact absurd rfl hh
  | _ => exact absurd rfl hu

/-- Every tree description reads a tree. -/
theorem exec_readsTree {i : Instr} (h : ctxOf i = .htree) (s : State) : Leads (ReadsTree s) (exec i s) := by
  cases i with
  | htreeDirect low => exact htreeElement_reads _ s
  | htreeFse len => exact htreeElement_reads _ s
  | _ => cases h

/-- Every element moves the cursors forward inside their bounds where the engine reads it. -/
theorem exec_moves {i : Instr} (hu : ctxOf i ≠ .uop) (hh : ctxOf i ≠ .host) (s : State) :
    Leads (Moves (s.At (ctxOf i)) s) (exec i s) := by
  by_cases ht : ctxOf i = .htree
  · rw [ht]
    exact (exec_readsTree ht s).mono fun _ h => h.toMoves
  · exact (exec_keeps hu hh ht s).mono fun _ h => h.toMoves

/-! ## Every unit operation -/

theorem isUnitOp_eq (i : Instr) : i.isUnitOp = decide (ctxOf i = .uop) := by cases i <;> rfl

theorem isUnitOp_of_ctx {i : Instr} (h : ctxOf i = .uop) : i.isUnitOp = true := by simp [isUnitOp_eq, h]

theorem UnitWrites.moves {i : Instr} {s t : State} (h : UnitWrites s i t) : Moves s.cursorsOk s t := by
  cases h with
  | seqExec op out ptr lo hi | seqLastlit op out ptr lo hi =>
    refine ⟨rfl, fun hc => ⟨le_refl _, lo, hc.1, fun hb => ?_⟩⟩
    obtain ⟨h1, h2, h3, _, h5, h6, h7⟩ := hc.2 hb
    exact ⟨h1, h2, h3.trans lo, hi, fun hm => ⟨(h5 hm).1, (h5 hm).2.trans lo⟩, h6, h7⟩
  | _ => exact ⟨rfl, fun hc => ⟨le_refl _, le_refl _, hc⟩⟩

theorem UnitWrites.loaded {i : Instr} {s t : State} (h : UnitWrites s i t) (hi : ∀ a n, i ≠ .hufReadTable a n) :
    t.huf.loaded = s.huf.loaded := by
  cases h with
  | hufReadTable => exact absurd rfl (hi _ _)
  | hufBuild _ hl => exact hl
  | _ => rfl

theorem UnitOutcome.moves {i : Instr} {s t : State} (h : UnitOutcome i s t) : Moves s.cursorsOk s t := by
  obtain hw | ⟨e, u, hr | ⟨_, hr⟩, rfl⟩ := h
  · exact hw.moves
  · exact hr.advances.1.faultEntry e _
  · have hadv : Advances s u := hr.advances.1
    exact hadv.faultEntry e _

theorem UnitOutcome.loaded {i : Instr} {s t : State} (h : UnitOutcome i s t) (hi : ∀ a n, i ≠ .hufReadTable a n) :
    t.huf.loaded = s.huf.loaded := by
  obtain hw | ⟨e, u, hr | ⟨⟨a, n, ha⟩, _⟩, rfl⟩ := h
  · exact hw.loaded hi
  · exact hr.loaded
  · exact absurd ha (hi a n)

end Sys2Proof.Machine
end

section
/-! PROOFS. What every step of the machine keeps: the engine's step and the host's access put together (R22, R24, R26, R40). -/
namespace Sys2Proof.Machine

/-! ## The position that a decoded element belongs to (R91) -/

section Decode
variable {h : Nat} {i : Instr}

theorem decodeMagic_ctx (hd : decodeMagic h = .ok i) : ctxOf i = .magic := by
  unfold decodeMagic at hd
  repeat' split at hd
  all_goals cases hd
  all_goals rfl

theorem decodeBlk_ctx (hd : decodeBlk h = .ok i) : ctxOf i = .blk := by
  unfold decodeBlk at hd
  dsimp only at hd
  split at hd
  all_goals cases hd
  all_goals rfl

theorem decodeLith_ctx (hd : decodeLith h = .ok i) : ctxOf i = .lith := by
  unfold decodeLith at hd
  split at hd
  all_goals cases hd
  all_goals rfl

theorem decodeHtree_ctx (hd : decodeHtree h = .ok i) : ctxOf i = .htree := by
  unfold decodeHtree at hd
  split at hd
  all_goals cases hd
  all_goals rfl

theorem decodeSeqn_ctx (hd : decodeSeqn h = .ok i) : ctxOf i = .seqn := by
  unfold decodeSeqn at hd
  dsimp only at hd
  repeat' split at hd
  all_goals cases hd
  all_goals rfl

theorem decodeMode_ctx {x : Alphabet} (hd : decodeMode x h = .ok i) : ctxOf i = .mode x := by
  unfold decodeMode at hd
  split at hd
  all_goals cases hd
  all_goals rfl

end Decode

theorem withWord_ctx {n : Nat} {bs rest : List Byte} {f : Nat → Except Reject Instr} {i : Instr} {c : Ctx}
    (h : withWord n bs f = .ok (i, rest)) (hf : ∀ w, f w = .ok i → ctxOf i = c) : ctxOf i = c := by
  obtain ⟨_, h, _⟩ := withWord_eq_ok.mp h
  exact hf _ h

/-- An element belongs to the position it was read in. -/
theorem decode_ctx {c : Ctx} {bs rest : List Byte} {i : Instr} (h : decode c bs = .ok (i, rest)) (hu : c ≠ .uop)
    (hh : c ≠ .host) : ctxOf i = c := by
  cases c with
  | magic =>
    rw [decode] at h
    exact withWord_ctx h fun _ => decodeMagic_ctx
  | blk =>
    rw [decode] at h
    exact withWord_ctx h fun _ => decodeBlk_ctx
  | htree =>
    rw [decode] at h
    exact withWord_ctx h fun _ => decodeHtree_ctx
  | mode x =>
    rw [decode] at h
    exact withWord_ctx h fun _ => decodeMode_ctx
  | lith =>
    rw [decode] at h
    split at h
    · cases h
    · exact withWord_ctx h fun _ => decodeLith_ctx
  | seqn =>
    rw [decode] at h
    split at h
    · cases h
    · exact withWord_ctx h fun _ => decodeSeqn_ctx
  | fhd | wd | did n | fcs n | jump | seqm | rlesym x | fsedesc x | checksum =>
    rw [decode] at h
    refine withWord_ctx h fun _ hw => ?_
    cases hw
    rfl
  | uop => exact absurd rfl hu
  | host => exact absurd rfl hh

/-- The engine reads elements only, no word of a unit operation and no host command. -/
theorem nextCtx_element {s : State} {c : Ctx} (h : s.nextCtx = some c) : c ≠ .uop ∧ c ≠ .host := by
  have hp := placed_of_nextCtx h
  constructor
  · rintro rfl
    exact hp
  · rintro rfl
    exact hp

/-! ## Transitions that read no element (R260, R296, R310, R317) -/

theorem primeBits_ends {Q : State → Prop} (s : State) (x : Alphabet) : (primeBits s x).Ends (ReaderWrites s) Q := by
  unfold primeBits
  split
  · exact .stop
  · exact .ok ⟨_, rfl⟩

theorem seqLoop_keeps (s : State) (br : Vector BitReader 4) (seq : SeqRegs) :
    Keeps s.InBlock s (seqLoop { s with br := br, seq := seq }) :=
  State.InBlock.keeps (n := 0) (blockView_seqLoop _) (fun _ => issueOk_seqLoop _)
    ((seqLoop_ip _).trans (advance_zero_ip s).symm) (fun h => h.limit) (seqLoop_inBody _) (by rw [seqLoop_huf])

theorem seqPrime_ends (s : State) : (seqPrime s).Ends (Keeps s.InBlock s) (AdvancesLoaded s) := by
  refine (primeBits_ends s .ll).bind fun _ s1 ⟨_, h1⟩ => ?_
  refine (primeBits_ends _ .of).bind fun _ s2 ⟨_, h2⟩ => ?_
  refine (primeBits_ends _ .ml).bind fun _ s3 ⟨_, h3⟩ => ?_
  subst h1 h2 h3
  exact .ok (seqLoop_keeps s _ _)

theorem litEnd_keeps (s : State) : Keeps (s.cursorsOk ∧ s.phase = .block ∧ s.sub = .litEnd) s (litEnd s) := by
  refine ⟨⟨rfl, fun ⟨hc, hp, hs⟩ => ?_⟩, rfl⟩
  obtain ⟨hip, hlim⟩ := litLim_of_cursorsOk hc hp (.inr (.inr hs))
  have hb := inBlock_of_cursorsOk hc hp
  exact hb.stepOutside rfl hb.issue hip hlim rfl

theorem sectionEnd_keeps (s : State) : Keeps s.InBlock s (sectionEnd s) := by
  unfold sectionEnd
  refine ⟨⟨latches_blockEnd _, fun h => ?_⟩, by rw [blockEnd_huf]⟩
  exact h.toWithin.blockEnd rfl rfl h.issue h.limit h.limitEnd (le_refl _) h.outLimit

theorem Keeps.refl (s : State) : Keeps s.cursorsOk s s := ⟨⟨rfl, fun h => ⟨le_refl _, le_refl _, h⟩⟩, rfl⟩

theorem innerStep_keeps (s : State) : Leads (Keeps s.cursorsOk s) (innerStep s) := by
  unfold innerStep
  split
  case h_1 hp =>
    have hin : s.cursorsOk → s.InBlock := fun h => inBlock_of_cursorsOk h hp
    split
    case h_1 hs => exact .next ((litEnd_keeps s).mono fun h => ⟨h, hp, hs⟩)
    case h_2 => exact (seqPrime_ends s).leads.mono fun _ h => h.mono hin
    case h_3 => exact .next ((seqLoop_keeps s _ _).mono hin)
    case h_4 => exact .next ((sectionEnd_keeps s).mono hin)
    all_goals exact .next (.refl s)
  all_goals exact .next (.refl s)

/-! ## One step of the engine -/

theorem beforeReject_advances (c : Ctx) (w : List Byte) (s : State) : Advances s (beforeReject c w s) := by
  cases c with
  | magic | htree => exact ⟨rfl, le_refl _, le_refl _⟩
  | lith => cases w <;> exact ⟨rfl, le_refl _, le_refl _⟩
  | fsedesc x => exact (scrapTable_writes s x.table).advances.1
  | _ => exact (AdvancesLoaded.refl s).1

theorem beforeReject_loaded {c : Ctx} (hc : c ≠ .htree) (w : List Byte) (s : State) :
    (beforeReject c w s).huf.loaded = s.huf.loaded := by
  cases c with
  | htree => exact absurd rfl hc
  | lith => cases w <;> rfl
  | fsedesc x => exact (scrapTable_writes s x.table).advances.2
  | _ => rfl

theorem cursorsOk_tail {s : State} {i : Instr} {r : List Instr} (his : s.issue = i :: r) (h : s.cursorsOk) :
    State.cursorsOk { s with issue := r } :=
  ⟨fun j hj => h.1 j (his ▸ List.mem_cons_of_mem i hj), h.2⟩

/-- While BUSY a host command is ignored (R22). -/
theorem exec_host_of_busy {i : Instr} {s : State} (hh : ctxOf i = .host) (hb : s.busy = true) : exec i s = .next s := by
  cases i with
  | cmdStart ign => exact cmdStart_of_busy hb ign
  | cmdReset start ign => exact cmdReset_of_busy hb start ign
  | _ => cases hh

/-- An issued instruction. `cursorsOk` has no instruction issued that is not a unit operation, so for one that is not only the
latches are left to show. -/
theorem issued_moves {s t : State} {i : Instr} {r : List Instr} (his : s.issue = i :: r)
    (h : s.busy = true ∨ s.issueOk) (hn : exec i { s with issue := r } = .next t) : Moves s.cursorsOk s t := by
  have hop : s.issueOk → i.isUnitOp = true := fun hi => hi i (his ▸ List.mem_cons_self)
  cases hu : i.isUnitOp with
  | true =>
    obtain ⟨hlatches, hcursors⟩ := (exec_unit hu hn).moves
    exact ⟨hlatches, fun hc => hcursors (cursorsOk_tail his hc)⟩
  | false =>
    have hnot : ¬ s.issueOk := fun hi => by simp [hop hi] at hu
    by_cases hh : ctxOf i = .host
    · obtain hb | hi := h
      · cases (exec_host_of_busy hh (s := { s with issue := r }) hb).symm.trans hn
        exact ⟨rfl, fun hc => absurd hc.1 hnot⟩
      · exact absurd hi hnot
    · have hleads := exec_moves (by simpa [isUnitOp_eq] using hu) hh { s with issue := r }
      rw [hn] at hleads
      exact ⟨hleads.of_next.latches, fun hc => absurd hc.1 hnot⟩

theorem engineStep_moves {s t : State} (h : s.busy = true ∨ s.issueOk) (hn : engineStep s = .next t) :
    Moves s.cursorsOk s t := by
  obtain ⟨i, r, his, he⟩ | ⟨_, c, i, _, hc, hd, he⟩ | ⟨_, c, r, _, _, he⟩ | ⟨_, _, he⟩ := engineStep_cases s
  · exact issued_moves his h (he.symm.trans hn)
  · obtain ⟨hu, hh⟩ := nextCtx_element hc
    have hctx := decode_ctx hd hu hh
    have hleads := exec_moves (hctx ▸ hu) (hctx ▸ hh) s
    rw [← he, hn, hctx] at hleads
    exact ⟨hleads.of_next.latches, fun hcur => hleads.of_next.cursors ⟨hcur, hc⟩⟩
  · rw [he] at hn
    cases hn
    exact (beforeReject_advances c _ s).faultEntry _ _
  · have hleads := innerStep_keeps s
    rw [← he, hn] at hleads
    exact hleads.of_next.toMoves

/-! ## One access of the host -/

/-- CMD.START puts the cursors at the starts of regions that are in order (R251, U3). -/
theorem cmdStart_cursorsOk {s t : State} {ign : BitVec 30} (hb : s.busy = false) (hn : execCmdStart ign s = .next t) :
    t.cursorsOk := by
  unfold execCmdStart at hn
  rw [hb] at hn
  split at hn
  case isTrue h => cases h
  case isFalse =>
    split at hn
    case isTrue => cases hn
    case isFalse horder =>
      split at hn
      case isTrue => cases hn
      case isFalse =>
        cases hn
        refine ⟨issueOk_of_nil rfl, fun _ => ⟨le_refl _, ?_, le_refl _, ?_, fun h => absurd rfl h, nofun, nofun⟩⟩
        · exact not_lt.mp fun h => horder (.inl h)
        · exact not_lt.mp fun h => horder (.inr h)

theorem cmdStart_huf {s t : State} {ign : BitVec 30} (hn : execCmdStart ign s = .next t) : t.huf = s.huf := by
  unfold execCmdStart at hn
  repeat' split at hn
  all_goals cases hn
  all_goals rfl

/-- What a register write does while not BUSY: CMD.RESET, CMD.START, or the value of a register. -/
theorem hostWrite_cases {r : HostReg} {v : Word} {s t : State} (hb : s.busy = false) (hn : hostWrite r v s = .next t) :
    (r = .cmd ∧ v.getLsbD 1 = true ∧ t = hwReset s) ∨ (∃ ign, execCmdStart ign s = .next t) ∨
    t = { s with
      inStart := t.inStart, inEnd := t.inEnd, outStart := t.outStart, outLimit := t.outLimit, cfgEnforce := t.cfgEnforce } := by
  cases r with
  | cmd =>
    rw [hostWrite_cmd] at hn
    split at hn
    case isTrue hreset =>
      rw [cmdReset_of_not_busy hb] at hn
      cases hn
      exact .inl ⟨rfl, hreset, rfl⟩
    case isFalse =>
      split at hn
      · exact .inr (.inl ⟨v.extractLsb' 2 30, hn⟩)
      · cases hn
        exact .inr (.inr rfl)
  | _ =>
    cases hn
    exact .inr (.inr rfl)

theorem hostWrite_cursorsOk {r : HostReg} {v : Word} {s t : State} (hc : s.cursorsOk) (hb : s.busy = false)
    (hn : hostWrite r v s = .next t) : t.cursorsOk := by
  obtain ⟨_, _, rfl⟩ | ⟨_, hstart⟩ | ht := hostWrite_cases hb hn
  · exact cursorsOk_of_not_busy (issueOk_of_nil rfl) rfl
  · exact cmdStart_cursorsOk hb hstart
  · rw [ht]
    exact hc

theorem cursorsOk_putIn {s : State} (a : Nat) (b : Byte) (h : s.cursorsOk) : (s.putIn a b).cursorsOk := by
  unfold State.putIn
  split
  · exact h
  · exact h

theorem hostAccess_cursorsOk {h : HostAccess} {s t : State} (hc : s.cursorsOk) (hn : hostAccess h s = .next t) :
    t.cursorsOk := by
  obtain ⟨r, v, _, rfl | ⟨hb, hw⟩⟩ | ⟨_, _, rfl⟩ | ⟨_, _, _, _, rfl⟩ | ⟨_, _, _, _, rfl⟩ | ⟨_, _, _, rfl⟩ | ⟨_, _, _, rfl⟩ :=
    hostAccess_cases hn
  · exact hc
  · exact hostWrite_cursorsOk hc hb hw
  · exact hc
  · exact cursorsOk_putIn _ _ hc
  · exact hc
  · exact hc
  · exact hc

theorem hostAccess_loaded {h : HostAccess} {s t : State} (hn : hostAccess h s = .next t)
    (hne : t.huf.loaded ≠ s.huf.loaded) :
    ∃ v, h = .regWrite .cmd v ∧ s.busy = false ∧ v.getLsbD 1 = true ∧ t.huf.loaded = false := by
  obtain ⟨r, v, rfl, rfl | ⟨hb, hw⟩⟩ | ⟨_, _, rfl⟩ | ⟨_, _, _, _, rfl⟩ | ⟨_, _, _, _, rfl⟩ | ⟨_, _, _, rfl⟩ | ⟨_, _, _, rfl⟩ :=
    hostAccess_cases hn
  · exact absurd rfl hne
  · obtain ⟨rfl, hreset, rfl⟩ | ⟨_, hstart⟩ | ht := hostWrite_cases hb hw
    · exact ⟨v, rfl, hb, hreset, rfl⟩
    · exact absurd (congrArg HufRegs.loaded (cmdStart_huf hstart)) hne
    · exact absurd (by rw [ht]) hne
  · exact absurd rfl hne
  · exact absurd (by simp) hne
  · exact absurd (by simp) hne
  · exact absurd rfl hne
  · exact absurd rfl hne

/-! ## One step of the machine -/

theorem step_cases (s : State) :
    (∃ h q, s.hostQueue = (0, h) :: q ∧ step s = hostAccess h { s with hostQueue := q }) ∨
    ((∀ h q, s.hostQueue ≠ (0, h) :: q) ∧ ∃ q, step s = engineStep { s with hostQueue := q }) := by
  unfold step
  obtain ⟨hq, hm⟩ | ⟨h, q, hq, hm⟩ | ⟨n, h, q, hq, hm⟩ := machineStep_cases s
  · refine .inr ⟨by simp [hq], [], hm.trans ?_⟩
    rw [← hq]
  · exact .inl ⟨h, q, hq, hm⟩
  · exact .inr ⟨by simp [hq], (n, h) :: q, hm⟩

/-- While a command runs, a step of either side keeps the latches and moves no cursor back. -/
theorem step_moves {s t : State} (hb : s.busy = true) (hn : step s = .next t) : Moves s.cursorsOk s t := by
  obtain ⟨h, q, _, hs⟩ | ⟨_, q, hs⟩ := step_cases s
  · rw [hostAccess_busy (s := { s with hostQueue := q }) hb (hs.symm.trans hn)]
    exact ⟨rfl, fun hc => ⟨le_refl _, le_refl _, hc⟩⟩
  · obtain ⟨hlatches, hcursors⟩ := engineStep_moves (s := { s with hostQueue := q }) (.inl hb) (hs.symm.trans hn)
    exact ⟨hlatches, hcursors⟩

/-- Settles O15: the engine's step by `engineStep_moves`, the host's access by `hostAccess_cursorsOk`. -/
theorem cursorBoundsKept : Obligations.CursorBoundsKept := by
  intro s t hc hn
  obtain ⟨h, q, _, hs⟩ | ⟨_, q, hs⟩ := step_cases s
  · exact hostAccess_cursorsOk (s := { s with hostQueue := q }) hc (hs.symm.trans hn)
  · have hmoves := engineStep_moves (s := { s with hostQueue := q }) (.inr hc.1) (hs.symm.trans hn)
    obtain ⟨_, _, hcur⟩ := hmoves.cursors hc
    exact hcur

/-- Settles O18. -/
theorem cursorsMoveForward : Obligations.CursorsMoveForward := by
  intro s t hc hb hn
  obtain ⟨hip, hop, _⟩ := (step_moves hb hn).cursors hc
  exact ⟨hip, hop⟩

/-- Settles O19. -/
theorem latchesConstant : Obligations.LatchesConstant := by
  intro s t hb hn
  simpa only [State.latches, Prod.mk.injEq] using (step_moves hb hn).latches

/-! ## HUF.LOADED (R40, R207, R208, R400) -/

theorem issued_loaded {s t : State} {i : Instr} {r : List Instr} (his : s.issue = i :: r) (h : s.issueOk)
    (hn : exec i { s with issue := r } = .next t) (hne : t.huf.loaded ≠ s.huf.loaded) :
    ∃ a n, i = .hufReadTable a n := by
  by_contra hnot
  refine hne ((exec_unit (h i (his ▸ List.mem_cons_self)) hn).loaded fun a n hi => hnot ⟨a, n, hi⟩)

/-- The engine changes HUF.LOADED by HUF.READTABLE and by tree descriptions only. -/
theorem engineStep_loaded {s t : State} (h : s.issueOk) (hn : engineStep s = .next t)
    (hne : t.huf.loaded ≠ s.huf.loaded) :
    (∃ a n r, s.issue = .hufReadTable a n :: r) ∨ (s.issue = [] ∧ s.nextCtx = some .htree) := by
  obtain ⟨i, r, his, he⟩ | ⟨hnil, c, i, _, hc, hd, he⟩ | ⟨hnil, c, r, hc, _, he⟩ | ⟨_, _, he⟩ := engineStep_cases s
  · obtain ⟨a, n, rfl⟩ := issued_loaded his h (he.symm.trans hn) hne
    exact .inl ⟨a, n, r, his⟩
  · refine .inr ⟨hnil, ?_⟩
    by_contra htree
    obtain ⟨hu, hh⟩ := nextCtx_element hc
    have hctx := decode_ctx hd hu hh
    have hleads := exec_keeps (hctx ▸ hu) (hctx ▸ hh) (hctx ▸ fun heq => htree (heq ▸ hc)) s
    rw [← he, hn] at hleads
    exact hne hleads.of_next.loaded
  · refine .inr ⟨hnil, ?_⟩
    by_contra htree
    rw [he] at hn
    cases hn
    exact hne (beforeReject_loaded (fun heq => htree (heq ▸ hc)) _ s)
  · have hleads := innerStep_keeps s
    rw [← he, hn] at hleads
    exact absurd hleads.of_next.loaded hne

/-- A step that reads a tree description leaves HUF.LOADED set exactly when it completes (R208). -/
theorem engineStep_htree {s t : State} (hnil : s.issue = []) (hc : s.nextCtx = some .htree) (hn : engineStep s = .next t) :
    t.huf.loaded = true ↔ t.phase ≠ .fault := by
  have hphase : s.phase ≠ .fault := by
    obtain ⟨hp, _⟩ : s.phase = .block ∧ s.sub = .htree := placed_of_nextCtx hc
    simp [hp]
  obtain ⟨i, r, his, _⟩ | ⟨_, c, i, _, hc', hd, he⟩ | ⟨_, c, r, hc', _, he⟩ | ⟨_, hc', _⟩ := engineStep_cases s
  · simp [hnil] at his
  · cases hc.symm.trans hc'
    have hleads := exec_readsTree (decode_ctx hd (by decide) (by decide)) s
    rw [← he, hn] at hleads
    exact hleads.of_next.loaded hphase
  · cases hc.symm.trans hc'
    rw [he] at hn
    cases hn
    exact (readsTree_faultEntry _ ⟨rfl, rfl⟩).loaded hphase
  · simp [hc] at hc'

/-- HUF.READTABLE leaves HUF.LOADED set exactly when it completes (R207). -/
theorem hufReadTable_loaded {start : Addr} {size : BitVec 18} {s t : State} (hp : s.phase ≠ .fault)
    (hn : exec (.hufReadTable start size) s = .next t) : t.huf.loaded = true ↔ t.phase ≠ .fault := by
  obtain ⟨u, v, hu, rfl⟩ | ⟨e, u, hu, rfl⟩ := (stateHufReadTable_writes s _ _).finishWith_next hn
  · have hphase : u.phase = s.phase := by rw [hu.eq]
    exact iff_of_true hu.loaded (by exact hphase ▸ hp)
  · simp [hu.loaded]

/-- Every instruction but HUF.READTABLE, a tree description and CMD.RESET leaves HUF.LOADED alone. -/
theorem exec_loaded {i : Instr} {s t : State} (hn : exec i s = .next t) (hr : ∀ a n, i ≠ .hufReadTable a n)
    (ht : ctxOf i ≠ .htree) (hreset : ∀ b ign, i ≠ .cmdReset b ign) : t.huf.loaded = s.huf.loaded := by
  by_cases hu : ctxOf i = .uop
  · exact (exec_unit (isUnitOp_of_ctx hu) hn).loaded hr
  · by_cases hh : ctxOf i = .host
    · cases i with
      | cmdStart ign => exact congrArg HufRegs.loaded (cmdStart_huf (ign := ign) hn)
      | cmdReset b ign => exact absurd rfl (hreset b ign)
      | _ => cases hh
    · have hleads := exec_keeps hu hh ht s
      rw [hn] at hleads
      exact hleads.of_next.loaded

/-- Settles O21: the steps by `hostAccess_loaded` and `engineStep_loaded`, the instructions by `exec_loaded`. -/
theorem loadedOnlyByTables : Obligations.LoadedOnlyByTables := by
  refine ⟨fun s t hi hn hne => ?steps, fun s t hq hnil hc hn => ?tree, fun i s t hn hne => ?instructions,
    fun start size s t => hufReadTable_loaded, fun b ign s t hb hn => ?reset⟩
  case steps =>
    obtain ⟨h, q, hq, hs⟩ | ⟨hq, q, hs⟩ := step_cases s
    · obtain ⟨v, rfl, hb, hreset, hloaded⟩ := hostAccess_loaded (hs.symm.trans hn) hne
      exact .inl ⟨v, q, hq, hb, hreset, hloaded⟩
    · exact .inr ⟨hq, engineStep_loaded (s := { s with hostQueue := q }) hi (hs.symm.trans hn) hne⟩
  case tree =>
    obtain ⟨h, q, hq', _⟩ | ⟨_, q, hs⟩ := step_cases s
    · exact absurd hq' (hq h q)
    · exact engineStep_htree (s := { s with hostQueue := q }) hnil hc (hs.symm.trans hn)
  case instructions =>
    by_contra hnot
    refine hne (exec_loaded hn ?_ ?_ ?_)
    · rintro a n rfl
      exact hnot trivial
    · intro ht
      cases i with
      | htreeDirect low => exact hnot trivial
      | htreeFse len => exact hnot trivial
      | _ => cases ht
    · rintro b ign rfl
      exact hnot trivial
  case reset =>
    cases (cmdReset_of_not_busy hb b ign).symm.trans hn
    rfl

end Sys2Proof.Machine
end

section
/-! PROOFS. The canonical form of the three byte spaces (R60, R66): every write of the engine and of the host lies inside its
space, so every step keeps the form. -/
namespace Sys2Proof.Machine

/-! ## Symbols written to LIT by the Huffman decodes (R210 to R212) -/

section Decode
variable {rd : Nat → Byte} {h : HufRegs} {size : Nat}

theorem wf_hufSym {o : Nat} {b : BitReader} {lit : Memory} (hw : lit.wf size) (ho : o < size) :
    (hufSym h o b lit).2.wf size := wf_write hw ho

theorem wf_hufPlain {n o : Nat} {b : BitReader} {lit : Memory} (hw : lit.wf size) (ho : o + n ≤ size) :
    (hufPlain h n o b lit).2.wf size := by
  induction n generalizing o b lit with
  | zero => exact hw
  | succ n ih => exact ih (wf_hufSym hw (by omega)) (by omega)

theorem wf_hufTailLoop {n o : Nat} {b : BitReader} {lit : Memory} (hw : lit.wf size) (ho : o + n ≤ size) :
    (hufTailLoop rd h n o b lit).2.wf size := by
  induction n generalizing o b lit with
  | zero => exact hw
  | succ n ih =>
    unfold hufTailLoop
    dsimp only
    split
    · exact ih (wf_hufSym hw (by omega)) (by omega)
    · exact wf_hufPlain hw ho

theorem hufTail_wf {n o : Nat} {b : BitReader} {lit : Memory} (hw : lit.wf size) (ho : o + n ≤ size) :
    (hufTail rd h n o b lit).Leaves fun r => r.2.wf size := by
  have hloop : (hufTailLoop rd h n o b lit).2.wf size := wf_hufTailLoop hw ho
  unfold hufTail
  dsimp only
  split
  · exact .ok hloop
  · exact .raise hloop

/-- The unrolled path of HUF.DEC1 stops at or below `n`, and so does what it has written. -/
theorem wf_dec1Unrolled {n f o : Nat} {b : BitReader} {lit : Memory} (hn : n ≤ size) (hw : lit.wf size) (ho : o ≤ n) :
    (dec1Unrolled rd h n f o b lit).1 ≤ n ∧ (dec1Unrolled rd h n f o b lit).2.2.wf size := by
  induction f generalizing o b lit with
  | zero => exact ⟨ho, hw⟩
  | succ f ih =>
    unfold dec1Unrolled
    dsimp only
    split
    · split
      · exact ih (wf_hufPlain hw (by omega)) (by omega)
      · exact ⟨ho, hw⟩
    · exact ⟨ho, hw⟩

theorem hufDec1_wf {n : Nat} {b : BitReader} {lit : Memory} (hn : n ≤ size) (hw : lit.wf size) :
    (hufDec1 rd h n b lit).Leaves fun r => r.2.wf size := by
  obtain ⟨ho, hlit⟩ := wf_dec1Unrolled (rd := rd) (h := h) (f := n) (b := b) hn hw (Nat.zero_le n)
  exact hufTail_wf hlit (by omega)

theorem wf_dec4Four {k : Fin 4} {o : Nat} {d : Dec4St} (hw : d.2.wf size) (ho : o + 4 ≤ size) :
    (dec4Four h k o d).2.wf size := wf_hufPlain hw ho

/-- A pass of the interleaved path: the four refills leave LIT alone. -/
theorem wf_dec4Pass {seg c : Nat} {d : Dec4St} (hw : d.2.wf size) (hc : 3 * seg + c + 4 ≤ size) :
    (dec4Pass rd h seg c d).2.2.wf size :=
  wf_dec4Four (wf_dec4Four (wf_dec4Four (wf_dec4Four hw (by omega)) (by omega)) (by omega)) hc

/-- The interleaved path stops with the last stream at or below `n`. -/
theorem wf_dec4Unrolled {n seg f c : Nat} {d : Dec4St} (hn : n ≤ size) (hw : d.2.wf size) (hc : 3 * seg + c ≤ n) :
    3 * seg + (dec4Unrolled rd h n seg f c d).1 ≤ n ∧ (dec4Unrolled rd h n seg f c d).2.2.wf size := by
  induction f generalizing c d with
  | zero => exact ⟨hc, hw⟩
  | succ f ih =>
    unfold dec4Unrolled
    dsimp only
    split
    · have hpass : (dec4Pass rd h seg c d).2.2.wf size := wf_dec4Pass hw (by omega)
      split
      · exact ih hpass (by omega)
      · exact ⟨by omega, hpass⟩
    · exact ⟨hc, hw⟩

theorem dec4Tail_wf {k : Fin 4} {m o : Nat} {d : Dec4St} (hw : d.2.wf size) (ho : o + m ≤ size) :
    (dec4Tail rd h k m o d).Leaves fun r => r.2.wf size :=
  (hufTail_wf hw ho).lift fun _ ht => ht

/-- The four streams and the ranges a raise reports lie below `n`, where the first three segments do (R212). -/
theorem hufDec4_wf {n : Nat} {d : Dec4St} (hn : n ≤ size) (hw : d.2.wf size) (hseg : 3 * ceilDiv n 4 ≤ n) :
    (hufDec4 rd h n d).Leaves fun r => r.1.2.wf size ∧ ∀ x ∈ r.2, x.2 ≤ size := by
  obtain ⟨hc, hlit⟩ := wf_dec4Unrolled (rd := rd) (h := h) (f := n) (c := 0) hn hw hseg
  have htail (k : Fin 4) {c m o : Nat} {d' : Dec4St} (hd : d'.2.wf size) (ho : o + m ≤ n) :
      ((dec4Tail rd h k m o d').lift fun r => (r, dec4Written n (ceilDiv n 4) c k)).Leaves
        fun r => r.1.2.wf size ∧ ∀ x ∈ r.2, x.2 ≤ size :=
    (dec4Tail_wf hd (ho.trans hn)).lift fun _ ht => ⟨ht, fun _ hx => (dec4Written_le hx).trans hn⟩
  unfold hufDec4
  dsimp only
  refine (htail 0 hlit (by omega)).bind fun _ _ h0 => ?_
  refine (htail 1 h0.1 (by omega)).bind fun _ _ h1 => ?_
  refine (htail 2 h1.1 (by omega)).bind fun _ _ h2 => ?_
  exact htail 3 h2.1 (by omega)

/-- A decode that goes on writes no more bytes than LIT has. -/
theorem le_litSize_of_hufDecStop {n : Nat} (hs : hufDecStop h n = none) : n ≤ Config.litSize := by
  unfold hufDecStop at hs
  split at hs
  · omega
  · split at hs
    · cases hs
    · split at hs
      · cases hs
      · omega

theorem segments_of_hufDec4Test {start limit n : Nat} (ht : hufDec4Test start limit n = none) : 3 * ceilDiv n 4 ≤ n := by
  unfold hufDec4Test at ht
  split at ht
  · cases ht
  · split at ht
    · cases ht
    · omega

end Decode

/-! ## Taking a fault, finishing an instruction -/

section Run
variable {σ α β : Type} {P Q R : σ → Prop}

theorem Run.Ends.leaves {r : Run σ α} (h : r.Ends P Q) (hp : ∀ t, P t → R t) (hq : ∀ t, Q t → R t) : r.Leaves R := by
  cases h with
  | ok h => exact .ok (hp _ h)
  | raise h => exact .raise (hq _ h)
  | stop => exact .stop

theorem Run.Ends.bindLeaves {r : Run σ α} {f : α → σ → Run σ β} (h : r.Ends P Q) (hf : ∀ a t, P t → (f a t).Leaves Q) :
    (r.bind f).Leaves Q := by
  cases h with
  | ok h => exact hf _ _ h
  | raise h => exact .raise h
  | stop => exact .stop

end Run

theorem raised_memOk (e : ErrCode) {s : State} (h : s.memOk) : Leads State.memOk (raised e s) :=
  .next (memOk_faultEntry h)

theorem finish_memOk {α : Type} {r : Run State α} (h : r.Leaves State.memOk) : Leads State.memOk (finish r) := by
  cases h with
  | ok h => exact .next h
  | raise h => exact raised_memOk _ h
  | stop => exact .fault

theorem finishWith_memOk {r : Run State Nat} (h : r.Leaves State.memOk) : Leads State.memOk (finishWith r) := by
  cases h with
  | ok h => exact .next h
  | raise h => exact raised_memOk _ h
  | stop => exact .fault

/-! ## Operations that write none of the three spaces -/

theorem ReaderWrites.memOk {s t : State} (hw : ReaderWrites s t) (h : s.memOk) : t.memOk := by
  obtain ⟨_, rfl⟩ := hw
  exact h

theorem TableWrites.memOk {s t : State} (hw : TableWrites s t) (h : s.memOk) : t.memOk := by
  rw [hw.eq]
  exact h

theorem WeightWrites.memOk {s t : State} (hw : WeightWrites s t) (h : s.memOk) : t.memOk := by
  obtain ⟨_, _, rfl⟩ := hw
  exact h

theorem BuildWrites.memOk {s t : State} (hw : BuildWrites s t) (h : s.memOk) : t.memOk := by
  obtain ⟨_, _, rfl⟩ := hw
  exact h

theorem TreeWrites.memOk {b : Bool} {s t : State} (hw : TreeWrites b s t) (h : s.memOk) : t.memOk := by
  rw [hw.eq]
  exact h

/-- A part of HUF.READTABLE, whether it completes or raises. -/
theorem Run.Ends.leaves_memOk {α : Type} {a b : Bool} {s : State} {r : Run State α}
    (hr : r.Ends (TreeWrites a s) (TreeWrites b s)) (h : s.memOk) : r.Leaves State.memOk :=
  hr.leaves (fun _ hw => hw.memOk h) fun _ hw => hw.memOk h

theorem memOk_setSel {s : State} (x : Alphabet) (v : Sel) (h : s.memOk) : (s.setSel x v).memOk := by
  cases x <;> exact h

theorem memOk_fseRle {s : State} (tb : TableId) (v : Byte) (h : s.memOk) : (s.fseRle tb v).memOk := by
  cases tb <;> exact h

theorem memOk_nextTable {s : State} (x : Alphabet) (h : s.memOk) : (nextTable x s).memOk := by
  cases x <;> exact h

theorem memOk_seqLoop {s : State} (h : s.memOk) : (seqLoop s).memOk := by
  unfold seqLoop
  split <;> exact h

theorem memOk_litStreams {s : State} (h : s.memOk) : (litStreams s).memOk := by
  unfold litStreams
  split <;> exact h

theorem memOk_engNext {s : State} (h : s.memOk) : (engNext s).memOk := by
  unfold engNext
  split
  · exact h
  · exact memOk_engDone h

theorem stateBrInit_memOk {s : State} (k : Fin 4) (start limit : Nat) (h : s.memOk) :
    (s.brInit k start limit).Leaves State.memOk :=
  (stateBrInit_writes s k start limit).mono fun _ hw => hw.memOk h

theorem runTable_memOk {α : Type} {s : State} (tb : TableId) (f : (cap : Nat) → TableUnit cap → Run (TableUnit cap) α)
    (h : s.memOk) : (s.runTable tb f).Leaves State.memOk :=
  (runTable_writes s tb f).mono fun _ hw => hw.memOk h

/-! ## Bytes produced in OUT and literals placed in LIT -/

/-- Bytes produced at OP with room for them lie below `OUT_LIMIT`, so inside OUT. -/
theorem memOk_produce {s : State} {n : Nat} (src : Memory → Nat → Byte) (hroom : s.op.toNat + n ≤ s.lOutLimit.toNat)
    (h : s.memOk) : (s.produce src n).memOk := by
  obtain ⟨hin, hout, hlit⟩ := h
  exact ⟨hin, wf_copyLoop hout (hroom.trans (le_of_lt s.lOutLimit.isLt)), hlit⟩

theorem memOk_copyLiterals {s : State} {n : Nat} (hroom : s.op.toNat + n ≤ s.lOutLimit.toNat) (h : s.memOk) :
    (s.copyLiterals n).memOk :=
  memOk_produce (fun out i => s.literalOver out (s.lit.ptr.toNat + i)) hroom h

theorem memOk_litFill {s : State} {n : Nat} (src : Memory → Nat → Byte) (hn : n ≤ Config.maxBlock) (h : s.memOk) :
    (s.litFill src n).memOk := by
  obtain ⟨hin, hout, hlit⟩ := h
  have hsize : Config.maxBlock ≤ Config.litSize := by decide
  exact ⟨hin, hout, wf_copyLoop hlit (by omega)⟩

/-! ## Frame elements (R253 to R255, R266) -/

theorem magic_memOk {s : State} (h : s.memOk) : Leads State.memOk (execMagic s) := by
  unfold execMagic
  dsimp only
  split
  · exact .next h
  · exact raised_memOk _ h

theorem magicLegacy_memOk {s : State} (h : s.memOk) : Leads State.memOk (execMagicLegacy s) := by
  unfold execMagicLegacy
  dsimp only
  split
  · exact raised_memOk _ h
  · exact raised_memOk _ h

theorem headerEnd_memOk {s : State} (h : s.memOk) : Leads State.memOk (headerEnd s) := by
  unfold headerEnd
  split
  · exact raised_memOk _ h
  · exact .next h

theorem headerContent_memOk {s : State} (h : s.memOk) : Leads State.memOk (headerContent s) := by
  unfold headerContent
  split
  · exact headerEnd_memOk h
  · exact .next h

theorem headerDict_memOk {s : State} (h : s.memOk) : Leads State.memOk (headerDict s) := by
  unfold headerDict
  split
  · exact headerContent_memOk h
  · exact .next h

theorem fhd_memOk (csel : BitVec 2) (ss : Bool) (ign : BitVec 2) (ck : Bool) (dsel : BitVec 2) {s : State} (h : s.memOk) :
    Leads State.memOk (execFhd csel ss ign ck dsel s) := by
  unfold execFhd
  dsimp only
  split
  · exact raised_memOk _ h
  · split
    · exact raised_memOk _ h
    · split
      · exact headerDict_memOk h
      · exact .next h

theorem checksum_memOk (v : BitVec 32) {s : State} (h : s.memOk) : Leads State.memOk (execChecksum v s) := by
  unfold execChecksum
  dsimp only
  split
  · exact raised_memOk _ h
  · split
    · exact .next (memOk_engNext h)
    · split
      · exact raised_memOk _ h
      · exact .next (memOk_engNext h)

/-! ## Blocks (R257 to R260) -/

theorem blockHeader_memOk (typ : BitVec 2) (last : Bool) (size : BitVec 21) {s : State} (h : s.memOk) :
    (blockHeader typ last size s).Leaves State.memOk := by
  unfold blockHeader
  dsimp only
  split
  · exact .raise h
  · split
    · exact .raise h
    · split
      · exact .raise h
      · exact .ok h

theorem rawBlock_memOk {s : State} (h : s.memOk) : (rawBlock s).Leaves State.memOk := by
  unfold rawBlock
  dsimp only
  split
  · exact .raise h
  · split
    · exact .raise h
    case isFalse hroom =>
      have hprod := memOk_produce (s := s.setBlockEnd) (fun out i => s.inByteOver out (s.ip.toNat + i))
        ((room_iff s _).mp (by simpa using hroom)) h
      exact .ok (memOk_blockEnd hprod)

theorem rleBlock_memOk {s : State} (h : s.memOk) : (rleBlock s).Leaves State.memOk := by
  unfold rleBlock
  dsimp only
  split
  · exact .raise h
  · split
    · exact .raise h
    case isFalse hroom =>
      have hprod := memOk_produce (fun _ _ => s.inByte s.ip.toNat) ((room_iff s _).mp (by simpa using hroom)) h
      exact .ok (memOk_blockEnd hprod)

theorem cmpBlock_memOk {s : State} (h : s.memOk) : (cmpBlock s).Leaves State.memOk := by
  unfold cmpBlock
  dsimp only
  split
  · exact .raise h
  · exact .ok h

/-! ## The Huffman unit (R210 to R212) -/

theorem stateHufDec1_memOk {s : State} (start limit n : Nat) (h : s.memOk) :
    (s.hufDec1 start limit n).Leaves State.memOk := by
  refine (stateBrInit_memOk 0 start limit h).bind fun _ t ht => ?_
  cases hs : hufDecStop t.huf n with
  | some x => exact .stop
  | none =>
    have hn := le_litSize_of_hufDecStop hs
    obtain ⟨hin, hout, hlit⟩ := ht
    have hloops := (hufDec1_wf (rd := t.inByte) (h := t.huf) (b := t.br.get 0) hn hlit).lift
      (f := fun r => { t.setBr 0 r.1 with litbuf := r.2 }) (R := State.memOk) fun _ hr => ⟨hin, hout, hr⟩
    exact hloops.onRaise fun _ hu => memOk_scrapLit hu (by simpa using hn)

theorem stateHufDec4Streams_memOk {s : State} (start limit len1 len2 len3 : Nat) {n : Nat} (hseg : 3 * ceilDiv n 4 ≤ n)
    (h : s.memOk) : (s.hufDec4Streams start limit n len1 len2 len3).Leaves State.memOk := by
  unfold State.hufDec4Streams
  dsimp only
  split
  · exact .raise h
  · refine (stateBrInit_memOk 0 _ _ h).bind fun _ t1 h1 => (stateBrInit_memOk 1 _ _ h1).bind fun _ t2 h2 =>
      (stateBrInit_memOk 2 _ _ h2).bind fun _ t3 h3 => (stateBrInit_memOk 3 _ _ h3).bind fun _ t4 h4 => ?_
    cases hs : hufDecStop t4.huf n with
    | some x => exact .stop
    | none =>
      dsimp only
      obtain ⟨hin, hout, hlit⟩ := h4
      have hloops := hufDec4_wf (rd := t4.inByte) (h := t4.huf) (d := (t4.br, t4.litbuf))
        (le_litSize_of_hufDecStop hs) hlit hseg
      generalize hufDec4 t4.inByte t4.huf n (t4.br, t4.litbuf) = r at hloops ⊢
      cases hloops with
      | ok hr => exact .ok ⟨hin, hout, hr.1⟩
      | raise hr => exact .raise (memOk_scrapLit ⟨hin, hout, hr.1⟩ hr.2)
      | stop => exact .stop

theorem stateHufDec4_memOk {s : State} (start limit n : Nat) (h : s.memOk) :
    (s.hufDec4 start limit n).Leaves State.memOk := by
  unfold State.hufDec4
  cases ht : hufDec4Test start limit n with
  | some e => exact .raise h
  | none => exact stateHufDec4Streams_memOk _ _ _ _ _ (segments_of_hufDec4Test ht) h

/-! ## Literals (R291 to R296) -/

/-- A header that completes has a body of at most `maxBlock` bytes (R291). -/
theorem litHeader_memOk (typ fmt : BitVec 2) (hs : Nat) (regen : BitVec 20) (comp : BitVec 18) (single : Bool) {s : State}
    (h : s.memOk) :
    (litHeader typ fmt hs regen comp single s).Ends (fun t => t.memOk ∧ t.lit.regen.toNat ≤ Config.maxBlock)
      State.memOk := by
  unfold litHeader
  dsimp only
  split
  · exact .raise h
  · split
    · exact .raise h
    · split
      · exact .raise h
      case isFalse hregen =>
        have hbody := not_lt.mp hregen
        split
        · exact .ok ⟨h, hbody⟩
        · split
          · exact .raise h
          · split
            · exact .raise h
            · exact .ok ⟨h, hbody⟩

theorem litRaw_memOk {s : State} (hregen : s.lit.regen.toNat ≤ Config.maxBlock) (h : s.memOk) :
    (litRaw s).Leaves State.memOk := by
  unfold litRaw
  dsimp only
  split
  · exact .raise h
  · split
    · exact .ok h
    · exact .ok (memOk_litFill (fun _ i => s.inByte (s.ip.toNat + i)) hregen h)

theorem litRle_memOk {s : State} (hregen : s.lit.regen.toNat ≤ Config.maxBlock) (h : s.memOk) :
    (litRle s).Leaves State.memOk := by
  unfold litRle
  dsimp only
  split
  · exact .raise h
  · exact .ok (memOk_litFill (fun _ _ => s.inByte s.ip.toNat) hregen h)

theorem memOk_litHuf (tree : Bool) {s : State} (h : s.memOk) : (litHuf tree s).memOk := by
  unfold litHuf
  dsimp only
  split
  · exact h
  · exact memOk_litStreams h

/-- A literals section: its body runs after a header that has completed. -/
theorem litSection_memOk {typ fmt : BitVec 2} {hs : Nat} {regen : BitVec 20} {comp : BitVec 18} {single : Bool} {s : State}
    {body : State → Run State Unit} (h : s.memOk)
    (hbody : ∀ t, t.lit.regen.toNat ≤ Config.maxBlock → t.memOk → (body t).Leaves State.memOk) :
    Leads State.memOk (finish ((litHeader typ fmt hs regen comp single s).bind fun _ t => body t)) :=
  finish_memOk ((litHeader_memOk typ fmt hs regen comp single h).bindLeaves fun _ t ⟨ht, hregen⟩ => hbody t hregen ht)

theorem litRawSection_memOk (fmt : BitVec 2) (hs : Nat) (regen : BitVec 20) {s : State} (h : s.memOk) :
    Leads State.memOk (litRawSection fmt hs regen s) := litSection_memOk h fun _ => litRaw_memOk

theorem litRleSection_memOk (fmt : BitVec 2) (hs : Nat) (regen : BitVec 20) {s : State} (h : s.memOk) :
    Leads State.memOk (litRleSection fmt hs regen s) := litSection_memOk h fun _ => litRle_memOk

theorem litHufSection_memOk (fmt : BitVec 2) (hs : Nat) (regen : BitVec 20) (comp : BitVec 18) {s : State} (h : s.memOk) :
    Leads State.memOk (litHufSection fmt hs regen comp s) :=
  litSection_memOk h fun _ _ ht => .ok (memOk_litHuf true ht)

theorem litRepSection_memOk (fmt : BitVec 2) (hs : Nat) (regen : BitVec 20) (comp : BitVec 18) {s : State} (h : s.memOk) :
    Leads State.memOk (litRepSection fmt hs regen comp s) :=
  litSection_memOk h fun _ _ ht => .ok (memOk_litHuf false ht)

theorem htreeElement_memOk (w : Nat) {s : State} (h : s.memOk) : Leads State.memOk (htreeElement w s) := by
  unfold htreeElement
  dsimp only
  split
  · exact raised_memOk _ h
  · exact finish_memOk (((hufForm_writes _ _ _ (hufUnload s)).leaves_memOk h).bind fun _ _ ht => .ok (memOk_litStreams ht))

theorem jump_memOk (len1 len2 len3 : BitVec 16) {s : State} (h : s.memOk) :
    Leads State.memOk (execJump len1 len2 len3 s) := by
  unfold execJump
  cases ht : hufDec4Test s.ip.toNat s.litLim.toNat s.lit.regen.toNat with
  | some e => exact raised_memOk _ h
  | none =>
    exact finish_memOk ((stateHufDec4Streams_memOk _ _ _ _ _ (segments_of_hufDec4Test ht) h).bind fun _ _ hu => .ok hu)

/-! ## Sequences (R310 to R334) -/

theorem seqHeader_memOk (n count : Nat) {s : State} (h : s.memOk) : Leads State.memOk (seqHeader n count s) := by
  unfold seqHeader
  split
  · exact raised_memOk _ h
  · split
    · exact raised_memOk _ h
    · exact .next h

theorem seqn0_memOk {s : State} (h : s.memOk) : Leads State.memOk (execSeqn0 s) := by
  unfold execSeqn0
  split
  · exact raised_memOk _ h
  · exact .next h

theorem seqm_memOk (llmode ofmode mlmode ign : BitVec 2) {s : State} (h : s.memOk) :
    Leads State.memOk (execSeqm llmode ofmode mlmode ign s) := by
  unfold execSeqm
  split
  · exact raised_memOk _ h
  · exact .next h

theorem modeRepeat_memOk (x : Alphabet) {s : State} (h : s.memOk) : Leads State.memOk (execModeRepeat x s) := by
  unfold execModeRepeat
  split
  · exact raised_memOk _ h
  · exact .next (memOk_nextTable x h)

theorem rlesym_memOk (x : Alphabet) (v : BitVec 8) {s : State} (h : s.memOk) : Leads State.memOk (execRlesym x v s) := by
  unfold execRlesym
  split
  · exact raised_memOk _ h
  · split
    · exact raised_memOk _ h
    · have hsel := memOk_setSel x .ram (memOk_fseRle x.table v h)
      exact .next (memOk_nextTable (s := State.advance _ 1) x hsel)

theorem fsedesc_memOk (x : Alphabet) (logMinus5 high : BitVec 4) {s : State} (h : s.memOk) :
    Leads State.memOk (execFsedesc x logMinus5 high s) :=
  finish_memOk (((runTable_memOk x.table _ h).onRaise fun t ht => (scrapTable_writes t x.table).memOk ht).bind
    fun used _ ht => .ok (memOk_nextTable (s := State.advance _ used) x (memOk_setSel x .ram ht)))

theorem primeBits_memOk (x : Alphabet) {s : State} (h : s.memOk) : (primeBits s x).Leaves State.memOk := by
  unfold primeBits
  split
  · exact .stop
  · exact .ok h

theorem seqPrime_memOk {s : State} (h : s.memOk) : (seqPrime s).Leaves State.memOk := by
  refine (primeBits_memOk .ll h).bind fun _ _ h1 => ?_
  refine (primeBits_memOk .of (by exact h1)).bind fun _ _ h2 => ?_
  refine (primeBits_memOk .ml (by exact h2)).bind fun _ _ h3 => ?_
  exact .ok (memOk_seqLoop h3)

theorem stateSeqDecode_memOk {s : State} (h : s.memOk) : s.seqDecode.Leaves State.memOk := by
  unfold State.seqDecode
  dsimp only
  split
  · exact .raise h
  · split
    · exact .stop
    · exact .ok h

theorem stateSeqExec_memOk {s : State} (h : s.memOk) : s.seqExec.Leaves State.memOk := by
  unfold State.seqExec
  dsimp only
  split
  · exact .raise h
  case isFalse hroom =>
    split
    · exact .raise h
    · split
      · exact .raise h
      · split
        · exact .stop
        · have hll : s.op.toNat + s.seq.ll.toNat ≤ s.lOutLimit.toNat := by omega
          have hop : (s.copyLiterals s.seq.ll.toNat).op.toNat = s.op.toNat + s.seq.ll.toNat := toNat_add_of_le hll
          refine .ok (memOk_produce _ ?_ (memOk_copyLiterals hll h))
          rw [hop, copyLiterals_lOutLimit]
          omega

theorem stateSeqLastlit_memOk {s : State} (h : s.memOk) : s.seqLastlit.Leaves State.memOk := by
  unfold State.seqLastlit
  dsimp only
  split
  · exact .raise h
  case isFalse hroom =>
    split
    · exact .stop
    · exact .ok (memOk_copyLiterals ((room_iff s _).mp (by simpa using hroom)) h)

/-! ## Host commands (R251, R400) -/

theorem cmdStart_memOk (ign : BitVec 30) {s : State} (h : s.memOk) : Leads State.memOk (execCmdStart ign s) := by
  unfold execCmdStart
  split
  · exact .next h
  · split
    · exact .refused
    · split
      · exact .refused
      · exact .next h

theorem memOk_hwReset {s : State} (h : s.memOk) : (hwReset s).memOk := by
  obtain ⟨hin, hout, hlit⟩ := h
  exact ⟨hin, hout, wf_scrap hlit (le_refl _)⟩

theorem cmdReset_memOk (start : Bool) (ign : BitVec 30) {s : State} (h : s.memOk) :
    Leads State.memOk (execCmdReset start ign s) := by
  unfold execCmdReset
  split
  · exact .next h
  · exact .next (memOk_hwReset h)

/-! ## Every instruction -/

/-- Every instruction keeps the form, whoever issues it. -/
theorem exec_memOk (i : Instr) {s : State} (h : s.memOk) : Leads State.memOk (exec i s) := by
  cases i with
  | magic => exact magic_memOk h
  | magicLegacy => exact magicLegacy_memOk h
  | fhd csel ss ign ck dsel => exact fhd_memOk csel ss ign ck dsel h
  | wd e m => exact headerDict_memOk h
  | did n v => exact raised_memOk _ h
  | fcs n v => exact headerEnd_memOk h
  | blkRaw last size => exact finish_memOk ((blockHeader_memOk 0 last size h).bind fun _ _ => rawBlock_memOk)
  | blkRle last size => exact finish_memOk ((blockHeader_memOk 1 last size h).bind fun _ _ => rleBlock_memOk)
  | blkCmp last size => exact finish_memOk ((blockHeader_memOk 2 last size h).bind fun _ _ => cmpBlock_memOk)
  | blkRsv last size => exact finish_memOk (blockHeader_memOk 3 last size h)
  | litRaw1 | litRaw2 | litRaw3 => exact litRawSection_memOk _ _ _ h
  | litRle1 | litRle2 | litRle3 => exact litRleSection_memOk _ _ _ h
  | litHufS3 | litHuf3 | litHuf4 | litHuf5 => exact litHufSection_memOk _ _ _ _ h
  | litRepS3 | litRep3 | litRep4 | litRep5 => exact litRepSection_memOk _ _ _ _ h
  | htreeDirect | htreeFse => exact htreeElement_memOk _ h
  | jump len1 len2 len3 => exact jump_memOk len1 len2 len3 h
  | seqn0 => exact seqn0_memOk h
  | seqn1 | seqn2 | seqn3 => exact seqHeader_memOk _ _ h
  | seqm llmode ofmode mlmode ign => exact seqm_memOk llmode ofmode mlmode ign h
  | modePredef x => exact .next (memOk_nextTable x (memOk_setSel x .predef h))
  | modeRle | modeFse => exact .next h
  | modeRepeat x => exact modeRepeat_memOk x h
  | rlesym x symbol => exact rlesym_memOk x symbol h
  | fsedesc x logMinus5 high => exact fsedesc_memOk x logMinus5 high h
  | checksum v => exact checksum_memOk v h
  | brInit k start limit => exact finish_memOk (stateBrInit_memOk k _ _ h)
  | brPeek | brPeekFast | brRefill => exact .next h
  | fseReadTable tb start limit maxSymbol maxLog =>
    exact finishWith_memOk ((stateFseReadTable_writes s tb _ _ _ _).mono fun _ hw => hw.memOk h)
  | fseBuild tb log nsym => exact finish_memOk (runTable_memOk tb _ h)
  | fseRle tb v => exact .next (memOk_fseRle tb v h)
  | fsePredef x => exact .next (memOk_setSel x .predef h)
  | fseDecompress tb start limit cap =>
    exact finishWith_memOk ((stateFseDecompress_writes s tb _ _ _).mono fun _ hw => hw.memOk h)
  | hufReadTable start size => exact finishWith_memOk ((stateHufReadTable_writes s _ _).leaves_memOk h)
  | hufBuild n => exact finish_memOk ((stateHufBuild_writes s _).mono fun _ hw => hw.memOk h)
  | hufDec1 start limit n => exact finish_memOk (stateHufDec1_memOk _ _ _ h)
  | hufDec4 start limit n => exact finish_memOk (stateHufDec4_memOk _ _ _ h)
  | xxhHash | seqResolve => exact .next h
  | seqDecode => exact finish_memOk (stateSeqDecode_memOk h)
  | seqExec => exact finish_memOk (stateSeqExec_memOk h)
  | seqLastlit => exact finish_memOk (stateSeqLastlit_memOk h)
  | cmdStart ign => exact cmdStart_memOk ign h
  | cmdReset start ign => exact cmdReset_memOk start ign h

/-! ## Every step -/

theorem memOk_beforeReject (c : Ctx) (w : List Byte) {s : State} (h : s.memOk) : (beforeReject c w s).memOk := by
  cases c with
  | lith => cases w <;> exact h
  | fsedesc x => exact (scrapTable_writes s x.table).memOk h
  | _ => exact h

theorem innerStep_memOk {s : State} (h : s.memOk) : Leads State.memOk (innerStep s) := by
  unfold innerStep
  split
  · split
    · exact .next h
    · exact finish_memOk (seqPrime_memOk h)
    · exact .next (memOk_seqLoop h)
    · exact .next (memOk_blockEnd h)
    all_goals exact .next h
  all_goals exact .next h

theorem engineStep_memOk {s : State} (h : s.memOk) : Leads State.memOk (engineStep s) := by
  obtain ⟨i, r, _, he⟩ | ⟨_, _, i, _, _, _, he⟩ | ⟨_, c, r, _, _, he⟩ | ⟨_, _, he⟩ := engineStep_cases s
  · rw [he]
    exact exec_memOk i h
  · rw [he]
    exact exec_memOk i h
  · rw [he]
    exact raised_memOk _ (memOk_beforeReject c _ h)
  · rw [he]
    exact innerStep_memOk h

theorem hostWrite_memOk {r : HostReg} {v : Word} {s t : State} (h : s.memOk) (hb : s.busy = false)
    (hn : hostWrite r v s = .next t) : t.memOk := by
  obtain ⟨_, _, rfl⟩ | ⟨ign, hstart⟩ | ht := hostWrite_cases hb hn
  · exact memOk_hwReset h
  · exact (hstart ▸ cmdStart_memOk ign h).of_next
  · rw [ht]
    exact h

theorem hostAccess_memOk {a : HostAccess} {s t : State} (h : s.memOk) (hn : hostAccess a s = .next t) : t.memOk := by
  obtain ⟨_, _, _, rfl | ⟨hb, hw⟩⟩ | ⟨_, _, rfl⟩ | ⟨_, _, _, _, rfl⟩ | ⟨_, _, _, _, rfl⟩ | ⟨_, _, _, rfl⟩ | ⟨_, _, _, rfl⟩ :=
    hostAccess_cases hn
  · exact h
  · exact hostWrite_memOk h hb hw
  · exact h
  · exact memOk_putIn h
  · exact memOk_putOut h
  · exact h
  · exact h

/-- Settles O14: the engine's step by `engineStep_memOk`, the host's access by `hostAccess_memOk`. -/
theorem memoryFormKept : Obligations.MemoryFormKept := by
  intro s t h hn
  obtain ⟨a, q, _, hs⟩ | ⟨_, q, hs⟩ := step_cases s
  · exact hostAccess_memOk (s := { s with hostQueue := q }) h (hs.symm.trans hn)
  · have hleads := engineStep_memOk (s := { s with hostQueue := q }) h
    rw [← hs, hn] at hleads
    exact hleads.of_next

end Sys2Proof.Machine
end

section
/-! PROOFS. Decoding and encoding are inverse to each other (R91 to R112, R120 to R122). -/
namespace Sys2Proof

open Laws.WordFits

/-! ## Fields of a word (R10) -/

@[simp] theorem field_eq_iff {h lo w : Nat} {v : BitVec w} : field h lo w = v ↔ h / 2 ^ lo % 2 ^ w = v.toNat := by
  rw [← BitVec.toNat_inj, field_toNat]

@[simp] theorem bit_eq_iff {h i : Nat} {b : Bool} : bit h i = b ↔ h / 2 ^ i % 2 = bitNat b := by
  cases b <;> simp [bit]

theorem bitNat_bit (h i : Nat) : bitNat (bit h i) = h / 2 ^ i % 2 := (bit_eq_iff.mp rfl).symm

theorem finOfNat_eq_iff {n : Nat} {k : Fin 4} : Fin.ofNat 4 n = k ↔ n % 4 = k.val := Fin.ext_iff

@[simp] theorem tableOf_code (t : TableId) : tableOf t.code = .ok t := by cases t <;> rfl

@[simp] theorem alphabetOf_code (x : Alphabet) : alphabetOf x.code = .ok x := by cases x <;> rfl

theorem code_of_tableOf {n : Nat} {t : TableId} (h : tableOf n = .ok t) : t.code = n := by
  unfold tableOf at h
  split at h
  all_goals cases h
  all_goals rfl

theorem code_of_alphabetOf {n : Nat} {x : Alphabet} (h : alphabetOf n = .ok x) : x.code = n := by
  unfold alphabetOf at h
  split at h
  all_goals cases h
  all_goals rfl

@[simp] theorem guarded_eq_ok {ok : Bool} {i j : Instr} : guarded ok i = .ok j ↔ ok = true ∧ i = j := by
  cases ok <;> simp [guarded]

/-! ## Every position reads one word (R91) -/

/-- The number of bytes of the word read in a position, by its first byte. -/
def Ctx.wordBytes (b0 : Nat) : Ctx → Nat
  | .fhd | .wd | .htree | .seqm | .mode _ | .rlesym _ | .fsedesc _ => 1
  | .blk => 3
  | .magic | .checksum | .host => 4
  | .jump => 6
  | .did n => n.bytes
  | .fcs n => n.bytes
  | .lith => lithBytes b0
  | .seqn => seqnBytes b0
  | .uop => 1 + uopOperandBytes b0

/-- The instruction that a word stands for in a position. -/
def Ctx.interpret (h : Nat) : Ctx → Except Reject Instr
  | .magic => decodeMagic h
  | .fhd => decodeFhd h
  | .wd => decodeWd h
  | .did n => .ok (.did n (BitVec.ofNat 32 h))
  | .fcs n => .ok (.fcs n (BitVec.ofNat 64 h))
  | .blk => decodeBlk h
  | .lith => decodeLith h
  | .htree => decodeHtree h
  | .jump => decodeJump h
  | .seqn => decodeSeqn h
  | .seqm => decodeSeqm h
  | .mode x => decodeMode x h
  | .rlesym x => .ok (.rlesym x (BitVec.ofNat 8 h))
  | .fsedesc x => decodeFsedesc x h
  | .checksum => .ok (.checksum (BitVec.ofNat 32 h))
  | .uop => decodeUop (h % 256) (h / 256)
  | .host => decodeHost h

theorem lithBytes_eq (b0 : Nat) :
    lithBytes b0 =
      if b0 % 4 < 2 then if b0 / 4 % 4 = 1 then 2 else if b0 / 4 % 4 = 3 then 3 else 1
      else if b0 / 4 % 4 = 2 then 4 else if b0 / 4 % 4 = 3 then 5 else 3 := by
  unfold lithBytes
  split
  all_goals
    split
    all_goals simp_all

theorem uopOperandBytes_le (num : Nat) : uopOperandBytes num ≤ 11 := by
  unfold uopOperandBytes
  split
  all_goals omega

theorem DidLen.bytes_bounds (n : DidLen) : 1 ≤ n.bytes ∧ n.bytes ≤ 4 := by cases n <;> decide

theorem FcsLen.bytes_bounds (n : FcsLen) : 1 ≤ n.bytes ∧ n.bytes ≤ 8 := by cases n <;> decide

theorem Ctx.wordBytes_bounds (c : Ctx) (b0 : Nat) : 1 ≤ c.wordBytes b0 ∧ c.wordBytes b0 ≤ longestBytes := by
  unfold wordBytes longestBytes
  cases c with
  | lith =>
    simp only [lithBytes_eq]
    repeat' split
    all_goals omega
  | seqn =>
    simp only [seqnBytes]
    repeat' split
    all_goals omega
  | did n =>
    have := n.bytes_bounds
    dsimp only
    omega
  | fcs n =>
    have := n.bytes_bounds
    dsimp only
    omega
  | uop =>
    have := uopOperandBytes_le b0
    dsimp only
    omega
  | _ => simp only [Nat.reduceLeDiff, and_self]

theorem decode_nil (c : Ctx) : decode c [] = .error .truncated := by
  cases c with
  | did n => cases n <;> rfl
  | fcs n => cases n <;> rfl
  | _ => rfl

theorem decode_cons (c : Ctx) (b : Byte) (bs : List Byte) :
    decode c (b :: bs) = withWord (c.wordBytes b.toNat) (b :: bs) c.interpret := by
  cases c <;> rfl

/-- The first byte of a word is its lowest. -/
theorem leNat_take_mod (b : Byte) (bs : List Byte) {n : Nat} (hn : 0 < n) :
    leNat ((b :: bs).take n) % 256 = b.toNat := by
  obtain ⟨m, rfl⟩ := Nat.exists_eq_succ_of_ne_zero (by omega : n ≠ 0)
  rw [List.take_succ_cons, leNat]
  omega

/-- What the decoder accepts: a word of the position that stands for a well-formed instruction. -/
theorem decode_eq_ok {c : Ctx} {bs rest : List Byte} {i : Instr} :
    decode c bs = .ok (i, rest) ↔
      ∃ h n, n = c.wordBytes (h % 256) ∧ n ≤ bs.length ∧ leNat (bs.take n) = h ∧ c.interpret h = .ok i ∧
        WellFormed i ∧ rest = bs.drop n := by
  cases bs with
  | nil =>
    simp only [decode_nil, reduceCtorEq, false_iff, not_exists, not_and]
    intro h n hn hle
    have := (c.wordBytes_bounds (h % 256)).1
    simp at hle
    omega
  | cons b bs =>
    rw [decode_cons, withWord_eq_ok]
    constructor
    · rintro ⟨hle, hi, hwf, hrest⟩
      exact ⟨_, _, by rw [leNat_take_mod b bs (c.wordBytes_bounds _).1], hle, rfl, hi, hwf, hrest⟩
    · rintro ⟨h, n, hn, hle, rfl, hi, hwf, hrest⟩
      rw [leNat_take_mod b bs (hn ▸ (c.wordBytes_bounds _).1)] at hn
      subst hn
      exact ⟨hle, hi, hwf, hrest⟩

/-! ## A decoder inverts the encoder -/

/-- `i` is a reading of the word `h` in position `c`: it belongs there, and if the word fits the bytes of `i` it is the word
of `i`. -/
structure Instr.Reads (i : Instr) (c : Ctx) (h : Nat) : Prop where
  ctx : ctxOf i = c
  bytes : i.bytes = c.wordBytes (h % 256)
  word : h < 256 ^ i.bytes → i.word = h

theorem mod_four_cases (n : Nat) : n % 4 = 0 ∨ n % 4 = 1 ∨ n % 4 = 2 ∨ n % 4 = 3 := by omega

section
variable {i : Instr} {h : Nat}

theorem decodeMagic_reads (hd : decodeMagic h = .ok i) : i.Reads .magic h := by
  unfold decodeMagic at hd
  split at hd
  case isTrue hm =>
    cases hd
    exact ⟨rfl, rfl, fun _ => hm.symm⟩
  case isFalse =>
    split at hd
    case isTrue hm =>
      cases hd
      exact ⟨rfl, rfl, fun _ => hm.symm⟩
    case isFalse => cases hd

theorem did_reads (n : DidLen) (h : Nat) : (Instr.did n (BitVec.ofNat 32 h)).Reads (.did n) h := by
  refine ⟨rfl, rfl, fun hlt => ?_⟩
  have hn : 256 ^ n.bytes ≤ 2 ^ 32 := by cases n <;> decide
  exact Nat.mod_eq_of_lt (lt_of_lt_of_le hlt hn)

theorem fcs_reads (n : FcsLen) (h : Nat) : (Instr.fcs n (BitVec.ofNat 64 h)).Reads (.fcs n) h := by
  refine ⟨rfl, rfl, fun hlt => ?_⟩
  have hn : 256 ^ n.bytes ≤ 2 ^ 64 := by cases n <;> decide
  exact Nat.mod_eq_of_lt (lt_of_lt_of_le hlt hn)

theorem decodeBlk_reads (hd : decodeBlk h = .ok i) : i.Reads .blk h := by
  obtain ht | ht | ht | ht := mod_four_cases (h / 2)
  all_goals
    simp only [decodeBlk, ht, Except.ok.injEq] at hd
    subst hd
    refine ⟨rfl, rfl, fun hlt => ?_⟩
    simp only [Instr.bytes] at hlt
    simp only [Instr.word, field_toNat, bitNat_bit, Nat.reducePow]
    omega

theorem decodeLith_reads (hd : decodeLith h = .ok i) : i.Reads .lith h := by
  obtain ht | ht | ht | ht := mod_four_cases h
  all_goals
    obtain hf | hf | hf | hf := mod_four_cases (h / 4)
    all_goals
      simp only [decodeLith, ht, hf, Except.ok.injEq] at hd
      subst hd
      refine ⟨rfl, ?_, fun hlt => ?_⟩
      · simp only [Instr.bytes, Ctx.wordBytes, lithBytes_eq]
        repeat' split
        all_goals omega
      · simp only [Instr.bytes] at hlt
        simp only [Instr.word, field_toNat, Nat.reducePow]
        omega

theorem decodeHtree_reads (hd : decodeHtree h = .ok i) : i.Reads .htree h := by
  unfold decodeHtree at hd
  split at hd
  all_goals
    cases hd
    refine ⟨rfl, rfl, fun hlt => ?_⟩
    simp only [Instr.bytes] at hlt
    simp only [Instr.word, field_toNat, Nat.reducePow]
    omega

theorem decodeSeqn_reads (hd : decodeSeqn h = .ok i) : i.Reads .seqn h := by
  unfold decodeSeqn at hd
  dsimp only at hd
  repeat' split at hd
  all_goals
    cases hd
    refine ⟨rfl, ?_, fun hlt => ?_⟩
    · simp only [Instr.bytes, Ctx.wordBytes, seqnBytes]
      repeat' split
      all_goals omega
    · simp only [Instr.bytes] at hlt
      simp only [Instr.word, field_toNat, Nat.reducePow]
      omega

theorem decodeMode_reads {x : Alphabet} (hd : decodeMode x h = .ok i) : i.Reads (.mode x) h := by
  unfold decodeMode at hd
  split at hd
  all_goals cases hd
  all_goals exact ⟨rfl, rfl, fun _ => rfl⟩

theorem rlesym_reads (x : Alphabet) (h : Nat) : (Instr.rlesym x (BitVec.ofNat 8 h)).Reads (.rlesym x) h :=
  ⟨rfl, rfl, Nat.mod_eq_of_lt⟩

theorem checksum_reads (h : Nat) : (Instr.checksum (BitVec.ofNat 32 h)).Reads .checksum h :=
  ⟨rfl, rfl, Nat.mod_eq_of_lt⟩

theorem decodeHost_reads (hd : decodeHost h = .ok i) : i.Reads .host h := by
  unfold decodeHost at hd
  repeat' split at hd
  all_goals cases hd
  all_goals
    refine ⟨rfl, rfl, fun hlt => ?_⟩
    simp only [Instr.bytes] at hlt
    simp only [Instr.word, field_toNat, bitNat_bit, Nat.reducePow]
    omega

/-- A unit operation: its number is the first byte, and the operands that passed the decoder's checks are the rest. -/
theorem decodeUop_reads (hd : decodeUop (h % 256) (h / 256) = .ok i) : i.Reads .uop h := by
  unfold decodeUop at hd
  split at hd
  case h_1 hn | h_2 hn | h_3 hn | h_4 hn | h_10 hn | h_12 hn | h_13 hn | h_16 hn =>
    obtain ⟨hg, rfl⟩ := guarded_eq_ok.mp hd
    simp only [Bool.and_eq_true, decide_eq_true_eq, Nat.reducePow] at hg
    refine ⟨rfl, by rw [Ctx.wordBytes, hn]; rfl, fun hlt => ?_⟩
    simp only [Instr.bytes] at hlt
    simp only [Instr.word, field_toNat, bitNat_bit, Fin.val_ofNat, Nat.reducePow]
    omega
  case h_5 hn | h_6 hn =>
    split at hd
    · cases hd
    · rename_i t ht
      obtain ⟨hg, rfl⟩ := guarded_eq_ok.mp hd
      simp only [decide_eq_true_eq, Nat.reducePow] at hg
      refine ⟨rfl, by rw [Ctx.wordBytes, hn]; rfl, fun hlt => ?_⟩
      simp only [Instr.bytes] at hlt
      simp only [Instr.word, field_toNat, code_of_tableOf ht, Nat.reducePow]
      omega
  case h_7 hn | h_9 hn =>
    split at hd
    · cases hd
    · rename_i t ht
      cases hd
      refine ⟨rfl, by rw [Ctx.wordBytes, hn]; rfl, fun hlt => ?_⟩
      simp only [Instr.bytes] at hlt
      simp only [Instr.word, field_toNat, code_of_tableOf ht, Nat.reducePow]
      omega
  case h_8 hn =>
    split at hd
    · cases hd
    · rename_i x hx
      cases hd
      refine ⟨rfl, by rw [Ctx.wordBytes, hn]; rfl, fun hlt => ?_⟩
      simp only [Instr.word, code_of_alphabetOf hx]
      omega
  case h_11 hn | h_14 hn | h_15 hn | h_17 hn | h_18 hn =>
    cases hd
    refine ⟨rfl, by rw [Ctx.wordBytes, hn]; rfl, fun hlt => ?_⟩
    simp only [Instr.bytes] at hlt
    simp only [Instr.word, field_toNat, Nat.reducePow]
    omega
  case h_19 => cases hd

theorem Ctx.interpret_reads {c : Ctx} (hd : c.interpret h = .ok i) : i.Reads c h := by
  cases c with
  | fhd | wd | jump | seqm | fsedesc x =>
    cases hd
    refine ⟨rfl, rfl, fun hlt => ?_⟩
    simp only [Instr.bytes] at hlt
    simp only [Instr.word, field_toNat, bitNat_bit, Nat.reducePow]
    omega
  | magic => exact decodeMagic_reads hd
  | did n => cases hd; exact did_reads n h
  | fcs n => cases hd; exact fcs_reads n h
  | blk => exact decodeBlk_reads hd
  | lith => exact decodeLith_reads hd
  | htree => exact decodeHtree_reads hd
  | seqn => exact decodeSeqn_reads hd
  | mode x => exact decodeMode_reads hd
  | rlesym x => cases hd; exact rlesym_reads x h
  | checksum => cases hd; exact checksum_reads h
  | uop => exact decodeUop_reads hd
  | host => exact decodeHost_reads hd

end


/-! ## The encoder inverts a decoder -/
section
variable {i : Instr} {h : Nat}

/-- The type and the format of a literals header are the low bits of its word (R98 to R100). -/
theorem litForm_of_word {f : LitForm} (hf : litForm i = some f) (hw : i.word = h) :
    h % 4 = f.typ.toNat ∧ h / 4 % 4 = f.fmt.toNat := by
  cases i with
  | litRaw1 r | litRaw2 r | litRaw3 r | litRle1 r | litRle2 r | litRle3 r | litHufS3 r c | litHuf3 r c | litHuf4 r c
  | litHuf5 r c | litRepS3 r c | litRep3 r c | litRep4 r c | litRep5 r c =>
    cases hf
    simp only [Instr.word] at hw
    simp
    omega
  | _ => cases hf

theorem decodeLith_of_word {f : LitForm} (hf : litForm i = some f) (hw : i.word = h) : decodeLith h = .ok i := by
  obtain ⟨htyp, hfmt⟩ := litForm_of_word hf hw
  cases i with
  | litRaw1 r | litRle1 r =>
    cases hf
    simp only [Instr.word] at hw
    obtain hr | hr : r.toNat % 2 = 0 ∨ r.toNat % 2 = 1 := by omega
    all_goals
      simp [decodeLith, htyp, hfmt, hr]
      omega
  | litRaw2 r | litRaw3 r | litRle2 r | litRle3 r | litHufS3 r c | litHuf3 r c | litHuf4 r c | litHuf5 r c
  | litRepS3 r c | litRep3 r c | litRep4 r c | litRep5 r c =>
    cases hf
    simp only [Instr.word] at hw
    simp [decodeLith, htyp, hfmt]
    omega
  | _ => cases hf

theorem decodeBlk_of_word (hc : ctxOf i = .blk) (hw : i.word = h) : decodeBlk h = .ok i := by
  cases i with
  | blkRaw l z =>
    have hl := bitNat_lt l
    simp only [Instr.word] at hw
    simp [decodeBlk, show h / 2 % 4 = 0 by omega]
    omega
  | blkRle l z =>
    have hl := bitNat_lt l
    simp only [Instr.word] at hw
    simp [decodeBlk, show h / 2 % 4 = 1 by omega]
    omega
  | blkCmp l z =>
    have hl := bitNat_lt l
    simp only [Instr.word] at hw
    simp [decodeBlk, show h / 2 % 4 = 2 by omega]
    omega
  | blkRsv l z =>
    have hl := bitNat_lt l
    simp only [Instr.word] at hw
    simp [decodeBlk, show h / 2 % 4 = 3 by omega]
    omega
  | _ => cases hc

/-- The short forms hold no value that selects another row (R108): that is what `WellFormed` asks of them. -/
theorem decodeSeqn_of_word (hc : ctxOf i = .seqn) (hw : i.word = h) (hi : WellFormed i) : decodeSeqn h = .ok i := by
  cases i with
  | seqn0 =>
    cases hw
    rfl
  | seqn1 c =>
    have hne : c.toNat ≠ 0 := fun h0 => of_decide_eq_true hi (BitVec.eq_of_toNat_eq h0)
    simp only [Instr.word] at hw
    simp [decodeSeqn, show h % 256 ≠ 0 by omega, show h % 256 < 128 by omega]
    omega
  | seqn2 a b =>
    have hne : a.toNat ≠ 127 := fun h0 => of_decide_eq_true hi (BitVec.eq_of_toNat_eq h0)
    simp only [Instr.word] at hw
    simp [decodeSeqn, show h % 256 ≠ 0 by omega, show ¬ h % 256 < 128 by omega, show h % 256 < 255 by omega]
    omega
  | seqn3 a b =>
    simp only [Instr.word] at hw
    simp [decodeSeqn, show h % 256 = 255 by omega]
    omega
  | _ => cases hc

theorem decodeHost_of_word (hc : ctxOf i = .host) (hw : i.word = h) : decodeHost h = .ok i := by
  cases i with
  | cmdStart g =>
    simp only [Instr.word] at hw
    simp [decodeHost, show h / 2 % 2 = 0 by omega, show h % 2 = 1 by omega]
    omega
  | cmdReset s g =>
    have hs := bitNat_lt s
    simp only [Instr.word] at hw
    simp [decodeHost, show h / 2 % 2 = 1 by omega]
    omega
  | _ => cases hc

/-- The number of a unit operation (R121). -/
def Instr.number : Instr → Nat
  | .brInit _ _ _ => 0x10
  | .brPeek _ _ => 0x11
  | .brPeekFast _ _ => 0x12
  | .brRefill _ => 0x13
  | .fseReadTable _ _ _ _ _ => 0x20
  | .fseBuild _ _ _ => 0x21
  | .fseRle _ _ => 0x22
  | .fsePredef _ => 0x23
  | .fseDecompress _ _ _ _ => 0x28
  | .hufReadTable _ _ => 0x30
  | .hufBuild _ => 0x31
  | .hufDec1 _ _ _ => 0x32
  | .hufDec4 _ _ _ => 0x33
  | .xxhHash _ _ => 0x40
  | .seqDecode => 0x50
  | .seqResolve _ _ _ => 0x51
  | .seqExec => 0x52
  | .seqLastlit => 0x53
  | .magic | .magicLegacy | .fhd _ _ _ _ _ | .wd _ _ | .did _ _ | .fcs _ _ => 0
  | .blkRaw _ _ | .blkRle _ _ | .blkCmp _ _ | .blkRsv _ _ => 0
  | .litRaw1 _ | .litRaw2 _ | .litRaw3 _ | .litRle1 _ | .litRle2 _ | .litRle3 _ => 0
  | .litHufS3 _ _ | .litHuf3 _ _ | .litHuf4 _ _ | .litHuf5 _ _ => 0
  | .litRepS3 _ _ | .litRep3 _ _ | .litRep4 _ _ | .litRep5 _ _ => 0
  | .htreeDirect _ | .htreeFse _ | .jump _ _ _ => 0
  | .seqn0 | .seqn1 _ | .seqn2 _ _ | .seqn3 _ _ | .seqm _ _ _ _ => 0
  | .modePredef _ | .modeRle _ | .modeFse _ | .modeRepeat _ => 0
  | .rlesym _ _ | .fsedesc _ _ _ | .checksum _ => 0
  | .cmdStart _ | .cmdReset _ _ => 0

theorem number_of_word (hc : ctxOf i = .uop) (hw : i.word = h) : h % 256 = i.number := by
  cases i with
  | seqDecode | seqExec | seqLastlit =>
    cases hw
    rfl
  | brInit k a b | brPeek k n | brPeekFast k n | brRefill k | fseReadTable t a b m l | fseBuild t l n | fseRle t v
  | fsePredef x | fseDecompress t a b n | hufReadTable a n | hufBuild n | hufDec1 a b n | hufDec4 a b n | xxhHash a n
  | seqResolve oc raw l =>
    simp only [Instr.word] at hw
    simp only [Instr.number]
    omega
  | _ => cases hc

theorem decodeUop_of_word (hc : ctxOf i = .uop) (hw : i.word = h) : decodeUop (h % 256) (h / 256) = .ok i := by
  have hn := number_of_word hc hw
  cases i with
  | seqDecode | seqExec | seqLastlit =>
    cases hw
    rfl
  | brInit k a b | brPeek k n | brPeekFast k n | brRefill k =>
    simp only [Instr.word] at hw
    simp [decodeUop, hn, Instr.number, finOfNat_eq_iff, -Fin.ofNat_eq_cast]
    omega
  | hufReadTable a n | hufBuild n | hufDec1 a b n | hufDec4 a b n | xxhHash a n =>
    simp only [Instr.word] at hw
    simp [decodeUop, hn, Instr.number]
    omega
  | seqResolve oc raw l =>
    have hl := bitNat_lt l
    simp only [Instr.word] at hw
    simp [decodeUop, hn, Instr.number]
    omega
  | fsePredef x =>
    simp only [Instr.word] at hw
    simp [decodeUop, hn, Instr.number, show h / 256 = x.code by omega]
  | fseReadTable t a b m l | fseBuild t l n | fseRle t v | fseDecompress t a b n =>
    have ht := code_lt_table t
    simp only [Instr.word] at hw
    simp [decodeUop, hn, Instr.number, show h / 256 % 256 = t.code by omega]
    omega
  | _ => cases hc

theorem Ctx.interpret_of_word (hw : i.word = h) (hi : WellFormed i) : (ctxOf i).interpret h = .ok i := by
  cases i with
  | magic | magicLegacy | modePredef | modeRle | modeFse | modeRepeat =>
    cases hw
    rfl
  | fhd csel ss ign ck dsel =>
    have hss := bitNat_lt ss
    have hck := bitNat_lt ck
    simp only [Instr.word] at hw
    simp [ctxOf, interpret, decodeFhd]
    omega
  | wd | jump | seqm | fsedesc =>
    simp only [Instr.word] at hw
    simp [ctxOf, interpret, decodeWd, decodeJump, decodeSeqm, decodeFsedesc]
    omega
  | htreeDirect =>
    simp only [Instr.word] at hw
    simp [ctxOf, interpret, decodeHtree, show h / 128 % 2 = 1 by omega]
    omega
  | htreeFse =>
    simp only [Instr.word] at hw
    simp [ctxOf, interpret, decodeHtree, show h / 128 % 2 = 0 by omega]
    omega
  | did | fcs | rlesym | checksum =>
    cases hw
    simp [ctxOf, interpret, Instr.word]
  | blkRaw | blkRle | blkCmp | blkRsv => exact decodeBlk_of_word rfl hw
  | litRaw1 | litRaw2 | litRaw3 | litRle1 | litRle2 | litRle3 | litHufS3 | litHuf3 | litHuf4 | litHuf5 | litRepS3
  | litRep3 | litRep4 | litRep5 => exact decodeLith_of_word rfl hw
  | seqn0 | seqn1 | seqn2 | seqn3 => exact decodeSeqn_of_word rfl hw hi
  | brInit | brPeek | brPeekFast | brRefill | fseReadTable | fseBuild | fseRle | fsePredef | fseDecompress | hufReadTable
  | hufBuild | hufDec1 | hufDec4 | xxhHash | seqDecode | seqResolve | seqExec | seqLastlit =>
    exact decodeUop_of_word rfl hw
  | cmdStart | cmdReset => exact decodeHost_of_word rfl hw
end

/-! ## Both directions, with the bytes that follow -/

@[simp] theorem encode_length (i : Instr) : (encode i).length = i.bytes := leBytes_length i.bytes i.word

theorem leNat_encode {i : Instr} (hi : WellFormed i) : leNat (encode i) = i.word :=
  (leNat_leBytes _ _).trans (Nat.mod_eq_of_lt (word_lt hi))

theorem bytes_eq_wordBytes {i : Instr} (hi : WellFormed i) : i.bytes = (ctxOf i).wordBytes (i.word % 256) :=
  (Ctx.interpret_reads (Ctx.interpret_of_word rfl hi)).bytes

theorem decode_encode {i : Instr} (hi : WellFormed i) (rest : List Byte) :
    decode (ctxOf i) (encode i ++ rest) = .ok (i, rest) := by
  refine decode_eq_ok.mpr ⟨i.word, i.bytes, bytes_eq_wordBytes hi, by simp, ?_, Ctx.interpret_of_word rfl hi, hi, ?_⟩
  · rw [List.take_left' (encode_length i), leNat_encode hi]
  · rw [List.drop_left' (encode_length i)]

theorem encode_of_decode {c : Ctx} {bs rest : List Byte} {i : Instr} (h : decode c bs = .ok (i, rest)) :
    WellFormed i ∧ ctxOf i = c ∧ encode i ++ rest = bs := by
  obtain ⟨w, n, hn, hle, hw, hd, hi, rfl⟩ := decode_eq_ok.mp h
  obtain ⟨hctx, hbytes, hword⟩ := Ctx.interpret_reads hd
  have hlen : (bs.take n).length = n := List.length_take_of_le hle
  have hlt : w < 256 ^ n := by simpa [hw, hlen] using leNat_lt (bs.take n)
  rw [← hn] at hbytes
  have henc : encode i = bs.take n := by
    rw [encode, hword (hbytes ▸ hlt), hbytes, ← hw]
    simpa only [hlen] using leBytes_leNat (bs.take n)
  exact ⟨hi, hctx, by rw [henc, List.take_append_drop]⟩

/-- Settles O11. -/
theorem decodeOfEncode : Obligations.DecodeOfEncode := fun _ rest hi => decode_encode hi rest

/-- Settles O12. -/
theorem encodeOfDecode : Obligations.EncodeOfDecode := fun _ _ _ _ => encode_of_decode

/-- Settles O13: each word is the encoding of its instruction. -/
theorem writtenWordsDecode : Obligations.WrittenWordsDecode :=
  ⟨decode_encode (i := .magic) rfl [], decode_encode (i := .fhd 2 true 0 true 1) rfl [],
    decode_encode (i := .wd 13 1) rfl [], decode_encode (i := .blkCmp true 1) rfl [0],
    decode_encode (i := .litHuf4 5000 3000) rfl [], decode_encode (i := .seqn3 1 2) rfl [],
    decode_encode (i := .seqm 2 2 2 1) rfl [], decode_encode (i := .fsedesc .ll 3 5) rfl [],
    decode_encode (i := .seqDecode) rfl [], decode_encode (i := .cmdReset false 0) rfl []⟩

end Sys2Proof
end

section
/-! PROOFS. What a step of the machine runs (R24, R90, R91, R118; log 5, log 6, log 9, log 15), and the fault of an element
that cannot be read (R254, R361, R363, R373). -/
namespace Sys2Proof.Machine

/-! ## The step by what is due (log 9) -/

section
variable {s : State}

theorem step_of_noHost (hq : s.hostQueue = []) : step s = engineStep s := by
  simp [step, machineStep, hq]

theorem step_of_issue {i : Instr} {r : List Instr} (hq : s.hostQueue = []) (his : s.issue = i :: r) :
    step s = exec i { s with issue := r } := by
  simp [step_of_noHost hq, engineStep, his]

theorem step_of_nextCtx {c : Ctx} (hq : s.hostQueue = []) (his : s.issue = []) (hc : s.nextCtx = some c) :
    step s = elementStep c s := by
  simp [step_of_noHost hq, engineStep, his, hc]

theorem elementStep_of_ok {c : Ctx} {i : Instr} {rest : List Byte} (hd : decode c (s.window c) = .ok (i, rest)) :
    elementStep c s = exec i s := by
  simp [elementStep, hd]

theorem elementStep_of_error {c : Ctx} {r : Reject} (hd : decode c (s.window c) = .error r) :
    elementStep c s = .next (faultEntry (rejectCode c r) (beforeReject c (s.window c) s)) := by
  simp [elementStep, hd]

theorem step_of_cmdWrite {v : Word} {q : List (Nat × HostAccess)} {i : Instr} {rest : List Byte}
    (hq : s.hostQueue = (0, .regWrite .cmd v) :: q) (hb : s.busy = false)
    (hd : decode .host (leBytes 4 v.toNat) = .ok (i, rest)) : step s = exec i { s with hostQueue := q } := by
  simp only [step, machineStep, hq]
  rw [hostAccess_write_of_not_busy (by exact hb)]
  simp [hostWrite, hd]

/-- An engine that is not BUSY reads no element and makes no transition (R401). -/
theorem engineStep_of_idle (his : s.issue = []) (hb : s.busy = false) : engineStep s = .next s := by
  cases hp : s.phase with
  | idle | done | fault => simp [engineStep, his, State.nextCtx, innerStep, hp]
  | magic | frameHeader | blockHeader | block | checksum => simp [State.busy, hp, Phase.busy] at hb

end

/-- Settles O7. -/
theorem stepRunsDecoded : Obligations.StepRunsDecoded :=
  ⟨fun _ _ _ _ hq his hc hd => (step_of_nextCtx hq his hc).trans (elementStep_of_ok hd),
    fun _ _ _ hq his => step_of_issue hq his,
    fun _ _ _ _ _ hq hb hd => step_of_cmdWrite hq hb hd,
    fun s n h q hq => by simp [step, machineStep, hq],
    fun _ hq his hb => (step_of_noHost hq).trans (engineStep_of_idle his hb)⟩

/-! ## The step by the encoding that lies in the window -/

/-- The encoding of `i` lies where the next element is read: a mode in `SEQ.MODES`, any other element in IN below its limit
(R24, R90, R109). -/
def State.Holds (s : State) (i : Instr) : Prop :=
  match ctxOf i with
  | .mode x => modeField s.seq.modes x = i.word
  | c => readBytes s.inByte (s.elementAddr c) i.bytes = encode i ∧ s.elementAddr c + i.bytes ≤ s.elementLimit c

theorem bytes_le_longest {i : Instr} (hi : WellFormed i) : i.bytes ≤ longestBytes := by
  rw [bytes_eq_wordBytes hi]
  exact ((ctxOf i).wordBytes_bounds _).2

theorem window_of_not_mode {c : Ctx} (hc : ∀ x, c ≠ .mode x) (s : State) :
    s.window c =
      readBytes s.inByte (s.elementAddr c) (min longestBytes (s.elementLimit c - s.elementAddr c)) := by
  cases c with
  | mode x => exact absurd rfl (hc x)
  | _ => rfl

theorem window_of_holds {s : State} {i : Instr} (hi : WellFormed i) (h : s.Holds i) :
    ∃ rest, s.window (ctxOf i) = encode i ++ rest := by
  unfold State.Holds at h
  split at h
  case h_1 x hx =>
    refine ⟨[], ?_⟩
    rw [hx, State.window, h, encode, bytes_eq_wordBytes hi, hx]
    rfl
  case h_2 hne =>
    obtain ⟨hbytes, hlim⟩ := h
    have hle := bytes_le_longest hi
    obtain ⟨m, hm⟩ : ∃ m, min longestBytes (s.elementLimit (ctxOf i) - s.elementAddr (ctxOf i)) = i.bytes + m :=
      Nat.exists_eq_add_of_le (by omega)
    refine ⟨readBytes s.inByte (s.elementAddr (ctxOf i) + i.bytes) m, ?_⟩
    rw [← hbytes, ← readBytes_append, ← hm]
    exact window_of_not_mode hne s

theorem step_of_holds {s : State} {i : Instr} (hq : s.hostQueue = []) (his : s.issue = []) (hi : WellFormed i)
    (hc : s.nextCtx = some (ctxOf i)) (h : s.Holds i) : step s = exec i s := by
  obtain ⟨rest, hw⟩ := window_of_holds hi h
  exact (step_of_nextCtx hq his hc).trans (elementStep_of_ok (hw ▸ decode_encode hi rest))

/-- Settles O8. -/
theorem stepRunsEncoded : Obligations.StepRunsEncoded := fun _ _ hq his hi hc h => step_of_holds hq his hi hc h

/-! ## Elements that cannot be read -/

theorem rejectCode_cls (c : Ctx) (r : Reject) : (rejectCode c r).cls = 1 := by
  unfold rejectCode
  split
  all_goals rfl

theorem beforeReject_cursors (c : Ctx) (w : List Byte) (s : State) :
    (beforeReject c w s).ip = s.ip ∧ (beforeReject c w s).op = s.op ∧ (beforeReject c w s).lInStart = s.lInStart := by
  cases c with
  | lith => cases w <;> exact ⟨rfl, rfl, rfl⟩
  | fsedesc x => cases x <;> exact ⟨rfl, rfl, rfl⟩
  | _ => exact ⟨rfl, rfl, rfl⟩

/-- Why the word reader rejects: too few bytes, no instruction, or one that is not well-formed. -/
theorem withWord_error {n : Nat} {bs : List Byte} {f : Nat → Except Reject Instr} {r : Reject}
    (h : withWord n bs f = .error r) :
    (bs.length < n ∧ r = .truncated) ∨
    (n ≤ bs.length ∧ (f (leNat (bs.take n)) = .error r ∨ ∃ i, f (leNat (bs.take n)) = .ok i ∧ ¬ WellFormed i)) := by
  unfold withWord at h
  split at h
  case isTrue hlen =>
    cases h
    exact .inl ⟨hlen, rfl⟩
  case isFalse hlen =>
    refine .inr ⟨not_lt.mp hlen, ?_⟩
    split at h
    case h_1 hf =>
      cases h
      exact .inl hf
    case h_2 i hf =>
      split at h
      case isTrue => cases h
      case isFalse hi => exact .inr ⟨i, hf, hi⟩

/-- Four bytes that are no magic, or fewer than four (R118, R254). -/
theorem reject_of_magic {bs : List Byte} {r : Reject} (hd : decode .magic bs = .error r) :
    (4 ≤ bs.length ∧ r = .badMagic) ∨ (bs.length < 4 ∧ r = .truncated) := by
  rw [decode] at hd
  obtain h | ⟨hlen, hr | ⟨i, hi, hwf⟩⟩ := withWord_error hd
  · exact .inr h
  · unfold decodeMagic at hr
    repeat' split at hr
    all_goals cases hr
    exact .inl ⟨hlen, rfl⟩
  · have hc := (decodeMagic_reads hi).ctx
    cases i with
    | magic | magicLegacy => exact absurd rfl hwf
    | _ => cases hc

theorem rejectCode_code {c : Ctx} {bs : List Byte} {r : Reject} (hd : decode c bs = .error r) :
    (rejectCode c r).code = if c = .magic ∧ 4 ≤ bs.length then 2 else if c = .jump then 17 else 1 := by
  cases c with
  | magic =>
    obtain ⟨hlen, rfl⟩ | ⟨hlen, rfl⟩ := reject_of_magic hd
    · rw [if_pos ⟨rfl, hlen⟩]
      rfl
    · rw [if_neg (fun h => absurd h.2 (not_le.mpr hlen))]
      rfl
  | _ => rfl

/-- A word of an element that need not be a magic stands for a well-formed instruction, whatever its bits. -/
theorem interpret_total {c : Ctx} {h : Nat} (hm : c ≠ .magic) (hu : c ≠ .uop) (hh : c ≠ .host) (hmode : ∀ x, c ≠ .mode x)
    (hlt : h < 256 ^ c.wordBytes (h % 256)) : ∃ i, c.interpret h = .ok i ∧ WellFormed i := by
  cases c with
  | magic => exact absurd rfl hm
  | uop => exact absurd rfl hu
  | host => exact absurd rfl hh
  | mode x => exact absurd rfl (hmode x)
  | fhd | wd | jump | seqm | rlesym x | fsedesc x | checksum => exact ⟨_, rfl, rfl⟩
  | did n => exact ⟨_, rfl, decide_eq_true (lt_of_le_of_lt (BitVec.toNat_ofNat h 32 ▸ Nat.mod_le h _) hlt)⟩
  | fcs n => exact ⟨_, rfl, decide_eq_true (lt_of_le_of_lt (BitVec.toNat_ofNat h 64 ▸ Nat.mod_le h _) hlt)⟩
  | blk =>
    unfold Ctx.interpret decodeBlk
    dsimp only
    split
    all_goals exact ⟨_, rfl, rfl⟩
  | lith =>
    unfold Ctx.interpret decodeLith
    dsimp only
    split
    all_goals exact ⟨_, rfl, rfl⟩
  | htree =>
    unfold Ctx.interpret decodeHtree
    dsimp only
    split
    all_goals exact ⟨_, rfl, rfl⟩
  | seqn =>
    unfold Ctx.interpret decodeSeqn
    dsimp only
    split
    case isTrue => exact ⟨_, rfl, rfl⟩
    case isFalse h0 =>
      split
      case isTrue =>
        refine ⟨_, rfl, decide_eq_true fun hz => ?_⟩
        simp at hz
        omega
      case isFalse h1 =>
        split
        case isTrue =>
          refine ⟨_, rfl, decide_eq_true fun hz => ?_⟩
          simp at hz
          omega
        case isFalse => exact ⟨_, rfl, rfl⟩

theorem decode_of_longest {c : Ctx} {bs : List Byte} (hm : c ≠ .magic) (hu : c ≠ .uop) (hh : c ≠ .host)
    (hmode : ∀ x, c ≠ .mode x) (hlen : longestBytes ≤ bs.length) : ∃ i rest, decode c bs = .ok (i, rest) := by
  cases bs with
  | nil => simp [longestBytes] at hlen
  | cons b bs =>
    obtain ⟨hpos, hle⟩ := c.wordBytes_bounds b.toNat
    have hlt := leNat_lt ((b :: bs).take (c.wordBytes b.toNat))
    rw [List.length_take_of_le (hle.trans hlen)] at hlt
    have hb := leNat_take_mod b bs hpos
    obtain ⟨i, hd, hi⟩ := interpret_total hm hu hh hmode (by rw [hb]; exact hlt)
    exact ⟨i, _, decode_eq_ok.mpr ⟨_, _, by rw [hb], hle.trans hlen, rfl, hd, hi, rfl⟩⟩

/-- Settles O10: fault entry after what the element's rule had written, and `decode_of_longest`. -/
theorem elementFaults : Obligations.ElementFaults := by
  refine ⟨fun s c r hq his hc hd => ?_, fun c bs hm hu hh hmode hlen => decode_of_longest hm hu hh hmode hlen⟩
  obtain ⟨hip, hop, hstart⟩ := beforeReject_cursors c (s.window c) s
  exact ⟨_, (step_of_nextCtx hq his hc).trans (elementStep_of_error hd), rfl, hip, hop, by simp [hip, hstart],
    rejectCode_cls c r, rejectCode_code hd⟩

end Sys2Proof.Machine
end

section
/-! PROOFS. A word placed for the next step is the one it runs (log 6, log 15). -/
namespace Sys2Proof.Machine

/-! ## Bytes placed in IN -/

theorem inByte_congr {s t : State} (hone : t.oneMemory = s.oneMemory) (hinp : t.inp = s.inp) (hout : t.out = s.out) :
    t.inByte = s.inByte := by
  funext a
  simp only [State.inByte, State.inByteOver, hone, hinp, hout]

theorem memOk_putIn_of_lt {s : State} {a : Nat} (b : Byte) (h : s.memOk) (ha : a < Config.space) : (s.putIn a b).memOk := by
  have hput := memOk_putIn (a := BitVec.ofNat 32 a) (b := b) h
  rwa [BitVec.toNat_ofNat, Nat.mod_eq_of_lt (by exact ha)] at hput

theorem inByte_placeIn_below {s : State} {a x : Nat} {bs : List Byte} (h : s.memOk) (hb : a + bs.length ≤ Config.space)
    (hx : x < a) : (s.placeIn a bs).inByte x = s.inByte x := by
  induction bs generalizing s a with
  | nil => rfl
  | cons b bs ih =>
    rw [List.length_cons] at hb
    rw [State.placeIn, ih (memOk_putIn_of_lt b h (by omega)) (by omega) (by omega), inByte_putIn h, if_neg (by omega)]

theorem readBytes_placeIn {s : State} {a : Nat} {bs : List Byte} (h : s.memOk) (hb : a + bs.length ≤ Config.space) :
    readBytes (s.placeIn a bs).inByte a bs.length = bs := by
  induction bs generalizing s a with
  | nil => rfl
  | cons b bs ih =>
    rw [List.length_cons] at hb
    have hput := memOk_putIn_of_lt b h (by omega : a < Config.space)
    rw [State.placeIn, List.length_cons, readBytes, ih hput (by omega), inByte_placeIn_below hput (by omega) (by omega),
      inByte_putIn h, if_pos rfl]

theorem readBytes_placeIn_append {s : State} {a : Nat} {pre bs : List Byte} (h : s.memOk)
    (hb : a + (pre ++ bs).length ≤ Config.space) :
    readBytes (s.placeIn a (pre ++ bs)).inByte (a + pre.length) bs.length = bs := by
  have hread := readBytes_placeIn h hb
  rw [List.length_append, readBytes_append] at hread
  exact (List.append_inj hread (readBytes_length _ _ _)).2

/-! ## The state that `placeAt` leaves -/

theorem placeAddr_room (ip : Addr) : (placeAddr ip).toNat + 16 < Config.space := by
  unfold placeAddr
  split
  · assumption
  · decide

theorem placeAddr_limit (ip : Addr) : (placeAddr ip + 16).toNat = (placeAddr ip).toNat + 16 := by
  have hroom := placeAddr_room ip
  rw [BitVec.toNat_add]
  exact Nat.mod_eq_of_lt hroom

theorem inByte_placeElement (s : State) (bs : List Byte) :
    (s.placeElement bs).inByte = (s.placeIn (placeAddr s.ip).toNat bs).inByte := inByte_congr rfl rfl rfl

theorem didLen_didByte (n : DidLen) : didLen (didByte n) = some n := by cases n <;> decide

theorem wdBytes_didByte (n : DidLen) : wdBytes (didByte n) = 0 := by cases n <;> decide

theorem fcsLen_fcsByte (n : FcsLen) : fcsLen (fcsByte n) = some n := by cases n <;> decide

theorem wdBytes_fcsByte (n : FcsLen) : wdBytes (fcsByte n) = 0 := by cases n <;> decide

theorem didBytes_fcsByte (n : FcsLen) : didBytes (fcsByte n) = 0 := by cases n <;> decide

/-- The engine of `t` reads position `c` next, from bytes that were placed in `s`, with room for the longest element. -/
structure State.ReadsPlaced (s t : State) (c : Ctx) (bs : List Byte) : Prop where
  noHost : t.hostQueue = []
  noIssue : t.issue = []
  next : t.nextCtx = some c
  placed : ∃ pre : List Byte, pre.length ≤ 1 ∧ t.inByte = (s.placeElement (pre ++ bs)).inByte ∧
    t.elementAddr c = (placeAddr s.ip).toNat + pre.length ∧ t.elementLimit c = (placeAddr s.ip).toNat + 16

theorem placeAt_readsPlaced {c : Ctx} (hu : c ≠ .uop) (hh : c ≠ .host) (hm : ∀ x, c ≠ .mode x) (s : State)
    (bs : List Byte) (w : Nat) : s.ReadsPlaced (s.placeAt c bs w) c bs := by
  have hlim := placeAddr_limit s.ip
  cases c with
  | uop => exact absurd rfl hu
  | host => exact absurd rfl hh
  | mode x => exact absurd rfl (hm x)
  | wd => exact ⟨rfl, rfl, rfl, [0], by decide, inByte_congr rfl rfl rfl, rfl, hlim⟩
  | did n =>
    refine ⟨rfl, rfl, congrArg (Option.map Ctx.did) (didLen_didByte n), [0], by decide, inByte_congr rfl rfl rfl, ?_, hlim⟩
    show (placeAddr s.ip).toNat + 1 + wdBytes (didByte n) = _
    rw [wdBytes_didByte]
    rfl
  | fcs n =>
    refine ⟨rfl, rfl, congrArg (Option.map Ctx.fcs) (fcsLen_fcsByte n), [0], by decide, inByte_congr rfl rfl rfl, ?_, hlim⟩
    show (placeAddr s.ip).toNat + 1 + wdBytes (fcsByte n) + didBytes (fcsByte n) = _
    rw [wdBytes_fcsByte, didBytes_fcsByte]
    rfl
  | htree => exact ⟨rfl, rfl, rfl, [], by decide, inByte_congr rfl rfl rfl, rfl, rfl⟩
  | magic | fhd | blk | lith | jump | seqn | seqm | rlesym x | fsedesc x | checksum =>
    exact ⟨rfl, rfl, rfl, [], by decide, inByte_congr rfl rfl rfl, rfl, hlim⟩

theorem holds_of_readsPlaced {s t : State} {i : Instr} {rest : List Byte} (hm : s.memOk)
    (h : s.ReadsPlaced t (ctxOf i) (encode i ++ rest)) (hlen : (encode i ++ rest).length = longestBytes)
    (hmode : ∀ x, ctxOf i ≠ .mode x) : t.Holds i := by
  obtain ⟨pre, hpre, hin, haddr, hlim⟩ := h.placed
  have hroom := placeAddr_room s.ip
  have hread := readBytes_placeIn_append (a := (placeAddr s.ip).toNat) (pre := pre) (bs := encode i ++ rest) hm
    (by rw [List.length_append, hlen, longestBytes]; omega)
  rw [List.length_append, encode_length] at hlen
  rw [List.length_append, encode_length, readBytes_append, ← haddr, ← inByte_placeElement, ← hin] at hread
  have henc := (List.append_inj hread (by rw [readBytes_length, encode_length])).1
  unfold State.Holds
  split
  · exact absurd ‹_› (hmode _)
  · refine ⟨henc, ?_⟩
    rw [haddr, hlim]
    simp only [longestBytes] at hlen
    omega

/-- A mode stands in all three fields of `SEQ.MODES`. -/
theorem modeField_repeated (m : Nat) (x : Alphabet) : modeField (BitVec.ofNat 8 (m % 4 * 84)) x = m % 4 := by
  obtain h | h | h | h := mod_four_cases m
  all_goals
    rw [h]
    cases x <;> rfl

theorem word_lt_of_mode {i : Instr} {x : Alphabet} (hc : ctxOf i = .mode x) : i.word < 4 := by
  cases i with
  | modePredef | modeRle | modeFse | modeRepeat => simp [Instr.word]
  | _ => cases hc

/-- The word at the head of the bytes of a number is its low bytes. -/
theorem word_of_leBytes {i : Instr} {rest : List Byte} {n w : Nat} (hi : WellFormed i)
    (h : encode i ++ rest = leBytes n w) : i.word = w % 256 ^ i.bytes := by
  have hle : i.bytes ≤ n := by
    rw [← leBytes_length n w, ← h, List.length_append, encode_length]
    exact Nat.le_add_right _ _
  have hval : w % 256 ^ n = i.word + 256 ^ i.bytes * leNat rest := by
    rw [← leNat_leBytes, ← h, leNat_append, encode_length, leNat_encode hi]
  calc i.word = (i.word + 256 ^ i.bytes * leNat rest) % 256 ^ i.bytes := by
        rw [Nat.add_mul_mod_self_left, Nat.mod_eq_of_lt (Laws.WordFits.word_lt hi)]
    _ = w % 256 ^ i.bytes := by rw [← hval, Nat.mod_mod_of_dvd _ (pow_dvd_pow 256 hle)]

section
variable {s : State} {i : Instr} {rest : List Byte} {n w : Nat}

theorem emptyQueues_eq (hq : s.hostQueue = []) (his : s.issue = []) : { s with issue := [], hostQueue := [] } = s := by
  cases s
  cases hq
  cases his
  rfl

theorem step_placeAt_uop {bs : List Byte} (hd : decode .uop bs = .ok (i, rest)) :
    step (s.placeAt .uop bs w) = exec i { s.placeAt .uop bs w with issue := [], hostQueue := [] } := by
  simp only [State.placeAt, hd]
  exact step_of_issue rfl rfl

theorem step_placeAt_host {bs : List Byte} (hi : WellFormed i) (hc : ctxOf i = .host)
    (henc : encode i ++ rest = leBytes n w) :
    step (s.placeAt .host bs w) = exec i { s.placeAt .host bs w with issue := [], hostQueue := [] } := by
  have hb : (s.placeAt .host bs w).busy = false := by
    show (if s.busy then Phase.idle else s.phase).busy = false
    cases hs : s.busy with
    | true => rfl
    | false => exact hs
  have hword : leBytes 4 (BitVec.ofNat 32 w).toNat = encode i := by
    rw [encode, word_of_leBytes hi henc, bytes_eq_wordBytes hi, hc, BitVec.toNat_ofNat]
    rfl
  have hd : decode .host (leBytes 4 (BitVec.ofNat 32 w).toNat) = .ok (i, []) := by
    rw [hword, ← hc]
    simpa using decode_encode hi []
  exact step_of_cmdWrite rfl hb hd

theorem holds_placeAt_mode {x : Alphabet} {bs : List Byte} (hi : WellFormed i) (hc : ctxOf i = .mode x)
    (henc : encode i ++ rest = leBytes n w) : (s.placeAt (.mode x) bs w).Holds i := by
  have hword : i.word = w % 256 := by
    rw [word_of_leBytes hi henc, bytes_eq_wordBytes hi, hc]
    rfl
  have hlt := word_lt_of_mode hc
  simp only [State.Holds, hc]
  exact (modeField_repeated w x).trans (by omega)

theorem step_placeAt_element {bs : List Byte} (hm : s.memOk) (hi : WellFormed i) (hu : ctxOf i ≠ .uop)
    (hh : ctxOf i ≠ .host) (hmode : ∀ x, ctxOf i ≠ .mode x) (henc : encode i ++ rest = bs)
    (hlen : bs.length = longestBytes) :
    step (s.placeAt (ctxOf i) bs w) = exec i { s.placeAt (ctxOf i) bs w with issue := [], hostQueue := [] } := by
  subst henc
  have h := placeAt_readsPlaced hu hh hmode s (encode i ++ rest) w
  rw [emptyQueues_eq h.noHost h.noIssue]
  exact step_of_holds h.noHost h.noIssue hi h.next (holds_of_readsPlaced hm h hlen hmode)

end

/-- The next step runs a word that is read in position `c`. -/
theorem step_placeAt {s : State} {c : Ctx} {w : Nat} {i : Instr} {rest : List Byte} (hm : s.memOk)
    (hd : decode c (leBytes longestBytes w) = .ok (i, rest)) :
    step (s.placeAt c (leBytes longestBytes w) w) =
      exec i { s.placeAt c (leBytes longestBytes w) w with issue := [], hostQueue := [] } := by
  obtain ⟨hi, rfl, henc⟩ := encode_of_decode hd
  by_cases hu : ctxOf i = .uop
  · rw [hu] at hd ⊢
    exact step_placeAt_uop hd
  by_cases hh : ctxOf i = .host
  · rw [hh]
    exact step_placeAt_host hi hh henc
  by_cases hmode : ∃ x, ctxOf i = .mode x
  · obtain ⟨x, hx⟩ := hmode
    rw [hx]
    exact step_of_holds rfl rfl hi (by rw [hx]; rfl) (holds_placeAt_mode hi hx henc)
  · exact step_placeAt_element hm hi hu hh (not_exists.mp hmode) henc (leBytes_length _ _)

/-- Settles O9. -/
theorem fetchWordRuns : Obligations.FetchWordRuns := by
  intro s nbits w i hm hd
  unfold decodeTableWord at hd
  split at hd
  case h_1 j rest hj =>
    cases hd
    exact step_placeAt hm hj
  case h_2 => cases hd

end Sys2Proof.Machine
end

section
/-! PROOFS. The backward bit reader (R141 to R148): where BR.INIT places a reader, what BR.PEEK reads, and the ways BR.REFILL
can answer. -/
namespace Sys2Proof.Machine

/-! ## The number of a region (R148) -/

theorem memRead_succ (rd : Nat → Byte) (a n : Nat) :
    memRead rd a (n + 1) = memRead rd a n + 256 ^ n * (rd (a + n)).toNat := by
  rw [memRead_append]
  simp [memRead, readBytes, leNat]

/-- A read of at most eight bytes fits the container. -/
theorem toNat_ofNat_memRead (rd : Nat → Byte) (a : Nat) {n : Nat} (hn : n ≤ 8) :
    (BitVec.ofNat 64 (memRead rd a n)).toNat = memRead rd a n := by
  have hlt := memRead_lt rd a n
  have hpow : 256 ^ n ≤ 256 ^ 8 := Nat.pow_le_pow_right (by omega) hn
  exact BitVec.toNat_ofNat _ _ ▸ Nat.mod_eq_of_lt (by omega)

theorem highbit_byte_le (b : Byte) : highbit b.toNat ≤ 7 := by
  by_cases h : b.toNat = 0
  · simp [highbit, h]
  · exact Nat.le_of_lt_succ ((Nat.log2_lt h).mpr b.isLt)

/-- The highest bit of a number of `k + 1` bytes lies in its last byte. -/
theorem highbit_add_pow_mul {x k v : Nat} (hx : x < 256 ^ k) (hv : v ≠ 0) :
    highbit (x + 256 ^ k * v) = 8 * k + highbit v := by
  have hk : 256 ^ k = 2 ^ (8 * k) := by rw [pow_mul]; norm_num
  obtain ⟨hlo, hhi⟩ := (Nat.log2_eq_iff hv).mp rfl
  have hpos : 0 < 256 ^ k := by positivity
  refine (Nat.log2_eq_iff (by positivity)).mpr ⟨?_, ?_⟩
  · calc 2 ^ (8 * k + highbit v) = 256 ^ k * 2 ^ highbit v := by rw [pow_add, hk]
      _ ≤ 256 ^ k * v := Nat.mul_le_mul_left _ hlo
      _ ≤ x + 256 ^ k * v := Nat.le_add_left _ _
  · calc x + 256 ^ k * v < 256 ^ k * (v + 1) := by rw [mul_add_one]; omega
      _ ≤ 256 ^ k * 2 ^ (highbit v + 1) := Nat.mul_le_mul_left _ hhi
      _ = 2 ^ (8 * k + highbit v + 1) := by rw [hk, ← pow_add, add_assoc]

/-- The payload of a region: eight bits for each byte before the last, and those below the marker in it (R148). -/
theorem streamBits_eq {rd : Nat → Byte} {start limit : Nat} (h : streamOk rd start limit) :
    streamBits rd start limit = 8 * (limit - start - 1) + highbit (rd (limit - 1)).toNat := by
  obtain ⟨hlt, hlast⟩ := h
  have hv : (rd (limit - 1)).toNat ≠ 0 := fun h0 => hlast (BitVec.eq_of_toNat_eq h0)
  rw [streamBits, streamNumber, show limit - start = limit - start - 1 + 1 by omega, memRead_succ,
    show start + (limit - start - 1) = limit - 1 by omega]
  exact highbit_add_pow_mul (memRead_lt _ _ _) hv

/-! ## BR.INIT -/

/-- The reader that BR.INIT makes of a region with an end mark (R141). -/
def readerAtMark (rd : Nat → Byte) (start limit : Nat) : BitReader :=
  let mark := 8 - highbit (rd (limit - 1)).toNat
  let n := limit - start
  if 8 ≤ n then
    ⟨BitVec.ofNat 64 (memRead rd (limit - 8) 8), BitVec.ofNat 32 mark, BitVec.ofNat 32 (limit - 8), BitVec.ofNat 32 start⟩
  else
    ⟨BitVec.ofNat 64 (memRead rd start n), BitVec.ofNat 32 (mark + (8 - n) * 8), BitVec.ofNat 32 start, BitVec.ofNat 32 start⟩

theorem brInit_eq_ok {rd : Nat → Byte} {start limit : Nat} (h : streamOk rd start limit) (b : BitReader) :
    brInit rd start limit b = .ok () (readerAtMark rd start limit) := by
  obtain ⟨hlt, hlast⟩ := h
  have hv : (rd (limit - 1)).toNat ≠ 0 := fun h0 => hlast (BitVec.eq_of_toNat_eq h0)
  simp only [brInit, readerAtMark, show ¬ limit < start + 1 by omega, hv, if_false]
  split <;> rfl

section
variable {rd : Nat → Byte} {start limit : Nat}

theorem readerAtMark_start (h : streamOk rd start limit) (hl : limit < 2 ^ 32) :
    (readerAtMark rd start limit).start.toNat = start := by
  obtain ⟨hlt, -⟩ := h
  simp only [readerAtMark]
  split <;> exact Nat.mod_eq_of_lt (by omega)

theorem readerAtMark_cur (h : streamOk rd start limit) (hl : limit < 2 ^ 32) :
    (readerAtMark rd start limit).cur.toNat = if start + 8 ≤ limit then limit - 8 else start := by
  obtain ⟨hlt, -⟩ := h
  by_cases h8 : start + 8 ≤ limit
  · rw [readerAtMark, if_pos (by omega), if_pos h8]
    exact Nat.mod_eq_of_lt (by omega)
  · rw [readerAtMark, if_neg (by omega), if_neg h8]
    exact Nat.mod_eq_of_lt (by omega)

theorem readerAtMark_consumed (rd : Nat → Byte) (start limit : Nat) :
    (readerAtMark rd start limit).consumed.toNat =
      8 - highbit (rd (limit - 1)).toNat + (8 - (limit - start)) * 8 := by
  simp only [readerAtMark]
  split
  · rw [BitVec.toNat_ofNat, Nat.mod_eq_of_lt (by omega)]; omega
  · exact Nat.mod_eq_of_lt (by omega)

theorem readerAtMark_readerOk (h : streamOk rd start limit) (hl : limit < 2 ^ 32) :
    readerOk rd start limit (readerAtMark rd start limit) := by
  have hcur := readerAtMark_cur h hl
  by_cases h8 : start + 8 ≤ limit
  · rw [if_pos h8] at hcur
    refine ⟨readerAtMark_start h hl, by omega, ?_⟩
    rw [if_pos h8, hcur, readerAtMark, if_pos (by omega)]
    exact ⟨by omega, toNat_ofNat_memRead rd _ le_rfl⟩
  · rw [if_neg h8] at hcur
    refine ⟨readerAtMark_start h hl, hcur.ge, ?_⟩
    rw [if_neg h8, readerAtMark, if_neg (by omega)]
    exact ⟨by simpa [readerAtMark, show ¬ 8 ≤ limit - start by omega] using hcur, toNat_ofNat_memRead rd _ (by omega)⟩

/-- A new reader stands just below the end marker (R148 a). -/
theorem readerAtMark_position (h : streamOk rd start limit) (hl : limit < 2 ^ 32) :
    (readerAtMark rd start limit).position = (streamBits rd start limit : Int) := by
  have hhigh := highbit_byte_le (rd (limit - 1))
  have hlt := h.1
  rw [BitReader.position, readerAtMark_start h hl, readerAtMark_cur h hl, readerAtMark_consumed, streamBits_eq h]
  split <;> omega

end

theorem exec_brInit_of_ok {k : Fin 4} {start limit : Addr} {s : State} {b : BitReader}
    (h : Machine.brInit s.inByte start.toNat limit.toNat (s.br.get k) = .ok () b) :
    exec (.brInit k start limit) s = .next { s with br := s.br.set k b } := by
  show finish ((Machine.brInit s.inByte start.toNat limit.toNat (s.br.get k)).lift (s.setBr k)) = _
  rw [h]
  rfl

theorem exec_brInit_of_raise {k : Fin 4} {start limit : Addr} {s : State} {e : ErrCode}
    (h : Machine.brInit s.inByte start.toNat limit.toNat (s.br.get k) = .raise e (s.br.get k)) :
    exec (.brInit k start limit) s = .next (faultEntry e s) := by
  show finish ((Machine.brInit s.inByte start.toNat limit.toNat (s.br.get k)).lift (s.setBr k)) = _
  rw [h, lift_raise, setBr_get_self, finish_raise]

/-- Settles O47: the reader made is `readerAtMark`. -/
theorem bitReaderInitialised : Obligations.BitReaderInitialised := by
  intro k start limit s
  refine ⟨fun h => ?_, fun h => exec_brInit_of_raise (brInit_empty _ _ h),
    fun hlt h0 => exec_brInit_of_raise (brInit_noEndMark _ hlt (BitVec.eq_of_toNat_eq h0))⟩
  have hl := limit.isLt
  have hcur := readerAtMark_cur h hl
  have hconsumed := readerAtMark_consumed s.inByte start.toNat limit.toNat
  refine ⟨readerAtMark s.inByte start.toNat limit.toNat, exec_brInit_of_ok (brInit_eq_ok h _),
    BitVec.eq_of_toNat_eq (readerAtMark_start h hl), fun h8 => ⟨BitVec.eq_of_toNat_eq ?_, by omega⟩,
    fun h8 => ⟨BitVec.eq_of_toNat_eq ?_, hconsumed⟩, readerAtMark_readerOk h hl, readerAtMark_position h hl⟩
  · rw [hcur, if_pos (by omega)]
    have hle : (8 : Addr) ≤ limit := BitVec.le_def.mpr (show 8 ≤ limit.toNat by omega)
    exact (BitVec.toNat_sub_of_le hle).symm
  · rw [hcur, if_neg (by omega)]

/-! ## BR.PEEK and BR.PEEKFAST -/

/-- Shifting `x` left by `c` and right by `64 - n` in a word of 64 bits takes the `n` bits below the top `c`. -/
theorem shl_mod_shr_eq (x : Nat) {c n : Nat} (h : c + n ≤ 64) :
    x * 2 ^ c % 2 ^ 64 / 2 ^ (64 - n) = x / 2 ^ (64 - c - n) % 2 ^ n := by
  have hword : 2 ^ 64 = 2 ^ c * (2 ^ (64 - c - n) * 2 ^ n) := by
    rw [← pow_add, ← pow_add]; congr 1; omega
  have hkeep : 2 ^ (64 - n) = 2 ^ c * 2 ^ (64 - c - n) := by
    rw [← pow_add]; congr 1; omega
  rw [hword, hkeep, mul_comm x, Nat.mul_mod_mul_left, Nat.mul_div_mul_left _ _ (by positivity),
    Nat.mod_mul_right_div_self]

/-- BR.PEEK of bits that lie in the container (R148 d). -/
theorem brPeek_eq_bits {b : BitReader} {n : Nat} (hn : n ≤ 63) (h : b.consumed.toNat + n ≤ 64) :
    brPeek b n = b.word.toNat / 2 ^ (64 - b.consumed.toNat - n) % 2 ^ n := by
  rcases Nat.eq_zero_or_pos n with rfl | hpos
  · rw [Nat.lt_one_iff.mp (brPeek_lt b 0 hn), pow_zero, Nat.mod_one]
  · rw [brPeek_eq_peekFast b n hpos hn, brPeekFast, Nat.mod_eq_of_lt (by omega), BitVec.toNat_ushiftRight,
      BitVec.toNat_shiftLeft, Nat.shiftLeft_eq, Nat.shiftRight_eq_div_pow]
    exact shl_mod_shr_eq _ h

/-- Settles O48: the values are the definitions', and bits in the container are `brPeek_eq_bits`. -/
theorem bitReaderPeeks : Obligations.BitReaderPeeks := by
  intro k s
  have peek (n : BitVec 6) : exec (.brPeek k n) s =
      .next { s with result := BitVec.ofNat 64 (brPeek (s.br.get k) n.toNat) } := rfl
  have peekFast (n : BitVec 6) : exec (.brPeekFast k n) s =
      .next { s with result := BitVec.ofNat 64 (brPeekFast (s.br.get k) (n.toNat + 1)) } := rfl
  refine ⟨fun n => ?values, fun n => ?fastValues, fun n hn => ?equal, fun n h => ?bits⟩
  case values => rw [peek, brPeek, BitVec.ofNat_toNat, BitVec.setWidth_eq]
  case fastValues => rw [peekFast, brPeekFast, BitVec.ofNat_toNat, BitVec.setWidth_eq]
  case equal =>
    have hsub : (n - 1).toNat + 1 = n.toNat := by bv_omega
    rw [peek, peekFast, hsub, brPeek_eq_peekFast _ _ (by omega) (by omega)]
  case bits => rw [peek, brPeek_eq_bits (by omega) h]

/-! ## BR.REFILL -/

/-- How BR.REFILL can answer on a reader at or above its start (R144): it reads nothing where the stream is used up or the reader
stands at its start; else it steps down by the whole bytes consumed, or to the start where that step does not fit. -/
inductive Refilled (rd : Nat → Byte) (b : BitReader) : RefillStatus × BitReader → Prop
  | overflow (h : 64 < b.consumed.toNat) : Refilled rd b (.overflow, b)
  | atStart (h : b.consumed.toNat ≤ 64) (hcur : b.cur = b.start) : Refilled rd b (.exhausted, b)
  | stepped {cur : Addr} {consumed : BitVec 32} (h : b.consumed.toNat ≤ 64) (hne : b.cur ≠ b.start)
      (hlow : b.start.toNat ≤ cur.toNat) (hcur : cur.toNat + b.consumed.toNat / 8 = b.cur.toNat)
      (hconsumed : consumed.toNat = b.consumed.toNat % 8) : Refilled rd b (.more, brReload rd b cur consumed)
  | toStart {consumed : BitVec 32} (h : b.consumed.toNat ≤ 64) (hne : b.cur ≠ b.start)
      (hlow : b.cur.toNat < b.start.toNat + b.consumed.toNat / 8)
      (hconsumed : consumed.toNat + 8 * (b.cur.toNat - b.start.toNat) = b.consumed.toNat) :
      Refilled rd b (.exhausted, brReload rd b b.start consumed)

theorem brRefill_refilled (rd : Nat → Byte) {b : BitReader} (hstart : b.start.toNat ≤ b.cur.toNat) :
    Refilled rd b (brRefill rd b) := by
  have step (hfit : b.consumed.toNat / 8 ≤ b.cur.toNat) :
      (b.cur - BitVec.ofNat 32 (b.consumed.toNat / 8)).toNat = b.cur.toNat - b.consumed.toNat / 8 := by
    bv_omega
  simp only [brRefill]
  split
  case isTrue h => exact .overflow h
  case isFalse h =>
    have h64 : b.consumed.toNat ≤ 64 := by omega
    split
    case isTrue hcur => exact .atStart h64 hcur
    case isFalse hne =>
      split
      case isTrue hfull =>
        exact .stepped h64 hne (by omega) (by omega) (Nat.mod_eq_of_lt (by omega))
      case isFalse =>
        split
        case isTrue hlow => exact .toStart h64 hne hlow (by bv_omega)
        case isFalse hfit =>
          exact .stepped h64 hne (by omega) (by omega) ((Nat.mod_eq_of_lt (by omega)).trans (by omega))

/-- A reload between the start and CUR keeps the container's contents; one below CUR has eight bytes to load (R147). -/
theorem readerOk_brReload {rd : Nat → Byte} {start limit : Nat} {b : BitReader} {cur : Addr} (consumed : BitVec 32)
    (hok : readerOk rd start limit b) (hne : b.cur ≠ b.start) (hlow : b.start.toNat ≤ cur.toNat)
    (hhigh : cur.toNat ≤ b.cur.toNat) : readerOk rd start limit (brReload rd b cur consumed) := by
  obtain ⟨hstart, hcur, hheld⟩ := hok
  split at hheld
  case isTrue h8 =>
    rw [brReload]
    refine ⟨hstart, hstart.symm.trans_le hlow, ?_⟩
    rw [if_pos h8]
    exact ⟨(Nat.add_le_add_right hhigh 8).trans hheld.1, toNat_ofNat_memRead rd _ le_rfl⟩
  case isFalse => exact absurd (BitVec.eq_of_toNat_eq (hheld.1.trans hstart.symm)) hne

namespace Refilled

variable {rd : Nat → Byte} {b : BitReader} {r : RefillStatus × BitReader}

theorem keeps_readerOk {start limit : Nat} (h : Refilled rd b r) (hok : readerOk rd start limit b) :
    readerOk rd start limit r.2 := by
  cases h with
  | overflow | atStart => exact hok
  | stepped _ hne hlow hcur => exact readerOk_brReload _ hok hne hlow (by omega)
  | toStart _ hne => exact readerOk_brReload _ hok hne le_rfl (hok.1 ▸ hok.2.1)

/-- BR.REFILL does not move the reader in its stream (R148 c). -/
theorem keeps_position (h : Refilled rd b r) (hstart : b.start.toNat ≤ b.cur.toNat) : r.2.position = b.position := by
  cases h with
  | overflow | atStart => rfl
  | stepped _ _ _ hcur hconsumed => simp only [BitReader.position, brReload]; omega
  | toStart _ _ _ hconsumed => simp only [BitReader.position, brReload]; omega

theorem consumed_le (h : Refilled rd b r) : r.2.consumed.toNat ≤ b.consumed.toNat := by
  cases h with
  | overflow | atStart => exact le_rfl
  | stepped _ _ _ _ hconsumed => simp only [brReload]; omega
  | toStart _ _ _ hconsumed => simp only [brReload]; omega

theorem of_more (h : Refilled rd b r) (hr : r.1 = .more) :
    r.2.cur.toNat = b.cur.toNat - b.consumed.toNat / 8 ∧ r.2.consumed.toNat = b.consumed.toNat % 8 := by
  cases h with
  | overflow | atStart | toStart => cases hr
  | stepped _ _ _ hcur hconsumed => exact ⟨by simp only [brReload]; omega, hconsumed⟩

theorem of_exhausted (h : Refilled rd b r) (hr : r.1 = .exhausted) : r.2.cur = r.2.start := by
  cases h with
  | overflow | stepped => cases hr
  | atStart _ hcur => exact hcur
  | toStart => rfl

theorem of_cur_eq_start (h : Refilled rd b r) (h64 : b.consumed.toNat ≤ 64) (hcur : b.cur = b.start) :
    r = (.exhausted, b) := by
  cases h with
  | overflow h => omega
  | atStart => rfl
  | stepped _ hne | toStart _ hne => exact absurd hcur hne

end Refilled

/-- The result register tells the three answers apart. -/
theorem ofNat_code_eq (st : RefillStatus) :
    (BitVec.ofNat 64 st.code = 0 ↔ st = .more) ∧ (BitVec.ofNat 64 st.code = 1 ↔ st = .exhausted) ∧
    (BitVec.ofNat 64 st.code = 2 ↔ st = .overflow) := by
  cases st <;> decide

/-- Settles O49, from the four answers of `Refilled`. -/
theorem bitReaderRefilled : Obligations.BitReaderRefilled := by
  intro k s start limit hok
  have hstart : (s.br.get k).start.toNat ≤ (s.br.get k).cur.toNat := hok.1 ▸ hok.2.1
  have hover := brRefill_overflow s.inByte (s.br.get k)
  have hmore := brRefill_more s.inByte (s.br.get k)
  have hsame := brRefill_overflow_same s.inByte (s.br.get k)
  have hexec : exec (.brRefill k) s = .next { s with
      br := s.br.set k (brRefill s.inByte (s.br.get k)).2
      result := BitVec.ofNat 64 (brRefill s.inByte (s.br.get k)).1.code } := rfl
  have hr := brRefill_refilled s.inByte hstart
  generalize s.br.get k = b at *
  generalize brRefill s.inByte b = r at *
  obtain ⟨r0, r1, r2⟩ := ofNat_code_eq r.1
  refine ⟨r.2, _, hexec, hr.keeps_readerOk hok, fun h => ⟨r2.mpr (hover.mpr h), by rw [hsame h]⟩, fun h64 => ?_⟩
  have hnot : r.1 ≠ .overflow := fun h => absurd (hover.mp h) (by omega)
  refine ⟨fun h => hnot (r2.mp h), hr.keeps_position hstart, hr.consumed_le, ?more,
    fun h => hr.of_more (r0.mp h), fun h => ?exhausted, fun hcur => ?atStart⟩
  case more => exact r0.trans (hmore.trans (and_iff_right h64))
  case exhausted =>
    have hex : r.1 = .exhausted := by
      cases hst : r.1 with
      | more => exact absurd (r0.mpr hst) h
      | exhausted => rfl
      | overflow => exact absurd hst hnot
    exact ⟨r1.mpr hex, hr.of_exhausted hex⟩
  case atStart =>
    rw [hr.of_cur_eq_start h64 hcur]
    exact ⟨rfl, rfl⟩

end Sys2Proof.Machine
end

section
/-! PROOFS. The tables that no description is read for: FSE.RLE, FSE.PREDEF and the ROM tables (R172, R175 to R178). -/
namespace Sys2Proof.Machine

/-! ## FSE.RLE (R172) -/

@[simp] theorem tableLog_fseRle (s : State) (t : TableId) (v : Byte) : (s.fseRle t v).tableLog t = 0 := by
  cases t <;> rfl

/-- The one slot of a single-symbol table. -/
theorem fseEntryAt_fseRle {cap : Nat} (hcap : 0 < cap) (v : Byte) (t : FseTable cap) :
    fseEntryAt (fseRle v t) 0 = some ⟨v, 0, 0⟩ := by
  simp [fseEntryAt, fseRle, ramSet, hcap]

theorem tableEntry_fseRle (s : State) (t : TableId) (v : Byte) :
    (s.fseRle t v).tableEntry t 0 = some ⟨v, 0, 0⟩ := by
  cases t <;> exact fseEntryAt_fseRle (by decide) v _

/-- FSE.RLE writes no table but its own. -/
theorem fseRle_otherTables (s : State) (t : TableId) (v : Byte) :
    (t ≠ .llt → (s.fseRle t v).llt = s.llt) ∧ (t ≠ .oft → (s.fseRle t v).oft = s.oft) ∧
    (t ≠ .mlt → (s.fseRle t v).mlt = s.mlt) ∧ (t ≠ .hwt → (s.fseRle t v).hwt = s.hwt) := by
  cases t <;> simp [State.fseRle]

theorem fseRle_eq (s : State) (t : TableId) (v : Byte) :
    s.fseRle t v = { s with
      llt := (s.fseRle t v).llt, oft := (s.fseRle t v).oft, mlt := (s.fseRle t v).mlt, hwt := (s.fseRle t v).hwt } := by
  cases t <;> rfl

/-! ## The ROM tables (R176 to R178) -/

/-- What FSE.BUILD makes of a distribution, from an empty table. -/
def buildDistribution (log : Nat) (d : List Int) : Run (TableUnit 64) Unit :=
  fseBuild log d.length
    ⟨FseTable.zero 64, ⟨Vector.ofFn fun i : Fin 256 => BitVec.ofInt 16 (d.getD i.val 0), Vector.replicate 256 0⟩, 0⟩

/-- Whether FSE.BUILD makes the ROM table of an alphabet of a distribution. -/
def buildsRom (x : Alphabet) (d : List Int) : Bool :=
  match buildDistribution (romLog x) d with
  | .ok _ r => decide (∀ i < 2 ^ romLog x, romEntry x i = r.tab.ram[i]?)
  | .raise _ _ => false
  | .stop _ => false

theorem buildsRom_default (x : Alphabet) (d : List Int)
    (h : (x, d) ∈ [(.ll, llDefault), (.of, ofDefault), (.ml, mlDefault)]) : buildsRom x d = true := by
  simp only [List.mem_cons, Prod.mk.injEq, List.not_mem_nil, or_false] at h
  obtain ⟨rfl, rfl⟩ | ⟨rfl, rfl⟩ | ⟨rfl, rfl⟩ := h
  case inl => decide +kernel
  case inr.inl => decide +kernel
  case inr.inr => decide +kernel

theorem romBuilt_of_buildsRom {x : Alphabet} {d : List Int} (h : buildsRom x d = true) :
    ∃ r, buildDistribution (romLog x) d = .ok () r ∧ ∀ i < 2 ^ romLog x, romEntry x i = r.tab.ram[i]? := by
  unfold buildsRom at h
  cases hr : buildDistribution (romLog x) d with
  | ok _ r => rw [hr] at h; exact ⟨r, rfl, of_decide_eq_true h⟩
  | raise e r => rw [hr] at h; cases h
  | stop f => rw [hr] at h; cases h

/-- Settles O50: the ROM tables by building each from its distribution (`buildsRom_default`). -/
theorem smallTables : Obligations.SmallTables := by
  refine ⟨fun t v s => ?rle, fun s => ⟨rfl, rfl, rfl⟩, fun x d hd => ?rom⟩
  case rle =>
    exact ⟨s.fseRle t v, rfl, fseRle_eq s t v, tableLog_fseRle s t v, tableEntry_fseRle s t v, fseRle_otherTables s t v⟩
  case rom =>
    obtain ⟨r, hr, hrom⟩ := romBuilt_of_buildsRom (buildsRom_default x d hd)
    unfold buildDistribution at hr
    rw [hr]
    exact hrom

end Sys2Proof.Machine
end

section
/-! PROOFS. The places of the symbols in a table that FSE.BUILD makes (R167, R168): the slots, in the order in which they are
written, are all slots of the table, each once. -/
namespace Sys2Proof.Machine

variable {cap : Nat}

/-! ## The symbols of the slots -/

/-- The symbol in slot `i`. -/
def slotSym (ram : Vector FseEntry cap) (i : Nat) : Nat := (ramGet ram i ⟨0, 0, 0⟩).sym.toNat

theorem slotSym_setSym_same (ram : Vector FseEntry cap) {i s : Nat} (hi : i < cap) (hs : s < 256) :
    slotSym (setSym ram i s) i = s := by
  simp [slotSym, setSym, ramGet_set_same _ _ _ _ hi, Nat.mod_eq_of_lt hs]

theorem slotSym_setSym_other (ram : Vector FseEntry cap) {i j s : Nat} (h : j ≠ i) :
    slotSym (setSym ram i s) j = slotSym ram j := by
  simp [slotSym, setSym, ramGet_set_other _ _ _ _ _ h]

/-- Writes symbols into slots, one pair of slot and symbol after the other. -/
def setSyms (ram : Vector FseEntry cap) (ps : List (Nat × Nat)) : Vector FseEntry cap :=
  ps.foldl (fun r p => setSym r p.1 p.2) ram

@[simp] theorem setSyms_nil (ram : Vector FseEntry cap) : setSyms ram [] = ram := rfl

@[simp] theorem setSyms_cons (ram : Vector FseEntry cap) (p : Nat × Nat) (ps : List (Nat × Nat)) :
    setSyms ram (p :: ps) = setSyms (setSym ram p.1 p.2) ps := rfl

theorem setSyms_append (ram : Vector FseEntry cap) (ps qs : List (Nat × Nat)) :
    setSyms ram (ps ++ qs) = setSyms (setSyms ram ps) qs := List.foldl_append ..

theorem slotSym_setSyms_other {ps : List (Nat × Nat)} {j : Nat} (h : j ∉ ps.map Prod.fst)
    (ram : Vector FseEntry cap) : slotSym (setSyms ram ps) j = slotSym ram j := by
  induction ps generalizing ram with
  | nil => rfl
  | cons p ps ih =>
    simp only [List.map_cons, List.mem_cons, not_or] at h
    rw [setSyms_cons, ih h.2, slotSym_setSym_other _ h.1]

/-- Slots written once each hold what was written. -/
theorem slotSym_setSyms {ps : List (Nat × Nat)} (hnodup : (ps.map Prod.fst).Nodup)
    (hps : ∀ p ∈ ps, p.1 < cap ∧ p.2 < 256) (ram : Vector FseEntry cap) :
    ∀ p ∈ ps, slotSym (setSyms ram ps) p.1 = p.2 := by
  induction ps generalizing ram with
  | nil => simp
  | cons p ps ih =>
    rw [List.map_cons, List.nodup_cons] at hnodup
    rw [List.forall_mem_cons] at hps ⊢
    obtain ⟨⟨hslot, hsym⟩, hps⟩ := hps
    refine ⟨?_, ih hnodup.2 hps _⟩
    rw [setSyms_cons, slotSym_setSyms_other hnodup.1, slotSym_setSym_same _ hslot hsym]

/-! ## The low-probability symbols (R167, R168) -/

/-- The low-probability symbols among the `n` symbols from `s` on. -/
def lowFrom (norm : Vector (BitVec 16) 256) (s n : Nat) : List Nat :=
  (List.range' s n).filter fun i => decide (normAt norm i = -1)

/-- The `n` slots below `room`, from the highest down. -/
def slotsDown (room n : Nat) : List Nat := (List.range n).map fun k => room - 1 - k

theorem slotsDown_succ (room n : Nat) : slotsDown room (n + 1) = (room - 1) :: slotsDown (room - 1) n := by
  simp only [slotsDown, List.range_succ_eq_map, List.map_cons, List.map_map, Nat.sub_zero]
  congr 1
  exact List.map_congr_left fun k _ => by simp only [Function.comp_apply]; omega

/-- The rank counters as they start (R167): a symbol's count, 1 for a count of -1. -/
def CountersStart (norm next : Vector (BitVec 16) 256) (s n : Nat) : Prop :=
  ∀ i, s ≤ i → i < s + n → (ramGet next i 0).toNat = (normAt norm i).natAbs

theorem CountersStart.cons {norm next0 next : Vector (BitVec 16) 256} {s n : Nat} {x : BitVec 16}
    (hrest : CountersStart norm next (s + 1) n) (hs : s < 256) (hx : x.toNat = (normAt norm s).natAbs)
    (hbelow : ∀ i < s + 1, ramGet next i 0 = ramGet (ramSet next0 s x) i 0) :
    CountersStart norm next s (n + 1) ∧ ∀ i < s, ramGet next i 0 = ramGet next0 i 0 := by
  refine ⟨fun i h1 h2 => ?_, fun i hi => ?_⟩
  · rcases Nat.eq_or_lt_of_le h1 with rfl | h1
    · rw [hbelow _ (by omega), ramGet_set_same _ _ _ _ hs, hx]
    · exact hrest i h1 (by omega)
  · rw [hbelow i (by omega), ramGet_set_other _ _ _ _ _ (by omega)]

theorem toNat_of_normAt_nonneg {norm : Vector (BitVec 16) 256} {s : Nat} (h : 0 ≤ normAt norm s) :
    (ramGet norm s 0).toNat = (normAt norm s).natAbs := by
  unfold normAt at h ⊢
  have hlt := (ramGet norm s 0).isLt
  rw [BitVec.toInt_eq_toNat_cond] at h ⊢
  split at h
  · rw [if_pos ‹_›]; rfl
  · omega

/-- The low-probability symbols of `s .. s + n - 1` go into the highest slots below `room`, and the counters of these symbols
start. -/
theorem lowProb_eq {norm : Vector (BitVec 16) 256} (n s room : Nat) (b : BuildSt cap)
    (hcounts : ∀ i, s ≤ i → i < s + n → -1 ≤ normAt norm i) (h256 : s + n ≤ 256)
    (hroom : (lowFrom norm s n).length ≤ room) :
    ∃ next, lowProb norm n s room b = .ok (room - (lowFrom norm s n).length)
        ⟨setSyms b.ram ((slotsDown room (lowFrom norm s n).length).zip (lowFrom norm s n)), next, b.draws⟩ ∧
      CountersStart norm next s n ∧ ∀ i < s, ramGet next i 0 = ramGet b.next i 0 := by
  induction n generalizing s room b with
  | zero => exact ⟨b.next, rfl, fun i h1 h2 => absurd h2 (by omega), fun _ _ => rfl⟩
  | succ n ih =>
    have hcounts' : ∀ i, s + 1 ≤ i → i < s + 1 + n → -1 ≤ normAt norm i := fun i h1 h2 =>
      hcounts i (by omega) (by omega)
    by_cases hlow : normAt norm s = -1
    · have hl : lowFrom norm s (n + 1) = s :: lowFrom norm (s + 1) n := by
        simp [lowFrom, List.range'_succ, hlow]
      rw [hl, List.length_cons] at hroom ⊢
      obtain ⟨next, hrun, hrest, hbelow⟩ := ih (s + 1) (room - 1)
        { b with ram := setSym b.ram (room - 1) s, next := ramSet b.next s 1 } hcounts' (by omega) (by omega)
      refine ⟨next, ?_, hrest.cons (by omega) (by simp [hlow]) hbelow⟩
      rw [lowProb, if_pos hlow, if_neg (by omega), hrun, slotsDown_succ, List.zip_cons_cons, setSyms_cons,
        Nat.sub_sub, Nat.add_comm 1]
    · have hl : lowFrom norm s (n + 1) = lowFrom norm (s + 1) n := by
        simp [lowFrom, List.range'_succ, hlow]
      have hnonneg : 0 ≤ normAt norm s := by
        have := hcounts s (le_refl s) (by omega)
        omega
      rw [hl] at hroom ⊢
      obtain ⟨next, hrun, hrest, hbelow⟩ := ih (s + 1) room
        { b with next := ramSet b.next s (ramGet norm s 0) } hcounts' (by omega) hroom
      refine ⟨next, ?_, hrest.cons (by omega) (toNat_of_normAt_nonneg hnonneg) hbelow⟩
      rw [lowProb, if_neg hlow, hrun]

/-! ## The walk over the other slots (R168) -/

/-- The slot that the walk reaches after `k` steps. -/
def walkAt (log k : Nat) : Nat := k * (2 ^ log / 2 + 2 ^ log / 8 + 3) % 2 ^ log

@[simp] theorem walkAt_zero (log : Nat) : walkAt log 0 = 0 := by simp [walkAt]

@[simp] theorem walkAt_size (log : Nat) : walkAt log (2 ^ log) = 0 := by simp [walkAt]

theorem walkAt_lt (log k : Nat) : walkAt log k < 2 ^ log := Nat.mod_lt _ (by positivity)

theorem walkAt_succ (log k : Nat) :
    (walkAt log k + (2 ^ log / 2 + 2 ^ log / 8 + 3)) % 2 ^ log = walkAt log (k + 1) := by
  rw [walkAt, walkAt, Nat.mod_add_mod, Nat.succ_mul]

/-- The step is odd, so the walk does not come back to a slot before it has taken `2 ^ log` steps. -/
theorem walkAt_inj {log j k : Nat} (hlog : 4 ≤ log) (hj : j < 2 ^ log) (hk : k < 2 ^ log)
    (h : walkAt log j = walkAt log k) : j = k := by
  have hodd : (2 ^ log / 2 + 2 ^ log / 8 + 3) % 2 = 1 := by
    obtain ⟨m, rfl⟩ := Nat.exists_eq_add_of_le hlog
    rw [pow_add]
    omega
  have hcop : Nat.Coprime (2 ^ log) (2 ^ log / 2 + 2 ^ log / 8 + 3) :=
    (Nat.coprime_two_left.mpr (Nat.odd_iff.mpr hodd)).pow_left _
  have hmod : j ≡ k [MOD 2 ^ log] := Nat.ModEq.cancel_right_of_coprime hcop h
  rwa [Nat.ModEq, Nat.mod_eq_of_lt hj, Nat.mod_eq_of_lt hk] at hmod

theorem perm_range_of_nodup {l : List Nat} {n : Nat} (hnodup : l.Nodup) (hlt : ∀ x ∈ l, x < n) (hlen : n ≤ l.length) :
    l.Perm (List.range n) :=
  (List.subperm_of_subset hnodup fun x hx => List.mem_range.mpr (hlt x hx)).perm_of_length_le (by simpa using hlen)

theorem walkSlots_eq (log room : Nat) :
    walkSlots log room = ((List.range (2 ^ log)).map (walkAt log)).filter fun p => decide (p < room) := rfl

/-- The walk visits every slot below `room` once (R168). -/
theorem walkSlots_perm {log room : Nat} (hlog : 4 ≤ log) (hroom : room ≤ 2 ^ log) :
    (walkSlots log room).Perm (List.range room) := by
  have hnodup : ((List.range (2 ^ log)).map (walkAt log)).Nodup :=
    List.nodup_range.map_on fun j hj k hk => walkAt_inj hlog (List.mem_range.mp hj) (List.mem_range.mp hk)
  have hall := perm_range_of_nodup hnodup (fun x hx => by
    obtain ⟨k, _, rfl⟩ := List.mem_map.mp hx
    exact walkAt_lt log k) (by simp)
  refine (List.perm_ext_iff_of_nodup (hnodup.filter _) List.nodup_range).mpr fun p => ?_
  rw [List.mem_filter, hall.mem_iff, List.mem_range, List.mem_range, decide_eq_true_eq]
  omega

/-- Each slot of a list is followed by the next one of the list, the last one by slot 0. -/
def FollowsWalk (log room : Nat) : List Nat → Prop
  | [] => True
  | p :: ws =>
    nextSlot (2 ^ log) (2 ^ log / 2 + 2 ^ log / 8 + 3) room (2 ^ log) p = some (ws.headD 0) ∧ FollowsWalk log room ws

theorem FollowsWalk.drop {log room : Nat} {ws : List Nat} (h : FollowsWalk log room ws) (c : Nat) :
    FollowsWalk log room (ws.drop c) := by
  induction c generalizing ws with
  | zero => exact h
  | succ c ih =>
    cases ws with
    | nil => exact h
    | cons p ws => exact ih h.2

/-- `nextSlot` searches the walk for a slot below `room`. -/
theorem nextSlot_eq_find (log room f k : Nat) :
    nextSlot (2 ^ log) (2 ^ log / 2 + 2 ^ log / 8 + 3) room f (walkAt log k) =
      ((List.range' (k + 1) f).map (walkAt log)).find? fun p => decide (p < room) := by
  induction f generalizing k with
  | zero => rfl
  | succ f ih =>
    rw [nextSlot, List.range'_succ, List.map_cons, List.find?_cons, walkAt_succ]
    by_cases h : walkAt log (k + 1) < room
    · simp [h]
    · simp [h, ih]

/-- The search from the slot of step `k` finds the next slot of the walk below `room`, or slot 0 again. -/
theorem nextSlot_walkAt {log room k n : Nat} (hroom : 0 < room) (hk : k + (n + 1) = 2 ^ log) :
    nextSlot (2 ^ log) (2 ^ log / 2 + 2 ^ log / 8 + 3) room (2 ^ log) (walkAt log k) =
      some ((((List.range' (k + 1) n).map (walkAt log)).filter fun p => decide (p < room)).headD 0) := by
  have hsplit : List.range' (k + 1) (2 ^ log) = List.range' (k + 1) n ++ (2 ^ log) :: List.range' (2 ^ log + 1) k := by
    rw [← List.range'_succ, ← hk, show k + (n + 1) = n + (k + 1) by omega, ← List.range'_append_1]
    congr 2; omega
  rw [nextSlot_eq_find, hsplit, List.map_append, List.find?_append, List.map_cons, walkAt_size,
    List.find?_cons_of_pos (by simpa using hroom), ← List.head?_filter, List.headD_eq_head?_getD]
  cases List.head? _ <;> rfl

theorem walkSlots_followsWalk (log room : Nat) : FollowsWalk log room (walkSlots log room) := by
  have hsuffix : ∀ n k, k + n = 2 ^ log →
      FollowsWalk log room (((List.range' k n).map (walkAt log)).filter fun p => decide (p < room)) := by
    intro n
    induction n with
    | zero => exact fun _ _ => trivial
    | succ n ih =>
      intro k hk
      rw [List.range'_succ, List.map_cons, List.filter_cons]
      split
      case isTrue h =>
        exact ⟨nextSlot_walkAt (Nat.zero_lt_of_lt (of_decide_eq_true h)) hk, ih (k + 1) (by omega)⟩
      case isFalse => exact ih (k + 1) (by omega)
  rw [walkSlots_eq, List.range_eq_range']
  exact hsuffix _ 0 (Nat.zero_add _)

/-! ## The spread (R167, R168) -/

/-- The symbols from `s` on that are spread, each as often as its count says. -/
def spreadFrom (norm : Vector (BitVec 16) 256) (s n : Nat) : List Nat :=
  (List.range' s n).flatMap fun i => List.replicate (normAt norm i).toNat i

theorem zip_append_of_le {α β : Type} {ws : List α} {xs ys : List β} (h : xs.length ≤ ws.length) :
    ws.zip (xs ++ ys) = ws.zip xs ++ (ws.drop xs.length).zip ys := by
  induction xs generalizing ws with
  | nil => simp
  | cons x xs ih =>
    cases ws with
    | nil => simp at h
    | cons w ws => simpa using ih (by simpa using h)

theorem placeSymbol_eq {log room s : Nat} (c : Nat) {ws : List Nat} (b : BuildSt cap) (hws : FollowsWalk log room ws)
    (hc : c ≤ ws.length) :
    placeSymbol (2 ^ log) (2 ^ log / 2 + 2 ^ log / 8 + 3) room s c (ws.headD 0) b =
      .ok ((ws.drop c).headD 0) { b with ram := setSyms b.ram (ws.zip (List.replicate c s)) } := by
  induction c generalizing ws b with
  | zero => simp [placeSymbol]
  | succ c ih =>
    cases ws with
    | nil => simp at hc
    | cons p ws =>
      obtain ⟨hnext, hws⟩ := hws
      rw [placeSymbol, List.headD_cons, hnext]
      simpa [List.replicate_succ] using ih { b with ram := setSym b.ram p s } hws (by simpa using hc)

/-- The spread writes its symbols along the walk. -/
theorem spread_eq {norm : Vector (BitVec 16) 256} {log room : Nat} (n s : Nat) {ws : List Nat} (b : BuildSt cap)
    (hws : FollowsWalk log room ws) (hlen : (spreadFrom norm s n).length ≤ ws.length) :
    spread norm (2 ^ log) (2 ^ log / 2 + 2 ^ log / 8 + 3) room n s (ws.headD 0) b =
      .ok ((ws.drop (spreadFrom norm s n).length).headD 0)
        { b with ram := setSyms b.ram (ws.zip (spreadFrom norm s n)) } := by
  induction n generalizing s ws b with
  | zero => simp [spread, spreadFrom]
  | succ n ih =>
    have hcons : spreadFrom norm s (n + 1) = List.replicate (normAt norm s).toNat s ++ spreadFrom norm (s + 1) n := by
      simp [spreadFrom, List.range'_succ]
    generalize hc : (normAt norm s).toNat = c at hcons
    rw [hcons, List.length_append, List.length_replicate] at hlen ⊢
    rw [spread, hc, placeSymbol_eq c b hws (by omega), bind_ok, ih (s + 1) _ (hws.drop c) (by simp; omega),
      zip_append_of_le (by simp; omega), setSyms_append, List.length_replicate, List.drop_drop]

/-! ## All slots and their symbols -/

theorem lowSymbols_eq (norm : Vector (BitVec 16) 256) (nsym : Nat) : lowSymbols norm nsym = lowFrom norm 0 nsym := by
  rw [lowSymbols, lowFrom, List.range_eq_range']

theorem spreadSymbols_eq (norm : Vector (BitVec 16) 256) (nsym : Nat) : spreadSymbols norm nsym = spreadFrom norm 0 nsym := by
  rw [spreadSymbols, spreadFrom, List.range_eq_range']

/-- The symbols that FSE.BUILD places, in the order in which it places them. -/
def placedSymbols (norm : Vector (BitVec 16) 256) (nsym : Nat) : List Nat :=
  lowSymbols norm nsym ++ spreadSymbols norm nsym

/-- The slots in which it places them (R168). -/
def placedSlots (norm : Vector (BitVec 16) 256) (log nsym : Nat) : List Nat :=
  slotsDown (2 ^ log) (lowSymbols norm nsym).length ++ walkSlots log (2 ^ log - (lowSymbols norm nsym).length)

/-- A further symbol is placed as often as its count says, whether its slots are low-probability ones or spread. -/
theorem placedSymbols_succ {norm : Vector (BitVec 16) 256} {n : Nat} (h : -1 ≤ normAt norm n) :
    (placedSymbols norm (n + 1)).Perm (placedSymbols norm n ++ List.replicate (normAt norm n).natAbs n) := by
  by_cases hlow : normAt norm n = -1
  · have hl : lowSymbols norm (n + 1) = lowSymbols norm n ++ [n] := by simp [lowSymbols, List.range_succ, hlow]
    have hs : spreadSymbols norm (n + 1) = spreadSymbols norm n := by simp [spreadSymbols, List.range_succ, hlow]
    rw [placedSymbols, placedSymbols, hl, hs, hlow, List.append_assoc, List.append_assoc]
    exact List.perm_append_comm.append_left _
  · have hl : lowSymbols norm (n + 1) = lowSymbols norm n := by simp [lowSymbols, List.range_succ, hlow]
    have hs : spreadSymbols norm (n + 1) = spreadSymbols norm n ++ List.replicate (normAt norm n).natAbs n := by
      simp [spreadSymbols, List.range_succ, show (normAt norm n).toNat = (normAt norm n).natAbs by omega]
    rw [placedSymbols, placedSymbols, hl, hs, List.append_assoc]

theorem count_placedSymbols {norm : Vector (BitVec 16) 256} {nsym : Nat} (h : ∀ s < nsym, -1 ≤ normAt norm s) (sym : Nat) :
    (placedSymbols norm nsym).count sym = if sym < nsym then (normAt norm sym).natAbs else 0 := by
  induction nsym with
  | zero => rfl
  | succ n ih =>
    rw [(placedSymbols_succ (h n (by omega))).count_eq, List.count_append, ih fun s hs => h s (by omega),
      List.count_replicate]
    rcases Nat.lt_trichotomy sym n with hlt | rfl | hgt
    · simp [hlt, Nat.lt_succ_of_lt hlt, hlt.ne']
    · simp
    · simp [hgt.ne, hgt.not_gt, show ¬ sym < n + 1 by omega]

theorem length_placedSymbols {norm : Vector (BitVec 16) 256} {nsym : Nat} (h : ∀ s < nsym, -1 ≤ normAt norm s) :
    (placedSymbols norm nsym).length = ((List.range nsym).map fun s => (normAt norm s).natAbs).sum := by
  induction nsym with
  | zero => rfl
  | succ n ih =>
    rw [(placedSymbols_succ (h n (by omega))).length_eq, List.length_append, ih fun s hs => h s (by omega)]
    simp [List.range_succ]

theorem mem_placedSymbols_lt {norm : Vector (BitVec 16) 256} {nsym s : Nat} (h : s ∈ placedSymbols norm nsym) :
    s < nsym := by
  rcases List.mem_append.mp h with h | h
  · exact List.mem_range.mp (List.mem_of_mem_filter h)
  · obtain ⟨i, hi, hs⟩ := List.mem_flatMap.mp h
    rw [List.eq_of_mem_replicate hs]
    exact List.mem_range.mp hi

@[simp] theorem length_slotsDown (room n : Nat) : (slotsDown room n).length = n := by simp [slotsDown]

/-- The slots of the low-probability symbols and those of the walk are all slots of the table, each once. -/
theorem placedSlots_perm {log : Nat} (hlog : 4 ≤ log) {n : Nat} (hn : n ≤ 2 ^ log) :
    (slotsDown (2 ^ log) n ++ walkSlots log (2 ^ log - n)).Perm (List.range (2 ^ log)) := by
  have hwalk := walkSlots_perm hlog (Nat.sub_le (2 ^ log) n)
  have hmem {p : Nat} : p ∈ slotsDown (2 ^ log) n → 2 ^ log - n ≤ p ∧ p < 2 ^ log := fun hp => by
    obtain ⟨k, hk, rfl⟩ := List.mem_map.mp hp
    have := List.mem_range.mp hk
    omega
  refine perm_range_of_nodup (List.nodup_append'.mpr ⟨?_, hwalk.nodup_iff.mpr List.nodup_range, fun p hp hw => ?_⟩)
    (fun p hp => ?_) (by simp [hwalk.length_eq]; omega)
  · exact List.nodup_range.map_on fun j hj k hk h => by
      have := List.mem_range.mp hj
      have := List.mem_range.mp hk
      omega
  · have := List.mem_range.mp (hwalk.mem_iff.mp hw)
    have := hmem hp
    omega
  · rcases List.mem_append.mp hp with hp | hw
    · exact (hmem hp).2
    · have := List.mem_range.mp (hwalk.mem_iff.mp hw)
      omega

/-! ## The symbols of the table -/

section Counts
variable {norm : Vector (BitVec 16) 256} {log nsym : Nat} (hc : countsOk norm log nsym)
include hc

theorem length_placed : (lowSymbols norm nsym).length + (spreadSymbols norm nsym).length = 2 ^ log := by
  rw [← List.length_append]
  exact (length_placedSymbols hc.1).trans hc.2

theorem length_lowSymbols_le : (lowSymbols norm nsym).length ≤ 2 ^ log := by
  have := length_placed hc
  omega

theorem length_walkSlots (hlog : 4 ≤ log) :
    (walkSlots log (2 ^ log - (lowSymbols norm nsym).length)).length = (spreadSymbols norm nsym).length := by
  have := length_placed hc
  rw [(walkSlots_perm hlog (Nat.sub_le _ _)).length_eq, List.length_range]
  omega

theorem length_placedSlots (hlog : 4 ≤ log) :
    (placedSlots norm log nsym).length = (placedSymbols norm nsym).length := by
  rw [placedSlots, placedSymbols, List.length_append, List.length_append, length_slotsDown, length_walkSlots hc hlog]

end Counts

/-- The walk starts at slot 0. -/
theorem walkSlots_head (log room : Nat) : (walkSlots log room).headD 0 = 0 := by
  obtain ⟨n, hn⟩ := Nat.exists_eq_succ_of_ne_zero (Nat.two_pow_pos log).ne'
  rcases Nat.eq_zero_or_pos room with rfl | hroom
  · simp [walkSlots_eq]
  · simp [walkSlots_eq, hn, List.range_succ_eq_map, hroom]

/-- Which symbol FSE.BUILD places in which slot (R168). -/
def placements (norm : Vector (BitVec 16) 256) (log nsym : Nat) : List (Nat × Nat) :=
  (placedSlots norm log nsym).zip (placedSymbols norm nsym)

section Placed
variable {norm : Vector (BitVec 16) 256} {log nsym : Nat} (hlog : 4 ≤ log) (hc : countsOk norm log nsym)
include hlog hc

/-- The two passes of FSE.BUILD that place symbols (R167): the counters of all symbols start, every placed symbol is in its
slot, and the spread ends at slot 0. -/
theorem placing_eq (h256 : nsym ≤ 256) (b : BuildSt cap) : ∃ next,
    ((lowProb norm nsym 0 (2 ^ log) b).bind fun room b1 =>
        spread norm (2 ^ log) (2 ^ log / 2 + 2 ^ log / 8 + 3) room nsym 0 0 b1) =
      .ok 0 ⟨setSyms b.ram (placements norm log nsym), next, b.draws⟩ ∧
    CountersStart norm next 0 nsym := by
  obtain ⟨next, hlow, hstart, _⟩ := lowProb_eq nsym 0 (2 ^ log) b (fun i _ h => hc.1 i (by omega)) (by omega)
    (lowSymbols_eq norm nsym ▸ length_lowSymbols_le hc)
  rw [← lowSymbols_eq] at hlow
  have hwalk := length_walkSlots hc hlog
  have hspread := spread_eq nsym 0
    ⟨setSyms b.ram ((slotsDown (2 ^ log) (lowSymbols norm nsym).length).zip (lowSymbols norm nsym)), next, b.draws⟩
    (walkSlots_followsWalk log (2 ^ log - (lowSymbols norm nsym).length)) (by rw [← spreadSymbols_eq, hwalk])
  rw [← spreadSymbols_eq, List.drop_eq_nil_of_le hwalk.le, walkSlots_head, ← setSyms_append,
    ← List.zip_append (length_slotsDown _ _)] at hspread
  exact ⟨next, by rw [hlow, bind_ok, hspread]; rfl, hstart⟩

/-- Every slot holds the symbol that was placed in it. -/
theorem slotSym_placements (hcap : 2 ^ log ≤ cap) (h256 : nsym ≤ 256) (ram : Vector FseEntry cap) :
    (placedSlots norm log nsym).map (slotSym (setSyms ram (placements norm log nsym))) = placedSymbols norm nsym := by
  have hlen := length_placedSlots hc hlog
  have hperm : (placedSlots norm log nsym).Perm (List.range (2 ^ log)) := placedSlots_perm hlog (length_lowSymbols_le hc)
  have hslots : (placements norm log nsym).map Prod.fst = placedSlots norm log nsym := List.map_fst_zip hlen.le
  have hheld : ∀ p ∈ placements norm log nsym, slotSym (setSyms ram (placements norm log nsym)) p.1 = p.2 := by
    refine slotSym_setSyms (hslots ▸ hperm.nodup_iff.mpr List.nodup_range) (fun p hp => ?_) ram
    obtain ⟨hslot, hsym⟩ := List.of_mem_zip hp
    have := List.mem_range.mp (hperm.mem_iff.mp hslot)
    have := mem_placedSymbols_lt hsym
    omega
  calc (placedSlots norm log nsym).map (slotSym (setSyms ram (placements norm log nsym)))
      = (placements norm log nsym).map fun p => slotSym (setSyms ram (placements norm log nsym)) p.1 := by
        rw [← hslots, List.map_map]; rfl
    _ = (placements norm log nsym).map Prod.snd := List.map_congr_left hheld
    _ = placedSymbols norm nsym := List.map_snd_zip hlen.ge

end Placed

end Sys2Proof.Machine
end

section
/-! PROOFS. FSE.BUILD (R167 to R170): the table holds every symbol as often as its count says, so the ranks of R169 stay below
twice the count, and every slot has the fields of its rank. -/
namespace Sys2Proof.Machine

variable {cap : Nat}

/-! ## The fields of the slots (R169) -/

/-- A rank below twice the table size has the fields R169 gives it, and they fit their widths and the table (R170). -/
theorem rankFields_bounds {log r : Nat} (hlog : log ≤ 12) (h1 : 1 ≤ r) (h2 : r < 2 ^ (log + 1)) :
    rankStated log r = true ∧ (BitVec.ofNat 4 (log - highbit r)).toNat = log - highbit r ∧
    2 ^ log + (BitVec.ofNat 16 (r * 2 ^ (log - highbit r) - 2 ^ log)).toNat = r * 2 ^ (log - highbit r) ∧
    (r + 1) * 2 ^ (log - highbit r) ≤ 2 ^ (log + 1) := by
  obtain ⟨hlo, hhi⟩ := (Nat.log2_eq_iff (by omega : r ≠ 0)).mp rfl
  have hle : highbit r ≤ log := Nat.le_of_lt_succ ((Nat.log2_lt (by omega)).mpr h2)
  have hlow : 2 ^ log ≤ r * 2 ^ (log - highbit r) := by
    calc 2 ^ log = 2 ^ highbit r * 2 ^ (log - highbit r) := by rw [← pow_add, Nat.add_sub_cancel' hle]
      _ ≤ _ := Nat.mul_le_mul_right _ hlo
  have hhigh : (r + 1) * 2 ^ (log - highbit r) ≤ 2 ^ (log + 1) := by
    calc (r + 1) * 2 ^ (log - highbit r) ≤ 2 ^ (highbit r + 1) * 2 ^ (log - highbit r) := Nat.mul_le_mul_right _ hhi
      _ = 2 ^ (log + 1) := by rw [← pow_add]; congr 1; omega
  have hsize : 2 ^ log ≤ 2 ^ 12 := Nat.pow_le_pow_right (by omega) hlog
  have hpos : 0 < 2 ^ (log - highbit r) := Nat.two_pow_pos _
  rw [pow_succ] at hhigh
  rw [Nat.succ_mul] at hhigh
  refine ⟨by simp [rankStated, hle]; omega, ?_, ?_, by rw [Nat.succ_mul, pow_succ]; exact hhigh⟩
  · rw [BitVec.toNat_ofNat, Nat.mod_eq_of_lt (by omega)]
  · rw [BitVec.toNat_ofNat, Nat.mod_eq_of_lt (by omega)]
    omega

/-- The rank of slot `i` (R169): its symbol's counter as it started, and one more for each earlier slot with this symbol. -/
def rankIn (b : BuildSt cap) (i s : Nat) : Nat :=
  (ramGet b.next s 0).toNat + (List.range i).countP fun j => decide (slotSym b.ram j = s)

/-- What slot `i` comes to hold (R169). -/
def rankedEntry (log : Nat) (b : BuildSt cap) (i : Nat) : FseEntry :=
  let r := rankIn b i (slotSym b.ram i)
  ⟨(ramGet b.ram i ⟨0, 0, 0⟩).sym, BitVec.ofNat 4 (log - highbit r), BitVec.ofNat 16 (r * 2 ^ (log - highbit r) - 2 ^ log)⟩

/-- The slots below `i` have their fields, the others are as they were in `b0`, and each counter has counted its slots. -/
structure RankedTo (log : Nat) (b0 : BuildSt cap) (i : Nat) (b : BuildSt cap) : Prop where
  draws : b.draws = b0.draws
  counted : ∀ s < 256, (ramGet b.next s 0).toNat = rankIn b0 i s
  ranked : ∀ j < i, ramGet b.ram j ⟨0, 0, 0⟩ = rankedEntry log b0 j
  waiting : ∀ j, i ≤ j → ramGet b.ram j ⟨0, 0, 0⟩ = ramGet b0.ram j ⟨0, 0, 0⟩

/-- The ranks of the slots of a table of log `log` are those R170 describes. -/
def RanksFit (log : Nat) (b : BuildSt cap) : Prop :=
  ∀ i < 2 ^ log, 1 ≤ rankIn b i (slotSym b.ram i) ∧ rankIn b i (slotSym b.ram i) < 2 ^ (log + 1)

theorem rankIn_succ (b : BuildSt cap) (i s : Nat) :
    rankIn b (i + 1) s = rankIn b i s + if slotSym b.ram i = s then 1 else 0 := by
  simp [rankIn, List.range_succ, List.countP_append, List.countP_singleton, add_assoc]

/-- The scan of `n` slots from slot `i` on (R167). -/
theorem slotFields_rankedTo {log : Nat} {b0 : BuildSt cap} (hlog : log ≤ 12) (hcap : 2 ^ log ≤ cap)
    (hfit : RanksFit log b0) (n : Nat) {i : Nat} {b : BuildSt cap} (hi : i + n ≤ 2 ^ log) (h : RankedTo log b0 i b) :
    RankedTo log b0 (i + n) (slotFields log n i b) := by
  induction n generalizing i b with
  | zero => exact h
  | succ n ih =>
    have he := h.waiting i (le_refl i)
    have hr : (ramGet b.next (slotSym b0.ram i) 0).toNat = rankIn b0 i (slotSym b0.ram i) := h.counted _ (BitVec.isLt _)
    obtain ⟨h1, h2⟩ := hfit i (by omega)
    obtain ⟨hstated, _⟩ := rankFields_bounds hlog h1 h2
    have hsmall : 2 ^ (log + 1) ≤ 2 ^ 13 := Nat.pow_le_pow_right (by omega) (by omega)
    rw [slotFields_succ, show i + (n + 1) = i + 1 + n by omega]
    dsimp only
    rw [he, show (ramGet b0.ram i ⟨0, 0, 0⟩).sym.toNat = slotSym b0.ram i from rfl, hr, rankFields_of_stated hstated,
      if_pos hstated]
    refine ih (by omega) ⟨h.draws, fun s hs => ?_, fun j hj => ?_, fun j hj => ?_⟩
    · rw [rankIn_succ]
      by_cases hsym : slotSym b0.ram i = s
      · subst hsym
        rw [ramGet_set_same _ _ _ _ hs, if_pos rfl, BitVec.toNat_ofNat, Nat.mod_eq_of_lt (by omega)]
      · rw [ramGet_set_other _ _ _ _ _ (fun h => hsym h.symm), if_neg hsym, h.counted s hs, add_zero]
    · rcases Nat.lt_succ_iff_lt_or_eq.mp hj with hj | rfl
      · rw [ramGet_set_other _ _ _ _ _ (by omega), h.ranked j hj]
      · exact ramGet_set_same _ _ _ _ (by omega)
    · rw [ramGet_set_other _ _ _ _ _ (by omega), h.waiting j (by omega)]

/-! ## The table built -/

/-- What FSE.BUILD makes of counts (R167 to R170). -/
structure TableBuilt (norm : Vector (BitVec 16) 256) (ent : Nat → Option FseEntry) (log nsym : Nat) : Prop where
  closed : tableClosed ent log
  counted : slotsCounted norm ent log nsym
  spread : slotsSpread norm ent log nsym
  ranked : slotsRanked norm ent log

/-- The slots of the low-probability symbols hold those in order, the slots of the walk the spread ones. -/
theorem low_and_spread {norm : Vector (BitVec 16) 256} {log nsym : Nat} {sym : Nat → Nat}
    (hsym : (placedSlots norm log nsym).map sym = placedSymbols norm nsym) :
    (slotsDown (2 ^ log) (lowSymbols norm nsym).length).map sym = lowSymbols norm nsym ∧
    (walkSlots log (2 ^ log - (lowSymbols norm nsym).length)).map sym = spreadSymbols norm nsym := by
  rw [placedSlots, List.map_append] at hsym
  exact List.append_inj hsym (by simp)

theorem slotsSpread_of_sym {norm : Vector (BitVec 16) 256} {log nsym : Nat} {sym : Nat → Nat} (hlog : 4 ≤ log)
    (hsym : (placedSlots norm log nsym).map sym = placedSymbols norm nsym) {ent : Nat → Option FseEntry}
    (hent : ∀ i < 2 ^ log, entrySym (ent i) = some (sym i)) : slotsSpread norm ent log nsym := by
  obtain ⟨hlow, hspread⟩ := low_and_spread hsym
  have hwalk := walkSlots_perm hlog (Nat.sub_le (2 ^ log) (lowSymbols norm nsym).length)
  have hsize := Nat.two_pow_pos log
  refine ⟨fun k hk => ?_, by simpa using hwalk.length_eq, fun k hk => ?_⟩
  · rw [hent _ (by omega), ← congrArg (List.getD · k 0) hlow]
    simp [slotsDown, hk]
  · have hslot := List.mem_range.mp (hwalk.mem_iff.mp (List.getElem_mem hk))
    rw [List.getD_eq_getElem _ _ hk, hent _ (by omega), ← congrArg (List.getD · k 0) hspread]
    simp [hk]

section Table
variable {norm : Vector (BitVec 16) 256} {log nsym : Nat} (hlog : 4 ≤ log) (hc : countsOk norm log nsym)
  {sym : Nat → Nat} (hsym : (placedSlots norm log nsym).map sym = placedSymbols norm nsym)
include hlog hc hsym

/-- Each symbol holds as many slots as its count says. -/
theorem countP_sym (s : Nat) :
    ((List.range (2 ^ log)).countP fun i => decide (sym i = s)) = if s < nsym then (normAt norm s).natAbs else 0 := by
  have hperm : (placedSlots norm log nsym).Perm (List.range (2 ^ log)) := placedSlots_perm hlog (length_lowSymbols_le hc)
  calc ((List.range (2 ^ log)).countP fun i => decide (sym i = s))
      = (placedSlots norm log nsym).countP fun i => decide (sym i = s) := (hperm.countP_eq _).symm
    _ = ((placedSlots norm log nsym).map sym).count s := by rw [List.count, List.countP_map]; rfl
    _ = _ := by rw [hsym, count_placedSymbols hc.1]

/-- A slot holds a described symbol, and its rank is less than twice the symbol's count (R169). -/
theorem rank_bounds {i : Nat} (hi : i < 2 ^ log) :
    sym i < nsym ∧ 1 ≤ (normAt norm (sym i)).natAbs ∧
    (normAt norm (sym i)).natAbs + ((List.range i).countP fun j => decide (sym j = sym i)) < 2 ^ (log + 1) := by
  have hcount := countP_sym hlog hc hsym (sym i)
  have hbefore : ((List.range i).countP fun j => decide (sym j = sym i)) + 1 ≤
      (List.range (2 ^ log)).countP fun j => decide (sym j = sym i) := by
    calc ((List.range i).countP fun j => decide (sym j = sym i)) + 1
        = (List.range (i + 1)).countP fun j => decide (sym j = sym i) := by
          simp [List.range_succ, List.countP_append]
      _ ≤ _ := (List.range_sublist.mpr (by omega)).countP_le
  have hsize : ((List.range (2 ^ log)).countP fun j => decide (sym j = sym i)) ≤ 2 ^ log :=
    List.countP_le_length.trans_eq List.length_range
  split at hcount
  case isTrue hlt =>
    rw [pow_succ]
    omega
  case isFalse => omega

end Table

section Ranked
variable {norm : Vector (BitVec 16) 256} {log nsym : Nat} {b : BuildSt cap} (hlog : 4 ≤ log)
  (hc : countsOk norm log nsym) (hsym : (placedSlots norm log nsym).map (slotSym b.ram) = placedSymbols norm nsym)
  (hstart : CountersStart norm b.next 0 nsym)
include hlog hc hsym hstart

theorem rankIn_eq {i : Nat} (hi : i < 2 ^ log) :
    rankIn b i (slotSym b.ram i) = (normAt norm (slotSym b.ram i)).natAbs +
      (List.range i).countP fun j => decide (slotSym b.ram j = slotSym b.ram i) := by
  obtain ⟨hlt, _⟩ := rank_bounds hlog hc hsym hi
  rw [rankIn, hstart _ (Nat.zero_le _) (by omega)]

theorem ranksFit : RanksFit log b := fun i hi => by
  obtain ⟨_, hpos, hbound⟩ := rank_bounds hlog hc hsym hi
  rw [rankIn_eq hlog hc hsym hstart hi]
  exact ⟨by omega, hbound⟩

/-- Slots with the fields of their ranks make the table that R167 to R170 describe. -/
theorem tableBuilt_of_ranked (hlog' : log ≤ 12) {ent : Nat → Option FseEntry}
    (hent : ∀ i < 2 ^ log, ent i = some (rankedEntry log b i)) : TableBuilt norm ent log nsym := by
  have hentSym : ∀ i < 2 ^ log, entrySym (ent i) = some (slotSym b.ram i) := fun i hi => by rw [hent i hi]; rfl
  have hcountP {n : Nat} (hn : n ≤ 2 ^ log) (s : Nat) : ((List.range n).countP fun i => decide (entrySym (ent i) = some s)) =
      (List.range n).countP fun i => decide (slotSym b.ram i = s) :=
    List.countP_congr fun i hi => by simp [hentSym i (by have := List.mem_range.mp hi; omega)]
  have hrank {i : Nat} (hi : i < 2 ^ log) :
      slotRank norm ent i (rankedEntry log b i).sym.toNat = rankIn b i (slotSym b.ram i) := by
    rw [rankIn_eq hlog hc hsym hstart hi, ← hcountP hi.le]
    rfl
  have hfields {i : Nat} (hi : i < 2 ^ log) :=
    rankFields_bounds hlog' (ranksFit hlog hc hsym hstart i hi).1 (ranksFit hlog hc hsym hstart i hi).2
  constructor
  case closed =>
    intro i hi
    obtain ⟨_, hnb, hns, hle⟩ := hfields hi
    rw [Nat.succ_mul, pow_succ] at hle
    rw [hent i hi, entryClosed, decide_eq_true_eq]
    simp only [rankedEntry, hnb]
    omega
  case counted =>
    intro s
    rw [hcountP (le_refl _), countP_sym hlog hc hsym]
  case spread => exact slotsSpread_of_sym hlog hsym hentSym
  case ranked =>
    intro i hi
    obtain ⟨_, hnb, hns, _⟩ := hfields hi
    refine ⟨_, hent i hi, ?_, ?_⟩
    · rw [hrank hi]
      exact hnb
    · rw [hrank hi]
      simp only [rankedEntry, hnb, hns]

end Ranked

/-! ## FSE.BUILD -/

theorem run_bind_assoc {σ α β γ : Type} (r : Run σ α) (f : α → σ → Run σ β) (g : β → σ → Run σ γ) :
    (r.bind f).bind g = r.bind fun a s => (f a s).bind g := by
  cases r <;> rfl

theorem fseEntryAt_of_lt {t : FseTable cap} {i : Nat} (hi : i < 2 ^ t.log.toNat) (hcap : i < cap) :
    fseEntryAt t i = some (ramGet t.ram i ⟨0, 0, 0⟩) := by
  simp [fseEntryAt, ramGet, hi, hcap]

/-- FSE.BUILD on counts that meet the preconditions of R167. -/
theorem fseBuild_of_countsOk {log nsym : Nat} {u : TableUnit cap} (hlog : 4 ≤ log) (hlog' : log ≤ 12)
    (hcap : 2 ^ log ≤ cap) (h256 : nsym ≤ 256) (hc : countsOk u.sc.norm log nsym) :
    ∃ w, fseBuild log nsym u = .ok () w ∧ w.sc.norm = u.sc.norm ∧ w.draws = u.draws ∧ w.tab.log.toNat = log ∧
      TableBuilt u.sc.norm (fseEntryAt w.tab) log nsym := by
  obtain ⟨next, hplaced, hstart⟩ := placing_eq hlog hc h256 (⟨u.tab.ram, u.sc.next, u.draws⟩ : BuildSt cap)
  have hsym := slotSym_placements hlog hc hcap h256 u.tab.ram
  generalize setSyms u.tab.ram (placements u.sc.norm log nsym) = ram at hplaced hsym
  obtain ⟨b, hb⟩ : ∃ b : BuildSt cap, b = ⟨ram, next, u.draws⟩ := ⟨_, rfl⟩
  rw [← hb] at hplaced
  have hsym : (placedSlots u.sc.norm log nsym).map (slotSym b.ram) = placedSymbols u.sc.norm nsym := hb ▸ hsym
  have hstart : CountersStart u.sc.norm b.next 0 nsym := hb ▸ hstart
  have hranked := slotFields_rankedTo hlog' hcap (ranksFit hlog hc hsym hstart) (2 ^ log) (Nat.zero_add _).le
    ⟨rfl, fun s _ => rfl, fun _ h => absurd h (Nat.not_lt_zero _), fun _ _ => rfl⟩
  have hlogv : (BitVec.ofNat 4 log).toNat = log := by rw [BitVec.toNat_ofNat, Nat.mod_eq_of_lt (by omega)]
  refine ⟨⟨⟨BitVec.ofNat 4 log, (slotFields log (2 ^ log) 0 b).ram⟩, ⟨u.sc.norm, (slotFields log (2 ^ log) 0 b).next⟩,
    (slotFields log (2 ^ log) 0 b).draws⟩, ?run, rfl, hranked.draws.trans (congrArg BuildSt.draws hb), hlogv,
    tableBuilt_of_ranked hlog hc hsym hstart hlog' fun i hi => ?entry⟩
  case run =>
    rw [fseBuild, if_neg (by omega)]
    dsimp only
    rw [← run_bind_assoc, hplaced]
    rfl
  case entry =>
    rw [fseEntryAt_of_lt (by rwa [hlogv]) (by omega)]
    exact congrArg some (hranked.ranked i (by omega))

end Sys2Proof.Machine
end

section
/-! PROOFS. Table operations on the state (R160): what one works on and what it leaves, and the instruction FSE.BUILD. -/
namespace Sys2Proof.Machine

/-- The number of entries of a table's RAM (R35). -/
def tableCap : TableId → Nat
  | .llt => 512
  | .oft => 256
  | .mlt => 512
  | .hwt => 64

theorem two_pow_capLog (tb : TableId) : 2 ^ tb.capLog = tableCap tb := by cases tb <;> rfl

theorem capLog_le (tb : TableId) : tb.capLog ≤ 9 := by cases tb <;> decide

/-- What an operation on table `tb` works on. -/
def State.tableUnit (s : State) (tb : TableId) : TableUnit (tableCap tb) :=
  match tb with
  | .llt => ⟨s.llt, s.fse, s.draws⟩
  | .oft => ⟨s.oft, s.fse, s.draws⟩
  | .mlt => ⟨s.mlt, s.fse, s.draws⟩
  | .hwt => ⟨s.hwt, s.fse, s.draws⟩

/-- The state after an operation on table `tb` that left `u`. -/
def State.withUnit (s : State) (tb : TableId) (u : TableUnit (tableCap tb)) : State :=
  match tb with
  | .llt => { s with llt := u.tab, fse := u.sc, draws := u.draws }
  | .oft => { s with oft := u.tab, fse := u.sc, draws := u.draws }
  | .mlt => { s with mlt := u.tab, fse := u.sc, draws := u.draws }
  | .hwt => { s with hwt := u.tab, fse := u.sc, draws := u.draws }

theorem runTable_eq {α : Type} (s : State) (tb : TableId) (f : (cap : Nat) → TableUnit cap → Run (TableUnit cap) α) :
    s.runTable tb f = (f (tableCap tb) (s.tableUnit tb)).lift (s.withUnit tb) := by
  cases tb <;> rfl

section Unit
variable (s : State) (tb : TableId) (u : TableUnit (tableCap tb))

@[simp] theorem tableUnit_sc : (s.tableUnit tb).sc = s.fse := by cases tb <;> rfl

@[simp] theorem tableUnit_draws : (s.tableUnit tb).draws = s.draws := by cases tb <;> rfl

@[simp] theorem withUnit_fse : (s.withUnit tb u).fse = u.sc := by cases tb <;> rfl

@[simp] theorem withUnit_tableEntry : (s.withUnit tb u).tableEntry tb = fseEntryAt u.tab := by cases tb <;> rfl

@[simp] theorem withUnit_tableLog : (s.withUnit tb u).tableLog tb = u.tab.log.toNat := by cases tb <;> rfl

variable {s tb u}

/-- An operation that drew no free value changed its table and the builder scratch only (R160). -/
theorem withUnit_eq (h : u.draws = s.draws) :
    s.withUnit tb u = { s with
      llt := (s.withUnit tb u).llt, oft := (s.withUnit tb u).oft, mlt := (s.withUnit tb u).mlt,
      hwt := (s.withUnit tb u).hwt, fse := u.sc } := by
  cases tb <;> simp [State.withUnit, h]

theorem withUnit_otherTables :
    (tb ≠ .llt → (s.withUnit tb u).llt = s.llt) ∧ (tb ≠ .oft → (s.withUnit tb u).oft = s.oft) ∧
    (tb ≠ .mlt → (s.withUnit tb u).mlt = s.mlt) ∧ (tb ≠ .hwt → (s.withUnit tb u).hwt = s.hwt) := by
  cases tb <;> simp [State.withUnit]

end Unit

theorem exec_fseBuild_of_ok {tb : TableId} {logM : BitVec 3} {nsymM : BitVec 8} {s : State}
    {u : TableUnit (tableCap tb)} (h : fseBuild (logM.toNat + 5) (nsymM.toNat + 1) (s.tableUnit tb) = .ok () u) :
    exec (.fseBuild tb logM nsymM) s = .next (s.withUnit tb u) := by
  rw [show exec (.fseBuild tb logM nsymM) s = finish (s.runTable tb fun _ => fseBuild (logM.toNat + 5) (nsymM.toNat + 1))
    from rfl, runTable_eq, h]
  rfl

/-- Settles O51, by `fseBuild_of_countsOk` on the table of the instruction. -/
theorem fseTableBuilt : Obligations.FseTableBuilt := by
  intro tb logM nsymM s hwf hc
  have hfits : logM.toNat + 5 ≤ tb.capLog := of_decide_eq_true hwf
  have hcap := capLog_le tb
  obtain ⟨u, hrun, hnorm, hdraws, hlog, hbuilt⟩ := fseBuild_of_countsOk (u := s.tableUnit tb) (by omega : 4 ≤ logM.toNat + 5)
    (by omega) (two_pow_capLog tb ▸ Nat.pow_le_pow_right (by omega) hfits) (by omega : nsymM.toNat + 1 ≤ 256)
    (by rwa [tableUnit_sc])
  rw [tableUnit_sc] at hnorm hbuilt
  obtain ⟨hll, hof, hml, hhw⟩ := withUnit_otherTables (s := s) (u := u)
  refine ⟨s.withUnit tb u, exec_fseBuild_of_ok hrun, ?_, hll, hof, hml, hhw, ?_, ?_, ?_, ?_, ?_, ?_⟩
  · rw [withUnit_fse]
    exact withUnit_eq (hdraws.trans (tableUnit_draws s tb))
  · rw [withUnit_fse, hnorm]
  · rw [withUnit_tableLog, hlog]
  all_goals rw [withUnit_tableEntry]
  · exact hbuilt.closed
  · exact hbuilt.counted
  · exact hbuilt.spread
  · exact hbuilt.ranked

end Sys2Proof.Machine
end

section
/-! PROOFS. The description loop of FSE.READTABLE (R161 to R165): what its fields read, what one pass does, and what every pass
keeps. -/
namespace Sys2Proof.Machine

section Description
variable {rd : Nat → Byte} {start limit : Nat}

/-! ## Bits of the stream (R161) -/

theorem fwdBits_lt (rd : Nat → Byte) (start limit pos n : Nat) : fwdBits rd start limit pos n < 2 ^ n :=
  Nat.mod_lt _ (Nat.two_pow_pos n)

/-- The low four bits of the first byte, which hold the log (R162). -/
theorem fwdBits_log (h : start < limit) : fwdBits rd start limit 0 4 = (rd start).toNat % 16 := by
  simp only [fwdBits, fwdByte, Nat.zero_div, Nat.zero_mod, add_zero, if_pos h]
  omega

/-- A field that begins at or after the end of the stream reads 0. -/
theorem lt_of_fwdBits_ne_zero {pos n : Nat} (h : fwdBits rd start limit pos n ≠ 0) : pos < 8 * (limit - start) := by
  by_contra hpos
  have hzero {j : Nat} (hj : pos / 8 ≤ j) : fwdByte rd start limit j = 0 := if_neg (by omega)
  exact h (by simp [fwdBits, hzero])

/-! ## The zero run (R164) -/

/-- A run of groups of `w` bits that hold `v`, each worth `inc` symbols: the shape of both loops of R164. -/
def groupRun (rd : Nat → Byte) (start limit w v inc : Nat) : Nat → Nat → Nat → Nat × Nat
  | 0, n0, pos => (n0, pos)
  | f + 1, n0, pos =>
    if fwdBits rd start limit pos w = v then groupRun rd start limit w v inc f (n0 + inc) (pos + w) else (n0, pos)

theorem zeroRun24_eq (fuel n0 pos : Nat) :
    zeroRun24 rd start limit fuel n0 pos = groupRun rd start limit 16 0xFFFF 24 fuel n0 pos := by
  induction fuel generalizing n0 pos with
  | zero => rfl
  | succ f ih => rw [zeroRun24, groupRun, ih]

theorem zeroRun3_eq (fuel n0 pos : Nat) :
    zeroRun3 rd start limit fuel n0 pos = groupRun rd start limit 2 3 3 fuel n0 pos := by
  induction fuel generalizing n0 pos with
  | zero => rfl
  | succ f ih => rw [zeroRun3, groupRun, ih]

theorem groupRun_eq {w v inc k fuel n0 pos : Nat} (hk : k ≤ fuel)
    (hgroups : ∀ j < k, fwdBits rd start limit (pos + w * j) w = v)
    (hend : fwdBits rd start limit (pos + w * k) w ≠ v) :
    groupRun rd start limit w v inc fuel n0 pos = (n0 + inc * k, pos + w * k) := by
  induction k generalizing fuel n0 pos with
  | zero =>
    cases fuel with
    | zero => rfl
    | succ f => rw [groupRun, if_neg (by simpa using hend)]; rfl
  | succ k ih =>
    obtain ⟨f, rfl⟩ := Nat.exists_eq_succ_of_ne_zero (by omega : fuel ≠ 0)
    have hshift (j : Nat) : pos + w + w * j = pos + w * (j + 1) := by rw [Nat.mul_succ]; omega
    rw [groupRun, if_pos (by simpa using hgroups 0 (by omega)),
      ih (by omega) (fun j hj => hshift j ▸ hgroups (j + 1) (by omega)) (by rwa [hshift]), hshift,
      show n0 + inc + inc * k = n0 + inc * (k + 1) by rw [Nat.mul_succ]; omega]

theorem le_groupRun (w v inc fuel n0 pos : Nat) : n0 ≤ (groupRun rd start limit w v inc fuel n0 pos).1 := by
  induction fuel generalizing n0 pos with
  | zero => exact le_refl n0
  | succ f ih =>
    rw [groupRun]
    split
    · exact (Nat.le_add_right n0 inc).trans (ih _ _)
    · exact le_refl n0

/-- A group that repeats begins in the region, so the fuel of `zeroRun` is never what ends a run. -/
theorem groups_le_fuel {pos w v k : Nat} (hw : 1 ≤ w) (hv : v ≠ 0)
    (h : ∀ j < k, fwdBits rd start limit (pos + w * j) w = v) : k ≤ 8 * (limit - start) + 1 := by
  rcases Nat.eq_zero_or_pos k with rfl | hk
  · omega
  · have hlast := lt_of_fwdBits_ne_zero (by rw [h (k - 1) (by omega)]; exact hv)
    have := Nat.le_mul_of_pos_left (k - 1) hw
    omega

theorem zeroRun_eq {k m v n0 pos : Nat} (hones : ∀ j < k, fwdBits rd start limit (pos + 16 * j) 16 = 0xFFFF)
    (hend : fwdBits rd start limit (pos + 16 * k) 16 ≠ 0xFFFF)
    (hthrees : ∀ j < m, fwdBits rd start limit (pos + 16 * k + 2 * j) 2 = 3)
    (hlast : fwdBits rd start limit (pos + 16 * k + 2 * m) 2 = v) (hv : v ≠ 3) :
    zeroRun rd start limit n0 pos = (n0 + 24 * k + 3 * m + v, pos + 16 * k + 2 * m + 2) := by
  simp only [zeroRun, zeroRun24_eq, zeroRun3_eq]
  rw [groupRun_eq (groups_le_fuel (by omega) (by omega) hones) hones hend]
  dsimp only
  rw [groupRun_eq (groups_le_fuel (by omega) (by omega) hthrees) hthrees (hlast ▸ hv), hlast]

/-- A run does not go back. -/
theorem le_zeroRun (n0 pos : Nat) : n0 ≤ (zeroRun rd start limit n0 pos).1 := by
  simp only [zeroRun, zeroRun24_eq, zeroRun3_eq]
  exact (le_groupRun 16 0xFFFF 24 _ n0 pos).trans ((le_groupRun 2 3 3 _ _ _).trans (Nat.le_add_right _ _))

/-- The counts after `NORM[i .. i + n - 1] <- 0`. -/
theorem normAt_zeroFill (n i : Nat) (v : Vector (BitVec 16) 256) {j : Nat} (hj : j < 256) :
    normAt (zeroFill n i v) j = if i ≤ j ∧ j < i + n then 0 else normAt v j := by
  induction n generalizing i v with
  | zero => rw [zeroFill, if_neg (by omega)]
  | succ n ih =>
    rw [zeroFill, ih]
    rcases Nat.lt_trichotomy j i with h | rfl | h
    · rw [if_neg (by omega), if_neg (by omega), normAt, ramGet_set_other _ _ _ _ _ h.ne, normAt]
    · rw [if_neg (by omega), if_pos (by omega), normAt, ramGet_set_same _ _ _ _ hj]; rfl
    · rw [normAt, ramGet_set_other _ _ _ _ _ h.ne', ← normAt]
      exact if_congr (by omega) rfl rfl

/-! ## The head of a pass (R162) -/

theorem normZeros_of_prev {maxSymbol : Nat} {st : NormSt} (h : st.prev0 = true) :
    normZeros rd start limit maxSymbol st =
      if maxSymbol < (zeroRun rd start limit st.sym st.pos).1 then
        .raise .fseSymbol { st with pos := (zeroRun rd start limit st.sym st.pos).2 }
      else .ok () { st with
        norm := zeroFill ((zeroRun rd start limit st.sym st.pos).1 - st.sym) st.sym st.norm
        sym := (zeroRun rd start limit st.sym st.pos).1
        pos := (zeroRun rd start limit st.sym st.pos).2 } := by
  rw [normZeros, if_pos h]

theorem normZeros_of_not_prev {maxSymbol : Nat} {st : NormSt} (h : st.prev0 = false) :
    normZeros rd start limit maxSymbol st = .ok () st := by
  simp [normZeros, h]

theorem normLoop_succ {maxSymbol f : Nat} {st : NormSt} (h1 : 1 < st.remaining) (h2 : st.sym ≤ maxSymbol) :
    normLoop rd start limit maxSymbol (f + 1) st = (normZeros rd start limit maxSymbol st).bind fun _ st1 =>
      normLoop rd start limit maxSymbol f (normCount rd start limit st1) := by
  rw [normLoop, if_pos ⟨h1, h2⟩]

/-- The loop's end (R162). -/
theorem normLoop_ended {maxSymbol f : Nat} {st : NormSt} (h : st.remaining ≤ 1 ∨ maxSymbol < st.sym) :
    normLoop rd start limit maxSymbol f st = .ok () st := by
  cases f with
  | zero => rfl
  | succ f => rw [normLoop, if_neg (by omega)]

theorem zeroRunPass_holds (rd : Nat → Byte) (start limit maxSymbol : Nat) : zeroRunPass rd start limit maxSymbol := by
  intro f k m v st hrem hsym hprev hones hend hthrees hlast hv
  have hrun := zeroRun_eq (n0 := st.sym) hones hend hthrees hlast hv
  have hzeros := normZeros_of_prev (rd := rd) (start := start) (limit := limit) (maxSymbol := maxSymbol) hprev
  rw [hrun] at hzeros
  dsimp only at hzeros
  refine ⟨fun habove => ?above, fun hin => ?inside⟩
  case above =>
    rw [normLoop_succ hrem hsym, hzeros, if_pos habove]
    exact ⟨_, rfl⟩
  case inside =>
    refine ⟨zeroFill (24 * k + 3 * m + v) st.sym st.norm, ?_, fun i hi => ?_⟩
    · rw [normLoop_succ hrem hsym, hzeros, if_neg (by omega),
        show st.sym + 24 * k + 3 * m + v - st.sym = 24 * k + 3 * m + v by omega, bind_ok,
        normLoop_succ (by exact hrem) (by exact hin), normZeros_of_not_prev rfl]
      rfl
    · rw [normAt_zeroFill _ _ _ hi]
      exact if_congr (by omega) rfl rfl

/-! ## The count field (R163) -/

/-- What holds of the widths before every count field (R163). -/
structure FieldOk (st : NormSt) : Prop where
  one_le : 1 ≤ st.nbits
  threshold : st.threshold = 2 ^ (st.nbits - 1)
  le : st.threshold ≤ st.remaining
  lt : st.remaining < 2 * st.threshold

/-- The shrinking of the width (R162, R165) ends with the threshold at or below what remains. -/
theorem shrink_spec {remaining : Nat} (hrem : 1 ≤ remaining) (n : Nat) (hlt : remaining < 2 * 2 ^ n) (fuel : Nat)
    (hfuel : n ≤ fuel) :
    ∃ m ≤ n, shrink remaining fuel (2 ^ n) (n + 1) = (2 ^ m, m + 1) ∧ 2 ^ m ≤ remaining ∧ remaining < 2 * 2 ^ m := by
  induction n generalizing fuel with
  | zero =>
    refine ⟨0, le_refl 0, ?_, hrem, hlt⟩
    cases fuel with
    | zero => rfl
    | succ f => rw [shrink, if_neg (by omega)]
  | succ n ih =>
    obtain ⟨f, rfl⟩ := Nat.exists_eq_succ_of_ne_zero (by omega : fuel ≠ 0)
    rw [shrink]
    split
    case isTrue h =>
      obtain ⟨m, hm, hrun, hbounds⟩ := ih (by rw [pow_succ] at h; omega) f (by omega)
      exact ⟨m, by omega, by rw [show 2 ^ (n + 1) / 2 = 2 ^ n by rw [pow_succ]; omega]; exact hrun, hbounds⟩
    case isFalse h => exact ⟨n + 1, le_refl _, rfl, by omega, hlt⟩

theorem countField_short {st : NormSt}
    (h : fwdBits rd start limit st.pos (st.nbits - 1) < 2 * st.threshold - 1 - st.remaining) :
    countField rd start limit st = (fwdBits rd start limit st.pos (st.nbits - 1), st.pos + (st.nbits - 1)) := if_pos h

theorem countField_long {st : NormSt}
    (h : ¬ fwdBits rd start limit st.pos (st.nbits - 1) < 2 * st.threshold - 1 - st.remaining) :
    countField rd start limit st =
      (if fwdBits rd start limit st.pos st.nbits < st.threshold then fwdBits rd start limit st.pos st.nbits
        else fwdBits rd start limit st.pos st.nbits - (2 * st.threshold - 1 - st.remaining), st.pos + st.nbits) := by
  refine (if_neg h).trans (congrArg (Prod.mk · (st.pos + st.nbits)) ?_)
  split
  · rw [if_neg (by omega)]
  · rw [if_pos (by omega)]

/-- The raw value of a count field (R163). -/
def rawField (rd : Nat → Byte) (start limit : Nat) (st : NormSt) : Nat := (countField rd start limit st).1

/-- A raw value, less 1, is a count that leaves something to remain (R163). -/
theorem rawField_le {st : NormSt} (h : FieldOk st) : rawField rd start limit st ≤ st.remaining := by
  have hlong := fwdBits_lt rd start limit st.pos st.nbits
  have hpow : 2 ^ st.nbits = 2 * st.threshold := by
    rw [h.threshold, ← pow_succ']
    congr 1
    have := h.one_le
    omega
  have hle := h.le
  have hlt := h.lt
  by_cases hshort : fwdBits rd start limit st.pos (st.nbits - 1) < 2 * st.threshold - 1 - st.remaining
  · rw [rawField, countField_short hshort]
    dsimp only
    omega
  · rw [rawField, countField_long hshort]
    dsimp only
    split <;> omega

theorem toInt_count {raw : Nat} (h : raw < 2 ^ 15) : (BitVec.ofNat 16 raw - 1).toInt = (raw : Int) - 1 := by
  rw [BitVec.toInt_eq_toNat_cond, BitVec.toNat_sub, BitVec.toNat_ofNat]
  split <;> simp at * <;> omega

/-- What the count field of one pass does (R162, R163). -/
structure CountDone (rd : Nat → Byte) (start limit : Nat) (st u : NormSt) : Prop where
  counts : ∀ i < 256, normAt u.norm i = if i = st.sym then (rawField rd start limit st : Int) - 1 else normAt st.norm i
  sym : u.sym = st.sym + 1
  pos : u.pos = (countField rd start limit st).2
  remaining : u.remaining + ((rawField rd start limit st : Int) - 1).natAbs = st.remaining
  prev0 : u.prev0 = true ↔ rawField rd start limit st = 1
  narrower : u.nbits ≤ st.nbits
  field : FieldOk u

theorem normCount_done {st : NormSt} (h : FieldOk st) (hrem : 1 < st.remaining) (hsmall : st.remaining < 2 ^ 15) :
    CountDone rd start limit st (normCount rd start limit st) := by
  have hraw := rawField_le (rd := rd) (start := start) (limit := limit) h
  obtain ⟨hone, hthreshold, hle, hlt⟩ := h
  obtain ⟨n, hn⟩ := Nat.exists_eq_succ_of_ne_zero (by omega : st.nbits ≠ 0)
  rw [hn, Nat.succ_sub_one] at hthreshold
  generalize hr : rawField rd start limit st = raw at hraw
  have hrawField : (countField rd start limit st).1 = raw := hr
  obtain ⟨rem, hremEq⟩ : ∃ rem, rem = st.remaining - (if raw = 0 then 1 else raw - 1) := ⟨_, rfl⟩
  have hremains : rem + ((raw : Int) - 1).natAbs = st.remaining ∧ 1 ≤ rem := by
    split at hremEq <;> omega
  obtain ⟨m, hm, hshrink, hbounds⟩ := shrink_spec hremains.2 n (by omega) (n + 1) (by omega)
  have hcount : normCount rd start limit st =
      ⟨ramSet st.norm st.sym (BitVec.ofNat 16 raw - 1), rem, 2 ^ m, m + 1, st.sym + 1, (countField rd start limit st).2,
        decide (raw = 1)⟩ := by
    rw [normCount]
    simp only [hrawField, ← hremEq]
    rw [hthreshold, hn, hshrink]
  rw [hcount]
  constructor
  case counts =>
    intro i hi
    rw [hr]
    split
    case isTrue heq =>
      subst heq
      rw [normAt, ramGet_set_same _ _ _ _ hi, toInt_count (by omega)]
    case isFalse hne => rw [normAt, ramGet_set_other _ _ _ _ _ hne, normAt]
  case sym => rfl
  case pos => rfl
  case remaining => exact hr ▸ hremains.1
  case prev0 => simp [hr]
  case narrower => dsimp only; omega
  case field => exact ⟨Nat.succ_pos m, rfl, hbounds.1, hbounds.2⟩

theorem countPass_holds (rd : Nat → Byte) (start limit maxSymbol : Nat) : countPass rd start limit maxSymbol := by
  intro f st hrem hsym _ hprev hone hnbits hthreshold hle hlt
  have hpow : 2 ^ (st.nbits - 1) ≤ 2 ^ 12 := Nat.pow_le_pow_right (by omega) (by omega)
  have hdone := normCount_done (rd := rd) (start := start) (limit := limit) ⟨hone, hthreshold, hle, hlt⟩ hrem (by omega)
  generalize hu : normCount rd start limit st = u at hdone
  have hloop : normLoop rd start limit maxSymbol (f + 1) st = normLoop rd start limit maxSymbol f u := by
    rw [normLoop_succ hrem hsym, normZeros_of_not_prev hprev, bind_ok, hu]
  obtain ⟨hcounts, hsymEq, hpos, hremaining, hprev0, hnarrower, hfield⟩ := hdone
  obtain ⟨hone', hthreshold', hle', hlt'⟩ := hfield
  intro mx short long raw
  have hpair : countField rd start limit st = (raw, st.pos + (if short < mx then st.nbits - 1 else st.nbits)) := by
    by_cases hshort : short < mx
    · rw [countField_short hshort, if_pos hshort, show raw = short from if_pos hshort]
    · rw [countField_long hshort, if_neg hshort, show raw = _ from if_neg hshort]
  have hraw : rawField rd start limit st = raw := congrArg Prod.fst hpair
  rw [hraw] at hcounts hremaining hprev0
  rw [hpair] at hpos
  exact ⟨u, hloop, hcounts, hsymEq, hpos, hremaining, by have := Nat.two_pow_pos (u.nbits - 1); omega, hprev0, hone',
    hnarrower, hthreshold', hle', hlt'⟩

/-! ## The loop (R162) -/

/-- What the zero run of a pass leaves, if there is one (R162, R164). -/
structure ZerosDone (maxSymbol : Nat) (st u : NormSt) : Prop where
  counts : ∀ i < 256, normAt u.norm i = if st.sym ≤ i ∧ i < u.sym then 0 else normAt st.norm i
  le : st.sym ≤ u.sym
  le_max : u.sym ≤ maxSymbol
  remaining : u.remaining = st.remaining
  threshold : u.threshold = st.threshold
  nbits : u.nbits = st.nbits

theorem normZeros_cases {maxSymbol : Nat} {st : NormSt} (hsym : st.sym ≤ maxSymbol) :
    (∃ u, normZeros rd start limit maxSymbol st = .ok () u ∧ ZerosDone maxSymbol st u) ∨
    ∃ u, normZeros rd start limit maxSymbol st = .raise .fseSymbol u := by
  cases hprev : st.prev0 with
  | false => exact .inl ⟨st, normZeros_of_not_prev hprev, fun i _ => by rw [if_neg (by omega)], le_refl _, hsym, rfl, rfl, rfl⟩
  | true =>
    rw [normZeros_of_prev hprev]
    have hle := le_zeroRun (rd := rd) (start := start) (limit := limit) st.sym st.pos
    split
    case isTrue => exact .inr ⟨_, rfl⟩
    case isFalse hin =>
      refine .inl ⟨_, rfl, fun i hi => ?_, hle, by exact Nat.le_of_not_lt hin, rfl, rfl, rfl⟩
      rw [normAt_zeroFill _ _ _ hi, Nat.add_sub_cancel' hle]

/-- The loop never leaves what the rules define: it ends with what every pass keeps, or takes E_FSE_SYMBOL. -/
theorem normLoop_ends {maxSymbol : Nat} {P : NormSt → Prop}
    (hpass : ∀ st u, P st → 1 < st.remaining → ZerosDone maxSymbol st u → P (normCount rd start limit u)) (f : Nat)
    {st : NormSt} (h : P st) :
    (∃ u, normLoop rd start limit maxSymbol f st = .ok () u ∧ P u) ∨
    ∃ u, normLoop rd start limit maxSymbol f st = .raise .fseSymbol u := by
  induction f generalizing st with
  | zero => exact .inl ⟨st, rfl, h⟩
  | succ f ih =>
    by_cases hgo : 1 < st.remaining ∧ st.sym ≤ maxSymbol
    · obtain ⟨hrem, hsym⟩ := hgo
      rw [normLoop_succ hrem hsym]
      obtain ⟨u, hu, hdone⟩ | ⟨u, hu⟩ := normZeros_cases (rd := rd) (start := start) (limit := limit) hsym
      · rw [hu]
        exact ih (hpass st u h hrem hdone)
      · rw [hu]
        exact .inr ⟨u, rfl⟩
    · exact .inl ⟨st, normLoop_ended (by omega), h⟩

/-- Where the loop starts (R162). -/
def firstNorm (log : Nat) (norm : Vector (BitVec 16) 256) : NormSt := ⟨norm, 2 ^ log + 1, 2 ^ log, log + 1, 0, 4, false⟩

theorem readNorm_eq (rd : Nat → Byte) (start limit maxSymbol log : Nat) (norm : Vector (BitVec 16) 256) :
    readNorm rd start limit maxSymbol log norm =
      (normLoop rd start limit maxSymbol (maxSymbol + 1) (firstNorm log norm)).bind fun _ st =>
        if st.remaining = 1 ∧ st.pos ≤ 8 * (limit - start) then .ok () st else .raise .fseHeader st := by
  unfold readNorm
  congr 1
  funext _ st
  by_cases h : st.remaining = 1 ∧ st.pos ≤ 8 * (limit - start)
  · rw [if_pos h, if_neg (by omega)]
  · rw [if_neg h, if_pos (by omega)]

theorem loopEnds_holds (rd : Nat → Byte) (start limit maxSymbol log : Nat) (norm : Vector (BitVec 16) 256) :
    loopEnds rd start limit maxSymbol log norm := by
  refine ⟨fun f st h => normLoop_ended h, ?_⟩
  change (match normLoop rd start limit maxSymbol (maxSymbol + 1) (firstNorm log norm) with
    | .ok _ st => _
    | .raise e st => _
    | .stop _ => _)
  rw [readNorm_eq]
  obtain ⟨u, hu, _⟩ | ⟨u, hu⟩ := normLoop_ends (rd := rd) (start := start) (limit := limit) (maxSymbol := maxSymbol)
    (P := fun _ => True) (fun _ _ _ _ _ => trivial) (maxSymbol + 1) (st := firstNorm log norm) trivial
  · rw [hu]; rfl
  · rw [hu]; rfl

/-- What every pass keeps (R163, R165): the counts read so far, and what remains of the table's slots. -/
structure LoopInv (maxSymbol log : Nat) (st : NormSt) : Prop where
  counts : ∀ s < st.sym, -1 ≤ normAt st.norm s
  total : st.remaining + ((List.range st.sym).map fun s => (normAt st.norm s).natAbs).sum = 2 ^ log + 1
  field : FieldOk st
  sym_le : st.sym ≤ maxSymbol + 1

theorem firstNorm_inv (maxSymbol : Nat) {log : Nat} (hlog : 1 ≤ log) (norm : Vector (BitVec 16) 256) :
    LoopInv maxSymbol log (firstNorm log norm) := by
  have hsize : 2 ^ 1 ≤ 2 ^ log := Nat.pow_le_pow_right (by omega) hlog
  exact ⟨fun s h => absurd h (Nat.not_lt_zero s), rfl,
    ⟨Nat.succ_pos log, rfl, Nat.le_succ _, by change 2 ^ log + 1 < 2 * 2 ^ log; omega⟩, Nat.zero_le _⟩

/-- A zero run adds nothing to the sum of the counts. -/
theorem LoopInv.zeros {maxSymbol log : Nat} {st u : NormSt} (hmax : maxSymbol ≤ 255) (h : LoopInv maxSymbol log st)
    (hz : ZerosDone maxSymbol st u) : LoopInv maxSymbol log u := by
  obtain ⟨hcounts, hle, hle_max, hremaining, hthreshold, hnbits⟩ := hz
  obtain ⟨n, hn⟩ := Nat.exists_eq_add_of_le hle
  refine ⟨fun s hs => ?_, ?_, ?_, by omega⟩
  · rw [hcounts s (by omega)]
    split
    · omega
    · exact h.counts s (by omega)
  · have hold : (List.range st.sym).map (fun s => (normAt u.norm s).natAbs) =
        (List.range st.sym).map fun s => (normAt st.norm s).natAbs := List.map_congr_left fun s hs => by
      have := List.mem_range.mp hs
      rw [hcounts s (by omega), if_neg (by omega)]
    have hnew : ((List.range n).map (st.sym + ·)).map (fun s => (normAt u.norm s).natAbs) = List.replicate n 0 := by
      rw [List.map_map]
      refine List.eq_replicate_iff.mpr ⟨by simp, fun x hx => ?_⟩
      obtain ⟨s, hs, rfl⟩ := List.mem_map.mp hx
      have := List.mem_range.mp hs
      rw [Function.comp_apply, hcounts _ (by omega), if_pos (by omega)]
      rfl
    rw [hremaining, hn, List.range_add, List.map_append, List.sum_append, hold, hnew, List.sum_replicate, ← h.total]
    simp
  · obtain ⟨hone, hth, hlow, hhigh⟩ := h.field
    exact ⟨by omega, by rw [hthreshold, hnbits, hth], by omega, by omega⟩

theorem LoopInv.count {maxSymbol log : Nat} {st : NormSt} (hmax : maxSymbol ≤ 255) (hlog : log ≤ 12)
    (h : LoopInv maxSymbol log st) (hrem : 1 < st.remaining) (hsym : st.sym ≤ maxSymbol) :
    LoopInv maxSymbol log (normCount rd start limit st) := by
  have hsize : 2 ^ log ≤ 2 ^ 12 := Nat.pow_le_pow_right (by omega) hlog
  have htotal := h.total
  obtain ⟨hcounts, hsymEq, _, hremaining, _, _, hfield⟩ :=
    normCount_done (rd := rd) (start := start) (limit := limit) h.field hrem (by omega)
  refine ⟨fun s hs => ?_, ?_, hfield, by omega⟩
  · rw [hcounts s (by omega)]
    split
    · omega
    · exact h.counts s (by omega)
  · have hold : (List.range st.sym).map (fun s => (normAt (normCount rd start limit st).norm s).natAbs) =
        (List.range st.sym).map fun s => (normAt st.norm s).natAbs := List.map_congr_left fun s hs => by
      have := List.mem_range.mp hs
      rw [hcounts s (by omega), if_neg (by omega)]
    rw [hsymEq, List.range_succ, List.map_append, List.sum_append, hold, List.map_singleton, List.sum_singleton,
      hcounts _ (by omega), if_pos rfl]
    omega

/-! ## The counts read (R162) -/

/-- What R162 asks of the counts of a description: they meet the preconditions of FSE.BUILD, name no symbol above the limit
and end inside the region. -/
structure CountsRead (start limit maxSymbol log : Nat) (st : NormSt) : Prop where
  countsOk : countsOk st.norm log st.sym
  one_le : 1 ≤ st.sym
  le : st.sym ≤ maxSymbol + 1
  pos : st.pos ≤ 8 * (limit - start)

/-- The counts are read, or E_FSE_SYMBOL or E_FSE_HEADER is taken. -/
theorem readNorm_cases {maxSymbol log : Nat} (hmax : maxSymbol ≤ 255) (hlog1 : 1 ≤ log) (hlog : log ≤ 12)
    (norm : Vector (BitVec 16) 256) :
    (∃ st, readNorm rd start limit maxSymbol log norm = .ok () st ∧ CountsRead start limit maxSymbol log st) ∨
    ∃ e st, readNorm rd start limit maxSymbol log norm = .raise e st ∧ (e = .fseSymbol ∨ e = .fseHeader) := by
  rw [readNorm_eq]
  obtain ⟨st, hst, hinv⟩ | ⟨st, hst⟩ := normLoop_ends (rd := rd) (start := start) (limit := limit)
    (fun _ _ h hrem hz => (h.zeros hmax hz).count hmax hlog (by rwa [hz.remaining]) hz.le_max) (maxSymbol + 1)
    (firstNorm_inv maxSymbol hlog1 norm)
  · rw [hst, bind_ok]
    split
    case isTrue hend =>
      obtain ⟨hrem, hpos⟩ := hend
      have htotal := hinv.total
      refine .inl ⟨st, rfl, ⟨hinv.counts, by omega⟩, ?_, hinv.sym_le, hpos⟩
      by_contra hnone
      have := Nat.two_pow_pos log
      rw [show st.sym = 0 by omega, List.range_zero, List.map_nil, List.sum_nil] at htotal
      omega
    case isFalse => exact .inr ⟨_, st, rfl, .inr rfl⟩
  · rw [hst]
    exact .inr ⟨_, st, rfl, .inl rfl⟩

end Description

end Sys2Proof.Machine
end

section
/-! PROOFS. FSE.READTABLE and FSEDESC (R162 to R170, R314): the counts of a description are read, and the table is built of
them. -/
namespace Sys2Proof.Machine

section Body
variable {rd : Nat → Byte} {start limit maxSymbol maxLog log cap : Nat} {u : TableUnit cap}

/-! ## FSE.READTABLE after its length test -/

theorem fseReadBody_of_raise {e : ErrCode} {st : NormSt} (hlog : log ≤ maxLog)
    (h : readNorm rd start limit maxSymbol log u.sc.norm = .raise e st) :
    ∃ w, fseReadBody rd start limit maxSymbol maxLog log u = .raise e w := by
  rw [fseReadBody, if_neg (by omega), h]
  exact ⟨_, rfl⟩

theorem fseReadBody_of_build {st : NormSt} {w : TableUnit cap} (hlog : log ≤ maxLog)
    (h : readNorm rd start limit maxSymbol log u.sc.norm = .ok () st)
    (hbuild : fseBuild log st.sym { u with sc := { u.sc with norm := st.norm } } = .ok () w) :
    fseReadBody rd start limit maxSymbol maxLog log u = .ok (ceilDiv st.pos 8) w := by
  rw [fseReadBody, if_neg (by omega), h]
  dsimp only [bind_ok, lift_ok]
  rw [hbuild]
  rfl

theorem countsRead_of_ok {norm : Vector (BitVec 16) 256} {st : NormSt} (hmax : maxSymbol ≤ 255) (hlog1 : 1 ≤ log)
    (hlog : log ≤ 12) (h : readNorm rd start limit maxSymbol log norm = .ok () st) :
    CountsRead start limit maxSymbol log st := by
  obtain ⟨u, hu, hread⟩ | ⟨e, u, hu, _⟩ := readNorm_cases (rd := rd) (start := start) (limit := limit) hmax hlog1 hlog norm
  · cases h.symm.trans hu
    exact hread
  · cases h.symm.trans hu

theorem code_of_raise {norm : Vector (BitVec 16) 256} {e : ErrCode} {st : NormSt} (hmax : maxSymbol ≤ 255)
    (hlog1 : 1 ≤ log) (hlog : log ≤ 12) (h : readNorm rd start limit maxSymbol log norm = .raise e st) :
    e = .fseSymbol ∨ e = .fseHeader := by
  obtain ⟨u, hu, _⟩ | ⟨e', u, hu, he⟩ := readNorm_cases (rd := rd) (start := start) (limit := limit) hmax hlog1 hlog norm
  · cases h.symm.trans hu
  · cases h.symm.trans hu
    exact he

theorem readNorm_ne_stop {norm : Vector (BitVec 16) 256} (hmax : maxSymbol ≤ 255) (hlog1 : 1 ≤ log) (hlog : log ≤ 12)
    (f : Fault) : readNorm rd start limit maxSymbol log norm ≠ .stop f := by
  intro h
  obtain ⟨u, hu, _⟩ | ⟨e', u, hu, _⟩ := readNorm_cases (rd := rd) (start := start) (limit := limit) hmax hlog1 hlog norm
  · cases h.symm.trans hu
  · cases h.symm.trans hu

/-- A description that R162 accepts makes the table of its counts. -/
theorem fseReadBody_builds {st : NormSt} (hmax : maxSymbol ≤ 255) (hlog4 : 4 ≤ log) (hlog12 : log ≤ 12)
    (hcap : 2 ^ log ≤ cap) (hlog : log ≤ maxLog) (h : readNorm rd start limit maxSymbol log u.sc.norm = .ok () st) :
    ∃ w, fseReadBody rd start limit maxSymbol maxLog log u = .ok (ceilDiv st.pos 8) w ∧ w.sc.norm = st.norm ∧
      w.draws = u.draws ∧ w.tab.log.toNat = log ∧ TableBuilt st.norm (fseEntryAt w.tab) log st.sym := by
  have hread := countsRead_of_ok hmax (by omega) hlog12 h
  have hle := hread.le
  obtain ⟨w, hbuild, hw⟩ := fseBuild_of_countsOk (u := { u with sc := { u.sc with norm := st.norm } }) hlog4 hlog12 hcap
    (by omega) hread.countsOk
  exact ⟨w, fseReadBody_of_build hlog h hbuild, hw⟩

/-! ## FSE.READTABLE on a table -/

theorem fseReadTable_truncated (h : limit < start + 4) :
    fseReadTable rd start limit maxSymbol maxLog u = .raise .truncated u := if_pos h

theorem fseReadTable_body (h : start + 4 ≤ limit) :
    fseReadTable rd start limit maxSymbol maxLog u =
      fseReadBody rd start limit maxSymbol maxLog ((rd start).toNat % 16 + 5) u := by
  rw [fseReadTable, if_neg (by omega), fwdBits_log (by omega)]

end Body

/-! ## The instruction FSE.READTABLE -/

section Instruction
variable {tb : TableId} {start limit : Addr} {ms : BitVec 8} {ml : BitVec 3} {s : State}

/-- What the instruction works on its table (R162). -/
def readTableUnit (tb : TableId) (start limit : Addr) (ms : BitVec 8) (ml : BitVec 3) (s : State) :
    Run (TableUnit (tableCap tb)) Nat :=
  fseReadTable s.inByte start.toNat limit.toNat ms.toNat (ml.toNat + 5) (s.tableUnit tb)

theorem exec_fseReadTable_eq : exec (.fseReadTable tb start limit ms ml) s =
    finishWith (((readTableUnit tb start limit ms ml s).lift (s.withUnit tb)).scrapOnFault tb) := by
  rw [readTableUnit, ← runTable_eq s tb fun _ u => fseReadTable s.inByte start.toNat limit.toNat ms.toNat (ml.toNat + 5) u]
  rfl

@[simp] theorem tableEntry_setResult (s : State) (tb : TableId) (r : Word64) :
    ({ s with result := r }).tableEntry tb = s.tableEntry tb := by cases tb <;> rfl

@[simp] theorem tableLog_setResult (s : State) (tb : TableId) (r : Word64) :
    ({ s with result := r }).tableLog tb = s.tableLog tb := by cases tb <;> rfl

theorem exec_fseReadTable_of_ok {n : Nat} {u : TableUnit (tableCap tb)}
    (h : readTableUnit tb start limit ms ml s = .ok n u) :
    exec (.fseReadTable tb start limit ms ml) s = .next { s.withUnit tb u with result := BitVec.ofNat 64 n } := by
  rw [exec_fseReadTable_eq, h]
  rfl

theorem exec_fseReadTable_of_raise {e : ErrCode} {u : TableUnit (tableCap tb)}
    (h : readTableUnit tb start limit ms ml s = .raise e u) :
    ∃ t, exec (.fseReadTable tb start limit ms ml) s = .next t ∧ t.phase = .fault ∧ t.errCode = e.code := by
  rw [exec_fseReadTable_eq, h]
  exact ⟨_, rfl, rfl, rfl⟩

end Instruction

/-- Settles O52: the table by `fseReadBody_builds`, the faults by the test that takes each, the loop's passes by
`zeroRunPass_holds`, `countPass_holds` and `loopEnds_holds`. -/
theorem fseTableRead : Obligations.FseTableRead := by
  intro tb start limit ms ml s hwf a log i
  obtain ⟨-, hfits⟩ : start.toNat ≤ limit.toNat ∧ ml.toNat + 5 ≤ tb.capLog := of_decide_eq_true hwf
  have hcapLog := capLog_le tb
  have hms : ms.toNat ≤ 255 := by omega
  have hbody (h : a + 4 ≤ limit.toNat) : readTableUnit tb start limit ms ml s =
      fseReadBody s.inByte a limit.toNat ms.toNat (ml.toNat + 5) log (s.tableUnit tb) := fseReadTable_body h
  refine ⟨fun h4 hlog => ⟨fun st hst => ?built, fun e st hst => ?raised, fun f hf => ?stopped⟩, fun h4 => ?truncated,
    fun h4 hlog => ?log, zeroRunPass_holds _ _ _ _, countPass_holds _ _ _ _, loopEnds_holds _ _ _ _ _ _⟩
  case built =>
    have hread := countsRead_of_ok hms (by omega) (by omega) hst
    obtain ⟨u, hrun, hnorm, hdraws, hlogEq, hbuilt⟩ := fseReadBody_builds (u := s.tableUnit tb) hms (by omega) (by omega)
      (two_pow_capLog tb ▸ Nat.pow_le_pow_right (by omega) (by omega)) hlog (by rwa [tableUnit_sc])
    have hpos := hread.pos
    have hlimit := limit.isLt
    have hused : (BitVec.ofNat 64 (ceilDiv st.pos 8)).toNat = ceilDiv st.pos 8 ∧
        a + (BitVec.ofNat 64 (ceilDiv st.pos 8)).toNat ≤ limit.toNat := by
      rw [BitVec.toNat_ofNat, ceilDiv, Nat.mod_eq_of_lt (by omega)]
      omega
    obtain ⟨hll, hof, hml, hhw⟩ := withUnit_otherTables (s := s) (u := u)
    refine ⟨_, exec_fseReadTable_of_ok ((hbody h4).trans hrun), ?_, hll, hof, hml, hhw, hused.1, hused.2, ?_, hread.one_le,
      hread.le, ?_, ?_, ?_, ?_, ?_, ?_⟩
    · rw [withUnit_eq (hdraws.trans (tableUnit_draws s tb))]
    · exact (withUnit_fse s tb u ▸ hnorm : (s.withUnit tb u).fse.norm = st.norm)
    · dsimp only
      rw [withUnit_fse, hnorm]
      exact hread.countsOk
    · rw [tableLog_setResult, withUnit_tableLog, hlogEq]
    all_goals rw [tableEntry_setResult, withUnit_tableEntry]
    · exact hbuilt.closed
    all_goals
      dsimp only
      rw [withUnit_fse, hnorm]
    · exact hbuilt.counted
    · exact hbuilt.spread
    · exact hbuilt.ranked
  case raised =>
    obtain ⟨w, hw⟩ := fseReadBody_of_raise (u := s.tableUnit tb) hlog (by rwa [tableUnit_sc])
    obtain rfl | rfl := code_of_raise hms (by omega) (by omega) hst
    · exact ⟨.inl rfl, exec_fseReadTable_of_raise ((hbody h4).trans hw)⟩
    · exact ⟨.inr rfl, exec_fseReadTable_of_raise ((hbody h4).trans hw)⟩
  case stopped => exact readNorm_ne_stop hms (by omega) (by omega) f hf
  case truncated => exact exec_fseReadTable_of_raise (fseReadTable_truncated h4)
  case log => exact exec_fseReadTable_of_raise ((hbody h4).trans (if_pos hlog))

/-! ## FSEDESC -/

theorem exec_fsedesc_of_ok {x : Alphabet} {lo hi : BitVec 4} {s : State} {n : Nat} {u : TableUnit (tableCap x.table)}
    (h4 : s.ip.toNat + 4 ≤ s.blk.limit.toNat)
    (h : fseReadBody s.inByte s.ip.toNat s.blk.limit.toNat (Config.maxSymbol x) (Config.maxLog x) (lo.toNat + 5)
      (s.tableUnit x.table) = .ok n u) :
    exec (.fsedesc x lo hi) s = .next (nextTable x (((s.withUnit x.table u).setSel x .ram).advance n)) := by
  change execFsedesc x lo hi s = _
  simp only [execFsedesc, runTable_eq, if_neg (by omega : ¬ s.blk.limit.toNat < s.ip.toNat + 4), h]
  rfl

/-- The description's log is the low half of its first byte (R162). -/
theorem toNat_extractLsb_low (b : Byte) : (b.extractLsb' 0 4).toNat = b.toNat % 16 := by
  simp [BitVec.extractLsb'_toNat]

/-- A description that R162 accepts has counts, and `descriptionBytes` is where they end. -/
theorem read_of_descriptionOk {rd : Nat → Byte} {start limit maxSymbol maxLog : Nat} {norm : Vector (BitVec 16) 256}
    (h : descriptionOk rd start limit maxSymbol maxLog norm) :
    ∃ st, readNorm rd start limit maxSymbol (fwdBits rd start limit 0 4 + 5) norm = .ok () st ∧
      descriptionBytes rd start limit maxSymbol norm = ceilDiv st.pos 8 := by
  obtain ⟨_, _, hok⟩ := h
  unfold descriptionBytes
  cases hr : readNorm rd start limit maxSymbol (fwdBits rd start limit 0 4 + 5) norm with
  | ok _ st => exact ⟨st, rfl, rfl⟩
  | raise e st => rw [hr] at hok; cases hok
  | stop f => rw [hr] at hok; cases hok

@[simp] theorem tableEntry_setSel (s : State) (x : Alphabet) (v : Sel) : (s.setSel x v).tableEntry = s.tableEntry := by
  cases x <;> rfl

@[simp] theorem tableLog_setSel (s : State) (x : Alphabet) (v : Sel) : (s.setSel x v).tableLog = s.tableLog := by
  cases x <;> rfl

@[simp] theorem tableEntry_advance (s : State) (n : Nat) : (s.advance n).tableEntry = s.tableEntry := rfl

@[simp] theorem tableLog_advance (s : State) (n : Nat) : (s.advance n).tableLog = s.tableLog := rfl

/-- What FSEDESC changes when its description is read (R162, R314). -/
theorem fsedesc_writes {x : Alphabet} {s : State} {u : TableUnit (tableCap x.table)} (hdraws : u.draws = s.draws) (n : Nat) :
    let t := ((s.withUnit x.table u).setSel x .ram).advance n
    t = { s.setSel x .ram with
      llt := t.llt, oft := t.oft, mlt := t.mlt, fse := t.fse, ip := s.ip + BitVec.ofNat 32 n } ∧
    (x ≠ .ll → t.llt = s.llt) ∧ (x ≠ .of → t.oft = s.oft) ∧ (x ≠ .ml → t.mlt = s.mlt) := by
  cases x <;> simp [State.withUnit, State.setSel, State.advance, Alphabet.table, hdraws]

/-- The limits of R166. -/
theorem limits_eq (x : Alphabet) :
    [35, 31, 52].getD x.code 0 = Config.maxSymbol x ∧ [9, 8, 9].getD x.code 0 = Config.maxLog x ∧
    Config.maxSymbol x ≤ 255 ∧ Config.maxLog x = x.table.capLog := by
  cases x <;> decide

/-- Settles O53: the element runs `fseReadBody` on the alphabet's table, which builds it (`fseReadBody_builds`). -/
theorem descriptionElementCompletes : Obligations.DescriptionElementCompletes := by
  intro x lo hi s ms hlo hd
  obtain ⟨hms, hml, hms255, hmlcap⟩ := limits_eq x
  rw [hml, show ms = Config.maxSymbol x from hms] at hd
  obtain ⟨st, hread, hbytes⟩ := read_of_descriptionOk hd
  obtain ⟨h4, hlog, _⟩ := hd
  have hloEq : lo.toNat = fwdBits s.inByte s.ip.toNat s.blk.limit.toNat 0 4 := by
    rw [hlo, toNat_extractLsb_low, fwdBits_log (by omega)]
  rw [← hloEq] at hread hlog
  have hcapLog := capLog_le x.table
  obtain ⟨u, hrun, hnorm, hdraws, hlogEq, hbuilt⟩ := fseReadBody_builds (u := s.tableUnit x.table) hms255 (by omega)
    (by omega) (two_pow_capLog x.table ▸ Nat.pow_le_pow_right (by omega) (by omega)) hlog (by rwa [tableUnit_sc])
  have hdraws : u.draws = s.draws := hdraws.trans (tableUnit_draws s x.table)
  rw [show ms = Config.maxSymbol x from hms, hbytes]
  obtain ⟨heq, hll, hof, hml⟩ := fsedesc_writes hdraws (ceilDiv st.pos 8)
  refine ⟨_, _, exec_fsedesc_of_ok h4 hrun, rfl, heq, hll, hof, hml, ?_, ?_⟩
  · rw [tableLog_advance, tableLog_setSel, withUnit_tableLog, hlogEq]
  · rw [tableEntry_advance, tableEntry_setSel, withUnit_tableEntry]
    exact hbuilt.closed

end Sys2Proof.Machine
end

section
/-! PROOFS. FSE.DECOMPRESS (R190 to R193): reading the bits of a region through a reader (R148), one step of the interleaved
states, the fast path and the tail as such steps, and the symbols they come to. -/
namespace Sys2Proof.Machine

/-! ## Reading the bits of a region (R148) -/

/-- The `n` bits from bit `k` of a number are those of its low `w` bits, where they lie among these. -/
theorem mod_two_pow_div_mod (y : Nat) {k n w : Nat} (h : k + n ≤ w) : y % 2 ^ w / 2 ^ k % 2 ^ n = y / 2 ^ k % 2 ^ n := by
  rw [show w = k + (w - k) by omega, pow_add, Nat.mod_mul_right_div_self, Nat.mod_mod_of_dvd _ (pow_dvd_pow 2 (by omega))]

section
variable {rd : Nat → Byte} {start limit p n : Nat} {b : BitReader}

/-- The container is the 64 bits of the region's number from CUR on (R147). -/
theorem word_eq_streamNumber (h : readerOk rd start limit b) :
    b.word.toNat = streamNumber rd start limit / 256 ^ (b.cur.toNat - start) % 2 ^ 64 := by
  obtain ⟨-, hcur, hheld⟩ := h
  split at hheld
  case isTrue =>
    obtain ⟨hhigh, hword⟩ := hheld
    have hbytes : limit - start = b.cur.toNat - start + (8 + (limit - (b.cur.toNat + 8))) := by omega
    have hlow := memRead_lt rd start (b.cur.toNat - start)
    have hmid := memRead_lt rd b.cur.toNat 8
    rw [hword, streamNumber, hbytes, memRead_append, Nat.add_mul_div_left _ _ (by positivity), Nat.div_eq_of_lt hlow,
      zero_add, show start + (b.cur.toNat - start) = b.cur.toNat by omega, memRead_append,
      show (256 : Nat) ^ 8 = 2 ^ 64 by norm_num, Nat.add_mul_mod_self_left, Nat.mod_eq_of_lt (by omega)]
  case isFalse =>
    obtain ⟨hstart, hword⟩ := hheld
    have hlt := b.word.isLt
    rw [hword] at hlt
    rw [hword, hstart, Nat.sub_self, pow_zero, Nat.div_one, streamNumber, Nat.mod_eq_of_lt hlt]

/-- A reader of a region that has `p` bits left to read and has consumed no more than its container. -/
structure ReadsAt (rd : Nat → Byte) (start limit p : Nat) (b : BitReader) : Prop where
  ok : readerOk rd start limit b
  position : b.position = p
  consumed : b.consumed.toNat ≤ 64

theorem brConsume_consumed (h : b.consumed.toNat + n < 2 ^ 32) : (brConsume b n).consumed.toNat = b.consumed.toNat + n := by
  simp only [brConsume, BitVec.toNat_add, BitVec.toNat_ofNat]
  omega

theorem readerAtMark_readsAt (h : streamOk rd start limit) (hl : limit < 2 ^ 32) :
    ReadsAt rd start limit (streamBits rd start limit) (readerAtMark rd start limit) := by
  refine ⟨readerAtMark_readerOk h hl, readerAtMark_position h hl, ?_⟩
  have hlt := h.1
  rw [readerAtMark_consumed]
  omega

namespace ReadsAt

/-- The bits left are those from the start up to CUR and those of the container not yet consumed. -/
theorem bits_left (h : ReadsAt rd start limit p b) : p + b.consumed.toNat = 8 * (b.cur.toNat - start) + 64 := by
  obtain ⟨⟨hstart, hcur, -⟩, hpos, -⟩ := h
  rw [BitReader.position] at hpos
  omega

/-- BR.PEEK of bits in the container gives the bits of the region's number (R148 d). -/
theorem brPeek_eq (h : ReadsAt rd start limit p b) (hn : n ≤ 63) (hfit : b.consumed.toNat + n ≤ 64) :
    brPeek b n = takeBits (streamNumber rd start limit) p n := by
  have hleft := h.bits_left
  have hexp : (2 : Nat) ^ (p - n) = 256 ^ (b.cur.toNat - start) * 2 ^ (64 - b.consumed.toNat - n) := by
    rw [show p - n = 8 * (b.cur.toNat - start) + (64 - b.consumed.toNat - n) by omega, pow_add, pow_mul]
    norm_num
  rw [brPeek_eq_bits hn hfit, word_eq_streamNumber h.ok, mod_two_pow_div_mod _ (by omega), takeBits,
    if_pos (by omega), hexp, Nat.div_div_eq_div_mul]

theorem consume (h : ReadsAt rd start limit p b) (hfit : b.consumed.toNat + n ≤ 64) :
    ReadsAt rd start limit (p - n) (brConsume b n) := by
  have hleft := h.bits_left
  have hc := brConsume_consumed (b := b) (n := n) (by omega)
  refine ⟨h.ok, ?_, by omega⟩
  have hpos := h.position
  rw [BitReader.position] at hpos ⊢
  rw [hc]
  show 8 * ((b.cur.toNat : Int) - b.start.toNat) + 64 - _ = _
  omega

theorem start_le_cur (h : ReadsAt rd start limit p b) : b.start.toNat ≤ b.cur.toNat := h.ok.1 ▸ h.ok.2.1

theorem refill (h : ReadsAt rd start limit p b) : ReadsAt rd start limit p (brRefill rd b).2 := by
  have hr := brRefill_refilled rd h.start_le_cur
  exact ⟨hr.keeps_readerOk h.ok, (hr.keeps_position h.start_le_cur).trans h.position, hr.consumed_le.trans h.consumed⟩

theorem refill_ne_overflow (h : ReadsAt rd start limit p b) : (brRefill rd b).1 ≠ .overflow := fun ho =>
  absurd ((brRefill_overflow rd b).mp ho) (Nat.not_lt.mpr h.consumed)

end ReadsAt

/-- A reader as BR.INIT and BR.REFILL leave it: it stands at its start, or has consumed no more than a byte. -/
def Refreshed (b : BitReader) : Prop := b.cur = b.start ∨ b.consumed.toNat ≤ 8

theorem readerAtMark_refreshed (h : streamOk rd start limit) (hl : limit < 2 ^ 32) :
    Refreshed (readerAtMark rd start limit) := by
  by_cases h8 : start + 8 ≤ limit
  · right
    rw [readerAtMark_consumed]
    omega
  · left
    refine BitVec.eq_of_toNat_eq ?_
    rw [readerAtMark_cur h hl, if_neg h8, readerAtMark_start h hl]

theorem Refilled.more_consumed_le {r : RefillStatus × BitReader} (h : Refilled rd b r) (hm : r.1 = .more) :
    r.2.consumed.toNat ≤ 8 := by
  rw [(h.of_more hm).2]
  omega

theorem Refilled.refreshed {r : RefillStatus × BitReader} (h : Refilled rd b r) (hr : r.1 ≠ .overflow) :
    Refreshed r.2 := by
  cases hs : r.1 with
  | more => exact .inr (h.more_consumed_le hs)
  | exhausted => exact .inl (h.of_exhausted hs)
  | overflow => exact absurd hs hr

namespace ReadsAt

theorem refill_refreshed (h : ReadsAt rd start limit p b) : Refreshed (brRefill rd b).2 :=
  (brRefill_refilled rd h.start_le_cur).refreshed h.refill_ne_overflow

theorem refill_more_consumed_le (h : ReadsAt rd start limit p b) (hm : (brRefill rd b).1 = .more) :
    (brRefill rd b).2.consumed.toNat ≤ 8 := (brRefill_refilled rd h.start_le_cur).more_consumed_le hm

/-- A few bits of a refreshed reader lie in its container exactly when the region has them (R149). -/
theorem fits_iff (h : ReadsAt rd start limit p b) (hf : Refreshed b) (hn : n ≤ 56) :
    b.consumed.toNat + n ≤ 64 ↔ n ≤ p := by
  have hleft := h.bits_left
  rcases hf with hcur | hc
  · have hstart : b.cur.toNat = start := hcur ▸ h.ok.1
    omega
  · omega

/-- Reading bits that the region lacks leaves the reader overflowed. -/
theorem consume_overflows (h : ReadsAt rd start limit p b) (hf : Refreshed b) (hn : n ≤ 56) (hp : p < n) :
    64 < (brConsume b n).consumed.toNat ∧ (brConsume b n).consumed.toNat ≤ 120 := by
  have hfit := h.fits_iff hf hn
  have hc := h.consumed
  rw [brConsume_consumed (by omega)]
  omega

end ReadsAt

end

/-! ## One step of the two states (R173, R191) -/

/-- The first state, or the second. -/
def DecompSt.state (d : DecompSt) : (second : Bool) → Nat
  | false => d.s1
  | true => d.s2

/-- The variables after a step of a state through its entry `e`. -/
def DecompSt.stepped (d : DecompSt) (e : FseEntry) : (second : Bool) → DecompSt
  | false => { d.emit e.sym with s1 := (fseStep e d.br).2.1, br := (fseStep e d.br).2.2 }
  | true => { d.emit e.sym with s2 := (fseStep e d.br).2.1, br := (fseStep e d.br).2.2 }

/-- The variables after a refill. -/
def DecompSt.refilled (d : DecompSt) (rd : Nat → Byte) : DecompSt := { d with br := (brRefill rd d.br).2 }

section
variable (d : DecompSt) (e : FseEntry) (i : Bool) (rd : Nat → Byte)

@[simp] theorem stepped_n : (d.stepped e i).n = d.n + 1 := by cases i <;> rfl
@[simp] theorem stepped_w : (d.stepped e i).w = ramSet d.w d.n e.sym := by cases i <;> rfl
@[simp] theorem stepped_br : (d.stepped e i).br = brConsume d.br e.nb.toNat := by cases i <;> rfl
@[simp] theorem stepped_state_same : (d.stepped e i).state i = e.ns.toNat + brPeek d.br e.nb.toNat := by cases i <;> rfl
@[simp] theorem stepped_state_other : (d.stepped e i).state (!i) = d.state (!i) := by cases i <;> rfl
@[simp] theorem refilled_n : (d.refilled rd).n = d.n := rfl
@[simp] theorem refilled_w : (d.refilled rd).w = d.w := rfl
@[simp] theorem refilled_br : (d.refilled rd).br = (brRefill rd d.br).2 := rfl
@[simp] theorem refilled_state : (d.refilled rd).state = d.state := by funext i; cases i <;> rfl
@[simp] theorem emit_n (v : Byte) : (d.emit v).n = d.n + 1 := rfl
@[simp] theorem emit_w (v : Byte) : (d.emit v).w = ramSet d.w d.n v := rfl

end

/-- `Step1` or `Step2` of R191. -/
def decompStep (ent : Nat → Option FseEntry) : (second : Bool) → DecompSt → Run DecompSt Unit
  | false => decompStep1 ent
  | true => decompStep2 ent

section
variable {ent : Nat → Option FseEntry} {log : Nat} {d : DecompSt} {e : FseEntry} {i : Bool}

theorem decompStep_of_entry (h : ent (d.state i) = some e) : decompStep ent i d = .ok () (d.stepped e i) := by
  cases i with
  | false => simp only [decompStep, decompStep1, show ent d.s1 = some e from h, DecompSt.stepped]
  | true => simp only [decompStep, decompStep2, show ent d.s2 = some e from h, DecompSt.stepped]

theorem decompLast_of_entry {a : Nat} (h : ent a = some e) : decompLast ent a d = .ok () (d.emit e.sym) := by
  simp only [decompLast, h]

theorem tableClosed_entry (hclosed : tableClosed ent log) {a : Nat} (ha : a < 2 ^ log) :
    ∃ e, ent a = some e ∧ e.nb.toNat ≤ log ∧ e.ns.toNat + 2 ^ e.nb.toNat ≤ 2 ^ log := by
  have h := hclosed a ha
  cases he : ent a with
  | none => simp [entryClosed, he] at h
  | some e => exact ⟨e, rfl, by simpa [entryClosed, he] using h⟩

end

/-- The tail loop (R191, R193) one step at a time, beginning with state `i`. -/
def tailSteps (rd : Nat → Byte) (ent : Nat → Option FseEntry) (cap : Nat) : Nat → Bool → DecompSt → Run DecompSt Unit
  | 0, _, d => .raise .fseOutput d
  | f + 1, i, d =>
    if cap < d.n + 2 then .raise .fseOutput d
    else
      (decompStep ent i d).bind fun _ d1 =>
        if (brRefill rd d1.br).1 = .overflow then decompLast ent (d1.state (!i)) (d1.refilled rd)
        else tailSteps rd ent cap f (!i) (d1.refilled rd)

theorem decompTail_eq_tailSteps (rd : Nat → Byte) (ent : Nat → Option FseEntry) (cap f : Nat) (d : DecompSt) :
    decompTail rd ent cap f d = tailSteps rd ent cap (2 * f) false d := by
  induction f generalizing d with
  | zero => rfl
  | succ f ih =>
    simp only [decompTail, ih, Nat.mul_succ]
    rfl

/-! ## What the steps come to -/

/-- `HUF.W` with a list of weights written from place `n` on. -/
def putWeights (w : Vector (BitVec 8) 256) (n : Nat) : List Byte → Vector (BitVec 8) 256
  | [] => w
  | v :: vs => putWeights (ramSet w n v) (n + 1) vs

theorem ramGet_putWeights_outside (vs : List Byte) (w : Vector (BitVec 8) 256) {n j : Nat} (hj : j < n ∨ n + vs.length ≤ j) :
    ramGet (putWeights w n vs) j 0 = ramGet w j 0 := by
  induction vs generalizing w n with
  | nil => rfl
  | cons v vs ih =>
    rw [List.length_cons] at hj
    rw [putWeights, ih _ (by omega), ramGet_set_other _ _ _ _ _ (by omega)]

theorem ramGet_putWeights (vs : List Byte) (w : Vector (BitVec 8) 256) {n j : Nat} (hj : j < vs.length)
    (hfit : n + vs.length ≤ 256) : ramGet (putWeights w n vs) (n + j) 0 = vs.getD j 0 := by
  induction vs generalizing w n j with
  | nil => cases hj
  | cons v vs ih =>
    rw [List.length_cons] at hj hfit
    cases j with
    | zero =>
      rw [add_zero, putWeights, ramGet_putWeights_outside _ _ (by omega), ramGet_set_same _ _ _ _ (by omega)]
      rfl
    | succ j =>
      rw [putWeights, show n + (j + 1) = n + 1 + j by omega, ih _ (by omega) (by omega)]
      rfl

/-- The run writes the weights `o` after the `n` of `w`, or takes E_FSE_OUTPUT where there are none. -/
def Decodes (w : Vector (BitVec 8) 256) (n : Nat) : Option (List Byte) → Run DecompSt Unit → Prop
  | some ws, r => ∃ d, r = .ok () d ∧ d.n = n + ws.length ∧ d.w = putWeights w n ws
  | none, r => ∃ d, r = .raise .fseOutput d

/-- A weight written before the others. -/
theorem Decodes.cons {w : Vector (BitVec 8) 256} {n : Nat} {v : Byte} {o : Option (List Byte)} {r : Run DecompSt Unit}
    (h : Decodes (ramSet w n v) (n + 1) o r) : Decodes w n (o.map (v :: ·)) r := by
  cases o with
  | none => exact h
  | some ws =>
    obtain ⟨d, hr, hn, hw⟩ := h
    exact ⟨d, hr, by rw [hn, List.length_cons]; omega, hw⟩

theorem fseSymbols_length {ent : Nat → Option FseEntry} {x f p a b : Nat} {ws : List Byte}
    (h : fseSymbols ent x f p a b = some ws) : 2 ≤ ws.length ∧ ws.length ≤ f := by
  induction f generalizing p a b ws with
  | zero => cases h
  | succ f ih =>
    rw [fseSymbols] at h
    split at h
    case h_2 => cases h
    case h_1 ea eb _ _ =>
      split at h
      · split at h
        · cases h
        · cases h
          exact ⟨le_rfl, by simp only [List.length_cons, List.length_nil]; omega⟩
      · obtain ⟨vs, hvs, rfl⟩ := Option.map_eq_some_iff.mp h
        obtain ⟨hlow, hhigh⟩ := ih hvs
        rw [List.length_cons]
        omega

/-- Fewer than two places hold no stream (R193). -/
theorem fseSymbols_of_lt_two {ent : Nat → Option FseEntry} {x f p a b : Nat} (hf : f < 2) :
    fseSymbols ent x f p a b = none := by
  cases h : fseSymbols ent x f p a b with
  | none => rfl
  | some ws =>
    have := fseSymbols_length h
    omega

section
variable {ent : Nat → Option FseEntry} {x f p a b : Nat} {ea eb : FseEntry} (ha : ent a = some ea) (hb : ent b = some eb)
include ha hb

theorem fseSymbols_of_fits (hp : ea.nb.toNat ≤ p) : fseSymbols ent x (f + 1) p a b =
    (fseSymbols ent x f (p - ea.nb.toNat) b (ea.ns.toNat + takeBits x p ea.nb.toNat)).map (ea.sym :: ·) := by
  simp only [fseSymbols, ha, hb, if_neg (Nat.not_lt.mpr hp)]

theorem fseSymbols_of_lacks (hp : p < ea.nb.toNat) (hf : f ≠ 0) :
    fseSymbols ent x (f + 1) p a b = some [ea.sym, eb.sym] := by
  simp only [fseSymbols, ha, hb, if_pos hp, if_neg hf]

end

/-! ## Decoding with bits left -/

section
variable {rd : Nat → Byte} {ent : Nat → Option FseEntry} {start limit log cap f p : Nat} {d : DecompSt} {i : Bool}

/-- The decoder stands in a region with `p` bits left and both states inside their table. -/
structure Decoding (rd : Nat → Byte) (start limit log p : Nat) (d : DecompSt) : Prop where
  reads : ReadsAt rd start limit p d.br
  states : ∀ j, d.state j < 2 ^ log

/-- The symbols still to come where state `i` is next (R190). -/
def pending (rd : Nat → Byte) (ent : Nat → Option FseEntry) (start limit cap : Nat) (i : Bool) (p : Nat) (d : DecompSt) :
    Option (List Byte) :=
  fseSymbols ent (streamNumber rd start limit) (cap - d.n) p (d.state i) (d.state (!i))

theorem Decoding.refilled (h : Decoding rd start limit log p d) : Decoding rd start limit log p (d.refilled rd) :=
  ⟨h.reads.refill, by simpa using h.states⟩

theorem pending_refilled : pending rd ent start limit cap i p (d.refilled rd) = pending rd ent start limit cap i p d := by
  simp [pending]

/-- The end of the stream (R191, R193): a step that overflows is followed by the other state's symbol. -/
theorem tailSteps_of_overflow {ea eb : FseEntry} (ha : ent (d.state i) = some ea) (hb : ent (d.state (!i)) = some eb)
    (hcap : d.n + 2 ≤ cap) (hover : 64 < (brConsume d.br ea.nb.toNat).consumed.toNat) :
    Decodes d.w d.n (some [ea.sym, eb.sym]) (tailSteps rd ent cap (f + 1) i d) := by
  refine ⟨((d.stepped ea i).refilled rd).emit eb.sym, ?_, by simp, by simp [putWeights]⟩
  rw [tailSteps, if_neg (by omega), decompStep_of_entry ha, bind_ok, stepped_br,
    if_pos ((brRefill_overflow rd _).mpr hover), stepped_state_other, decompLast_of_entry hb]

variable (hclosed : tableClosed ent log)
include hclosed

/-- A step whose bits are in the container keeps the decoder in the region and emits the first symbol to come. -/
theorem Decoding.step (h : Decoding rd start limit log p d) {e : FseEntry} (he : ent (d.state i) = some e)
    (hn : d.n < cap) (hfit : d.br.consumed.toNat + e.nb.toNat ≤ 64) :
    Decoding rd start limit log (p - e.nb.toNat) (d.stepped e i) ∧
    ∀ r, Decodes (d.stepped e i).w (d.stepped e i).n
        (pending rd ent start limit cap (!i) (p - e.nb.toNat) (d.stepped e i)) r →
      Decodes d.w d.n (pending rd ent start limit cap i p d) r := by
  obtain ⟨hreads, hstates⟩ := h
  obtain ⟨e', he', hnb, hns⟩ := tableClosed_entry hclosed (hstates i)
  obtain rfl : e = e' := Option.some.inj (he.symm.trans he')
  obtain ⟨eb, heb, -⟩ := tableClosed_entry hclosed (hstates !i)
  have hleft := hreads.bits_left
  refine ⟨⟨by simpa using hreads.consume hfit, fun j => ?_⟩, fun r hr => ?_⟩
  · by_cases hj : j = i
    · subst hj
      have hpeek := brPeek_lt d.br e.nb.toNat (by omega)
      rw [stepped_state_same]
      omega
    · obtain rfl : j = !i := by cases i <;> simpa using hj
      rw [stepped_state_other]
      exact hstates _
  · rw [pending, show cap - d.n = cap - (d.n + 1) + 1 by omega, fseSymbols_of_fits he heb (by omega),
      ← hreads.brPeek_eq (by omega) hfit]
    rw [stepped_w, stepped_n] at hr
    simpa [pending] using hr.cons

/-- The tail decodes the symbols to come. -/
theorem tailSteps_decodes (h : Decoding rd start limit log p d) (hf : Refreshed d.br) (hfuel : cap < d.n + f) :
    Decodes d.w d.n (pending rd ent start limit cap i p d) (tailSteps rd ent cap f i d) := by
  induction f generalizing i p d with
  | zero =>
    rw [pending, fseSymbols_of_lt_two (by omega)]
    exact ⟨d, rfl⟩
  | succ f ih =>
    by_cases hcap : cap < d.n + 2
    · rw [pending, fseSymbols_of_lt_two (by omega), tailSteps, if_pos hcap]
      exact ⟨d, rfl⟩
    obtain ⟨e, he, hnb, -⟩ := tableClosed_entry hclosed (h.states i)
    obtain ⟨eb, heb, -⟩ := tableClosed_entry hclosed (h.states !i)
    by_cases hp : e.nb.toNat ≤ p
    · have hfit := (h.reads.fits_iff hf (by omega)).mpr hp
      obtain ⟨hnext, hcons⟩ := h.step hclosed he (cap := cap) (by omega) hfit
      rw [tailSteps, if_neg hcap, decompStep_of_entry he, bind_ok, if_neg hnext.reads.refill_ne_overflow]
      refine hcons _ ?_
      rw [← pending_refilled]
      exact ih hnext.refilled hnext.reads.refill_refreshed (by simp; omega)
    · rw [pending, show cap - d.n = cap - d.n - 1 + 1 by omega, fseSymbols_of_lacks he heb (by omega) (by omega)]
      exact tailSteps_of_overflow he heb (by omega)
        (h.reads.consume_overflows hf (by omega) (by omega)).1

variable (hlog : log ≤ 9)
include hlog

/-- A step of the fast path, where the container holds the bits of any entry (R192). -/
theorem Decoding.fastStep (h : Decoding rd start limit log p d) (hn : d.n < cap) (hc : d.br.consumed.toNat + 9 ≤ 64)
    (i : Bool) : ∃ q d', decompStep ent i d = .ok () d' ∧ Decoding rd start limit log q d' ∧
      d'.br.consumed.toNat ≤ d.br.consumed.toNat + 9 ∧ d'.n = d.n + 1 ∧
      ∀ r, Decodes d'.w d'.n (pending rd ent start limit cap (!i) q d') r →
        Decodes d.w d.n (pending rd ent start limit cap i p d) r := by
  obtain ⟨e, he, hnb, -⟩ := tableClosed_entry hclosed (h.states i)
  obtain ⟨hnext, hcons⟩ := h.step hclosed he hn (by omega)
  refine ⟨_, _, decompStep_of_entry he, hnext, ?_, stepped_n .., hcons⟩
  rw [stepped_br, brConsume_consumed (by omega)]
  omega

/-- The fast path decodes some of the symbols to come, and the tail the others (R192). -/
theorem decompFast_then_tail_decodes {st : RefillStatus} (h : Decoding rd start limit log p d) (hf : Refreshed d.br)
    (hst : st = .more → d.br.consumed.toNat ≤ 8) :
    Decodes d.w d.n (pending rd ent start limit cap false p d)
      ((decompFast rd ent cap f st d).bind fun _ d' => decompTail rd ent cap (cap + 1) d') := by
  induction f generalizing st p d with
  | zero =>
    rw [decompFast, bind_ok, decompTail_eq_tailSteps]
    exact tailSteps_decodes hclosed h hf (by omega)
  | succ f ih =>
    rw [decompFast]
    split
    case isFalse =>
      rw [bind_ok, decompTail_eq_tailSteps]
      exact tailSteps_decodes hclosed h hf (by omega)
    case isTrue hgo =>
      obtain ⟨hmore, hroom⟩ := hgo
      have hc := hst hmore
      obtain ⟨q1, d1, hr1, h1, hc1, hn1, hcons1⟩ := h.fastStep hclosed hlog (cap := cap) (by omega) (by omega) false
      obtain ⟨q2, d2, hr2, h2, hc2, hn2, hcons2⟩ := h1.fastStep hclosed hlog (cap := cap) (by omega) (by omega) true
      obtain ⟨q3, d3, hr3, h3, hc3, hn3, hcons3⟩ := h2.fastStep hclosed hlog (cap := cap) (by omega) (by omega) false
      obtain ⟨q4, d4, hr4, h4, -, -, hcons4⟩ := h3.fastStep hclosed hlog (cap := cap) (by omega) (by omega) true
      simp only [decompStep] at hr1 hr2 hr3 hr4
      simp only [hr1, hr2, hr3, hr4, bind_ok]
      refine hcons1 _ (hcons2 _ (hcons3 _ (hcons4 _ ?_)))
      exact pending_refilled (d := d4) ▸
        ih h4.refilled h4.reads.refill_refreshed h4.reads.refill_more_consumed_le

end

/-! ## The initial states (R191) -/

section
variable {rd : Nat → Byte} {ent : Nat → Option FseEntry} {start limit log cap m : Nat} {b : BitReader}
variable {w : Vector (BitVec 8) 256}

theorem decompPrime_eq (rd : Nat → Byte) (log : Nat) (b : BitReader) (w : Vector (BitVec 8) 256) :
    decompPrime rd log b w =
      let b2 := (brRefill rd (brConsume b log)).2
      let r := brRefill rd (brConsume b2 log)
      (r.1, ⟨r.2, w, brPeek b log, brPeek b2 log, 0⟩) := rfl

theorem decompPrime_states (hlog : log ≤ 9) (j : Bool) : (decompPrime rd log b w).2.state j < 2 ^ log := by
  cases j <;> exact brPeek_lt _ _ (by omega)

/-- A region that holds both initial states (R191). -/
theorem decompPrime_decoding (hlog : log ≤ 9) (h : ReadsAt rd start limit m b) (hf : Refreshed b) (hm : 2 * log ≤ m) :
    let x := streamNumber rd start limit
    ∃ st d, decompPrime rd log b w = (st, d) ∧ Decoding rd start limit log (m - 2 * log) d ∧ Refreshed d.br ∧
      (st = .more → d.br.consumed.toNat ≤ 8) ∧ d.w = w ∧ d.n = 0 ∧
      pending rd ent start limit cap false (m - 2 * log) d =
        fseSymbols ent x cap (m - 2 * log) (takeBits x m log) (takeBits x (m - log) log) := by
  intro x
  have hfit1 := (h.fits_iff hf (by omega : log ≤ 56)).mpr (by omega)
  have h1 := h.consume hfit1
  have hfit2 := (h1.refill.fits_iff h1.refill_refreshed (by omega : log ≤ 56)).mpr (by omega)
  have h2 := h1.refill.consume hfit2
  rw [show m - log - log = m - 2 * log by omega] at h2
  refine ⟨_, _, decompPrime_eq rd log b w, ⟨h2.refill, decompPrime_states hlog (b := b) (w := w)⟩, h2.refill_refreshed,
    h2.refill_more_consumed_le, rfl, rfl, ?_⟩
  rw [pending, ← h.brPeek_eq (by omega) hfit1, ← h1.refill.brPeek_eq (by omega) hfit2]
  rfl

/-- A region too short for both initial states: the reader has overflowed. -/
theorem decompPrime_overflowed (hlog : log ≤ 9) (h : ReadsAt rd start limit m b) (hf : Refreshed b) (hm : m < 2 * log) :
    ∃ d, decompPrime rd log b w = (.overflow, d) ∧ (∀ j, d.state j < 2 ^ log) ∧
      64 < d.br.consumed.toNat ∧ d.br.consumed.toNat ≤ 150 ∧ d.w = w ∧ d.n = 0 := by
  have hend : 64 < (brConsume (brRefill rd (brConsume b log)).2 log).consumed.toNat ∧
      (brConsume (brRefill rd (brConsume b log)).2 log).consumed.toNat ≤ 150 := by
    by_cases h1 : log ≤ m
    · have hr := h.consume ((h.fits_iff hf (by omega)).mpr h1)
      obtain ⟨hlow, hhigh⟩ := hr.refill.consume_overflows hr.refill_refreshed (by omega : log ≤ 56) (by omega)
      exact ⟨hlow, hhigh.trans (by omega)⟩
    · obtain ⟨hlow, hhigh⟩ := h.consume_overflows hf (by omega : log ≤ 56) (by omega)
      rw [brRefill_overflow_same _ _ hlow]
      dsimp only
      rw [brConsume_consumed (by omega)]
      omega
  refine ⟨_, ?_, decompPrime_states hlog (rd := rd) (b := b) (w := w), ?_, ?_, rfl, rfl⟩
  all_goals simp only [decompPrime_eq, brRefill_overflow_same _ _ hend.1, hend]

/-! ## FSE.DECOMPRESS -/

/-- The symbols a run of FSE.DECOMPRESS writes, at least two and at most `cap`, or E_FSE_OUTPUT. -/
def DecodesAll (cap : Nat) (w : Vector (BitVec 8) 256) : Option (List Byte) → Run DecompSt Nat → Prop
  | some ws, r => 2 ≤ ws.length ∧ ws.length ≤ cap ∧ ∃ d, r = .ok ws.length d ∧ d.w = putWeights w 0 ws
  | none, r => ∃ d, r = .raise .fseOutput d

theorem Decodes.all {o : Option (List Byte)} {r : Run DecompSt Unit} (h : Decodes w 0 o r)
    (hlen : ∀ ws, o = some ws → 2 ≤ ws.length ∧ ws.length ≤ cap) :
    DecodesAll cap w o (r.bind fun _ d => .ok d.n d) := by
  cases o with
  | none => obtain ⟨d, rfl⟩ := h; exact ⟨d, rfl⟩
  | some ws =>
    obtain ⟨d, rfl, hn, hw⟩ := h
    obtain ⟨hlow, hhigh⟩ := hlen ws rfl
    exact ⟨hlow, hhigh, d, by rw [bind_ok, hn, zero_add], hw⟩

theorem fseDecompress_eq {st : RefillStatus} {d : DecompSt} (h : decompPrime rd log b w = (st, d)) :
    fseDecompress rd ent log cap b w =
      ((decompFast rd ent cap (cap + 1) st d).bind fun _ d' => decompTail rd ent cap (cap + 1) d').bind
        fun _ d' => .ok d'.n d' := by
  rw [run_bind_assoc, fseDecompress, h]

variable (hlog : log ≤ 9) (hclosed : tableClosed ent log)
include hlog hclosed

/-- Where the region holds both initial states, the symbols are those of the interleaved states (R190). -/
theorem fseDecompress_decodes (h : ReadsAt rd start limit m b) (hf : Refreshed b) (hm : 2 * log ≤ m) :
    let x := streamNumber rd start limit
    DecodesAll cap w (fseSymbols ent x cap (m - 2 * log) (takeBits x m log) (takeBits x (m - log) log))
      (fseDecompress rd ent log cap b w) := by
  intro x
  obtain ⟨st, d, heq, hd, href, hst, rfl, hn, hpend⟩ :=
    decompPrime_decoding (ent := ent) (cap := cap) (w := w) hlog h hf hm
  have hrun := decompFast_then_tail_decodes (cap := cap) (f := cap + 1) hclosed hlog hd href hst
  rw [hpend, hn] at hrun
  rw [fseDecompress_eq heq]
  exact hrun.all fun _ => fseSymbols_length

/-- Where it does not, the first step overflows and there are two symbols, if there is room for them. -/
theorem fseDecompress_overflowed (h : ReadsAt rd start limit m b) (hf : Refreshed b) (hm : m < 2 * log) :
    ∃ o, DecodesAll cap w o (fseDecompress rd ent log cap b w) := by
  obtain ⟨d, heq, hstates, hlow, hhigh, rfl, hn⟩ := decompPrime_overflowed (w := w) hlog h hf hm
  have hfast : decompFast rd ent cap (cap + 1) .overflow d = .ok () d := by simp [decompFast]
  rw [fseDecompress_eq heq, hfast, bind_ok, decompTail_eq_tailSteps]
  by_cases hcap : cap < d.n + 2
  · exact ⟨none, d, by rw [Nat.mul_succ, tailSteps, if_pos hcap, bind_raise]⟩
  · obtain ⟨ea, ha, hnb, -⟩ := tableClosed_entry hclosed (hstates false)
    obtain ⟨eb, hb, -⟩ := tableClosed_entry hclosed (hstates true)
    have hrun := tailSteps_of_overflow (rd := rd) (cap := cap) (f := 2 * cap + 1) ha hb (by omega)
      (by rw [brConsume_consumed (by omega)]; omega : 64 < (brConsume d.br ea.nb.toNat).consumed.toNat)
    rw [hn] at hrun
    exact ⟨_, hrun.all fun ws hws => by cases hws; simp; omega⟩

end

theorem br_get_set (v : Vector BitReader 4) (b : BitReader) : (v.set 0 b).get 0 = b := Vector.getElem_set_self (by omega)

/-- FSE.DECOMPRESS of a region with an end mark is the decoder on the reader BR.INIT makes of it (R191). -/
theorem stateFseDecompress_eq {s : State} {start limit : Nat} (h : streamOk s.inByte start limit) (tb : TableId) (cap : Nat) :
    s.fseDecompress tb start limit cap =
      (Machine.fseDecompress s.inByte (s.tableEntry tb) (s.tableLog tb) cap (readerAtMark s.inByte start limit) s.huf.w).lift
        fun d => { s.setBr 0 d.br with huf := { s.huf with w := d.w } } := by
  have hset (d : DecompSt) : (s.setBr 0 (readerAtMark s.inByte start limit)).setBr 0 d.br = s.setBr 0 d.br := by
    simp [State.setBr]
  have hget : (s.setBr 0 (readerAtMark s.inByte start limit)).br.get 0 = readerAtMark s.inByte start limit := by
    exact br_get_set _ _
  rw [State.fseDecompress, State.brInit, brInit_eq_ok h, lift_ok, bind_ok, hget]
  simp only [hset]
  rfl

section
variable {s : State} {tb : TableId} {start limit : Addr} {cap : BitVec 8} {d : DecompSt}

theorem exec_fseDecompress_eq (hok : streamOk s.inByte start.toNat limit.toNat) :
    exec (.fseDecompress tb start limit cap) s =
      finishWith ((Machine.fseDecompress s.inByte (s.tableEntry tb) (s.tableLog tb) cap.toNat
        (readerAtMark s.inByte start.toNat limit.toNat) s.huf.w).lift
          fun d => { s.setBr 0 d.br with huf := { s.huf with w := d.w } }) :=
  congrArg finishWith (stateFseDecompress_eq hok tb cap.toNat)

/-- FSE.DECOMPRESS on a region with an end mark is the decoder's fault, or its reader, weights and count (R191). -/
theorem exec_fseDecompress_of_decodes {o : Option (List Byte)} (hok : streamOk s.inByte start.toNat limit.toNat)
    (h : DecodesAll cap.toNat s.huf.w o (Machine.fseDecompress s.inByte (s.tableEntry tb) (s.tableLog tb) cap.toNat
      (readerAtMark s.inByte start.toNat limit.toNat) s.huf.w)) :
    (o = none → ∃ u, exec (.fseDecompress tb start limit cap) s = .next (faultEntry .fseOutput u)) ∧
    (∀ ws, o = some ws → 2 ≤ ws.length ∧ ws.length ≤ cap.toNat ∧
      ∃ b, exec (.fseDecompress tb start limit cap) s = .next { s with
        br := s.br.set 0 b, huf := { s.huf with w := putWeights s.huf.w 0 ws }, result := BitVec.ofNat 64 ws.length }) := by
  refine ⟨?_, ?_⟩
  · rintro rfl
    obtain ⟨d, hrun⟩ := h
    exact ⟨_, by rw [exec_fseDecompress_eq hok, hrun]; rfl⟩
  · rintro ws rfl
    obtain ⟨hlow, hhigh, d, hrun, hw⟩ := h
    exact ⟨hlow, hhigh, d.br, by rw [exec_fseDecompress_eq hok, hrun, ← hw]; rfl⟩

end

/-- The reader's decoder finds some symbols or none, and where the region holds both initial states they are those of R190. -/
theorem decodesAll_region {s : State} {tb : TableId} {start limit : Nat} (hlog : s.tableLog tb ≤ 9)
    (hclosed : tableClosed (s.tableEntry tb) (s.tableLog tb)) (hok : streamOk s.inByte start limit) (hl : limit < 2 ^ 32)
    (cap : Nat) : ∃ o, DecodesAll cap s.huf.w o (Machine.fseDecompress s.inByte (s.tableEntry tb) (s.tableLog tb) cap
      (readerAtMark s.inByte start limit) s.huf.w) ∧
    (2 * s.tableLog tb ≤ streamBits s.inByte start limit → s.fseRegion tb start limit cap = o) := by
  have hreads := readerAtMark_readsAt hok hl
  have href := readerAtMark_refreshed hok hl
  by_cases hm : 2 * s.tableLog tb ≤ streamBits s.inByte start limit
  · exact ⟨_, fseDecompress_decodes hlog hclosed hreads href hm, fun _ => rfl⟩
  · obtain ⟨o, ho⟩ := fseDecompress_overflowed (cap := cap) (w := s.huf.w) hlog hclosed hreads href (by omega)
    exact ⟨o, ho, fun h => absurd h hm⟩

/-- Settles O54: the decoder's symbols are those of `decodesAll_region`, and the instruction leaves what
`exec_fseDecompress_of_decodes` says of them. -/
theorem fseStreamDecompressed : Obligations.FseStreamDecompressed := by
  intro tb start limit cap s hlog hclosed hok _
  obtain ⟨o, hruns, hregion⟩ := decodesAll_region hlog hclosed hok limit.isLt cap.toNat
  obtain ⟨hnone, hsome⟩ := exec_fseDecompress_of_decodes hok hruns
  cases o with
  | none =>
    obtain ⟨u, hexec⟩ := hnone rfl
    exact ⟨_, hexec, .inr ⟨rfl, rfl⟩, fun h => by rw [hregion h]; rfl⟩
  | some ws =>
    obtain ⟨hlow, hhigh, b, hexec⟩ := hsome ws rfl
    have hcap := cap.isLt
    have hresult : (BitVec.ofNat 64 ws.length).toNat = ws.length := Nat.mod_eq_of_lt (by omega)
    refine ⟨_, hexec, .inl ⟨?frame, hresult.symm ▸ hlow, hresult.symm ▸ hhigh, fun i hi => ?others⟩, fun h => ?symbols⟩
    case frame => simp only [br_get_set]
    case others => exact ramGet_putWeights_outside _ _ (.inr (by rw [zero_add]; exact hresult ▸ hi))
    case symbols =>
      rw [hregion h]
      refine ⟨rfl, hresult, fun i hi => ?_⟩
      rw [← ramGet_putWeights ws s.huf.w hi (n := 0) (by omega), zero_add]

end Sys2Proof.Machine
end

section
/-! PROOFS. HUF.BUILD (R204 to R206): the slots of the symbols in a canonical table, which are apart and fill it, and the loops
that count the weights, place the ranks and fill the slots. -/
namespace Sys2Proof.Machine

/-! ## Slots by weight (R206) -/

theorem weightTotal_cons (x : Nat) (l : List Nat) :
    weightTotal (x :: l) = (if x = 0 then 0 else 2 ^ (x - 1)) + weightTotal l := by
  simp [weightTotal]

/-- Where the slots of weight `w` start: after those of the smaller weights. -/
def classStart (ws : List Nat) (w : Nat) : Nat := weightTotal (ws.filter fun x => decide (x < w))

theorem slotStart_eq (ws : List Nat) (s : Nat) :
    slotStart ws s = classStart ws (ws.getD s 0) + (ws.take s).count (ws.getD s 0) * 2 ^ (ws.getD s 0 - 1) := rfl

theorem classStart_succ (ws : List Nat) {w : Nat} (hw : 1 ≤ w) :
    classStart ws (w + 1) = classStart ws w + ws.count w * 2 ^ (w - 1) := by
  induction ws with
  | nil => simp [classStart, weightTotal]
  | cons x l ih =>
    unfold classStart at ih ⊢
    rw [List.filter_cons, List.filter_cons, List.count_cons, add_mul]
    rcases lt_trichotomy x w with h | rfl | h
    · simp only [show x < w + 1 by omega, h, decide_true, if_true, weightTotal_cons, ih, beq_iff_eq, h.ne, if_false]
      ring
    · simp only [lt_irrefl, decide_false, decide_true, if_true, Nat.lt_succ_self, weightTotal_cons, ih, beq_self_eq_true,
        show x ≠ 0 by omega, if_false, Bool.false_eq_true]
      ring
    · simpa [h.not_ge, h.not_gt, h.ne'] using ih

theorem classStart_zero (ws : List Nat) : classStart ws 0 = 0 := by simp [classStart, weightTotal]

theorem classStart_one (ws : List Nat) : classStart ws 1 = 0 := by
  have hall : ∀ x ∈ ws.filter fun x => decide (x < 1), (if x = 0 then 0 else 2 ^ (x - 1)) = 0 := by
    intro x hx
    have hlt : x < 1 := of_decide_eq_true (List.mem_filter.mp hx).2
    rw [if_pos (by omega)]
  rw [classStart, weightTotal, List.map_congr_left hall]
  simp

theorem classStart_mono (ws : List Nat) : Monotone (classStart ws) := by
  refine monotone_nat_of_le_succ fun w => ?_
  rcases Nat.eq_zero_or_pos w with rfl | hw
  · rw [classStart_zero]; exact Nat.zero_le _
  · rw [classStart_succ ws hw]; exact Nat.le_add_right _ _

theorem classStart_eq_total {ws : List Nat} {w : Nat} (h : ∀ x ∈ ws, x < w) : classStart ws w = weightTotal ws := by
  rw [classStart, List.filter_eq_self.mpr fun x hx => decide_eq_true (h x hx)]

theorem count_take_succ (ws : List Nat) (s w : Nat) (hs : s < ws.length) :
    (ws.take (s + 1)).count w = (ws.take s).count w + if ws.getD s 0 = w then 1 else 0 := by
  rw [List.take_succ_eq_append_getElem hs, List.count_append, List.getD_eq_getElem _ _ hs]
  simp [List.count_singleton, beq_iff_eq]

theorem count_take_le (ws : List Nat) {s r : Nat} (h : s ≤ r) (w : Nat) : (ws.take s).count w ≤ (ws.take r).count w :=
  (List.take_sublist_take_left h).count_le w

/-- The slots of a symbol end with those of its weight, or before. -/
theorem slotStart_add_le (ws : List Nat) {s : Nat} (hs : s < ws.length) (hw : 1 ≤ ws.getD s 0) :
    slotStart ws s + 2 ^ (ws.getD s 0 - 1) ≤ classStart ws (ws.getD s 0 + 1) := by
  have hcount : (ws.take s).count (ws.getD s 0) + 1 ≤ ws.count (ws.getD s 0) := by
    have h := count_take_succ ws s (ws.getD s 0) hs
    rw [if_pos rfl] at h
    rw [← h]
    exact (List.take_sublist _ _).count_le _
  rw [slotStart_eq, classStart_succ ws hw, add_assoc, ← Nat.succ_mul]
  exact Nat.add_le_add_left (Nat.mul_le_mul_right _ hcount) _

/-- Symbols of one weight have their slots in the order of the symbols. -/
theorem slotStart_add_le_of_eq {ws : List Nat} {s r : Nat} (hr : r < ws.length) (h : s < r)
    (hw : ws.getD s 0 = ws.getD r 0) : slotStart ws s + 2 ^ (ws.getD s 0 - 1) ≤ slotStart ws r := by
  have hcount := count_take_succ ws s (ws.getD s 0) (h.trans hr)
  rw [if_pos rfl] at hcount
  rw [slotStart_eq, slotStart_eq, add_assoc, ← Nat.succ_mul, ← hw]
  refine Nat.add_le_add_left (Nat.mul_le_mul_right _ ?_) _
  exact hcount.symm.trans_le (count_take_le ws h _)

/-- The slots of two symbols are apart. -/
theorem slots_apart {ws : List Nat} {s r : Nat} (hs : s < ws.length) (hr : r < ws.length) (hne : s ≠ r)
    (hws : 1 ≤ ws.getD s 0) (hwr : 1 ≤ ws.getD r 0) :
    slotStart ws s + 2 ^ (ws.getD s 0 - 1) ≤ slotStart ws r ∨ slotStart ws r + 2 ^ (ws.getD r 0 - 1) ≤ slotStart ws s := by
  have below {a b : Nat} (ha : a < ws.length) (hwa : 1 ≤ ws.getD a 0) (h : ws.getD a 0 < ws.getD b 0) :
      slotStart ws a + 2 ^ (ws.getD a 0 - 1) ≤ slotStart ws b :=
    (slotStart_add_le ws ha hwa).trans ((classStart_mono ws h).trans (Nat.le_add_right _ _))
  rcases lt_trichotomy (ws.getD s 0) (ws.getD r 0) with h | h | h
  · exact .inl (below hs hws h)
  · rcases Nat.lt_or_gt_of_ne hne with hlt | hlt
    · exact .inl (slotStart_add_le_of_eq hr hlt h)
    · exact .inr (slotStart_add_le_of_eq hs hlt h.symm)
  · exact .inr (below hr hwr h)

/-- A weight that occurs more than `k` times has an occurrence after `k` others. -/
theorem exists_occurrence (ws : List Nat) {w k : Nat} (h : k < ws.count w) :
    ∃ s < ws.length, ws.getD s 0 = w ∧ (ws.take s).count w = k := by
  induction ws generalizing k with
  | nil => simp at h
  | cons x l ih =>
    rw [List.count_cons] at h
    by_cases hx : x = w
    · subst hx
      cases k with
      | zero => exact ⟨0, by simp, rfl, rfl⟩
      | succ k =>
        obtain ⟨s, hs, hw, hk⟩ := ih (k := k) (by simpa using h)
        exact ⟨s + 1, by simpa using hs, by simpa using hw, by simp [hk]⟩
    · obtain ⟨s, hs, hw, hk⟩ := ih (k := k) (by simpa [hx] using h)
      exact ⟨s + 1, by simpa using hs, by simpa using hw, by simpa [List.count_cons, hx] using hk⟩

/-- Every slot below the total is a slot of some symbol. -/
theorem exists_slot (ws : List Nat) {p : Nat} (hp : p < weightTotal ws) :
    ∃ s < ws.length, 1 ≤ ws.getD s 0 ∧ ∃ j < 2 ^ (ws.getD s 0 - 1), p = slotStart ws s + j := by
  have hex : ∃ w, p < classStart ws (w + 1) := by
    refine ⟨ws.sum, ?_⟩
    rwa [classStart_eq_total fun x hx => Nat.lt_succ_of_le (List.le_sum_of_mem hx)]
  obtain ⟨w, hhigh, hmin⟩ : ∃ w, p < classStart ws (w + 1) ∧ ∀ v < w, ¬ p < classStart ws (v + 1) :=
    ⟨Nat.find hex, Nat.find_spec hex, fun v hv => Nat.find_min hex hv⟩
  cases w with
  | zero => rw [classStart_one] at hhigh; omega
  | succ v =>
    have hlow : classStart ws (v + 1) ≤ p := Nat.not_lt.mp (hmin v (Nat.lt_succ_self v))
    rw [classStart_succ ws (Nat.le_add_left 1 v), Nat.add_sub_cancel] at hhigh
    obtain ⟨s, hs, hw, hk⟩ := exists_occurrence ws (w := v + 1) (k := (p - classStart ws (v + 1)) / 2 ^ v)
      (Nat.div_lt_of_lt_mul (by rw [mul_comm]; omega))
    refine ⟨s, hs, by omega, (p - classStart ws (v + 1)) % 2 ^ v, ?_, ?_⟩
    · rw [hw]
      exact Nat.mod_lt _ (by positivity)
    · rw [slotStart_eq, hw, hk, Nat.add_sub_cancel, add_assoc, Nat.div_add_mod']
      omega

/-! ## The weights with the implied last one (R205) -/

/-- Weights whose slots fill a table of log `log` (R205). -/
structure FullWeights (ws : List Nat) (log : Nat) : Prop where
  length_le : ws.length ≤ 256
  one_le_log : 1 ≤ log
  log_le : log ≤ 12
  le : ∀ x ∈ ws, x ≤ log
  total : weightTotal ws = 2 ^ log

namespace FullWeights

variable {ws : List Nat} {log : Nat}

theorem getD_le (hf : FullWeights ws log) (s : Nat) : ws.getD s 0 ≤ log := by
  by_cases hs : s < ws.length
  · rw [List.getD_eq_getElem _ _ hs]
    exact hf.le _ (List.getElem_mem hs)
  · rw [List.getD_eq_default _ _ (Nat.not_lt.mp hs)]
    exact Nat.zero_le _

theorem classStart_le (hf : FullWeights ws log) {w : Nat} (hw : w ≤ log + 1) : classStart ws w ≤ 2 ^ log := by
  rw [← hf.total, ← classStart_eq_total (w := log + 1) fun x hx => Nat.lt_succ_of_le (hf.le x hx)]
  exact classStart_mono ws hw

theorem slot_end_le (hf : FullWeights ws log) {s : Nat} (hs : s < ws.length) (hw : 1 ≤ ws.getD s 0) :
    slotStart ws s + 2 ^ (ws.getD s 0 - 1) ≤ 2 ^ log :=
  (slotStart_add_le ws hs hw).trans (hf.classStart_le (Nat.succ_le_succ (hf.getD_le s)))

theorem two_pow_log_le (hf : FullWeights ws log) : 2 ^ log ≤ 4096 :=
  (Nat.pow_le_pow_right (by omega) hf.log_le).trans_eq (by norm_num)

end FullWeights

/-! ## Filling the slots (R206) -/

theorem ramGet_fillSlots (e : HufEntry) (n i k : Nat) (v : Vector HufEntry 4096) (hn : i + n ≤ 4096) :
    ramGet (fillSlots e n i v) k ⟨0, 0⟩ = if i ≤ k ∧ k < i + n then e else ramGet v k ⟨0, 0⟩ := by
  induction n generalizing i v with
  | zero => rw [if_neg (by omega)]; rfl
  | succ n ih =>
    rw [fillSlots, ih _ _ (by omega)]
    by_cases hk : k = i
    · subst hk
      rw [if_neg (by omega), if_pos (by omega), ramGet_set_same _ _ _ _ (by omega)]
    · rw [ramGet_set_other _ _ _ _ _ hk]
      exact if_congr (by omega) rfl rfl

/-- The entry in every slot of a symbol (R206). -/
def slotEntry (ws : List Nat) (log s : Nat) : HufEntry :=
  ⟨BitVec.ofNat 8 s, BitVec.ofNat 4 (log + 1 - ws.getD s 0)⟩

/-- The slots of the symbols below `i` are filled, and the next symbol of each weight is placed after them. -/
structure SlotsFilled (ws : List Nat) (log i : Nat) (h : HufRegs) : Prop where
  weights : ∀ k < ws.length, (ramGet h.w k 0).toNat = ws.getD k 0
  starts : ∀ w, 1 ≤ w → w ≤ log →
    (ramGet h.rstart w 0).toNat = classStart ws w + (ws.take i).count w * 2 ^ (w - 1)
  slots : ∀ s < i, 1 ≤ ws.getD s 0 → ∀ j < 2 ^ (ws.getD s 0 - 1),
    ramGet h.ram (slotStart ws s + j) ⟨0, 0⟩ = slotEntry ws log s

/-- The Huffman unit after the slots of symbol `i` of weight `w` are filled (R204). -/
def placeSlots (log i w : Nat) (h : HufRegs) : HufRegs :=
  let at0 := (ramGet h.rstart w 0).toNat
  { h with
    ram := fillSlots ⟨BitVec.ofNat 8 i, BitVec.ofNat 4 (log + 1 - w)⟩ (2 ^ (w - 1)) at0 h.ram
    rstart := ramSet h.rstart w (BitVec.ofNat 13 (at0 + 2 ^ (w - 1))) }

theorem symbolSlots_succ (log n i : Nat) (h : HufRegs) :
    symbolSlots log (n + 1) i h =
      symbolSlots log n (i + 1) (if ramGet h.w i 0 = 0 then h else placeSlots log i (ramGet h.w i 0).toNat h) := by
  rw [symbolSlots]
  have hz : (ramGet h.w i 0).toNat = 0 ↔ ramGet h.w i 0 = 0 := (BitVec.toNat_eq (y := 0#8)).symm
  by_cases h0 : ramGet h.w i 0 = 0
  · rw [if_pos h0, if_pos (hz.mpr h0)]
  · rw [if_neg h0, if_neg (mt hz.mp h0)]
    rfl

section
variable {ws : List Nat} {log i n : Nat} {h : HufRegs}

/-- A symbol of weight 0 has no slots. -/
theorem SlotsFilled.skip (hs : SlotsFilled ws log i h) (hi : i < ws.length) (hw : ws.getD i 0 = 0) :
    SlotsFilled ws log (i + 1) h := by
  refine ⟨hs.weights, fun w h1 hl => ?_, fun s hlt h1 => ?_⟩
  · rw [hs.starts w h1 hl, count_take_succ ws i w hi, if_neg (by omega), add_zero]
  · exact hs.slots s (Nat.lt_of_le_of_ne (Nat.le_of_lt_succ hlt) (by rintro rfl; omega)) h1

variable (hf : FullWeights ws log)
include hf

/-- A symbol takes the slots that come next for its weight; the others keep theirs. -/
theorem SlotsFilled.place (hs : SlotsFilled ws log i h) (hi : i < ws.length) (hw : 1 ≤ ws.getD i 0) :
    SlotsFilled ws log (i + 1) (placeSlots log i (ws.getD i 0) h) := by
  have hle := hf.getD_le i
  have hlog := hf.log_le
  have hend := hf.slot_end_le hi hw
  have htwo := hf.two_pow_log_le
  have hat : (ramGet h.rstart (ws.getD i 0) 0).toNat = slotStart ws i := hs.starts _ hw hle
  have hram (k : Nat) : ramGet (placeSlots log i (ws.getD i 0) h).ram k ⟨0, 0⟩ =
      if slotStart ws i ≤ k ∧ k < slotStart ws i + 2 ^ (ws.getD i 0 - 1) then slotEntry ws log i
      else ramGet h.ram k ⟨0, 0⟩ := by
    simp only [placeSlots, hat]
    exact ramGet_fillSlots _ _ _ _ _ (by omega)
  refine ⟨hs.weights, fun w h1 hl => ?_, fun s hlt h1 j hj => ?_⟩
  · simp only [placeSlots, hat]
    rw [count_take_succ ws i w hi]
    by_cases hwi : ws.getD i 0 = w
    · subst hwi
      rw [ramGet_set_same _ _ _ _ (by omega), if_pos rfl, BitVec.toNat_ofNat, Nat.mod_eq_of_lt (by omega), slotStart_eq,
        add_mul, one_mul, add_assoc]
    · rw [ramGet_set_other _ _ _ _ _ (Ne.symm hwi), if_neg hwi, add_zero]
      exact hs.starts w h1 hl
  · rw [hram]
    by_cases hsi : s = i
    · subst hsi
      rw [if_pos (by omega)]
    · have hslt : s < i := by omega
      have hapart := slots_apart (hslt.trans hi) hi hsi h1 hw
      rw [if_neg (by omega)]
      exact hs.slots s hslt h1 j hj

theorem symbolSlots_filled (hs : SlotsFilled ws log i h) (hn : i + n = ws.length) :
    SlotsFilled ws log ws.length (symbolSlots log n i h) := by
  induction n generalizing i h with
  | zero => exact hn ▸ hs
  | succ n ih =>
    have hi : i < ws.length := by omega
    have hw := hs.weights i hi
    rw [symbolSlots_succ, hw]
    refine ih ?_ (by omega)
    split
    case isTrue h0 => exact hs.skip hi (by rw [← hw, h0]; rfl)
    case isFalse h0 =>
      refine hs.place hf hi (Nat.pos_of_ne_zero fun hz => h0 (BitVec.eq_of_toNat_eq ?_))
      rw [hw, hz]
      rfl

/-- A table whose slots are filled has a code of 1 to `log` bits in every slot (R38, R206). -/
theorem SlotsFilled.tableOk (hs : SlotsFilled ws log ws.length h) (hlog : h.log.toNat = log) : hufTableOk h := by
  have hle := hf.log_le
  refine ⟨hlog ▸ hf.one_le_log, hlog ▸ hle, fun p hp => ?_⟩
  rw [hlog] at hp ⊢
  obtain ⟨s, hlt, hw, j, hj, rfl⟩ := exists_slot ws (hf.total ▸ hp)
  have hws := hf.getD_le s
  rw [hs.slots s hlt hw j hj, slotEntry, BitVec.toNat_ofNat, Nat.mod_eq_of_lt (by omega)]
  omega

end

/-! ## The ranks (R204) -/

/-- The rank counters after a list of weights. -/
def countRanks (rank : Vector (BitVec 16) 13) (ws : List Nat) : Vector (BitVec 16) 13 :=
  ws.foldl (fun r w => ramSet r w (ramGet r w 0 + 1)) rank

theorem ramGet_countRanks (rank : Vector (BitVec 16) 13) (ws : List Nat) {w : Nat} (hw : w ≤ 12) :
    ramGet (countRanks rank ws) w 0 = ramGet rank w 0 + BitVec.ofNat 16 (ws.count w) := by
  induction ws generalizing rank with
  | nil => simp [countRanks]
  | cons x l ih =>
    rw [countRanks, List.foldl_cons]
    refine (ih _).trans ?_
    by_cases hx : x = w
    · subst hx
      rw [ramGet_set_same _ _ _ _ (by omega), List.count_cons_self, Nat.add_comm, BitVec.ofNat_add, BitVec.add_assoc]
      rfl
    · rw [ramGet_set_other _ _ _ _ _ (Ne.symm hx), List.count_cons_of_ne hx]

/-- The `n` weights from symbol `i` on. -/
def weightsFrom (w : Vector (BitVec 8) 256) (i n : Nat) : List Nat := (List.range' i n).map fun k => (ramGet w k 0).toNat

theorem hufWeights_eq (h : HufRegs) (n : Nat) : hufWeights h n = weightsFrom h.w 0 n := by
  rw [hufWeights, weightsFrom, List.range_eq_range']

theorem weightsFrom_succ (w : Vector (BitVec 8) 256) (i n : Nat) :
    weightsFrom w i (n + 1) = (ramGet w i 0).toNat :: weightsFrom w (i + 1) n := by
  rw [weightsFrom, List.range'_succ]
  rfl

theorem countWeights_of_le {n i total : Nat} {h : HufRegs} (hle : ∀ x ∈ weightsFrom h.w i n, x ≤ Config.hufMaxLog) :
    countWeights n i total h =
      .ok (total + weightTotal (weightsFrom h.w i n)) { h with rank := countRanks h.rank (weightsFrom h.w i n) } := by
  induction n generalizing i total h with
  | zero => rfl
  | succ n ih =>
    rw [weightsFrom_succ, List.forall_mem_cons] at hle
    rw [countWeights, weightsFrom_succ, weightTotal_cons]
    rw [if_neg (Nat.not_lt.mpr hle.1)]
    refine (ih (h := { h with rank := countRanks h.rank [(ramGet h.w i 0).toNat] }) hle.2).trans ?_
    dsimp only
    congr 1
    split <;> omega

theorem countWeights_of_gt {n i total : Nat} {h : HufRegs} (hgt : ∃ x ∈ weightsFrom h.w i n, Config.hufMaxLog < x) :
    ∃ g, countWeights n i total h = .raise .hufWeight g := by
  induction n generalizing i total h with
  | zero => simp [weightsFrom] at hgt
  | succ n ih =>
    rw [countWeights]
    split
    case isTrue => exact ⟨_, rfl⟩
    case isFalse hle =>
      refine ih ?_
      rw [weightsFrom_succ] at hgt
      obtain ⟨x, hx, hlt⟩ := hgt
      rcases List.mem_cons.mp hx with rfl | hx
      · exact absurd hlt hle
      · exact ⟨x, hx, hlt⟩

theorem rankStarts_w (n w nxt : Nat) (h : HufRegs) : (rankStarts n w nxt h).w = h.w := by
  induction n generalizing w nxt h with
  | zero => rfl
  | succ n ih => exact ih _ _ _

theorem rankStarts_below {n w nxt v : Nat} {h : HufRegs} (hv : v < w) :
    ramGet (rankStarts n w nxt h).rstart v 0 = ramGet h.rstart v 0 := by
  induction n generalizing w nxt h with
  | zero => rfl
  | succ n ih =>
    rw [rankStarts, ih (by omega)]
    exact ramGet_set_other _ _ _ _ _ (by omega)

/-- The first slots by weight, where the ranks are the numbers of the weights. -/
theorem rankStarts_starts {ws : List Nat} {n w : Nat} {h : HufRegs} (hw : 1 ≤ w) (hn : w + n ≤ 14)
    (hrank : ∀ v, w ≤ v → v < w + n → (ramGet h.rank v 0).toNat = ws.count v)
    (hfit : ∀ v, v < w + n → classStart ws v < 8192) {v : Nat} (hwv : w ≤ v) (hv : v < w + n) :
    (ramGet (rankStarts n w (classStart ws w) h).rstart v 0).toNat = classStart ws v := by
  induction n generalizing w h with
  | zero => omega
  | succ n ih =>
    rw [rankStarts, hrank w le_rfl (by omega), ← classStart_succ ws hw]
    rcases Nat.eq_or_lt_of_le hwv with rfl | hlt
    · rw [rankStarts_below (Nat.lt_succ_self _), ramGet_set_same _ _ _ _ (by omega), BitVec.toNat_ofNat,
        Nat.mod_eq_of_lt (hfit _ hv)]
    · exact ih (Nat.le_succ_of_le hw) (by omega) (fun u hu hu' => hrank u (by omega) (by omega))
        (fun u hu => hfit u (by omega)) hlt (by omega)

/-! ## HUF.BUILD (R204) -/

section
variable {w : List Nat}

theorem two_pow_le_weightTotal {x : Nat} (hx : x ∈ w) (h0 : x ≠ 0) : 2 ^ (x - 1) ≤ weightTotal w := by
  have hmem := List.mem_map_of_mem (f := fun x => if x = 0 then 0 else 2 ^ (x - 1)) hx
  rw [if_neg h0] at hmem
  exact List.le_sum_of_mem hmem

/-- The total lies between the powers of two around it, so the rest is not above half the table. -/
theorem weightRest_bounds (h0 : weightTotal w ≠ 0) :
    weightTotal w < 2 ^ weightLog w ∧ weightRest w ≠ 0 ∧ highbit (weightRest w) + 1 ≤ weightLog w := by
  have hlow : 2 ^ highbit (weightTotal w) ≤ weightTotal w := Nat.log2_self_le h0
  have hhigh : weightTotal w < 2 ^ (highbit (weightTotal w) + 1) := Nat.lt_log2_self
  have hrest : weightRest w ≠ 0 := by
    rw [weightRest, weightLog]
    omega
  refine ⟨hhigh, hrest, (Nat.log2_lt hrest).mpr ?_⟩
  rw [weightRest, weightLog]
  rw [pow_succ] at hhigh ⊢
  have hpos : 0 < 2 ^ highbit (weightTotal w) := by positivity
  omega

/-- Weights that pass the checks of R204 fill their table with the implied last one (R205). -/
theorem fullWeights_allWeights (hlen : w.length ≤ 255) (h0 : weightTotal w ≠ 0) (hlog : weightLog w ≤ Config.hufMaxLog)
    (hrest : weightRest w = 2 ^ highbit (weightRest w)) : FullWeights (allWeights w) (weightLog w) := by
  obtain ⟨hlt, -, hlast⟩ := weightRest_bounds h0
  refine ⟨?_, Nat.le_add_left _ _, hlog, fun x hx => ?_, ?_⟩
  · rw [allWeights, List.length_append, List.length_singleton]
    omega
  · rcases List.mem_append.mp hx with hx | hx
    · by_cases hx0 : x = 0
      · omega
      · have hpow := (Nat.pow_lt_pow_iff_right (by omega : 1 < 2)).mp ((two_pow_le_weightTotal hx hx0).trans_lt hlt)
        omega
    · rw [List.mem_singleton.mp hx]
      exact hlast
  · have happ : weightTotal (allWeights w) = weightTotal w + 2 ^ highbit (weightRest w) := by
      simp [allWeights, weightTotal]
    rw [happ, ← hrest, weightRest]
    omega

end

section
variable {n : Nat} {g : HufRegs}

@[simp] theorem hufWeights_length (h : HufRegs) (n : Nat) : (hufWeights h n).length = n := by
  rw [hufWeights, List.length_map, List.length_range]

theorem hufWeights_getD (h : HufRegs) {n k : Nat} (hk : k < n) : (hufWeights h n).getD k 0 = (ramGet h.w k 0).toNat := by
  rw [List.getD_eq_getElem _ _ (by simpa using hk)]
  simp [hufWeights]

/-- The unit with the implied last weight placed and counted (R205). -/
def addLastWeight (n : Nat) (w : List Nat) (g : HufRegs) : HufRegs :=
  { g with
    w := ramSet g.w n (BitVec.ofNat 8 (highbit (weightRest w) + 1))
    rank := countRanks (Vector.replicate 13 0) (allWeights w) }

/-- The table of the weights with the implied last one (R204). -/
def tableOfWeights (n : Nat) (w : List Nat) (g : HufRegs) : HufRegs :=
  { symbolSlots (weightLog w) (n + 1) 0 (rankStarts (weightLog w) 1 0 (addLastWeight n w g)) with
    log := BitVec.ofNat 4 (weightLog w) }

theorem rank_one_eq_count {ws : List Nat} (h : ws.length ≤ 256) :
    (ramGet (countRanks (Vector.replicate 13 0) ws) 1 0).toNat = ws.count 1 := by
  have hcount : ws.count 1 ≤ ws.length := List.count_le_length
  have hzero : ramGet (Vector.replicate 13 (0 : BitVec 16)) 1 0 = 0#16 := rfl
  rw [ramGet_countRanks _ _ (by omega), hzero, BitVec.zero_add, BitVec.toNat_ofNat, Nat.mod_eq_of_lt (by omega)]

/-- HUF.BUILD of weights that are at most 12: its other checks and its table, in the terms of R205. -/
theorem hufBuild_eq (hn : n ≤ 255) (hle : ∀ x ∈ hufWeights g n, x ≤ Config.hufMaxLog) :
    let w := hufWeights g n
    let counted := { g with rank := countRanks (Vector.replicate 13 0) w }
    hufBuild n g =
      if weightTotal w = 0 then .raise .hufTotal counted
      else if Config.hufMaxLog < weightLog w then .raise .hufLog counted
      else if weightRest w ≠ 2 ^ highbit (weightRest w) then .raise .hufRest counted
      else if (allWeights w).count 1 < 2 ∨ (allWeights w).count 1 % 2 = 1 then .raise .hufRank1 (addLastWeight n w g)
      else .ok () (tableOfWeights n w g) := by
  intro w counted
  have hlast : countRanks (Vector.replicate 13 0) (allWeights w) =
      ramSet counted.rank (highbit (weightRest w) + 1) (ramGet counted.rank (highbit (weightRest w) + 1) 0 + 1) := by
    rw [allWeights, countRanks, List.foldl_append]
    rfl
  have hone := rank_one_eq_count (ws := allWeights w) (by simp [allWeights, w]; omega)
  rw [← hone, tableOfWeights, addLastWeight, hlast, hufBuild, countWeights_of_le (by rwa [← hufWeights_eq]), bind_ok,
    ← hufWeights_eq, zero_add]
  rfl

/-- The first check that fails gives the fault (R204). -/
theorem hufBuild_of_fault {e : ErrCode} (hn : n ≤ 255) (hw : weightFault (hufWeights g n) = some e) :
    ∃ u, hufBuild n g = .raise e u := by
  unfold weightFault at hw
  split at hw
  case isTrue hgt =>
    cases hw
    obtain ⟨x, hx, hlt⟩ := List.any_eq_true.mp hgt
    rw [hufWeights_eq] at hx
    obtain ⟨u, hu⟩ := countWeights_of_gt (total := 0) (h := { g with rank := Vector.replicate 13 0 })
      ⟨x, hx, of_decide_eq_true hlt⟩
    exact ⟨u, by rw [hufBuild, hu, bind_raise]⟩
  case isFalse hle =>
    rw [hufBuild_eq hn fun x hx => Nat.not_lt.mp fun hlt => hle (List.any_eq_true.mpr ⟨x, hx, decide_eq_true hlt⟩)]
    split_ifs at hw ⊢ <;> cases hw <;> exact ⟨_, rfl⟩

/-- The checks that weights without a fault pass. -/
theorem checks_of_weightFault {w : List Nat} (hw : weightFault w = none) :
    (∀ x ∈ w, x ≤ Config.hufMaxLog) ∧ weightTotal w ≠ 0 ∧ weightLog w ≤ Config.hufMaxLog ∧
    weightRest w = 2 ^ highbit (weightRest w) ∧ ¬ ((allWeights w).count 1 < 2 ∨ (allWeights w).count 1 % 2 = 1) := by
  unfold weightFault at hw
  split_ifs at hw with hle h0 hlog hrest hrank
  exact ⟨fun x hx => Nat.not_lt.mp fun hlt => hle (List.any_eq_true.mpr ⟨x, hx, decide_eq_true hlt⟩), h0,
    Nat.not_lt.mp hlog, not_not.mp hrest, hrank⟩

/-- The weights of the unit with the last one placed are all the weights. -/
theorem addLastWeight_weights {w : List Nat} (hn : n ≤ 255) (hw : hufWeights g n = w)
    (hlast : highbit (weightRest w) + 1 ≤ 12) {k : Nat} (hk : k < n + 1) :
    (ramGet (addLastWeight n w g).w k 0).toNat = (allWeights w).getD k 0 := by
  have hlen : w.length = n := hw ▸ hufWeights_length g n
  unfold addLastWeight allWeights
  dsimp only
  rcases Nat.eq_or_lt_of_le (Nat.le_of_lt_succ hk) with rfl | hlt
  · rw [ramGet_set_same _ _ _ _ (by omega), List.getD_append_right _ _ _ _ hlen.le, hlen, Nat.sub_self,
      BitVec.toNat_ofNat, Nat.mod_eq_of_lt (by omega)]
    rfl
  · rw [ramGet_set_other _ _ _ _ _ hlt.ne, List.getD_append _ _ _ _ (by omega), ← hw, hufWeights_getD g hlt]

/-- Before any slot is filled, the symbols of each weight are placed after those of the smaller weights. -/
theorem rankStarts_slotsFilled {w : List Nat} (hn : n ≤ 255) (hw : hufWeights g n = w)
    (hf : FullWeights (allWeights w) (weightLog w)) (hlast : highbit (weightRest w) + 1 ≤ 12) :
    SlotsFilled (allWeights w) (weightLog w) 0 (rankStarts (weightLog w) 1 0 (addLastWeight n w g)) := by
  have hlen : (allWeights w).length = n + 1 := by rw [allWeights, List.length_append, ← hw, hufWeights_length]; rfl
  have hlog := hf.log_le
  have htwo := hf.two_pow_log_le
  refine ⟨fun k hk => ?_, fun v h1 hv => ?_, fun s hs => absurd hs (Nat.not_lt_zero s)⟩
  · rw [rankStarts_w]
    exact addLastWeight_weights hn hw hlast (hlen ▸ hk)
  · have hzero (v : Nat) (hv : v ≤ 12) : ramGet (Vector.replicate 13 (0 : BitVec 16)) v 0 = 0#16 := by
      simp [ramGet, show v < 13 by omega]
    have hstart := rankStarts_starts (ws := allWeights w) (n := weightLog w) (w := 1) (h := addLastWeight n w g) le_rfl
      (by omega) (fun v _ hv => ?rank) (fun v hv => ?fit) h1 (by omega)
    case rank =>
      have hcount : (allWeights w).count v ≤ (allWeights w).length := List.count_le_length
      rw [addLastWeight, ramGet_countRanks _ _ (by omega), hzero v (by omega), BitVec.zero_add, BitVec.toNat_ofNat,
        Nat.mod_eq_of_lt (by omega)]
    case fit =>
      have := hf.classStart_le (w := v) (by omega)
      omega
    rw [classStart_one] at hstart
    rw [hstart, List.take_zero, List.count_nil, zero_mul, add_zero]

/-- Weights that pass the checks give the table of R206. -/
theorem hufBuild_of_noFault (hn : n ≤ 255) (hw : weightFault (hufWeights g n) = none) :
    ∃ u, hufBuild n g = .ok () u ∧ u.loaded = g.loaded ∧ hufBuiltFrom u (hufWeights g n) := by
  obtain ⟨hle, h0, hlog, hrest, hrank⟩ := checks_of_weightFault hw
  have hrun := hufBuild_eq hn hle
  simp only [h0, Nat.not_lt.mpr hlog, not_not.mpr hrest, hrank, if_false] at hrun
  generalize hws : hufWeights g n = w at *
  have hlen : w.length = n := hws ▸ hufWeights_length g n
  have hf := fullWeights_allWeights (by omega) h0 hlog hrest
  have hlog12 : weightLog w ≤ 12 := hlog
  have hlast := (weightRest_bounds h0).2.2
  have hall : (allWeights w).length = n + 1 := by rw [allWeights, List.length_append, hlen]; rfl
  have hfilled := symbolSlots_filled hf (rankStarts_slotsFilled hn hws hf (by omega)) (by rw [hall, zero_add])
  have hlogEq : (tableOfWeights n w g).log.toNat = weightLog w := Nat.mod_eq_of_lt (by omega)
  have htable : SlotsFilled (allWeights w) (weightLog w) (allWeights w).length (tableOfWeights n w g) :=
    ⟨hfilled.weights, hfilled.starts, hfilled.slots⟩
  refine ⟨_, hrun, (symbolSlots_loaded _ _ _ _).trans (rankStarts_loaded _ _ _ _), ?weights, hlogEq,
    htable.tableOk hf hlogEq, fun s hs j hj => ?slots⟩
  case weights =>
    refine Eq.trans (List.map_congr_left fun k hk => ?_) (hlen.symm ▸ hws)
    have hkn : k < n := hlen ▸ List.mem_range.mp hk
    rw [htable.weights k (by omega), allWeights, List.getD_append _ _ _ _ (by omega), ← hws, hufWeights_getD g hkn]
  case slots =>
    have hlt : s < (allWeights w).length := by
      by_contra hge
      rw [List.getD_eq_default _ _ (Nat.not_lt.mp hge)] at hs
      omega
    exact htable.slots s hlt hs j hj

end

/-! ## The instruction HUF.BUILD -/

/-- Settles O57, by `hufBuild_of_noFault` and `hufBuild_of_fault`. -/
theorem huffmanTableBuilt : Obligations.HuffmanTableBuilt := by
  intro nM s hwf w ws
  have hn : nM.toNat + 1 ≤ 255 := by
    have hne : nM ≠ 255 := of_decide_eq_true hwf
    have : nM.toNat ≠ 255 := fun h => hne (BitVec.eq_of_toNat_eq h)
    omega
  have hexec : exec (.hufBuild nM) s = finish ((hufBuild (nM.toNat + 1) s.huf).lift fun h => { s with huf := h }) := rfl
  refine ⟨fun hw => ?_, fun e hw => ?_⟩
  · obtain ⟨u, hrun, hloaded, -, hlog, htable, hslots⟩ := hufBuild_of_noFault hn hw
    exact ⟨_, by rw [hexec, hrun, lift_ok, finish_ok], rfl, hloaded, hlog, htable, hslots⟩
  · obtain ⟨u, hrun⟩ := hufBuild_of_fault hn hw
    have hloaded := hufBuild_loaded (nM.toNat + 1) s.huf
    rw [hrun] at hloaded
    cases hloaded with
    | raise h => exact ⟨_, by rw [hexec, hrun, lift_raise, finish_raise], rfl, rfl, h⟩

end Sys2Proof.Machine
end

section
/-! PROOFS. HUF.READTABLE and the tree elements (R103, R201 to R208, R296): the weights of the direct form, the three operations
of the FSE form, and the table installed of either. -/
namespace Sys2Proof.Machine

/-! ## Installing a table (R207) -/

section
variable {n used : Nat} {s : State}

theorem hufInstall_of_noFault (hn : n ≤ 255) (hw : weightFault (hufWeights s.huf n) = none) :
    ∃ u, hufInstall n used s = .ok used { s with huf := u } ∧ u.loaded = true ∧
      hufBuiltFrom u (hufWeights s.huf n) := by
  obtain ⟨g, hrun, -, hbuilt⟩ := hufBuild_of_noFault hn hw
  exact ⟨{ g with loaded := true }, by rw [hufInstall, State.hufBuild, hrun]; rfl, rfl, hbuilt⟩

theorem hufInstall_of_fault {e : ErrCode} (hn : n ≤ 255) (hw : weightFault (hufWeights s.huf n) = some e) :
    ∃ t, hufInstall n used s = .raise e t := by
  obtain ⟨g, hrun⟩ := hufBuild_of_fault hn hw
  exact ⟨_, by rw [hufInstall, State.hufBuild, hrun, lift_raise, bind_raise]⟩

end

/-! ## The direct form (R103, R202) -/

/-- Weight `k` of a direct description whose nibbles begin at `at0` (R103). -/
def nibbleAt (rd : Nat → Byte) (at0 k : Nat) : Nat :=
  if k % 2 = 0 then (rd (at0 + k / 2)).toNat / 16 else (rd (at0 + k / 2)).toNat % 16

theorem nibbleAt_lt (rd : Nat → Byte) (at0 k : Nat) : nibbleAt rd at0 k < 16 := by
  have hv := (rd (at0 + k / 2)).isLt
  unfold nibbleAt
  split <;> omega

theorem directWeightList_eq (rd : Nat → Byte) (h start : Nat) :
    directWeightList rd h start = (List.range (h - 127)).map (nibbleAt rd (start + 1)) := rfl

/-- HUF.W after byte `j` of a direct description of `n` weights (R103). -/
def putNibbles (rd : Nat → Byte) (at0 n j : Nat) (w : Vector (BitVec 8) 256) : Vector (BitVec 8) 256 :=
  let v := (rd (at0 + j)).toNat
  let w1 := ramSet w (2 * j) (BitVec.ofNat 8 (v / 16))
  if 2 * j + 1 < n then ramSet w1 (2 * j + 1) (BitVec.ofNat 8 (v % 16)) else w1

theorem directWeights_succ (rd : Nat → Byte) (at0 n m j : Nat) (w : Vector (BitVec 8) 256) :
    directWeights rd at0 n (m + 1) j w = directWeights rd at0 n m (j + 1) (putNibbles rd at0 n j w) := rfl

section
variable {rd : Nat → Byte} {at0 n m j k : Nat} (w : Vector (BitVec 8) 256) (hn : n ≤ 256) (hk : k < n)
include hn hk

theorem ramGet_putNibbles :
    ramGet (putNibbles rd at0 n j w) k 0 =
      if k / 2 = j then BitVec.ofNat 8 (nibbleAt rd at0 k) else ramGet w k 0 := by
  unfold putNibbles nibbleAt
  by_cases hj : k / 2 = j
  · subst hj
    by_cases heven : k % 2 = 0
    · rw [if_pos rfl, if_pos heven, show 2 * (k / 2) = k by omega]
      split
      · rw [ramGet_set_other _ _ _ _ _ (by omega), ramGet_set_same _ _ _ _ (by omega)]
      · rw [ramGet_set_same _ _ _ _ (by omega)]
    · rw [if_pos rfl, if_neg heven, show 2 * (k / 2) + 1 = k by omega, if_pos hk, ramGet_set_same _ _ _ _ (by omega)]
  · rw [if_neg hj]
    split
    · rw [ramGet_set_other _ _ _ _ _ (by omega), ramGet_set_other _ _ _ _ _ (by omega)]
    · rw [ramGet_set_other _ _ _ _ _ (by omega)]

theorem ramGet_directWeights :
    ramGet (directWeights rd at0 n m j w) k 0 =
      if j ≤ k / 2 ∧ k / 2 < j + m then BitVec.ofNat 8 (nibbleAt rd at0 k) else ramGet w k 0 := by
  induction m generalizing j w with
  | zero => rw [if_neg (by omega)]; rfl
  | succ m ih =>
    rw [directWeights_succ, ih, ramGet_putNibbles w hn hk]
    by_cases hj : k / 2 = j
    · rw [if_neg (by omega), if_pos hj, if_pos (by omega)]
    · rw [if_neg hj]
      exact if_congr (by omega) rfl rfl

end

/-- The state with the weights of a direct description in HUF.W. -/
def withDirectWeights (h start : Nat) (s : State) : State :=
  { s with huf := { s.huf with w := directWeights s.inByte (start + 1) (h - 127) (ceilDiv (h - 127) 2) 0 s.huf.w } }

theorem hufWeights_withDirectWeights {h : Nat} (hh : h ≤ 255) (start : Nat) (s : State) :
    hufWeights (withDirectWeights h start s).huf (h - 127) = directWeightList s.inByte h start := by
  rw [directWeightList_eq, hufWeights]
  refine List.map_congr_left fun k hk => ?_
  have hk : k < h - 127 := List.mem_range.mp hk
  have hlt := nibbleAt_lt s.inByte (start + 1) k
  rw [withDirectWeights, ramGet_directWeights _ (by omega) hk, if_pos (by rw [ceilDiv]; omega), BitVec.toNat_ofNat,
    Nat.mod_eq_of_lt (by omega)]

section
variable {h start size : Nat} {s : State}

theorem hufDirect_truncated (hs : size < 1 + ceilDiv (h - 127) 2) : hufDirect h start size s = .raise .truncated s :=
  if_pos hs

theorem hufDirect_of_le (hs : 1 + ceilDiv (h - 127) 2 ≤ size) :
    hufDirect h start size s = hufInstall (h - 127) (1 + ceilDiv (h - 127) 2) (withDirectWeights h start s) :=
  if_neg (Nat.not_lt.mpr hs)

theorem hufDirect_of_noFault (hh : h ≤ 255) (hs : 1 + ceilDiv (h - 127) 2 ≤ size)
    (hw : weightFault (directWeightList s.inByte h start) = none) :
    ∃ u, hufDirect h start size s = .ok (1 + ceilDiv (h - 127) 2) { s with huf := u } ∧ u.loaded = true ∧
      hufBuiltFrom u (directWeightList s.inByte h start) := by
  rw [hufDirect_of_le hs, ← hufWeights_withDirectWeights hh] at *
  exact hufInstall_of_noFault (by omega) hw

theorem hufDirect_of_fault {e : ErrCode} (hh : h ≤ 255) (hs : 1 + ceilDiv (h - 127) 2 ≤ size)
    (hw : weightFault (directWeightList s.inByte h start) = some e) : ∃ t, hufDirect h start size s = .raise e t := by
  rw [hufDirect_of_le hs]
  exact hufInstall_of_fault (by omega) (by rwa [hufWeights_withDirectWeights hh])

end

/-! ## The FSE form (R203) -/

theorem TreeWrites.result {b : Bool} {s t : State} (h : TreeWrites b s t) : t.result = s.result :=
  by rw [h.eq]

theorem TreeWrites.phase {b : Bool} {s t : State} (h : TreeWrites b s t) : t.phase = s.phase :=
  by rw [h.eq]

theorem Run.Leaves.of_ok {σ α : Type} {P : σ → Prop} {r : Run σ α} {a : α} {t : σ} (h : r.Leaves P) (hr : r = .ok a t) :
    P t := by
  subst hr
  cases h with
  | ok h => exact h

theorem Run.Leaves.of_raise {σ α : Type} {P : σ → Prop} {r : Run σ α} {e : ErrCode} {t : σ} (h : r.Leaves P)
    (hr : r = .raise e t) : P t := by
  subst hr
  cases h with
  | raise h => exact h

theorem Run.Ends.of_ok {σ α : Type} {P Q : σ → Prop} {r : Run σ α} {a : α} {t : σ} (h : r.Ends P Q) (hr : r = .ok a t) :
    P t := by
  subst hr
  cases h with
  | ok h => exact h

theorem Run.Ends.of_raise {σ α : Type} {P Q : σ → Prop} {r : Run σ α} {e : ErrCode} {t : σ} (h : r.Ends P Q)
    (hr : r = .raise e t) : Q t := by
  subst hr
  cases h with
  | raise h => exact h

/-- The table of the weights' description (R166, R203). -/
def readWeightTable (s : State) (start limit : Nat) : Run State Nat :=
  s.fseReadTable .hwt start limit Config.weightMaxSymbol Config.weightMaxLog

theorem readWeightTable_eq (s : State) (start limit : Nat) :
    readWeightTable s start limit =
      ((fseReadTable s.inByte start limit 255 6 (s.tableUnit .hwt)).lift (s.withUnit .hwt)).scrapOnFault .hwt := by
  rw [← runTable_eq s .hwt fun _ u => fseReadTable s.inByte start limit 255 6 u]
  rfl

/-- A description that is read lies in its region, and its table is closed (R162, R170). -/
theorem fseReadTable_ok {rd : Nat → Byte} {start limit used cap : Nat} {u v : TableUnit cap} (hcap : 64 ≤ cap)
    (h : fseReadTable rd start limit 255 6 u = .ok used v) :
    start + used ≤ limit ∧ v.tab.log.toNat ≤ 6 ∧ tableClosed (fseEntryAt v.tab) v.tab.log.toNat := by
  by_cases h4 : limit < start + 4
  · rw [fseReadTable_truncated h4] at h
    cases h
  · rw [fseReadTable_body (Nat.not_lt.mp h4)] at h
    by_cases hlog : (rd start).toNat % 16 + 5 ≤ 6
    · cases hr : readNorm rd start limit 255 ((rd start).toNat % 16 + 5) u.sc.norm with
      | ok _ st =>
        have hpow : 2 ^ ((rd start).toNat % 16 + 5) ≤ 2 ^ 6 := Nat.pow_le_pow_right (by omega) hlog
        obtain ⟨w, hw, -, -, hlogEq, hbuilt⟩ := fseReadBody_builds le_rfl (by omega) (by omega) (by omega) hlog hr
        cases h.symm.trans hw
        have hpos := (countsRead_of_ok le_rfl (by omega) (by omega) hr).pos
        refine ⟨by rw [ceilDiv]; omega, by omega, ?_⟩
        rw [hlogEq]
        exact hbuilt.closed
      | raise e st =>
        obtain ⟨w, hw⟩ := fseReadBody_of_raise hlog hr
        cases h.symm.trans hw
      | stop f => exact absurd hr (readNorm_ne_stop le_rfl (by omega) (by omega) f)
    · rw [fseReadBody, if_pos (by omega)] at h
      cases h

theorem readWeightTable_ok {s t : State} {start limit used : Nat} (h : readWeightTable s start limit = .ok used t) :
    start + used ≤ limit ∧ t.tableLog .hwt ≤ 6 ∧ tableClosed (t.tableEntry .hwt) (t.tableLog .hwt) := by
  rw [readWeightTable_eq, scrapOnFault_eq_ok, lift_eq_ok] at h
  obtain ⟨u, hu, rfl⟩ := h
  rw [withUnit_tableLog, withUnit_tableEntry]
  exact fseReadTable_ok le_rfl hu

/-- A stream of weights that is decoded has two weights at least (R191). -/
theorem stateFseDecompress_count {s t : State} {start limit n : Nat} (hlog : s.tableLog .hwt ≤ 6)
    (hclosed : tableClosed (s.tableEntry .hwt) (s.tableLog .hwt)) (hl : limit < 2 ^ 32)
    (h : s.fseDecompress .hwt start limit 255 = .ok n t) : 2 ≤ n ∧ n ≤ 255 := by
  have hok : streamOk s.inByte start limit := by
    obtain ⟨_, _, hinit, -⟩ := bind_eq_ok.mp h
    obtain ⟨b, hb, -⟩ := lift_eq_ok.mp hinit
    obtain ⟨hlt, hlast⟩ := (brInit_isOk _ _ _ _).mp ⟨b, hb⟩
    exact ⟨hlt, fun h0 => hlast (by rw [h0]; rfl)⟩
  obtain ⟨o, ho, -⟩ := decodesAll_region (tb := .hwt) (by omega) hclosed hok hl 255
  rw [stateFseDecompress_eq hok] at h
  obtain ⟨d, hd, -⟩ := lift_eq_ok.mp h
  rw [hd] at ho
  cases o with
  | none => obtain ⟨_, hraise⟩ := ho; cases hraise
  | some ws => obtain ⟨hlow, hhigh, _, hrun, -⟩ := ho; cases hrun; exact ⟨hlow, hhigh⟩

/-- The decoder does not read the result register. -/
theorem fseDecompress_setResult (s : State) (r : Word64) (start limit cap : Nat) :
    ({ s with result := r }).fseDecompress .hwt start limit cap =
      (s.fseDecompress .hwt start limit cap).lift fun t => { t with result := r } := by
  simp only [State.fseDecompress, State.brInit]
  rw [show ({ s with result := r } : State).inByte = s.inByte from rfl]
  cases Machine.brInit s.inByte start limit (s.br.get 0) with
  | ok _ b =>
    simp only [lift_ok, bind_ok]
    generalize hr : Machine.fseDecompress _ _ _ _ _ _ = r1
    generalize hr' : Machine.fseDecompress _ _ _ _ _ _ = r2
    obtain rfl : r1 = r2 := hr.symm.trans hr'
    cases r1 <;> rfl
  | raise e b => rfl
  | stop f => rfl

/-- HUF.READTABLE of the FSE form with all its bytes: the three operations one after the other (R203). -/
theorem hufFse_of_le {h start size : Nat} (hs : 1 + h ≤ size) (s : State) :
    hufFse h start size s = (readWeightTable s (start + 1) (start + 1 + h)).bind fun u s1 =>
      (s1.fseDecompress .hwt (start + 1 + u) (start + 1 + h) 255).bind fun n s2 => hufInstall n (1 + h) s2 :=
  if_neg (Nat.not_lt.mpr hs)

/-! ## HUF.READTABLE -/

section
variable {start : Addr} {size : BitVec 18} {s : State}

theorem exec_hufReadTable_eq : exec (.hufReadTable start size) s = finishWith (s.hufReadTable start.toNat size.toNat) := rfl

theorem hufReadTable_empty (h : size.toNat = 0) :
    s.hufReadTable start.toNat size.toNat = .raise .truncated (hufUnload s) := if_pos (by omega)

theorem hufReadTable_direct (hsize : size.toNat ≠ 0) (hh : 128 ≤ (s.inByte start.toNat).toNat) :
    s.hufReadTable start.toNat size.toNat =
      hufDirect (s.inByte start.toNat).toNat start.toNat size.toNat (hufUnload s) :=
  (if_neg (by omega)).trans (if_pos hh)

theorem hufReadTable_fse (hsize : size.toNat ≠ 0) (hh : (s.inByte start.toNat).toNat < 128) :
    s.hufReadTable start.toNat size.toNat =
      hufFse (s.inByte start.toNat).toNat start.toNat size.toNat (hufUnload s) :=
  (if_neg (by omega)).trans (if_neg (Nat.not_le.mpr hh))

theorem hufReadTable_raise_loaded {e : ErrCode} {t : State} (h : s.hufReadTable start.toNat size.toNat = .raise e t) :
    t.huf.loaded = false := ((stateHufReadTable_writes s _ _).of_raise h).loaded

end

/-- The direct form of HUF.READTABLE (R201, R202). -/
theorem exec_hufReadTable_direct {start : Addr} {size : BitVec 18} {s : State} (hsize : size.toNat ≠ 0)
    (hh : 128 ≤ (s.inByte start.toNat).toNat) :
    let h := (s.inByte start.toNat).toNat
    let ws := directWeightList s.inByte h start.toNat
    let i : Instr := .hufReadTable start size
    (size.toNat < 1 + ceilDiv (h - 127) 2 → exec i s = .next (faultEntry .truncated (hufUnload s))) ∧
    (1 + ceilDiv (h - 127) 2 ≤ size.toNat → weightFault ws = none →
      ∃ t, exec i s = .next t ∧ t = { s with huf := t.huf, result := BitVec.ofNat 64 (1 + ceilDiv (h - 127) 2) } ∧
        t.huf.loaded = true ∧ ws.length = h - 127 ∧ hufBuiltFrom t.huf ws) ∧
    ∀ e, 1 + ceilDiv (h - 127) 2 ≤ size.toNat → weightFault ws = some e →
      ∃ t, exec i s = .next t ∧ t.phase = .fault ∧ t.errCode = e.code ∧ t.huf.loaded = false := by
  intro h ws i
  have hh255 : h ≤ 255 := Nat.le_of_lt_succ (s.inByte start.toNat).isLt
  have hrun := hufReadTable_direct hsize hh
  refine ⟨fun hs => ?_, fun hs hw => ?_, fun e hs hw => ?_⟩
  · rw [exec_hufReadTable_eq, hrun, hufDirect_truncated hs, finishWith_raise]
  · obtain ⟨u, hu, hloaded, hbuilt⟩ := hufDirect_of_noFault (s := hufUnload s) hh255 hs hw
    have hexec : exec i s = .next { s with huf := u, result := BitVec.ofNat 64 (1 + ceilDiv (h - 127) 2) } := by
      rw [exec_hufReadTable_eq, hrun, hu, finishWith_ok]
      rfl
    refine ⟨_, hexec, rfl, hloaded, ?_, hbuilt⟩
    rw [show ws = _ from directWeightList_eq _ _ _, List.length_map, List.length_range]
  · obtain ⟨t, ht⟩ := hufDirect_of_fault (s := hufUnload s) hh255 hs hw
    rw [← hrun] at ht
    have hexec : exec i s = .next (faultEntry e t) := by rw [exec_hufReadTable_eq, ht, finishWith_raise]
    have hloaded := hufReadTable_raise_loaded ht
    exact ⟨_, hexec, rfl, rfl, hloaded⟩

theorem toNat_add_ofNat {a : Addr} {n : Nat} (h : a.toNat + n < 2 ^ 32) : (a + BitVec.ofNat 32 n).toNat = a.toNat + n := by
  rw [BitVec.toNat_add, BitVec.toNat_ofNat, Nat.mod_eq_of_lt (by omega : n < 2 ^ 32), Nat.mod_eq_of_lt h]

/-- A length below 2^32 read back from the result register as an address (log 8). -/
theorem toNat_setWidth_result {n : Nat} (h : n < 2 ^ 32) : ((BitVec.ofNat 64 n).setWidth 32).toNat = n := by
  rw [BitVec.toNat_setWidth, BitVec.toNat_ofNat, Nat.mod_eq_of_lt (by omega : n < 2 ^ 64), Nat.mod_eq_of_lt h]

/-- A count of weights read back from the result register as the operand of HUF.BUILD (log 8). -/
theorem toNat_buildOperand {n : Nat} (h1 : 1 ≤ n) (h : n ≤ 255) :
    ((BitVec.ofNat 64 n).setWidth 8 - 1).toNat + 1 = n := by
  have hn : ((BitVec.ofNat 64 n).setWidth 8).toNat = n := by
    rw [BitVec.toNat_setWidth, BitVec.toNat_ofNat, Nat.mod_eq_of_lt (by omega), Nat.mod_eq_of_lt (by omega)]
  bv_omega

theorem hufInstall_eq (n used : Nat) (s : State) :
    hufInstall n used s = (s.hufBuild n).bind fun _ t => .ok used { t with huf := { t.huf with loaded := true } } := rfl

/-- HUF.BUILD does not read the result register. -/
theorem stateHufBuild_setResult (s : State) (r : Word64) (n : Nat) :
    ({ s with result := r }).hufBuild n = (s.hufBuild n).lift fun t => { t with result := r } := by
  rw [State.hufBuild, State.hufBuild]
  cases Machine.hufBuild n s.huf <;> rfl

section
variable {start : Addr} {size : BitVec 18} {s : State}

/-- A fault of HUF.READTABLE leaves HUF.LOADED clear (R208). -/
theorem exec_hufReadTable_of_raise {e : ErrCode} {u : State}
    (h : s.hufReadTable start.toNat size.toNat = .raise e u) :
    exec (.hufReadTable start size) s = .next (faultEntry e u) ∧ (faultEntry e u).huf.loaded = false := by
  have hloaded := hufReadTable_raise_loaded h
  exact ⟨by rw [exec_hufReadTable_eq, h, finishWith_raise], hloaded⟩

/-- The end of the FSE form: HUF.BUILD on the weights decoded (R203, R204). -/
theorem hufReadTable_fse_build {n used : Nat} {u t3 : State} (h1 : 1 ≤ n) (h255 : n ≤ 255) (hp : u.phase ≠ .fault)
    (hr : s.hufReadTable start.toNat size.toNat = hufInstall n used u)
    (h3 : exec (.hufBuild ((BitVec.ofNat 64 n).setWidth 8 - 1)) { u with result := BitVec.ofNat 64 n } = .next t3) :
    (t3.phase = .fault →
      exec (.hufReadTable start size) s = .next { t3 with result := u.result } ∧ t3.huf.loaded = false) ∧
    (t3.phase ≠ .fault → exec (.hufReadTable start size) s =
      .next { t3 with huf := { t3.huf with loaded := true }, result := BitVec.ofNat 64 used }) := by
  have hbuild : finish ((u.hufBuild n).lift fun t => { t with result := BitVec.ofNat 64 n }) = .next t3 := by
    have hrun : finish (({ u with result := BitVec.ofNat 64 n } : State).hufBuild
        (((BitVec.ofNat 64 n).setWidth 8 - 1).toNat + 1)) = .next t3 := h3
    rwa [toNat_buildOperand h1 h255, stateHufBuild_setResult] at hrun
  rw [hufInstall_eq] at hr
  cases hb : u.hufBuild n with
  | ok _ v =>
    rw [hb] at hbuild hr
    cases hbuild
    have hphase : v.phase = u.phase := ((stateHufBuild_writes u n).of_ok hb).treeWrites.phase
    exact ⟨fun hf => absurd (hphase.symm.trans hf) hp, fun _ => by rw [exec_hufReadTable_eq, hr]; rfl⟩
  | raise e v =>
    rw [hb] at hbuild hr
    cases hbuild
    have hresult : v.result = u.result := ((stateHufBuild_writes u n).of_raise hb).treeWrites.result
    obtain ⟨hexec, hloaded⟩ := exec_hufReadTable_of_raise hr
    exact ⟨fun _ => ⟨by rw [hexec, ← hresult]; rfl, hloaded⟩, fun hne => absurd rfl hne⟩
  | stop f =>
    rw [hb] at hbuild
    cases hbuild

/-- The FSE form of HUF.READTABLE as the three instructions one after the other (R201, R203): where one of them faults, that
fault is taken, with HUF.LOADED clear. -/
theorem exec_hufReadTable_fse {t1 : State} (hp : s.phase ≠ .fault)
    (hh : (s.inByte start.toNat).toNat < 128) (hspace : start.toNat + 1 + (s.inByte start.toNat).toNat < 2 ^ 32)
    (hs : 1 + (s.inByte start.toNat).toNat ≤ size.toNat) :
    let h := (s.inByte start.toNat).toNat
    let lim := start + 1 + BitVec.ofNat 32 h
    let i : Instr := .hufReadTable start size
    exec (.fseReadTable .hwt (start + 1) lim 255 1) (hufUnload s) = .next t1 →
    (t1.phase = .fault → exec i s = .next t1 ∧ t1.huf.loaded = false) ∧
    (t1.phase ≠ .fault → ∀ t2,
      exec (.fseDecompress .hwt (start + 1 + t1.result.setWidth 32) lim 255) t1 = .next t2 →
      (t2.phase = .fault → exec i s = .next { t2 with result := s.result } ∧ t2.huf.loaded = false) ∧
      (t2.phase ≠ .fault → ∀ t3, exec (.hufBuild (t2.result.setWidth 8 - 1)) t2 = .next t3 →
        (t3.phase = .fault → exec i s = .next { t3 with result := s.result } ∧ t3.huf.loaded = false) ∧
        (t3.phase ≠ .fault → exec i s = .next { t3 with
          huf := { t3.huf with loaded := true }, result := BitVec.ofNat 64 (1 + h) }))) := by
  intro h lim i h1
  have hstart : (start + 1).toNat = start.toNat + 1 := toNat_add_ofNat (n := 1) (by omega)
  have hlim : lim.toNat = start.toNat + 1 + h := (toNat_add_ofNat (by omega)).trans (by rw [hstart])
  have hform := (hufReadTable_fse (size := size) (by omega) hh).trans (hufFse_of_le hs (hufUnload s))
  have h1' : finishWith (readWeightTable (hufUnload s) (start.toNat + 1) (start.toNat + 1 + h)) = .next t1 := by
    rw [← hlim, ← hstart]
    exact h1
  obtain ⟨used, u1, hread, rfl⟩ | ⟨e, u1, hread, rfl⟩ := finishWith_eq_next.mp h1'
  case inr =>
    rw [hread, bind_raise] at hform
    exact ⟨fun _ => exec_hufReadTable_of_raise hform, fun hne => absurd rfl hne⟩
  rw [hread, bind_ok] at hform
  obtain ⟨hused, hlog, hclosed⟩ := readWeightTable_ok hread
  have hw1 := (stateFseReadTable_treeWrites (hufUnload s) _ _ _ _).of_ok hread
  refine ⟨fun hf => absurd (hw1.phase.symm.trans hf) hp, fun _ t2 h2 => ?_⟩
  have hpos : (start + 1 + (BitVec.ofNat 64 used).setWidth 32).toNat = start.toNat + 1 + used := by
    rw [BitVec.toNat_add, hstart, toNat_setWidth_result (by omega), Nat.mod_eq_of_lt (by omega)]
  have h2' : finishWith ((u1.fseDecompress .hwt (start.toNat + 1 + used) (start.toNat + 1 + h) 255).lift
      fun t => { t with result := BitVec.ofNat 64 used }) = .next t2 := by
    rw [← fseDecompress_setResult, ← hpos, ← hlim]
    exact h2
  cases hdec : u1.fseDecompress .hwt (start.toNat + 1 + used) (start.toNat + 1 + h) 255 with
  | ok n u2 =>
    rw [hdec] at h2' hform
    cases h2'
    have hw2 := (stateFseDecompress_treeWrites u1 _ _ _ _).of_ok hdec
    have hphase : u2.phase = s.phase := hw2.phase.trans hw1.phase
    have hresult : u2.result = s.result := hw2.result.trans hw1.result
    obtain ⟨hlow, hhigh⟩ := stateFseDecompress_count hlog hclosed (by omega) hdec
    refine ⟨fun hf => absurd (hphase.symm.trans hf) hp, fun _ t3 h3 => ?_⟩
    rw [← hresult]
    exact hufReadTable_fse_build (by omega) hhigh (hphase ▸ hp) hform h3
  | raise e u2 =>
    rw [hdec] at h2' hform
    cases h2'
    have hw2 := (stateFseDecompress_treeWrites u1 _ _ _ _).of_raise hdec
    have hresult : u2.result = s.result := hw2.result.trans hw1.result
    obtain ⟨hexec, hloaded⟩ := exec_hufReadTable_of_raise hform
    exact ⟨fun _ => ⟨by rw [hexec, ← hresult]; rfl, hloaded⟩, fun hne => absurd rfl hne⟩
  | stop f =>
    rw [hdec] at h2'
    cases h2'

end

/-- Settles O55: the two forms are `exec_hufReadTable_direct` and `exec_hufReadTable_fse`. -/
theorem huffmanTableRead : Obligations.HuffmanTableRead := by
  intro start size s h s0 i
  have hsize (hne : size ≠ 0) : size.toNat ≠ 0 := fun h0 => hne (BitVec.eq_of_toNat_eq h0)
  refine ⟨fun h0 => ?empty, fun hne hh => exec_hufReadTable_direct (hsize hne) hh, fun hne hh hp =>
    ⟨fun hs => ?short, fun t1 hspace hs => exec_hufReadTable_fse hp hh hspace hs⟩⟩
  case empty => exact (exec_hufReadTable_of_raise (hufReadTable_empty (by rw [h0]; rfl))).1
  case short => exact (exec_hufReadTable_of_raise ((hufReadTable_fse (hsize hne) hh).trans (if_pos hs))).1

/-! ## The tree elements (R296) -/

/-- A tree element does what HUF.READTABLE does on the section, and the streams are next (R296). -/
theorem htreeElement_eq {h : Nat} {s : State} (hh : (s.inByte s.ip.toNat).toNat = h) :
    htreeElement h s =
      finish ((s.hufReadTable s.ip.toNat s.lit.comp.toNat).bind fun used t => .ok () (litStreams (t.advance used))) := by
  subst hh
  by_cases h0 : s.lit.comp.toNat < 1
  · rw [show s.hufReadTable s.ip.toNat s.lit.comp.toNat = .raise .truncated (hufUnload s) from if_pos h0]
    exact if_pos h0
  · rw [show s.hufReadTable s.ip.toNat s.lit.comp.toNat =
      hufForm (s.inByte s.ip.toNat).toNat s.ip.toNat s.lit.comp.toNat (hufUnload s) from if_neg h0]
    exact if_neg h0

theorem litStreams_eq (s : State) : litStreams s = { s with
    sub := if s.lit.single then .litEnd else .jump
    issue := if s.lit.single then [.hufDec1 s.ip s.litLim s.lit.regen] else s.issue } := by
  unfold litStreams
  split <;> rfl

theorem toNat_directHeader (low : BitVec 7) : (low.setWidth 8 ||| 128 : BitVec 8).toNat = 128 + low.toNat := by
  have hlow := low.isLt
  rw [BitVec.toNat_or, BitVec.toNat_setWidth, Nat.mod_eq_of_lt (by omega), Nat.lor_comm]
  exact (Nat.two_pow_add_eq_or_of_lt (i := 7) hlow 1).symm

/-- `i` is the tree element of header byte `h` (R102). -/
abbrev IsTreeElement (i : Instr) (h : BitVec 8) : Prop :=
  ∃ low : BitVec 7, (i = .htreeDirect low ∧ h = low.setWidth 8 ||| 128) ∨ (i = .htreeFse low ∧ h = low.setWidth 8)

/-- A tree element is `htreeElement` of its header byte. -/
theorem exec_treeElement {i : Instr} {h : BitVec 8} (s : State) (hi : IsTreeElement i h) :
    exec i s = htreeElement h.toNat s := by
  obtain ⟨low, ⟨rfl, rfl⟩ | ⟨rfl, rfl⟩⟩ := hi
  · rw [toNat_directHeader]
    rfl
  · rw [BitVec.toNat_setWidth, Nat.mod_eq_of_lt (low.isLt.trans (by omega))]
    rfl

theorem setWidth_ofNat_result (n : Nat) : (BitVec.ofNat 64 n).setWidth 32 = BitVec.ofNat 32 n :=
  BitVec.setWidth_ofNat_of_le (by omega) n

/-- A tree element where HUF.READTABLE completes or faults (R296). -/
theorem exec_treeElement_of_hufReadTable {i : Instr} {h : BitVec 8} {s t : State}
    (hi : IsTreeElement i h) (hh : s.inByte s.ip.toNat = h) (hp : s.phase = .block)
    (ht : exec (.hufReadTable s.ip s.lit.comp) s = .next t) :
    (t.phase = .block →
      exec i s = .next { t with
        result := s.result, ip := s.ip + t.result.setWidth 32
        sub := if s.lit.single then .litEnd else .jump
        issue :=
          if s.lit.single then [.hufDec1 (s.ip + t.result.setWidth 32) s.litLim s.lit.regen] else s.issue }) ∧
    (t.phase = .fault → exec i s = .next t) := by
  rw [exec_hufReadTable_eq] at ht
  rw [exec_treeElement s hi, htreeElement_eq (by rw [hh])]
  obtain ⟨used, u, hr, rfl⟩ | ⟨e, u, hr, rfl⟩ := finishWith_eq_next.mp ht
  · have hw := (stateHufReadTable_writes s _ _).of_ok hr
    refine ⟨fun _ => ?_, fun hf => ?_⟩
    · rw [hr, bind_ok, finish_ok, litStreams_eq, setWidth_ofNat_result, hw.eq]
      rfl
    · have hphase : u.phase = .fault := hf
      rw [hw.phase, hp] at hphase
      cases hphase
  · exact ⟨fun hb => (nomatch hb), fun _ => by rw [hr, bind_raise, finish_raise]⟩

/-- Settles O37: the elements run HUF.READTABLE (`exec_treeElement_of_hufReadTable`), and a direct description's table is that of
`hufDirect_of_noFault`. -/
theorem treeElements : Obligations.TreeElements := by
  refine ⟨fun i h s t hi hh hp ht => exec_treeElement_of_hufReadTable hi hh hp ht, ?_⟩
  intro low s ws hs hw
  have hsub : 128 + low.toNat - 127 = low.toNat + 1 := by omega
  obtain ⟨u, hu, hloaded, hbuilt⟩ := hufDirect_of_noFault (s := hufUnload s) (h := 128 + low.toNat) (start := s.ip.toNat)
    (size := s.lit.comp.toNat) (by omega) (by rwa [hsub]) hw
  have hform : hufForm (128 + low.toNat) s.ip.toNat s.lit.comp.toNat (hufUnload s) =
      .ok (1 + ceilDiv (low.toNat + 1) 2) { hufUnload s with huf := u } := by
    rw [← hsub, ← hu]
    exact if_pos (by omega)
  have hexec : exec (.htreeDirect low) s =
      .next (litStreams (({ hufUnload s with huf := u } : State).advance (1 + ceilDiv (low.toNat + 1) 2))) := by
    refine (if_neg (by show ¬ s.lit.comp.toNat < 1; omega)).trans ?_
    exact congrArg (fun r => finish (r.bind fun used t => .ok () (litStreams (t.advance used)))) hform
  rw [litStreams_eq] at hexec
  exact ⟨_, hexec, rfl, hloaded, hbuilt⟩

/-! ## The FSE form completes (R203) -/

/-- A description that R162 accepts is read. -/
theorem fseReadTable_of_descriptionOk {rd : Nat → Byte} {start limit cap : Nat} {u : TableUnit cap} (hcap : 64 ≤ cap)
    (h : descriptionOk rd start limit 255 6 u.sc.norm) :
    ∃ used w, fseReadTable rd start limit 255 6 u = .ok used w ∧ w.draws = u.draws := by
  obtain ⟨st, hread, -⟩ := read_of_descriptionOk h
  obtain ⟨h4, hlog, -⟩ := h
  rw [fwdBits_log (by omega)] at hread hlog
  have hpow : 2 ^ ((rd start).toNat % 16 + 5) ≤ 2 ^ 6 := Nat.pow_le_pow_right (by omega) hlog
  obtain ⟨w, hw, -, hdraws, -⟩ := fseReadBody_builds le_rfl (by omega) (by omega) (by omega) hlog hread
  exact ⟨_, w, (fseReadTable_body h4).trans hw, hdraws⟩

theorem readWeightTable_of_ok {s : State} {start limit used : Nat} {w : TableUnit (tableCap .hwt)}
    (h : fseReadTable s.inByte start limit 255 6 (s.tableUnit .hwt) = .ok used w) :
    readWeightTable s start limit = .ok used (s.withUnit .hwt w) := by
  rw [readWeightTable_eq, h]
  rfl

/-- Weights written to HUF.W from its first place on are the weights of the unit. -/
theorem hufWeights_putWeights {g : HufRegs} {ws : List Byte} (h : ws.length ≤ 256) :
    hufWeights { g with w := putWeights g.w 0 ws } ws.length = ws.map BitVec.toNat := by
  refine List.ext_getElem (by simp) fun k hk _ => ?_
  have hlt : k < ws.length := by simpa using hk
  rw [List.getElem_map, ← List.getD_eq_getElem _ 0 hlt, ← List.getD_eq_getElem _ 0 hk, hufWeights_getD _ hlt,
    ← ramGet_putWeights ws g.w hlt (by omega : 0 + ws.length ≤ 256), Nat.zero_add]

/-- Weights that are decoded and pass the checks are installed (R191, R203 to R207). -/
theorem decodedWeights_install {s : State} {start limit used : Nat} {ws : List Byte} (hlog : s.tableLog .hwt ≤ 6)
    (hclosed : tableClosed (s.tableEntry .hwt) (s.tableLog .hwt)) (hl : limit < 2 ^ 32) (hok : streamOk s.inByte start limit)
    (hbits : 2 * s.tableLog .hwt ≤ streamBits s.inByte start limit) (hws : s.fseRegion .hwt start limit 255 = some ws)
    (hw : weightFault (ws.map BitVec.toNat) = none) :
    ∃ b u, ((s.fseDecompress .hwt start limit 255).bind fun n t => hufInstall n used t) =
        .ok used { s with br := s.br.set 0 b, huf := u } ∧
      u.loaded = true ∧ hufBuiltFrom u (ws.map BitVec.toNat) := by
  obtain ⟨o, ho, hregion⟩ := decodesAll_region (tb := .hwt) (by omega) hclosed hok hl 255
  obtain rfl : o = some ws := (hregion hbits).symm.trans hws
  obtain ⟨-, hlen, d, hrun, hdw⟩ := ho
  rw [stateFseDecompress_eq hok, hrun, lift_ok, bind_ok, hdw]
  have hweights := hufWeights_putWeights (g := s.huf) (ws := ws) (by omega)
  rw [← hweights] at hw ⊢
  obtain ⟨u, hu, hloaded, hbuilt⟩ := hufInstall_of_noFault (used := used)
    (s := { s.setBr 0 d.br with huf := { s.huf with w := putWeights s.huf.w 0 ws } }) hlen hw
  exact ⟨d.br, u, hu, hloaded, hbuilt⟩

/-- Settles O56: the description's table and the stream's weights go through `decodedWeights_install`, and the element does what
HUF.READTABLE does. -/
theorem compressedTreeCompletes : Obligations.CompressedTreeCompletes := by
  intro len s a lim hbyte hspace hsize hp hd
  have hlen : (len.setWidth 8).toNat = len.toNat := by
    rw [BitVec.toNat_setWidth, Nat.mod_eq_of_lt (len.isLt.trans (by omega))]
  have hstart : (s.ip + 1).toNat = a + 1 := toNat_add_ofNat (n := 1) (by omega)
  have hlim : (s.ip + 1 + len.setWidth 32).toNat = lim := by
    rw [BitVec.toNat_add, hstart, BitVec.toNat_setWidth, Nat.mod_eq_of_lt (by omega : len.toNat < 2 ^ 32),
      Nat.mod_eq_of_lt hspace]
  obtain ⟨used, w, hread, hdraws⟩ := fseReadTable_of_descriptionOk (u := s.tableUnit .hwt) le_rfl hd
  obtain ⟨hused, hlog, hclosed⟩ := fseReadTable_ok le_rfl hread
  have hexec1 : exec (.fseReadTable .hwt (s.ip + 1) (s.ip + 1 + len.setWidth 32) 255 1) s =
      .next { s.withUnit .hwt w with result := BitVec.ofNat 64 used } := by
    refine exec_fseReadTable_of_ok ?_
    rw [readTableUnit, hstart, hlim]
    exact hread
  have hresult : (BitVec.ofNat 64 used).toNat = used := Nat.mod_eq_of_lt (by omega)
  refine ⟨_, hexec1, fun ws hok hbits hws hw => ?_⟩
  dsimp only at hok hbits hws
  rw [hresult] at hok hbits hws
  obtain ⟨b, u, hinstall, hloaded, hbuilt⟩ := decodedWeights_install (s := (hufUnload s).withUnit .hwt w)
    (used := 1 + len.toNat) hlog hclosed hspace hok hbits hws hw
  have hrun : s.hufReadTable s.ip.toNat s.lit.comp.toNat =
      .ok (1 + len.toNat) { (hufUnload s).withUnit .hwt w with br := s.br.set 0 b, huf := u } := by
    have hheader : (s.inByte s.ip.toNat).toNat = len.toNat := (congrArg BitVec.toNat hbyte).trans hlen
    have hread' := readWeightTable_of_ok (s := hufUnload s) hread
    rw [hufReadTable_fse (by omega) (by have := len.isLt; omega), hheader, hufFse_of_le hsize, hread', bind_ok]
    exact hinstall
  have hexec2 : exec (.hufReadTable s.ip s.lit.comp) s = .next { s with
      hwt := w.tab, fse := w.sc, br := s.br.set 0 b, huf := u, result := BitVec.ofNat 64 (1 + len.toNat) } := by
    rw [exec_hufReadTable_eq, hrun, finishWith_ok, ← show w.draws = s.draws from hdraws]
    rfl
  have hexec3 := (exec_treeElement_of_hufReadTable (i := .htreeFse len) ⟨len, .inr ⟨rfl, rfl⟩⟩ hbyte hp hexec2).1 hp
  have hip : s.ip + (BitVec.ofNat 64 (1 + len.toNat)).setWidth 32 = s.ip + 1 + len.setWidth 32 := by
    refine BitVec.eq_of_toNat_eq ?_
    rw [hlim, setWidth_ofNat_result, toNat_add_ofNat (by omega)]
    omega
  dsimp only at hexec3
  rw [hip] at hexec3
  refine ⟨⟨_, hexec2, ?_, hloaded, hbuilt⟩, ⟨_, hexec3, ?_, hloaded, hbuilt⟩⟩
  · simp only [br_get_set]
  · simp only [br_get_set]

end Sys2Proof.Machine
end

section
/-! PROOFS. HUF.DEC1 (R210, R211, R213): the bits a stream has left after each symbol, one symbol read through a reader, and the
loops as such steps. -/
namespace Sys2Proof.Machine

/-! ## The symbols of a stream (R213) -/

/-- The entry that the next `LOG` bits of a stream select (R210). -/
def codeAt (h : HufRegs) (x p : Nat) : HufEntry := ramGet h.ram (takeBits x p h.log.toNat) ⟨0, 0⟩

/-- The bits left after one more symbol; none once a symbol has taken bits that the stream lacks. -/
def nextBits (h : HufRegs) (x : Nat) (o : Option Nat) : Option Nat :=
  o.bind fun p => if (codeAt h x p).nb.toNat ≤ p then some (p - (codeAt h x p).nb.toNat) else none

/-- The bits left of `p` after `i` symbols. -/
def bitsAfter (h : HufRegs) (x p i : Nat) : Option Nat := (nextBits h x)^[i] (some p)

/-- Symbol `i` of the `p` bits. -/
def symbolAfter (h : HufRegs) (x p i : Nat) : Byte := ((bitsAfter h x p i).map fun q => (codeAt h x q).sym).getD 0

section
variable {h : HufRegs} {x p q i : Nat}

theorem bitsAfter_succ (h : HufRegs) (x p i : Nat) : bitsAfter h x p (i + 1) = nextBits h x (bitsAfter h x p i) :=
  Function.iterate_succ_apply' _ _ _

theorem nextBits_of_le (hq : (codeAt h x q).nb.toNat ≤ q) :
    nextBits h x (some q) = some (q - (codeAt h x q).nb.toNat) := if_pos hq

theorem nextBits_of_lt (hq : q < (codeAt h x q).nb.toNat) : nextBits h x (some q) = none := if_neg (Nat.not_le.mpr hq)

theorem bitsAfter_succ_of_le (hp : (codeAt h x p).nb.toNat ≤ p) (i : Nat) :
    bitsAfter h x p (i + 1) = bitsAfter h x (p - (codeAt h x p).nb.toNat) i := by
  rw [bitsAfter, Function.iterate_succ_apply, nextBits_of_le hp]
  rfl

theorem bitsAfter_succ_of_lt (hp : p < (codeAt h x p).nb.toNat) (i : Nat) : bitsAfter h x p (i + 1) = none := by
  rw [bitsAfter, Function.iterate_succ_apply, nextBits_of_lt hp]
  exact Function.iterate_fixed rfl i

/-- The symbols of a stream are those of its steps, where these take all its bits (R213). -/
theorem hufSymbols_eq (h : HufRegs) (x q p : Nat) : hufSymbols h x q p =
    if bitsAfter h x p q = some 0 then some ((List.range q).map (symbolAfter h x p)) else none := by
  induction q generalizing p with
  | zero =>
    rw [hufSymbols]
    exact if_congr (Option.some_inj (a := p) (b := 0)).symm rfl rfl
  | succ q ih =>
    rw [hufSymbols]
    by_cases hp : (codeAt h x p).nb.toNat ≤ p
    · have hhead : symbolAfter h x p 0 = (codeAt h x p).sym := rfl
      have htail (i : Nat) : symbolAfter h x p (i + 1) = symbolAfter h x (p - (codeAt h x p).nb.toNat) i := by
        rw [symbolAfter, bitsAfter_succ_of_le hp, symbolAfter]
      rw [bitsAfter_succ_of_le hp, List.range_succ_eq_map, List.map_cons, List.map_map, hhead]
      refine (if_pos hp).trans ?_
      rw [show ramGet h.ram (takeBits x p h.log.toNat) ⟨0, 0⟩ = codeAt h x p from rfl, ih]
      split
      · exact congrArg (fun l => some (_ :: l)) (List.map_congr_left fun i _ => (htail i).symm)
      · rfl
    · rw [bitsAfter_succ_of_lt (Nat.not_le.mp hp)]
      exact (if_neg hp).trans (if_neg (by simp)).symm

end

/-! ## One symbol through a reader (R210) -/

section
variable {rd : Nat → Byte} {start limit p n : Nat} {b : BitReader}

theorem takeBits_lt (x p n : Nat) : takeBits x p n < 2 ^ n := by
  unfold takeBits
  split
  · exact Nat.mod_lt _ (by positivity)
  · calc x % 2 ^ p * 2 ^ (n - p) < 2 ^ p * 2 ^ (n - p) :=
          Nat.mul_lt_mul_of_pos_right (Nat.mod_lt _ (by positivity)) (by positivity)
      _ = 2 ^ n := by rw [← pow_add]; congr 1; omega

/-- Bits of the container with zeros below bit 0, where a reader at its start has fewer left than it looks at (R148 e). -/
theorem ReadsAt.brPeekFast_short (h : ReadsAt rd start limit p b) (hcur : b.cur = b.start) (hp : 0 < p) (hn : p < n)
    (hn64 : n ≤ 64) : brPeekFast b n = takeBits (streamNumber rd start limit) p n := by
  have hleft := h.bits_left
  have hstart : b.cur.toNat - start = 0 := by rw [hcur, h.ok.1, Nat.sub_self]
  have hword := word_eq_streamNumber h.ok
  rw [hstart, pow_zero, Nat.div_one] at hword
  have hconsumed : b.consumed.toNat % 64 = 64 - p := by omega
  rw [brPeekFast, hconsumed, BitVec.toNat_ushiftRight, BitVec.toNat_shiftLeft, Nat.shiftLeft_eq,
    Nat.shiftRight_eq_div_pow, hword, takeBits, if_neg (by omega)]
  have h64 : (2 : Nat) ^ 64 = 2 ^ p * 2 ^ (64 - p) := by rw [← pow_add]; congr 1; omega
  have hshift : (2 : Nat) ^ (64 - p) = 2 ^ (n - p) * 2 ^ (64 - n) := by rw [← pow_add]; congr 1; omega
  rw [h64, Nat.mul_mod_mul_right, Nat.mod_mul_right_mod, hshift, ← mul_assoc,
    Nat.mul_div_cancel _ (by positivity)]

/-- `m` symbols can be read with no refill: the reader stands at its start, or its container holds the longest `m` codes; or
it has overrun its stream already (R211, R212). -/
def Ready (m : Nat) (b : BitReader) : Prop :=
  b.cur = b.start ∨ 64 < b.consumed.toNat ∨ b.consumed.toNat + 12 * m ≤ 64

theorem Ready.mono {m k : Nat} (h : Ready m b) (hk : k ≤ m) : Ready k b :=
  h.imp_right (Or.imp_right fun hm => by omega)

theorem Refreshed.ready (h : Refreshed b) : Ready 4 b := h.imp_right fun hc => .inr (by omega)

/-- A table lookup through a ready reader finds the code of the stream (R210). -/
theorem ReadsAt.peekFast_eq (h : ReadsAt rd start limit p b) (hr : Ready 1 b) (hp : 0 < p) (hn : 1 ≤ n) (hn12 : n ≤ 12) :
    brPeekFast b n = takeBits (streamNumber rd start limit) p n := by
  have hc := h.consumed
  by_cases hfit : b.consumed.toNat + n ≤ 64
  · rw [← brPeek_eq_peekFast b n hn (by omega), h.brPeek_eq (by omega) hfit]
  · have hcur : b.cur = b.start := hr.resolve_right (by omega)
    have hleft := h.bits_left
    have hstart : b.cur.toNat - start = 0 := by rw [hcur, h.ok.1, Nat.sub_self]
    exact h.brPeekFast_short hcur hp (by omega) (by omega)

/-- A code of a ready reader lies in its container exactly when the stream has its bits. -/
theorem ReadsAt.code_fits_iff (h : ReadsAt rd start limit p b) (hr : Ready 1 b) (hn : n ≤ 12) :
    b.consumed.toNat + n ≤ 64 ↔ n ≤ p := by
  have hleft := h.bits_left
  have hc := h.consumed
  rcases hr with hcur | hr
  · have hstart : b.cur.toNat - start = 0 := by rw [hcur, h.ok.1, Nat.sub_self]
    omega
  · omega

variable {h : HufRegs}

theorem codeAt_bounds (htab : hufTableOk h) (x p : Nat) : 1 ≤ (codeAt h x p).nb.toNat ∧ (codeAt h x p).nb.toNat ≤ 12 := by
  obtain ⟨-, hlog, hcodes⟩ := htab
  obtain ⟨h1, hle⟩ := hcodes _ (takeBits_lt x p h.log.toNat)
  exact ⟨h1, hle.trans hlog⟩

/-- The entry that a reader looks up (R210). -/
def peekedCode (h : HufRegs) (b : BitReader) : HufEntry := ramGet h.ram (brPeekFast b h.log.toNat) ⟨0, 0⟩

theorem peekedCode_bounds (htab : hufTableOk h) (b : BitReader) :
    1 ≤ (peekedCode h b).nb.toNat ∧ (peekedCode h b).nb.toNat ≤ 12 := by
  obtain ⟨hlog1, hlog, hcodes⟩ := htab
  have hlog : h.log.toNat ≤ 12 := hlog
  obtain ⟨h1, hle⟩ := hcodes _ (brPeek_eq_peekFast b _ hlog1 (by omega) ▸ brPeek_lt b h.log.toNat (by omega))
  exact ⟨h1, hle.trans hlog⟩

theorem hufSym_eq (h : HufRegs) (o : Nat) (b : BitReader) (lit : Memory) :
    hufSym h o b lit = (brConsume b (peekedCode h b).nb.toNat, lit.write o (peekedCode h b).sym) := rfl

/-- A ready reader takes the stream's next code, or overruns the stream where that lacks the bits (R213). -/
theorem ReadsAt.nextSymbol (hreads : ReadsAt rd start limit p b) (hr : Ready 1 b) (htab : hufTableOk h) :
    let x := streamNumber rd start limit
    let b' := brConsume b (peekedCode h b).nb.toNat
    (∃ q, nextBits h x (some p) = some q ∧ peekedCode h b = codeAt h x p ∧ ReadsAt rd start limit q b') ∨
    (nextBits h x (some p) = none ∧ 64 < b'.consumed.toNat) := by
  intro x b'
  obtain ⟨hp1, hp12⟩ := peekedCode_bounds htab b
  have hc := hreads.consumed
  have hconsumed : b'.consumed.toNat = b.consumed.toNat + (peekedCode h b).nb.toNat := brConsume_consumed (by omega)
  have hfits := hreads.code_fits_iff hr hp12
  rcases Nat.eq_zero_or_pos p with rfl | hp
  · exact .inr ⟨nextBits_of_lt (codeAt_bounds htab x 0).1, by omega⟩
  · have hcode : peekedCode h b = codeAt h x p := by
      obtain ⟨hlog1, hlog12, -⟩ := htab
      rw [peekedCode, hreads.peekFast_eq hr hp hlog1 hlog12, codeAt]
    rw [hcode] at hfits hconsumed
    by_cases hle : (codeAt h x p).nb.toNat ≤ p
    · exact .inl ⟨_, nextBits_of_le hle, hcode, by simpa only [b', hcode] using hreads.consume (hfits.mpr hle)⟩
    · exact .inr ⟨nextBits_of_lt (Nat.not_le.mp hle), by omega⟩

end

/-- A stream of a Huffman decode: its region of IN and where in LIT its symbols go. -/
structure HufStream where
  start : Nat
  limit : Nat
  base  : Nat

namespace HufStream

variable {rd : Nat → Byte} {h : HufRegs} {σ : HufStream} {i n : Nat} {b : BitReader} {lit : Memory}

/-- The bits left after `i` symbols. -/
def bits (rd : Nat → Byte) (h : HufRegs) (σ : HufStream) (i : Nat) : Option Nat :=
  bitsAfter h (streamNumber rd σ.start σ.limit) (streamBits rd σ.start σ.limit) i

/-- Symbol `i`. -/
def symbol (rd : Nat → Byte) (h : HufRegs) (σ : HufStream) (i : Nat) : Byte :=
  symbolAfter h (streamNumber rd σ.start σ.limit) (streamBits rd σ.start σ.limit) i

theorem regionSymbols_eq (rd : Nat → Byte) (h : HufRegs) (σ : HufStream) (q : Nat) :
    regionSymbols rd h σ.start σ.limit q =
      if σ.bits rd h q = some 0 then some ((List.range q).map (σ.symbol rd h)) else none :=
  hufSymbols_eq _ _ _ _

/-- `i` symbols have been decoded: while the stream had their bits, the reader stands after them and LIT holds them; else the
reader has overrun the stream, and its count is too small to wrap. -/
structure Decoded (rd : Nat → Byte) (h : HufRegs) (σ : HufStream) (i : Nat) (b : BitReader) (lit : Memory) : Prop where
  consumed_le : b.consumed.toNat ≤ 64 + 12 * i
  reads : ∀ p, σ.bits rd h i = some p → ReadsAt rd σ.start σ.limit p b
  written : ∀ p, σ.bits rd h i = some p → ∀ k < i, lit.byte (σ.base + k) = σ.symbol rd h k
  overrun : σ.bits rd h i = none → 64 < b.consumed.toNat

theorem decoded_readerAtMark (hok : streamOk rd σ.start σ.limit) (hl : σ.limit < 2 ^ 32) (lit : Memory) :
    σ.Decoded rd h 0 (readerAtMark rd σ.start σ.limit) lit := by
  have hreads := readerAtMark_readsAt hok hl
  refine ⟨hreads.consumed, fun p hp => ?_, fun p hp k hk => absurd hk (Nat.not_lt_zero k), fun hp => nomatch hp⟩
  cases hp
  exact hreads

/-- A reader that has overrun its stream. -/
theorem decoded_of_overrun (hle : b.consumed.toNat ≤ 64 + 12 * i) (hb : σ.bits rd h i = none)
    (hover : 64 < b.consumed.toNat) : σ.Decoded rd h i b lit :=
  ⟨hle, fun _ hp => (nomatch hb.symm.trans hp), fun _ hp => (nomatch hb.symm.trans hp), fun _ => hover⟩

namespace Decoded

/-- The symbols stay decoded where their bytes stay. -/
theorem of_byte_eq {lit' : Memory} (hd : σ.Decoded rd h i b lit)
    (hbyte : ∀ k < i, lit'.byte (σ.base + k) = lit.byte (σ.base + k)) : σ.Decoded rd h i b lit' :=
  ⟨hd.consumed_le, hd.reads, fun p hp k hk => (hbyte k hk).trans (hd.written p hp k hk), hd.overrun⟩

theorem refill (hd : σ.Decoded rd h i b lit) : σ.Decoded rd h i (brRefill rd b).2 lit := by
  cases hb : σ.bits rd h i with
  | none =>
    rw [brRefill_overflow_same rd b (hd.overrun hb)]
    exact hd
  | some p =>
    have hreads := hd.reads p hb
    have hle := (brRefill_refilled rd hreads.start_le_cur).consumed_le
    refine ⟨hle.trans hd.consumed_le, fun q hq => ?_, hd.written, fun hn => by rw [hb] at hn; cases hn⟩
    cases hb.symm.trans hq
    exact hreads.refill

/-- A refill that returns MORE makes the reader ready for four symbols (R212), any other for all. -/
theorem refill_ready (hd : σ.Decoded rd h i b lit) (m : Nat) (hm : (brRefill rd b).1 = .more → m ≤ 4) :
    Ready m (brRefill rd b).2 := by
  cases hb : σ.bits rd h i with
  | none =>
    have hover := hd.overrun hb
    rw [brRefill_overflow_same rd b hover]
    exact .inr (.inl hover)
  | some p =>
    have hreads := hd.reads p hb
    cases hst : (brRefill rd b).1 with
    | more => exact (Refreshed.ready (.inr (hreads.refill_more_consumed_le hst))).mono (hm hst)
    | exhausted => exact .inl ((brRefill_refilled rd hreads.start_le_cur).of_exhausted hst)
    | overflow => exact absurd hst hreads.refill_ne_overflow

/-- The end test of R211 holds exactly when the symbols have taken all the bits of the stream. -/
theorem ends_iff (hd : σ.Decoded rd h i b lit) : b.cur = b.start ∧ b.consumed = 64 ↔ σ.bits rd h i = some 0 := by
  have h64 : b.consumed = 64 ↔ b.consumed.toNat = 64 := BitVec.toNat_eq
  rw [h64]
  cases hb : σ.bits rd h i with
  | none =>
    have hover := hd.overrun hb
    simp
    omega
  | some p =>
    obtain ⟨⟨hstart, hcur, hheld⟩, hpos, hc⟩ := hd.reads p hb
    have hleft := (hd.reads p hb).bits_left
    rw [Option.some_inj]
    refine ⟨fun ⟨hcs, h64⟩ => ?_, fun hp => ⟨BitVec.eq_of_toNat_eq ?_, ?_⟩⟩
    · have hz : b.cur.toNat = b.start.toNat := by rw [hcs]
      omega
    · omega
    · omega

end Decoded

/-- What decoding `m` more symbols leaves: they are decoded, and LIT has changed at their places only. -/
structure Extends (rd : Nat → Byte) (h : HufRegs) (σ : HufStream) (i m : Nat) (lit : Memory) (r : BitReader × Memory) :
    Prop where
  decoded : σ.Decoded rd h (i + m) r.1 r.2
  wf : r.2.wf Config.litSize
  frame : ∀ x, x < σ.base + i ∨ σ.base + i + m ≤ x → r.2.byte x = lit.byte x

theorem Extends.refl (hd : σ.Decoded rd h i b lit) (hw : lit.wf Config.litSize) : σ.Extends rd h i 0 lit (b, lit) :=
  ⟨hd, hw, fun _ _ => rfl⟩

theorem Extends.trans {m k : Nat} {r r' : BitReader × Memory} (h1 : σ.Extends rd h i m lit r)
    (h2 : σ.Extends rd h (i + m) k r.2 r') : σ.Extends rd h i (m + k) lit r' :=
  ⟨by rw [← add_assoc]; exact h2.decoded, h2.wf, fun x hx => (h2.frame x (by omega)).trans (h1.frame x (by omega))⟩

theorem bits_succ (rd : Nat → Byte) (h : HufRegs) (σ : HufStream) (i : Nat) :
    σ.bits rd h (i + 1) = nextBits h (streamNumber rd σ.start σ.limit) (σ.bits rd h i) := bitsAfter_succ _ _ _ _

theorem symbol_of_bits {p : Nat} (hb : σ.bits rd h i = some p) :
    σ.symbol rd h i = (codeAt h (streamNumber rd σ.start σ.limit) p).sym := by
  rw [symbol, symbolAfter, show bitsAfter _ _ _ i = some p from hb]
  rfl

section
variable (hd : σ.Decoded rd h i b lit) (htab : hufTableOk h)
include hd htab

/-- One more symbol (R210, R213). -/
theorem Decoded.sym (hr : Ready 1 b) (hw : lit.wf Config.litSize) (hi : i < Config.litSize) :
    σ.Decoded rd h (i + 1) (hufSym h (σ.base + i) b lit).1 (hufSym h (σ.base + i) b lit).2 := by
  have hlit : Config.litSize = 131080 := rfl
  have hnb := (peekedCode_bounds htab b).2
  have hle := hd.consumed_le
  have hconsumed : (brConsume b (peekedCode h b).nb.toNat).consumed.toNat =
      b.consumed.toNat + (peekedCode h b).nb.toNat := brConsume_consumed (by omega)
  rw [hufSym_eq]
  cases hb : σ.bits rd h i with
  | none =>
    have hover := hd.overrun hb
    have hnext : σ.bits rd h (i + 1) = none := by rw [bits_succ, hb]; rfl
    exact decoded_of_overrun (by rw [hconsumed]; omega) hnext (by rw [hconsumed]; omega)
  | some p =>
    have hnext := bits_succ rd h σ i
    rw [hb] at hnext
    obtain ⟨q, hq, hcode, hreads⟩ | ⟨hq, hover⟩ := (hd.reads p hb).nextSymbol hr htab
    · rw [hq] at hnext
      refine ⟨by rw [hconsumed]; omega, fun r hr => ?_, fun _ _ k hk => ?_, fun hn => by rw [hnext] at hn; cases hn⟩
      · cases hnext.symm.trans hr
        exact hreads
      · rcases Nat.eq_or_lt_of_le (Nat.le_of_lt_succ hk) with rfl | hlt
        · rw [byte_write_same hw, symbol_of_bits hb, hcode]
        · rw [byte_write_other (by omega), hd.written p hb k hlt]
    · rw [hq] at hnext
      exact decoded_of_overrun (by rw [hconsumed]; omega) hnext hover

/-- One symbol through a reader that is ready for `m + 1` leaves it ready for `m`. -/
theorem hufSym_extends {m : Nat} (hr : Ready (m + 1) b) (hw : lit.wf Config.litSize)
    (hfit : σ.base + i + 1 ≤ Config.litSize) :
    σ.Extends rd h i 1 lit (hufSym h (σ.base + i) b lit) ∧ Ready m (hufSym h (σ.base + i) b lit).1 := by
  have hlit : Config.litSize = 131080 := rfl
  have hnb := (peekedCode_bounds htab b).2
  have hle := hd.consumed_le
  have hconsumed : (hufSym h (σ.base + i) b lit).1.consumed.toNat = b.consumed.toNat + (peekedCode h b).nb.toNat :=
    brConsume_consumed (by omega)
  refine ⟨⟨hd.sym htab (hr.mono (by omega)) hw (by omega), wf_write hw (by omega),
    fun x hx => byte_write_other (by omega)⟩, ?_⟩
  rw [Ready, hconsumed]
  exact hr.imp_right fun hr => by omega

end

/-! ## The loops (R211) -/

/-- `n` symbols with no refill. -/
theorem hufPlain_extends (htab : n ≠ 0 → hufTableOk h) (hd : σ.Decoded rd h i b lit) (hr : Ready n b)
    (hw : lit.wf Config.litSize) (hfit : σ.base + i + n ≤ Config.litSize) :
    σ.Extends rd h i n lit (hufPlain h n (σ.base + i) b lit) := by
  induction n generalizing i b lit with
  | zero => exact .refl hd hw
  | succ n ih =>
    have htab := htab (Nat.succ_ne_zero n)
    obtain ⟨hone, hready⟩ := hufSym_extends hd htab hr hw (by omega)
    have hall := hone.trans (ih (fun _ => htab) hone.decoded hready hone.wf (by omega))
    rw [Nat.add_comm 1 n] at hall
    exact hall

theorem hufTailLoop_extends (htab : n ≠ 0 → hufTableOk h) (hd : σ.Decoded rd h i b lit)
    (hw : lit.wf Config.litSize) (hfit : σ.base + i + n ≤ Config.litSize) :
    σ.Extends rd h i n lit (hufTailLoop rd h n (σ.base + i) b lit) := by
  induction n generalizing i b lit with
  | zero => exact .refl hd hw
  | succ n ih =>
    unfold hufTailLoop
    dsimp only
    split
    case isTrue =>
      have htab := htab (Nat.succ_ne_zero n)
      obtain ⟨hone, -⟩ := hufSym_extends hd.refill htab (hd.refill_ready 1 fun _ => by omega) hw (by omega)
      have hall := hone.trans (ih (fun _ => htab) hone.decoded hone.wf (by omega))
      rw [Nat.add_comm 1 n] at hall
      exact hall
    case isFalse hmore =>
      exact hufPlain_extends htab hd.refill (hd.refill_ready _ fun hm => absurd hm hmore) hw hfit

/-- The tail decodes its symbols and completes exactly where they take all the bits of the stream (R211, R213). -/
theorem hufTail_extends (htab : n ≠ 0 → hufTableOk h) (hd : σ.Decoded rd h i b lit)
    (hw : lit.wf Config.litSize) (hfit : σ.base + i + n ≤ Config.litSize) :
    ∃ r, σ.Extends rd h i n lit r ∧ hufTail rd h n (σ.base + i) b lit =
      if σ.bits rd h (i + n) = some 0 then .ok () r else .raise .hufStreamEnd r := by
  have hloop := hufTailLoop_extends htab hd hw hfit
  exact ⟨_, hloop, if_congr hloop.decoded.ends_iff rfl rfl⟩

/-- The unrolled path of HUF.DEC1 decodes some of the symbols (R210). -/
theorem dec1Unrolled_extends {f : Nat} (hbase : σ.base = 0) (htab : n ≠ 0 → hufTableOk h) (hd : σ.Decoded rd h i b lit)
    (hw : lit.wf Config.litSize) (hi : i ≤ n) (hn : n ≤ Config.litSize) :
    ∃ m r, dec1Unrolled rd h n f i b lit = (i + m, r) ∧ i + m ≤ n ∧ σ.Extends rd h i m lit r := by
  induction f generalizing i b lit with
  | zero => exact ⟨0, _, rfl, hi, .refl hd hw⟩
  | succ f ih =>
    unfold dec1Unrolled
    dsimp only
    split
    case isFalse => exact ⟨0, _, rfl, hi, .refl hd hw⟩
    case isTrue hgo =>
      split
      case isFalse => exact ⟨0, _, rfl, hi, .refl hd.refill hw⟩
      case isTrue hmore =>
        have hfour := hufPlain_extends (n := 4) (fun _ => htab (by omega)) hd.refill (hd.refill_ready 4 fun _ => le_rfl) hw
          (by omega)
        rw [hbase, Nat.zero_add] at hfour
        obtain ⟨m, r, hrun, hm, hext⟩ := ih hfour.decoded hfour.wf (by omega)
        exact ⟨4 + m, r, by rw [← add_assoc]; exact hrun, by omega, hfour.trans hext⟩

/-- HUF.DEC1 decodes its symbols, and completes exactly where they take all the bits of the stream (R210, R213). -/
theorem hufDec1_extends (hbase : σ.base = 0) (htab : n ≠ 0 → hufTableOk h) (hd : σ.Decoded rd h 0 b lit)
    (hw : lit.wf Config.litSize) (hn : n ≤ Config.litSize) :
    ∃ r, σ.Extends rd h 0 n lit r ∧ hufDec1 rd h n b lit =
      if σ.bits rd h n = some 0 then .ok () r else .raise .hufStreamEnd r := by
  obtain ⟨m, r, hrun, hm, hext⟩ := dec1Unrolled_extends (f := n) hbase htab hd hw (Nat.zero_le n) hn
  obtain ⟨r', htail, hend⟩ := hufTail_extends (n := n - (0 + m)) (fun hne => htab (by omega)) hext.decoded hext.wf (by omega)
  have hall := hext.trans htail
  rw [show m + (n - (0 + m)) = n by omega] at hall
  rw [show 0 + m + (n - (0 + m)) = n by omega, hbase, Nat.zero_add (0 + m)] at hend
  exact ⟨r', hall, by rw [hufDec1, hrun]; exact hend⟩

end HufStream

/-! ## HUF.DEC1 (R210) -/

theorem stateBrInit_of_streamOk {s : State} {k : Fin 4} {start limit : Nat} (h : streamOk s.inByte start limit) :
    s.brInit k start limit = .ok () (s.setBr k (readerAtMark s.inByte start limit)) := by
  rw [State.brInit, brInit_eq_ok h, lift_ok]

theorem stateBrInit_empty {s : State} {k : Fin 4} {start limit : Nat} (h : limit ≤ start) :
    s.brInit k start limit = .raise .bitstreamEmpty s := by
  rw [State.brInit, brInit_empty _ _ h, lift_raise, setBr_get_self]

theorem stateBrInit_noEndMark {s : State} {k : Fin 4} {start limit : Nat} (h : start < limit)
    (h0 : s.inByte (limit - 1) = 0) : s.brInit k start limit = .raise .noEndMark s := by
  rw [State.brInit, brInit_noEndMark _ h h0, lift_raise, setBr_get_self]

/-- A decode of at most a block into a table that R206 makes does not leave what the rules define. -/
theorem hufDecStop_eq_none {h : HufRegs} {n : Nat} (htab : n ≠ 0 → hufTableOk h) (hn : n ≤ Config.maxBlock) :
    hufDecStop h n = none := by
  have hlit : Config.litSize = Config.maxBlock + 8 := rfl
  rw [hufDecStop]
  split
  · rfl
  · rename_i hne
    obtain ⟨hlog1, hlog12, -⟩ := htab hne
    rw [if_neg (by omega), if_neg (by omega)]

/-- The region of HUF.DEC1 as a stream. -/
def dec1Stream (start limit : Nat) : HufStream := ⟨start, limit, 0⟩

/-- HUF.DEC1 on a region with an end mark (R210, R213). -/
theorem stateHufDec1_eq {s : State} {start limit n : Nat} (hm : s.memOk) (hok : streamOk s.inByte start limit)
    (hl : limit < 2 ^ 32) (htab : n ≠ 0 → hufTableOk s.huf) (hn : n ≤ Config.maxBlock) :
    ∃ r, (dec1Stream start limit).Extends s.inByte s.huf 0 n s.litbuf r ∧
      s.hufDec1 start limit n =
        if (dec1Stream start limit).bits s.inByte s.huf n = some 0 then .ok () { s.setBr 0 r.1 with litbuf := r.2 }
        else .raise .hufStreamEnd ({ s.setBr 0 r.1 with litbuf := r.2 }.scrapLit [(0, n)]) := by
  have hlit : Config.litSize = Config.maxBlock + 8 := rfl
  obtain ⟨r, hext, hrun⟩ := HufStream.hufDec1_extends (σ := dec1Stream start limit) (h := s.huf) rfl htab
    (HufStream.decoded_readerAtMark hok hl s.litbuf) hm.2.2 (by omega)
  refine ⟨r, hext, ?_⟩
  have hget : (s.setBr 0 (readerAtMark s.inByte start limit)).br.get 0 = readerAtMark s.inByte start limit := br_get_set _ _
  have hset : (s.setBr 0 (readerAtMark s.inByte start limit)).setBr 0 r.1 = s.setBr 0 r.1 := by simp [State.setBr]
  have hbody : s.hufDec1 start limit n =
      ((Machine.hufDec1 s.inByte s.huf n (readerAtMark s.inByte start limit) s.litbuf).lift fun r =>
        { (s.setBr 0 (readerAtMark s.inByte start limit)).setBr 0 r.1 with litbuf := r.2 }).onRaise
          fun t => t.scrapLit [(0, n)] := by
    rw [State.hufDec1, stateBrInit_of_streamOk hok, bind_ok]
    dsimp only [setBr_huf]
    rw [hufDecStop_eq_none htab hn, hget]
    rfl
  rw [hbody, show Machine.hufDec1 s.inByte s.huf n (readerAtMark s.inByte start limit) s.litbuf = _ from hrun]
  split
  · rw [lift_ok, onRaise_ok, hset]
  · rw [lift_raise, onRaise_raise, hset]

/-- Settles O58: HUF.DEC1 is `stateHufDec1_eq` on a region that BR.INIT accepts. -/
theorem oneStreamDecoded : Obligations.OneStreamDecoded := by
  intro start limit n s hm hwf
  have hn : n.toNat ≤ Config.maxBlock := of_decide_eq_true hwf
  have hexec : exec (.hufDec1 start limit n) s = finish (s.hufDec1 start.toNat limit.toNat n.toNat) := rfl
  refine ⟨fun hok htab => ?decode, fun h => ?empty, fun hlt h0 => ?noEndMark⟩
  case empty => rw [hexec, State.hufDec1, stateBrInit_empty h, bind_raise, finish_raise]
  case noEndMark => rw [hexec, State.hufDec1, stateBrInit_noEndMark hlt h0, bind_raise, finish_raise]
  have htab : n.toNat ≠ 0 → hufTableOk s.huf := fun hne => htab.resolve_left fun h0 => hne (by rw [h0]; rfl)
  obtain ⟨r, hext, hrun⟩ := stateHufDec1_eq hm hok limit.isLt htab hn
  have hregion : regionSymbols s.inByte s.huf start.toNat limit.toNat n.toNat = _ :=
    (dec1Stream start.toNat limit.toNat).regionSymbols_eq s.inByte s.huf n.toNat
  rw [hregion]
  by_cases hend : (dec1Stream start.toNat limit.toNat).bits s.inByte s.huf n.toNat = some 0
  · rw [if_pos hend] at hrun ⊢
    have hnext : exec (.hufDec1 start limit n) s = .next { s with br := s.br.set 0 r.1, litbuf := r.2 } := by
      rw [hexec, hrun, finish_ok]
      rfl
    have hdec := hext.decoded
    rw [Nat.zero_add] at hdec
    obtain ⟨hcur, hconsumed⟩ := hdec.ends_iff.mpr hend
    have hreads := hdec.reads 0 hend
    refine ⟨fun syms hsyms => ⟨_, hnext, ?_, ?_, ?_, fun k hk => ?_, fun k hk => hext.frame k (.inr ?_)⟩,
      fun h => nomatch h⟩
    · simp only [br_get_set]
    · simp only [br_get_set, hcur]
      exact BitVec.eq_of_toNat_eq hreads.ok.1
    · simp only [br_get_set, hconsumed]
    · cases hsyms
      have hbyte := hdec.written 0 hend k hk
      rw [show (dec1Stream start.toNat limit.toNat).base = 0 from rfl, Nat.zero_add] at hbyte
      rw [List.getD_eq_getElem _ _ (by simpa using hk), List.getElem_map, List.getElem_range]
      exact hbyte
    · simpa [dec1Stream] using hk
  · rw [if_neg hend] at hrun ⊢
    exact ⟨fun syms h => (nomatch h), fun _ => ⟨_, by rw [hexec, hrun, finish_raise], rfl, rfl⟩⟩

end Sys2Proof.Machine
end

section
/-! PROOFS. HUF.DEC4 and JUMP (R212, R213, R296): the four readers, the interleaved path and the four tails as steps of four
streams, and what comes of them. -/
namespace Sys2Proof.Machine

/-! ## Segments (R212) -/

/-- The number of symbols of stream `k`. -/
def segCount (n : Nat) (k : Fin 4) : Nat := if k = 3 then n - 3 * ceilDiv n 4 else ceilDiv n 4

theorem segCount_le (n : Nat) (k : Fin 4) : segCount n k ≤ ceilDiv n 4 := by
  unfold segCount ceilDiv
  split <;> omega

theorem segCount_ge {n c : Nat} (k : Fin 4) (h : 3 * ceilDiv n 4 + c ≤ n) : c ≤ segCount n k := by
  unfold segCount
  unfold ceilDiv at *
  split <;> omega

/-- The segments end at or below `n`. -/
theorem seg_end_le {n : Nat} (hseg : 3 * ceilDiv n 4 ≤ n) (k : Fin 4) : k.val * ceilDiv n 4 + segCount n k ≤ n := by
  unfold segCount
  split
  case isTrue h => subst h; show 3 * ceilDiv n 4 + _ ≤ n; omega
  case isFalse h =>
    have hk : k.val + 1 ≤ 3 := by omega
    calc k.val * ceilDiv n 4 + ceilDiv n 4 = (k.val + 1) * ceilDiv n 4 := by ring
      _ ≤ 3 * ceilDiv n 4 := Nat.mul_le_mul_right _ hk
      _ ≤ n := hseg

/-- Places of different segments are apart. -/
theorem segments_apart {n r m : Nat} {j k : Fin 4} (hne : j ≠ k) (hr : r < ceilDiv n 4) (hm : m ≤ ceilDiv n 4) :
    j.val * ceilDiv n 4 + r < k.val * ceilDiv n 4 ∨ k.val * ceilDiv n 4 + m ≤ j.val * ceilDiv n 4 + r := by
  have below {a b : Nat} (h : a < b) : a * ceilDiv n 4 + ceilDiv n 4 ≤ b * ceilDiv n 4 := by
    rw [← Nat.succ_mul]
    exact Nat.mul_le_mul_right _ h
  rcases Nat.lt_or_gt_of_ne (Fin.val_ne_of_ne hne) with h | h
  · have := below h
    omega
  · have := below h
    omega

/-- Every place below `n` lies in a segment. -/
theorem exists_segment {n x : Nat} (hseg : 3 * ceilDiv n 4 ≤ n) (hx : x < n) :
    ∃ (k : Fin 4) (r : Nat), r < segCount n k ∧ x = k.val * ceilDiv n 4 + r := by
  by_cases h0 : x < ceilDiv n 4
  · exact ⟨0, x, h0, by simp⟩
  by_cases h1 : x < 2 * ceilDiv n 4
  · exact ⟨1, x - ceilDiv n 4, by show _ < ceilDiv n 4; omega, by show x = 1 * ceilDiv n 4 + _; omega⟩
  by_cases h2 : x < 3 * ceilDiv n 4
  · exact ⟨2, x - 2 * ceilDiv n 4, by show _ < ceilDiv n 4; omega, by show x = 2 * ceilDiv n 4 + _; omega⟩
  · exact ⟨3, x - 3 * ceilDiv n 4, by show _ < n - 3 * ceilDiv n 4; omega, by show x = 3 * ceilDiv n 4 + _; omega⟩

/-! ## Four streams -/

theorem br_get_set_same (v : Vector BitReader 4) (k : Fin 4) (b : BitReader) : (v.set k b).get k = b :=
  Vector.getElem_set_self k.isLt

theorem br_get_set_other (v : Vector BitReader 4) {j k : Fin 4} (b : BitReader) (h : j ≠ k) :
    (v.set k b).get j = v.get j := Vector.getElem_set_ne _ _ (Fin.val_ne_of_ne h.symm)

/-- Stream `k` of the four-stream form, with its segment of LIT (R107, R212). -/
def jumpStream (rd : Nat → Byte) (start limit n : Nat) (k : Fin 4) : HufStream :=
  ⟨jumpStart rd start limit k, jumpStart rd start limit (k + 1), k.val * ceilDiv n 4⟩

/-- `i k` symbols of each stream `k` have been decoded, and LIT holds above `n` what `lit0` does. -/
structure FourDecoded (rd : Nat → Byte) (h : HufRegs) (start limit n : Nat) (lit0 : Memory) (i : Fin 4 → Nat) (d : Dec4St) :
    Prop where
  decoded : ∀ k, (jumpStream rd start limit n k).Decoded rd h (i k) (d.1.get k) d.2
  le : ∀ k, i k ≤ segCount n k
  wf : d.2.wf Config.litSize
  above : ∀ x, n ≤ x → d.2.byte x = lit0.byte x

namespace FourDecoded

variable {rd : Nat → Byte} {h : HufRegs} {start limit n c : Nat} {lit0 : Memory} {i : Fin 4 → Nat} {d : Dec4St}

/-- More symbols of one stream leave the symbols of the others. -/
theorem extend {k : Fin 4} {m : Nat} {r : BitReader × Memory} (hseg : 3 * ceilDiv n 4 ≤ n)
    (hd : FourDecoded rd h start limit n lit0 i d)
    (hext : (jumpStream rd start limit n k).Extends rd h (i k) m d.2 r) (hm : i k + m ≤ segCount n k) :
    FourDecoded rd h start limit n lit0 (Function.update i k (i k + m)) (d.1.set k r.1, r.2) := by
  have hbase (j : Fin 4) : (jumpStream rd start limit n j).base = j.val * ceilDiv n 4 := rfl
  have hframe := hext.frame
  rw [hbase] at hframe
  refine ⟨fun j => ?_, fun j => ?_, hext.wf, fun x hx => ?_⟩
  · by_cases hj : j = k
    · subst hj
      rw [Function.update_self, br_get_set_same]
      exact hext.decoded
    · rw [Function.update_of_ne hj, br_get_set_other _ _ hj]
      refine (hd.decoded j).of_byte_eq fun r hr => hframe _ ?_
      have hlt := hr.trans_le ((hd.le j).trans (segCount_le n j))
      have hapart := segments_apart (m := i k + m) hj hlt (hm.trans (segCount_le n k))
      rw [hbase]
      omega
  · by_cases hj : j = k
    · subst hj
      rwa [Function.update_self]
    · rw [Function.update_of_ne hj]
      exact hd.le j
  · have hend := seg_end_le hseg k
    exact (hframe x (by omega)).trans (hd.above x hx)

/-! ## The interleaved path (R212) -/

/-- The symbols decoded in the middle of a pass: four more of each stream below `k`. -/
def midPass (c k : Nat) (j : Fin 4) : Nat := if j.val < k then c + 4 else c

theorem update_midPass (c : Nat) (k : Fin 4) : Function.update (midPass c k) k (midPass c k k + 4) = midPass c (k + 1) := by
  funext j
  by_cases hj : j = k
  · subst hj
    simp [midPass]
  · have hne : j.val ≠ k.val := Fin.val_ne_of_ne hj
    rw [Function.update_of_ne hj]
    exact if_congr (by omega) rfl rfl

/-- Four symbols of stream `k` (R212). -/
theorem four {k : Fin 4} (hseg : 3 * ceilDiv n 4 + (c + 4) ≤ n) (hlit : n ≤ Config.litSize) (htab : hufTableOk h)
    (hd : FourDecoded rd h start limit n lit0 (midPass c k) d) (hr : ∀ j : Fin 4, k.val ≤ j.val → Ready 4 (d.1.get j)) :
    FourDecoded rd h start limit n lit0 (midPass c (k + 1)) (dec4Four h k (k.val * ceilDiv n 4 + c) d) ∧
    ∀ j : Fin 4, k.val + 1 ≤ j.val → Ready 4 ((dec4Four h k (k.val * ceilDiv n 4 + c) d).1.get j) := by
  have hck : midPass c k k = c := if_neg (lt_irrefl _)
  have hend := seg_end_le (n := n) (by omega) k
  have hfour : c + 4 ≤ segCount n k := segCount_ge k hseg
  have hplain := HufStream.hufPlain_extends (n := 4) (fun _ => htab) (hd.decoded k) (hr k le_rfl) hd.wf
    (by rw [hck]; show k.val * ceilDiv n 4 + c + 4 ≤ _; omega)
  rw [← update_midPass]
  refine ⟨?_, fun j hj => ?_⟩
  · have hall := hd.extend (by omega) hplain (by omega)
    rw [hck] at hall ⊢
    exact hall
  · have hne : j ≠ k := fun he => by subst he; omega
    rw [dec4Four, br_get_set_other _ _ hne]
    exact hr j (by omega)

theorem refill (k : Fin 4) {x : Bool × Dec4St} (hd : FourDecoded rd h start limit n lit0 i x.2) :
    FourDecoded rd h start limit n lit0 i (dec4Refill rd k x).2 := by
  refine ⟨fun j => ?_, hd.le, hd.wf, hd.above⟩
  by_cases hj : j = k
  · subst hj
    rw [dec4Refill, br_get_set_same]
    exact (hd.decoded j).refill
  · rw [dec4Refill, br_get_set_other _ _ hj]
    exact hd.decoded j

/-- Where every refill up to stream `k` returned MORE, the readers up to it are ready for four symbols (R212). -/
theorem refill_ready {k : Fin 4} {x : Bool × Dec4St} (hd : FourDecoded rd h start limit n lit0 i x.2)
    (hr : x.1 = true → ∀ j : Fin 4, j.val < k.val → Ready 4 (x.2.1.get j)) :
    (dec4Refill rd k x).1 = true →
      ∀ j : Fin 4, j.val < k.val + 1 → Ready 4 ((dec4Refill rd k x).2.1.get j) := by
  intro hflag j hj
  rw [dec4Refill, Bool.and_eq_true] at hflag
  by_cases hjk : j = k
  · subst hjk
    rw [dec4Refill, br_get_set_same]
    exact (hd.decoded j).refill_ready 4 fun _ => le_rfl
  · have hne : j.val ≠ k.val := Fin.val_ne_of_ne hjk
    rw [dec4Refill, br_get_set_other _ _ hjk]
    exact hr hflag.1 j (by omega)

/-- One pass of the interleaved path: four symbols of each stream, and where its refills all return MORE, readers ready for the
next pass (R212). -/
theorem pass (hseg : 3 * ceilDiv n 4 + (c + 4) ≤ n) (hlit : n ≤ Config.litSize) (htab : hufTableOk h)
    (hd : FourDecoded rd h start limit n lit0 (fun _ => c) d) (hr : ∀ j, Ready 4 (d.1.get j)) :
    FourDecoded rd h start limit n lit0 (fun _ => c + 4) (dec4Pass rd h (ceilDiv n 4) c d).2 ∧
    ((dec4Pass rd h (ceilDiv n 4) c d).1 = true → ∀ j, Ready 4 ((dec4Pass rd h (ceilDiv n 4) c d).2.1.get j)) := by
  have hstart : (fun _ => c) = midPass c 0 := funext fun j => (if_neg (Nat.not_lt_zero _)).symm
  have hend : (fun _ => c + 4) = midPass c 4 := funext fun j => (if_pos j.isLt).symm
  rw [hstart] at hd
  rw [hend]
  obtain ⟨h0, r0⟩ := hd.four (k := 0) hseg hlit htab fun j _ => hr j
  obtain ⟨h1, r1⟩ := h0.four (k := 1) hseg hlit htab r0
  obtain ⟨h2, r2⟩ := h1.four (k := 2) hseg hlit htab r1
  obtain ⟨h3, -⟩ := h2.four (k := 3) hseg hlit htab r2
  have hpass : dec4Pass rd h (ceilDiv n 4) c d =
      dec4Refill rd 3 (dec4Refill rd 2 (dec4Refill rd 1 (dec4Refill rd 0 (true,
        dec4Four h 3 ((3 : Fin 4).val * ceilDiv n 4 + c) (dec4Four h 2 ((2 : Fin 4).val * ceilDiv n 4 + c)
          (dec4Four h 1 ((1 : Fin 4).val * ceilDiv n 4 + c) (dec4Four h 0 ((0 : Fin 4).val * ceilDiv n 4 + c) d))))))) := by
    simp [dec4Pass]
  rw [hpass]
  have f0 := refill (x := (true, _)) 0 h3
  have f1 := f0.refill 1
  have f2 := f1.refill 2
  refine ⟨f2.refill 3, fun hflag j => ?_⟩
  have g0 := refill_ready (k := 0) (x := (true, _)) h3 fun _ j hj => absurd hj (Nat.not_lt_zero _)
  exact f2.refill_ready (k := 3) (f1.refill_ready (k := 2) (f0.refill_ready (k := 1) g0)) hflag j j.isLt

/-- The interleaved path decodes as many symbols of each stream (R212). -/
theorem unrolled {f : Nat} (hseg : 3 * ceilDiv n 4 ≤ n) (hlit : n ≤ Config.litSize) (htab : n ≠ 0 → hufTableOk h)
    (hd : FourDecoded rd h start limit n lit0 (fun _ => c) d) (hr : ∀ j, Ready 4 (d.1.get j)) :
    ∃ m e, dec4Unrolled rd h n (ceilDiv n 4) f c d = (m, e) ∧ FourDecoded rd h start limit n lit0 (fun _ => m) e := by
  induction f generalizing c d with
  | zero => exact ⟨c, d, rfl, hd⟩
  | succ f ih =>
    unfold dec4Unrolled
    dsimp only
    split
    case isFalse => exact ⟨c, d, rfl, hd⟩
    case isTrue hgo =>
      obtain ⟨hpass, hready⟩ := hd.pass (by omega) hlit (htab (by omega)) hr
      split
      case isFalse => exact ⟨c + 4, _, rfl, hpass⟩
      case isTrue hmore => exact ih hpass (hready hmore)

/-! ## The tails (R212) -/

/-- The symbols decoded after the tails of the streams below `k`. -/
def midTails (n c k : Nat) (j : Fin 4) : Nat := if j.val < k then segCount n j else c

theorem update_midTails (n c : Nat) (k : Fin 4) :
    Function.update (midTails n c k) k (segCount n k) = midTails n c (k + 1) := by
  funext j
  by_cases hj : j = k
  · subst hj
    simp [midTails]
  · have hne : j.val ≠ k.val := Fin.val_ne_of_ne hj
    rw [Function.update_of_ne hj]
    exact if_congr (by omega) rfl rfl

/-- The tail of stream `k` decodes the rest of its symbols, and completes exactly where they take all its bits (R211, R212). -/
theorem tail (k : Fin 4) (hseg : 3 * ceilDiv n 4 ≤ n) (hlit : n ≤ Config.litSize) (htab : n ≠ 0 → hufTableOk h)
    (hd : FourDecoded rd h start limit n lit0 (midTails n c k) d) :
    ∃ e, FourDecoded rd h start limit n lit0 (midTails n c (k + 1)) e ∧
      dec4Tail rd h k (segCount n k - c) (k.val * ceilDiv n 4 + c) d =
        if (jumpStream rd start limit n k).bits rd h (segCount n k) = some 0 then .ok () e else .raise .hufStreamEnd e := by
  have hck : midTails n c k k = c := if_neg (lt_irrefl _)
  have hle : c ≤ segCount n k := hck ▸ hd.le k
  have hend := seg_end_le hseg k
  have hne : segCount n k - c ≠ 0 → n ≠ 0 := fun h0 hn => by subst hn; omega
  obtain ⟨r, hext, hrun⟩ := HufStream.hufTail_extends (n := segCount n k - c) (fun h0 => htab (hne h0)) (hd.decoded k) hd.wf
    (by rw [hck]; show k.val * ceilDiv n 4 + c + _ ≤ _; omega)
  have hall := hd.extend hseg hext (by omega)
  rw [hck, Nat.add_sub_cancel' hle, update_midTails] at hall
  rw [hck, Nat.add_sub_cancel' hle] at hrun
  refine ⟨_, hall, ?_⟩
  rw [dec4Tail, show hufTail rd h (segCount n k - c) (k.val * ceilDiv n 4 + c) (d.1.get k) d.2 = _ from hrun]
  split <;> rfl

end FourDecoded

/-! ## The loops of HUF.DEC4 -/

section
variable {rd : Nat → Byte} {h : HufRegs} {start limit n : Nat} {lit0 : Memory} {d : Dec4St}

/-- The symbols of each of the four streams take all its bits (R213). -/
def AllEnd (rd : Nat → Byte) (h : HufRegs) (start limit n : Nat) : Prop :=
  ∀ k, (jumpStream rd start limit n k).bits rd h (segCount n k) = some 0

/-- HUF.DEC4 completes exactly where the symbols of each stream take all its bits (R213). -/
theorem hufDec4_cases (hseg : 3 * ceilDiv n 4 ≤ n) (hlit : n ≤ Config.litSize) (htab : n ≠ 0 → hufTableOk h)
    (hd : FourDecoded rd h start limit n lit0 (fun _ => 0) d) (hr : ∀ j, Ready 4 (d.1.get j)) :
    (AllEnd rd h start limit n ∧ ∃ e w, hufDec4 rd h n d = .ok () (e, w) ∧
      FourDecoded rd h start limit n lit0 (segCount n) e) ∨
    (¬ AllEnd rd h start limit n ∧ ∃ r, hufDec4 rd h n d = .raise .hufStreamEnd r) := by
  obtain ⟨c, d1, hrun, hd1⟩ := hd.unrolled (f := n) hseg hlit htab hr
  have hstart : (fun _ => c) = FourDecoded.midTails n c 0 := funext fun j => (if_neg (Nat.not_lt_zero _)).symm
  have hend : FourDecoded.midTails n c 4 = segCount n := funext fun j => if_pos j.isLt
  rw [hstart] at hd1
  obtain ⟨d2, hd2, ht0⟩ := hd1.tail 0 hseg hlit htab
  obtain ⟨d3, hd3, ht1⟩ := hd2.tail 1 hseg hlit htab
  obtain ⟨d4, hd4, ht2⟩ := hd3.tail 2 hseg hlit htab
  obtain ⟨d5, hd5, ht3⟩ := hd4.tail 3 hseg hlit htab
  have hloops : hufDec4 rd h n d =
      ((dec4Tail rd h 0 (segCount n 0 - c) ((0 : Fin 4).val * ceilDiv n 4 + c) d1).lift
        fun e => (e, dec4Written n (ceilDiv n 4) c 0)).bind fun _ e2 =>
      ((dec4Tail rd h 1 (segCount n 1 - c) ((1 : Fin 4).val * ceilDiv n 4 + c) e2.1).lift
        fun e => (e, dec4Written n (ceilDiv n 4) c 1)).bind fun _ e3 =>
      ((dec4Tail rd h 2 (segCount n 2 - c) ((2 : Fin 4).val * ceilDiv n 4 + c) e3.1).lift
        fun e => (e, dec4Written n (ceilDiv n 4) c 2)).bind fun _ e4 =>
      (dec4Tail rd h 3 (segCount n 3 - c) ((3 : Fin 4).val * ceilDiv n 4 + c) e4.1).lift
        fun e => (e, dec4Written n (ceilDiv n 4) c 3) := by
    have h3 : segCount n 3 - c = n - (3 * ceilDiv n 4 + c) := Nat.sub_sub _ _ _
    rw [h3]
    simp only [hufDec4, hrun, Fin.val_zero, Nat.zero_mul, Nat.zero_add, Fin.val_one, Nat.one_mul]
    rfl
  rw [hloops]
  by_cases h0 : (jumpStream rd start limit n 0).bits rd h (segCount n 0) = some 0
  case neg => exact .inr ⟨fun hall => h0 (hall 0), _, by rw [ht0, if_neg h0]; rfl⟩
  rw [ht0, if_pos h0, lift_ok, bind_ok]
  by_cases h1 : (jumpStream rd start limit n 1).bits rd h (segCount n 1) = some 0
  case neg => exact .inr ⟨fun hall => h1 (hall 1), _, by rw [ht1, if_neg h1]; rfl⟩
  rw [ht1, if_pos h1, lift_ok, bind_ok]
  by_cases h2 : (jumpStream rd start limit n 2).bits rd h (segCount n 2) = some 0
  case neg => exact .inr ⟨fun hall => h2 (hall 2), _, by rw [ht2, if_neg h2]; rfl⟩
  rw [ht2, if_pos h2, lift_ok, bind_ok]
  by_cases h3 : (jumpStream rd start limit n 3).bits rd h (segCount n 3) = some 0
  case neg => exact .inr ⟨fun hall => h3 (hall 3), _, by rw [ht3, if_neg h3]; rfl⟩
  refine .inl ⟨fun k => ?_, d5, _, by rw [ht3, if_pos h3]; rfl, hend ▸ hd5⟩
  fin_cases k
  exacts [h0, h1, h2, h3]

end

/-! ## The symbols of the four streams (R213) -/

section
variable (rd : Nat → Byte) (h : HufRegs) (start limit n : Nat)

/-- The symbols of stream `k`. -/
def streamSymbols (k : Fin 4) : List Byte := (List.range (segCount n k)).map ((jumpStream rd start limit n k).symbol rd h)

/-- The symbols of the four streams in output order. -/
def allSymbols : List Byte :=
  streamSymbols rd h start limit n 0 ++ streamSymbols rd h start limit n 1 ++ streamSymbols rd h start limit n 2 ++
    streamSymbols rd h start limit n 3

@[simp] theorem streamSymbols_length (k : Fin 4) : (streamSymbols rd h start limit n k).length = segCount n k := by
  rw [streamSymbols, List.length_map, List.length_range]

theorem streamSymbols_getD {k : Fin 4} {r : Nat} (hr : r < segCount n k) :
    (streamSymbols rd h start limit n k).getD r 0 = (jumpStream rd start limit n k).symbol rd h r := by
  rw [List.getD_eq_getElem _ _ (by simpa using hr)]
  simp [streamSymbols]

theorem allSymbols_getD (k : Fin 4) {r : Nat} (hr : r < segCount n k) :
    (allSymbols rd h start limit n).getD (k.val * ceilDiv n 4 + r) 0 = (jumpStream rd start limit n k).symbol rd h r := by
  have h0 : (streamSymbols rd h start limit n 0).length = ceilDiv n 4 := streamSymbols_length _ _ _ _ _ 0
  have h1 : (streamSymbols rd h start limit n 1).length = ceilDiv n 4 := streamSymbols_length _ _ _ _ _ 1
  have h2 : (streamSymbols rd h start limit n 2).length = ceilDiv n 4 := streamSymbols_length _ _ _ _ _ 2
  have hle := hr.trans_le (segCount_le n k)
  rw [← streamSymbols_getD rd h start limit n hr, allSymbols]
  obtain rfl | rfl | rfl | rfl : k = 0 ∨ k = 1 ∨ k = 2 ∨ k = 3 := by omega
  · rw [Fin.val_zero, Nat.zero_mul, Nat.zero_add, List.getD_append, List.getD_append, List.getD_append]
    all_goals simp only [List.length_append, h0, h1]
    all_goals omega
  · rw [Fin.val_one, Nat.one_mul, List.getD_append, List.getD_append, List.getD_append_right, h0, Nat.add_sub_cancel_left]
    all_goals simp only [List.length_append, h0, h1]
    all_goals omega
  · rw [Fin.val_two, List.getD_append, List.getD_append_right, List.length_append, h0, h1, ← Nat.two_mul,
      Nat.add_sub_cancel_left]
    all_goals simp only [List.length_append, h0, h1, h2]
    all_goals omega
  · rw [show (3 : Fin 4).val = 2 + 1 from rfl, Nat.succ_mul, Nat.two_mul, List.getD_append_right, List.length_append,
      List.length_append, h0, h1, h2, Nat.add_sub_cancel_left]
    simp only [List.length_append, h0, h1, h2]
    omega

theorem jumpStream_regionSymbols (k : Fin 4) :
    regionSymbols rd h (jumpStart rd start limit k) (jumpStart rd start limit (k + 1)) (segCount n k) =
      if (jumpStream rd start limit n k).bits rd h (segCount n k) = some 0 then some (streamSymbols rd h start limit n k)
      else none := (jumpStream rd start limit n k).regionSymbols_eq rd h _

variable {rd h start limit n}

theorem fourSymbols_of_allEnd (hall : AllEnd rd h start limit n) :
    fourSymbols rd h start limit n = some (allSymbols rd h start limit n) := by
  have hpart (k : Fin 4) := (jumpStream_regionSymbols rd h start limit n k).trans (if_pos (hall k))
  have h0 : regionSymbols rd h (jumpStart rd start limit 0) (jumpStart rd start limit 1) (ceilDiv n 4) = _ := hpart 0
  have h1 : regionSymbols rd h (jumpStart rd start limit 1) (jumpStart rd start limit 2) (ceilDiv n 4) = _ := hpart 1
  have h2 : regionSymbols rd h (jumpStart rd start limit 2) (jumpStart rd start limit 3) (ceilDiv n 4) = _ := hpart 2
  have h3 : regionSymbols rd h (jumpStart rd start limit 3) (jumpStart rd start limit 4) (n - 3 * ceilDiv n 4) = _ := hpart 3
  simp only [fourSymbols, h0, h1, h2, h3]
  rfl

theorem fourSymbols_of_not_allEnd (hall : ¬ AllEnd rd h start limit n) : fourSymbols rd h start limit n = none := by
  have hpart (k : Fin 4) {l : List Byte} (hl : regionSymbols rd h (jumpStart rd start limit k)
      (jumpStart rd start limit (k + 1)) (segCount n k) = some l) :
      (jumpStream rd start limit n k).bits rd h (segCount n k) = some 0 := by
    rw [jumpStream_regionSymbols] at hl
    by_contra hne
    rw [if_neg hne] at hl
    cases hl
  cases hs : fourSymbols rd h start limit n with
  | none => rfl
  | some syms =>
    unfold fourSymbols at hs
    dsimp only at hs
    split at hs
    case h_2 => cases hs
    case h_1 h0 h1 h2 h3 =>
      refine absurd (fun k => ?_) hall
      obtain rfl | rfl | rfl | rfl : k = 0 ∨ k = 1 ∨ k = 2 ∨ k = 3 := by omega
      exacts [hpart 0 h0, hpart 1 h1, hpart 2 h2, hpart 3 h3]

/-- Where all streams end, LIT holds their symbols in output order (R213). -/
theorem FourDecoded.bytes {lit0 : Memory} {d : Dec4St} (hseg : 3 * ceilDiv n 4 ≤ n) (hall : AllEnd rd h start limit n)
    (hd : FourDecoded rd h start limit n lit0 (segCount n) d) {x : Nat} (hx : x < n) :
    d.2.byte x = (allSymbols rd h start limit n).getD x 0 := by
  obtain ⟨k, r, hr, rfl⟩ := exists_segment hseg hx
  rw [allSymbols_getD rd h start limit n k hr]
  exact (hd.decoded k).written 0 (hall k) r hr

end

/-! ## The four readers (R141, R212) -/

section
variable {s : State} {start limit n : Nat}

/-- BR.INIT of the streams of a list, one after the other. -/
def initStreams (rd : Nat → Byte) (start limit : Nat) : List (Fin 4) → State → Run State Unit
  | [], s => .ok () s
  | k :: ks, s => (s.brInit k (jumpStart rd start limit k) (jumpStart rd start limit (k + 1))).bind fun _ t =>
      initStreams rd start limit ks t

/-- The readers after BR.INIT of the streams of a list. -/
def initReaders (rd : Nat → Byte) (start limit : Nat) : List (Fin 4) → Vector BitReader 4 → Vector BitReader 4
  | [], br => br
  | k :: ks, br => initReaders rd start limit ks
      (br.set k (readerAtMark rd (jumpStart rd start limit k) (jumpStart rd start limit (k + 1))))

theorem initReaders_get_other (rd : Nat → Byte) {ks : List (Fin 4)} {j : Fin 4} (hj : j ∉ ks) (br : Vector BitReader 4) :
    (initReaders rd start limit ks br).get j = br.get j := by
  induction ks generalizing br with
  | nil => rfl
  | cons k ks ih =>
    obtain ⟨hjk, hjks⟩ := List.ne_and_not_mem_of_not_mem_cons hj
    rw [initReaders, ih hjks, br_get_set_other _ _ hjk]

theorem initReaders_get (rd : Nat → Byte) {ks : List (Fin 4)} {j : Fin 4} (hj : j ∈ ks) (br : Vector BitReader 4) :
    (initReaders rd start limit ks br).get j =
      readerAtMark rd (jumpStart rd start limit j) (jumpStart rd start limit (j + 1)) := by
  induction ks generalizing br with
  | nil => cases hj
  | cons k ks ih =>
    rw [initReaders]
    by_cases hjks : j ∈ ks
    · exact ih hjks _
    · obtain rfl : j = k := (List.mem_cons.mp hj).resolve_right hjks
      rw [initReaders_get_other rd hjks, br_get_set_same]

/-- Streams with end marks are initialised, whatever follows. -/
theorem initStreams_append {ks ls : List (Fin 4)}
    (hok : ∀ j ∈ ks, streamOk s.inByte (jumpStart s.inByte start limit j) (jumpStart s.inByte start limit (j + 1))) :
    initStreams s.inByte start limit (ks ++ ls) s =
      initStreams s.inByte start limit ls { s with br := initReaders s.inByte start limit ks s.br } := by
  induction ks generalizing s with
  | nil => rfl
  | cons k ks ih =>
    rw [List.forall_mem_cons] at hok
    rw [List.cons_append, initStreams, stateBrInit_of_streamOk hok.1, bind_ok]
    exact ih (s := s.setBr k _) hok.2

/-- The streams in the order of their readers. -/
def streamOrder : List (Fin 4) := [0, 1, 2, 3]

theorem streamOrder_split (k : Fin 4) : streamOrder = streamOrder.take k ++ k :: streamOrder.drop (k + 1) := by
  revert k; decide

theorem mem_streamOrder_take : ∀ j k : Fin 4, j ∈ streamOrder.take k ↔ j < k := by decide

theorem mem_streamOrder : ∀ j : Fin 4, j ∈ streamOrder := by decide

/-- The first stream that BR.INIT turns away gives its fault, with the readers before it initialised (R141, R212). -/
theorem initStreams_of_turnedAway {k : Fin 4} {e : ErrCode} (h : streamTurnedAway s.inByte start limit n k e) :
    initStreams s.inByte start limit streamOrder s =
      .raise e { s with br := initReaders s.inByte start limit (streamOrder.take k) s.br } := by
  obtain ⟨-, -, -, hbefore, hturned⟩ := h
  have hsplit := initStreams_append (ks := streamOrder.take k) (ls := k :: streamOrder.drop (k + 1)) fun j hj =>
    hbefore j ((mem_streamOrder_take j k).mp hj)
  rw [← streamOrder_split k] at hsplit
  generalize initReaders s.inByte start limit (streamOrder.take k) s.br = br at hsplit ⊢
  rw [hsplit, initStreams]
  obtain ⟨hempty, rfl⟩ | ⟨hlt, h0, rfl⟩ := hturned
  · rw [stateBrInit_empty hempty.ge, bind_raise]
  · rw [stateBrInit_noEndMark (s := { s with br := br }) hlt h0, bind_raise]

/-- The loops of HUF.DEC4 on the state, with four initialised readers (R212). -/
def decodeFour (n : Nat) (t : State) : Run State Unit :=
  match hufDecStop t.huf n with
  | some f => .stop f
  | none =>
    match Machine.hufDec4 t.inByte t.huf n (t.br, t.litbuf) with
    | .ok _ r => .ok () { t with br := r.1.1, litbuf := r.1.2 }
    | .raise e r => .raise e ({ t with br := r.1.1, litbuf := r.1.2 }.scrapLit r.2)
    | .stop f => .stop f

theorem decodeFour_of_ok {t : State} {d : Dec4St} {w : List (Nat × Nat)} (hs : hufDecStop t.huf n = none)
    (h : Machine.hufDec4 t.inByte t.huf n (t.br, t.litbuf) = .ok () (d, w)) :
    decodeFour n t = .ok () { t with br := d.1, litbuf := d.2 } := by
  simp only [decodeFour, hs, h]

theorem decodeFour_of_raise {t : State} {e : ErrCode} {r : Dec4St × List (Nat × Nat)} (hs : hufDecStop t.huf n = none)
    (h : Machine.hufDec4 t.inByte t.huf n (t.br, t.litbuf) = .raise e r) : ∃ u, decodeFour n t = .raise e u :=
  ⟨_, by simp only [decodeFour, hs, h]; rfl⟩

theorem hufDec4Streams_eq (h3 : jumpStart s.inByte start limit 3 ≤ limit) :
    s.hufDec4Streams start limit n (memRead s.inByte start 2) (memRead s.inByte (start + 2) 2)
        (memRead s.inByte (start + 4) 2) =
      (initStreams s.inByte start limit streamOrder s).bind fun _ t => decodeFour n t := by
  simp only [initStreams, streamOrder, run_bind_assoc, bind_ok]
  exact if_neg (Nat.not_lt.mpr h3)

theorem hufDec4Streams_jump {len1 len2 len3 : Nat} (h : limit < start + 6 + len1 + len2 + len3) :
    s.hufDec4Streams start limit n len1 len2 len3 = .raise .hufJump s := if_pos h

/-- The starts of the streams rise to the end of the region. -/
theorem jumpStart_le {rd : Nat → Byte} (h3 : jumpStart rd start limit 3 ≤ limit) (k : Fin 4) :
    jumpStart rd start limit (k + 1) ≤ limit := by
  obtain rfl | rfl | rfl | rfl : k = 0 ∨ k = 1 ∨ k = 2 ∨ k = 3 := by omega
  all_goals simp only [jumpStart] at h3
  · show start + 6 + _ ≤ limit
    omega
  · show start + 6 + _ + _ ≤ limit
    omega
  · exact h3
  · exact le_rfl

/-- Four initialised readers, before any symbol (R212). -/
theorem initReaders_fourDecoded (hm : s.memOk) (hl : limit < 2 ^ 32) (hok : fourStreamsOk s.inByte start limit n) :
    let br := initReaders s.inByte start limit streamOrder s.br
    FourDecoded s.inByte s.huf start limit n s.litbuf (fun _ => 0) (br, s.litbuf) ∧ ∀ j, Ready 4 (br.get j) := by
  intro br
  obtain ⟨-, -, h3, hstreams⟩ := hok
  have hget (k : Fin 4) := initReaders_get (start := start) (limit := limit) s.inByte (mem_streamOrder k) s.br
  have hlim (k : Fin 4) := (jumpStart_le h3 k).trans_lt hl
  refine ⟨⟨fun k => ?_, fun _ => Nat.zero_le _, hm.2.2, fun _ _ => rfl⟩, fun k => ?_⟩
  · dsimp only [br]
    rw [hget]
    exact HufStream.decoded_readerAtMark (σ := jumpStream s.inByte start limit n k) (hstreams k k.isLt) (hlim k) _
  · dsimp only [br]
    rw [hget]
    exact (readerAtMark_refreshed (hstreams k k.isLt) (hlim k)).ready

/-- HUF.DEC4 on four streams with end marks (R212, R213): it completes with their symbols in LIT exactly where the symbols of
each take all its bits. -/
theorem hufDec4Streams_of_ok (hm : s.memOk) (hl : limit < 2 ^ 32) (hn : n ≤ Config.maxBlock)
    (htab : n ≠ 0 → hufTableOk s.huf) (hok : fourStreamsOk s.inByte start limit n) :
    let run := s.hufDec4Streams start limit n (memRead s.inByte start 2) (memRead s.inByte (start + 2) 2)
      (memRead s.inByte (start + 4) 2)
    (∀ syms, fourSymbols s.inByte s.huf start limit n = some syms →
      ∃ br lit, run = .ok () { s with br := br, litbuf := lit } ∧ (∀ x < n, lit.byte x = syms.getD x 0) ∧
        ∀ x, n ≤ x → lit.byte x = s.litByte x) ∧
    (fourSymbols s.inByte s.huf start limit n = none → ∃ t, run = .raise .hufStreamEnd t) := by
  intro run
  have hlit : Config.litSize = Config.maxBlock + 8 := rfl
  obtain ⟨hd, hready⟩ := initReaders_fourDecoded hm hl hok
  obtain ⟨-, hseg, h3, hstreams⟩ := hok
  have hinit := initStreams_append (s := s) (ks := streamOrder) (ls := []) fun j _ => hstreams j j.isLt
  rw [List.append_nil] at hinit
  have hrun : run = decodeFour n { s with br := initReaders s.inByte start limit streamOrder s.br } := by
    rw [show run = _ from hufDec4Streams_eq h3, hinit]
    rfl
  generalize initReaders s.inByte start limit streamOrder s.br = br0 at hd hready hrun
  have hstop := hufDecStop_eq_none htab hn
  obtain ⟨hall, ⟨br, lit⟩, w, hdec, hdone⟩ | ⟨hall, r, hdec⟩ := hufDec4_cases hseg (by omega) htab hd hready
  · rw [fourSymbols_of_allEnd hall]
    refine ⟨fun syms hsyms => ⟨br, lit, ?_, fun x hx => ?_, hdone.above⟩, fun h => nomatch h⟩
    · exact hrun.trans (decodeFour_of_ok (t := { s with br := br0 }) hstop hdec)
    · cases hsyms
      exact hdone.bytes hseg hall hx
  · rw [fourSymbols_of_not_allEnd hall]
    obtain ⟨u, hu⟩ := decodeFour_of_raise (t := { s with br := br0 }) hstop hdec
    exact ⟨fun syms h => (nomatch h), fun _ => ⟨u, hrun.trans hu⟩⟩

/-- HUF.DEC4 where BR.INIT turns a stream away (R141, R212). -/
theorem hufDec4Streams_of_turnedAway {k : Fin 4} {e : ErrCode} (h : streamTurnedAway s.inByte start limit n k e) :
    ∃ br : Vector BitReader 4, s.hufDec4Streams start limit n (memRead s.inByte start 2) (memRead s.inByte (start + 2) 2)
        (memRead s.inByte (start + 4) 2) = .raise e { s with br := br } ∧
      ∀ j : Fin 4, k ≤ j → br.get j = s.br.get j := by
  refine ⟨initReaders s.inByte start limit (streamOrder.take k) s.br, ?_, fun j hj => ?_⟩
  · rw [hufDec4Streams_eq h.2.2.1, initStreams_of_turnedAway h, bind_raise]
  · exact initReaders_get_other _ (fun hmem => absurd ((mem_streamOrder_take j k).mp hmem) (Fin.not_lt.mpr hj)) _

/-! ## The tests before the jump table is used (R212) -/

theorem hufDec4Test_jump (h : limit < start + 10) : hufDec4Test start limit n = some .hufJump := if_pos h

theorem hufDec4Test_segments (h : start + 10 ≤ limit) (hn : n = 1 ∨ n = 2 ∨ n = 5) :
    hufDec4Test start limit n = some .hufSegments := by
  have hseg : n < 3 * ceilDiv n 4 := by obtain rfl | rfl | rfl := hn <;> decide
  rw [hufDec4Test, if_neg (Nat.not_lt.mpr h), if_pos hseg]

theorem hufDec4Test_pass (h : start + 10 ≤ limit) (hseg : 3 * ceilDiv n 4 ≤ n) : hufDec4Test start limit n = none := by
  rw [hufDec4Test, if_neg (Nat.not_lt.mpr h), if_neg (Nat.not_lt.mpr hseg)]

theorem stateHufDec4_of_test {e : ErrCode} (h : hufDec4Test start limit n = some e) :
    s.hufDec4 start limit n = .raise e s := by
  simp only [State.hufDec4, h]

theorem stateHufDec4_of_pass (h : hufDec4Test start limit n = none) :
    s.hufDec4 start limit n = s.hufDec4Streams start limit n (memRead s.inByte start 2) (memRead s.inByte (start + 2) 2)
      (memRead s.inByte (start + 4) 2) := by
  simp only [State.hufDec4, h]

end

/-! ## HUF.DEC4 -/

/-- Settles O59: the tests by `hufDec4Test`, the readers and the streams by `hufDec4Streams_of_turnedAway` and
`hufDec4Streams_of_ok`. -/
theorem fourStreamsDecoded : Obligations.FourStreamsDecoded := by
  intro start limit n s hm hwf rd
  have hn : n.toNat ≤ Config.maxBlock := of_decide_eq_true hwf
  have hexec : exec (.hufDec4 start limit n) s = finish (s.hufDec4 start.toNat limit.toNat n.toNat) := rfl
  have hseg (h : n = 1 ∨ n = 2 ∨ n = 5) : n.toNat = 1 ∨ n.toNat = 2 ∨ n.toNat = 5 := by
    obtain rfl | rfl | rfl := h <;> decide
  refine ⟨fun hok htab => ?decode, fun h => ?short, fun h hn => ?segments, fun h hs h3 => ?jump, fun k e h => ?turnedAway⟩
  case decode =>
    have htab : n.toNat ≠ 0 → hufTableOk s.huf := fun hne => htab.resolve_left fun h0 => hne (by rw [h0]; rfl)
    obtain ⟨hsome, hnone⟩ := hufDec4Streams_of_ok hm limit.isLt hn htab hok
    rw [← stateHufDec4_of_pass (hufDec4Test_pass hok.1 hok.2.1)] at hsome hnone
    refine ⟨fun syms hsyms => ?_, fun h => ?_⟩
    · obtain ⟨br, lit, hrun, hbytes, habove⟩ := hsome syms hsyms
      exact ⟨{ s with br := br, litbuf := lit }, by rw [hexec, hrun, finish_ok], rfl, hbytes, habove⟩
    · obtain ⟨t, hrun⟩ := hnone h
      exact ⟨faultEntry .hufStreamEnd t, by rw [hexec, hrun, finish_raise], rfl, rfl⟩
  case short => rw [hexec, stateHufDec4_of_test (hufDec4Test_jump h), finish_raise]
  case segments => rw [hexec, stateHufDec4_of_test (hufDec4Test_segments h (hseg hn)), finish_raise]
  case jump => rw [hexec, stateHufDec4_of_pass (hufDec4Test_pass h hs), hufDec4Streams_jump h3, finish_raise]
  case turnedAway =>
    obtain ⟨br, hrun, hbr⟩ := hufDec4Streams_of_turnedAway h
    exact ⟨br, by rw [hexec, stateHufDec4_of_pass (hufDec4Test_pass h.1 h.2.1), hrun, finish_raise], hbr⟩

/-! ## JUMP (R296) -/

section
variable {len1 len2 len3 : BitVec 16} {s : State}

theorem exec_jump_of_test {e : ErrCode} (h : hufDec4Test s.ip.toNat s.litLim.toNat s.lit.regen.toNat = some e) :
    exec (.jump len1 len2 len3) s = .next (faultEntry e s) := by
  change execJump len1 len2 len3 s = _
  simp only [execJump, h, raised_eq]

theorem exec_jump_of_pass (h : hufDec4Test s.ip.toNat s.litLim.toNat s.lit.regen.toNat = none) :
    exec (.jump len1 len2 len3) s =
      finish ((s.hufDec4Streams s.ip.toNat s.litLim.toNat s.lit.regen.toNat len1.toNat len2.toNat len3.toNat).bind
        fun _ t => .ok () (litEnd t)) := by
  change execJump len1 len2 len3 s = _
  simp only [execJump, h]

end

/-- Settles O38: JUMP is HUF.DEC4 with the lengths of its own bytes, and the end of the section. -/
theorem jumpDecodesLiterals : Obligations.JumpDecodesLiterals := by
  intro len1 len2 len3 s hm rd a n lim hn h1 h2 h3
  have hseg (h : a + 10 ≤ lim) (hs : 3 * ceilDiv n 4 ≤ n) := exec_jump_of_pass (s := s) (len1 := len1) (len2 := len2)
    (len3 := len3) (hufDec4Test_pass h hs)
  rw [h1, h2, h3] at hseg
  refine ⟨fun hok htab => ?decode, fun h => exec_jump_of_test (hufDec4Test_jump h),
    fun h hn => exec_jump_of_test (hufDec4Test_segments h hn), fun h hs hj => ?jump, fun k e h => ?turnedAway⟩
  case decode =>
    obtain ⟨hsome, hnone⟩ := hufDec4Streams_of_ok hm s.litLim.isLt hn htab.resolve_left hok
    refine ⟨fun syms hsyms => ?_, fun h => ?_⟩
    · obtain ⟨br, lit, hrun, hbytes, habove⟩ := hsome syms hsyms
      have hexec := hseg hok.1 hok.2.1
      rw [hrun, bind_ok, finish_ok, litEnd, BitVec.ofNat_toNat] at hexec
      exact ⟨_, hexec, rfl, hbytes, habove⟩
    · obtain ⟨t, hrun⟩ := hnone h
      exact ⟨faultEntry .hufStreamEnd t, by rw [hseg hok.1 hok.2.1, hrun, bind_raise, finish_raise], rfl, rfl⟩
  case jump => rw [hseg h hs, hufDec4Streams_jump hj, bind_raise, finish_raise]
  case turnedAway =>
    obtain ⟨br, hrun, hbr⟩ := hufDec4Streams_of_turnedAway h
    exact ⟨br, by rw [hseg h.1 h.2.1, hrun, bind_raise, finish_raise], hbr⟩

end Sys2Proof.Machine
end

section
/-! PROOFS. XXH.HASH (R230 to R236): the registers it writes, and the hash as a function of the bytes hashed. -/
namespace Sys2Proof.Machine

/-! ## The loops of R231, one step

Each equation is proved of the unapplied function first: `rfl` on the applied form makes the kernel compare the hash value
before a step with the one after it, down to the recursion of `Nat.mod` at 2^64. -/

section
variable (rd : Nat → Byte) (n : Nat)

theorem xxhStripes_succ_fun : xxhStripes rd (n + 1) = fun p x =>
    xxhStripes rd n (p + 32)
      { x with
        v1 := xxhRound x.v1 (xxhLane rd p 8), v2 := xxhRound x.v2 (xxhLane rd (p + 8) 8)
        v3 := xxhRound x.v3 (xxhLane rd (p + 16) 8), v4 := xxhRound x.v4 (xxhLane rd (p + 24) 8) } := rfl

theorem xxhStripes_succ (p : Nat) (x : XxhRegs) : xxhStripes rd (n + 1) p x =
    xxhStripes rd n (p + 32)
      ⟨xxhRound x.v1 (xxhLane rd p 8), xxhRound x.v2 (xxhLane rd (p + 8) 8), xxhRound x.v3 (xxhLane rd (p + 16) 8),
        xxhRound x.v4 (xxhLane rd (p + 24) 8), x.len, x.h⟩ := by
  rw [xxhStripes_succ_fun]

theorem xxhEights_succ_fun : xxhEights rd (n + 1) = fun p h =>
    xxhEights rd n (p + 8) ((h ^^^ xxhRound 0 (xxhLane rd p 8)).rotateLeft 27 * prime1 + prime4) := rfl

theorem xxhEights_succ (p : Nat) (h : Word64) : xxhEights rd (n + 1) p h =
    xxhEights rd n (p + 8) ((h ^^^ xxhRound 0 (xxhLane rd p 8)).rotateLeft 27 * prime1 + prime4) := by
  rw [xxhEights_succ_fun]

theorem xxhOnes_succ_fun : xxhOnes rd (n + 1) = fun p h =>
    xxhOnes rd n (p + 1) ((h ^^^ (xxhLane rd p 1 * prime5)).rotateLeft 11 * prime1) := rfl

theorem xxhOnes_succ (p : Nat) (h : Word64) : xxhOnes rd (n + 1) p h =
    xxhOnes rd n (p + 1) ((h ^^^ (xxhLane rd p 1 * prime5)).rotateLeft 11 * prime1) := by
  rw [xxhOnes_succ_fun]

end

/-! ## The registers (R42, R231) -/

theorem exec_xxhHash (a : Addr) (len : BitVec 32) (s : State) :
    exec (.xxhHash a len) s = .next (s.xxhHash a.toNat len.toNat) := rfl

section
variable {rd : Nat → Byte} {a len : Nat} {x : XxhRegs}

theorem xxhStripes_len {n p : Nat} {x : XxhRegs} : (xxhStripes rd n p x).len = x.len := by
  induction n generalizing p x with
  | zero => rfl
  | succ n ih => rw [xxhStripes_succ, ih]

theorem xxhBody_of_lt (h : len < 32) : xxhBody rd a len x = (Config.xxhSeed + prime5, x) := if_neg (by omega)

theorem xxhBody_of_le (h : 32 ≤ len) :
    xxhBody rd a len x =
      (xxhJoin (xxhStripes rd (len / 32) a (xxhSeeded x)), xxhStripes rd (len / 32) a (xxhSeeded x)) := if_pos h

theorem xxhBody_len : (xxhBody rd a len x).2.len = x.len := by
  by_cases h : 32 ≤ len
  · rw [xxhBody_of_le h, xxhStripes_len, xxhSeeded]
  · rw [xxhBody_of_lt (by omega)]

theorem xxhHash_len : (xxhHash rd a len x).len = BitVec.ofNat 64 len := by
  rw [xxhHash, xxhBody_len]

/-- A hash of less than a stripe leaves the accumulators alone. -/
theorem xxhHash_accumulators_of_lt (h : len < 32) :
    (xxhHash rd a len x).v1 = x.v1 ∧ (xxhHash rd a len x).v2 = x.v2 ∧
      (xxhHash rd a len x).v3 = x.v3 ∧ (xxhHash rd a len x).v4 = x.v4 := by
  simp only [xxhHash, xxhBody_of_lt h, and_self]

end

/-! ## The bytes (R230) -/

/-- The `n` bytes that one reader has from `p` on are those that the other has from `q` on. -/
def SameBytes (rd rd' : Nat → Byte) (p q n : Nat) : Prop := ∀ i < n, rd (p + i) = rd' (q + i)

namespace SameBytes
variable {rd rd' : Nat → Byte} {p q n : Nat}

theorem take (hb : SameBytes rd rd' p q n) {m : Nat} (h : m ≤ n) : SameBytes rd rd' p q m :=
  fun i hi => hb i (by omega)

theorem part (hb : SameBytes rd rd' p q n) {k m : Nat} (h : k + m ≤ n) : SameBytes rd rd' (p + k) (q + k) m :=
  fun i hi => by
    rw [Nat.add_assoc, Nat.add_assoc]
    exact hb (k + i) (by omega)

theorem memRead_eq (hb : SameBytes rd rd' p q n) : memRead rd p n = memRead rd' q n := by
  induction n with
  | zero => rfl
  | succ n ih => rw [memRead_succ, memRead_succ, ih (hb.take (by omega)), hb n (by omega)]

theorem lane_eq (hb : SameBytes rd rd' p q n) : xxhLane rd p n = xxhLane rd' q n := by
  rw [xxhLane, xxhLane, hb.memRead_eq]

/-- The stripes do not depend on the registers LEN and H. -/
theorem stripes_join_eq {v1 v2 v3 v4 l l' h h' : Word64} (hb : SameBytes rd rd' p q (32 * n)) :
    xxhJoin (xxhStripes rd n p ⟨v1, v2, v3, v4, l, h⟩) = xxhJoin (xxhStripes rd' n q ⟨v1, v2, v3, v4, l', h'⟩) := by
  induction n generalizing p q v1 v2 v3 v4 with
  | zero => rfl
  | succ n ih =>
    have lane (k : Nat) (hk : k + 8 ≤ 32) : xxhLane rd (p + k) 8 = xxhLane rd' (q + k) 8 := (hb.part (by omega)).lane_eq
    have lane0 : xxhLane rd p 8 = xxhLane rd' q 8 := lane 0 (by omega)
    rw [xxhStripes_succ, xxhStripes_succ, lane0, lane 8 (by omega), lane 16 (by omega), lane 24 (by omega)]
    exact ih (hb.part (by omega))

theorem body_eq {x y : XxhRegs} (hb : SameBytes rd rd' p q n) : (xxhBody rd p n x).1 = (xxhBody rd' q n y).1 := by
  by_cases h : 32 ≤ n
  · rw [xxhBody_of_le h, xxhBody_of_le h]
    exact stripes_join_eq (hb.take (by omega))
  · rw [xxhBody_of_lt (by omega), xxhBody_of_lt (by omega)]

theorem eights_eq {h : Word64} (hb : SameBytes rd rd' p q (8 * n)) : xxhEights rd n p h = xxhEights rd' n q h := by
  induction n generalizing p q h with
  | zero => rfl
  | succ n ih =>
    rw [xxhEights_succ, xxhEights_succ, (hb.take (by omega)).lane_eq]
    exact ih (hb.part (by omega))

theorem four_eq {h : Word64} (hb : SameBytes rd rd' p q 4) : xxhFour rd p h = xxhFour rd' q h := by
  rw [xxhFour, xxhFour, hb.lane_eq]

theorem ones_eq {h : Word64} (hb : SameBytes rd rd' p q n) : xxhOnes rd n p h = xxhOnes rd' n q h := by
  induction n generalizing p q h with
  | zero => rfl
  | succ n ih =>
    rw [xxhOnes_succ, xxhOnes_succ, (hb.take (by omega)).lane_eq]
    exact ih (hb.part (by omega))

theorem tail_eq {h : Word64} (hb : SameBytes rd rd' p q n) : xxhTail rd p n h = xxhTail rd' q n h := by
  have hrest : SameBytes rd rd' (p + 8 * (n / 8)) (q + 8 * (n / 8)) (n % 8) := hb.part (by omega)
  rw [xxhTail, xxhTail, (hb.take (by omega)).eights_eq]
  split
  case isTrue h4 => rw [(hrest.take h4).four_eq, (hrest.part (by omega)).ones_eq]
  case isFalse => exact hrest.ones_eq

/-- The hash depends on the bytes, and on neither their address nor the registers before it. -/
theorem hash_eq {x y : XxhRegs} (hb : SameBytes rd rd' p q n) : (xxhHash rd p n x).h = (xxhHash rd' q n y).h := by
  have htail : SameBytes rd rd' (p + 32 * (n / 32)) (q + 32 * (n / 32)) (n % 32) := hb.part (by omega)
  rw [xxhHash, xxhHash, hb.body_eq, htail.tail_eq]

end SameBytes

/-! ## The obligation -/

/-- Settles O60: the registers by `xxhHash_len` and `xxhHash_accumulators_of_lt`, the content by `SameBytes.hash_eq`, and the
worked values of R236 and section 2.5 by computation. -/
theorem contentHashed : Obligations.ContentHashed := by
  refine ⟨fun a len s => ?registers, fun a b len s t u v hu hv hb => ?content, by decide +kernel, by decide +kernel,
    by decide +kernel, by decide +kernel, by decide +kernel⟩
  case registers =>
    exact ⟨_, exec_xxhHash a len s, xxhHash_len.trans (BitVec.ofNat_toNat _ _), xxhHash_accumulators_of_lt⟩
  case content =>
    rw [exec_xxhHash] at hu hv
    cases hu
    cases hv
    exact SameBytes.hash_eq hb

end Sys2Proof.Machine
end

section
/-! PROOFS. How a command and a frame begin and end: CMD.START (R251), the magic (R253, R254), the checksum (R266), and
the transitions at the end of a block, a frame and a command (R250, R252, R267). -/
namespace Sys2Proof.Machine

/-! ## CMD.START (R251) -/

theorem rangesMeet_iff {a b c d : Nat} : rangesMeet a b c d = true ↔ ∃ x, (a ≤ x ∧ x < b) ∧ c ≤ x ∧ x < d := by
  rw [rangesMeet, decide_eq_true_iff, max_lt_iff, lt_min_iff, lt_min_iff]
  constructor
  · intro h
    exact ⟨max a c, by omega⟩
  · rintro ⟨x, h⟩
    omega

section
variable {s : State} (ign : BitVec 30)

theorem cmdStart_of_ordered (hb : s.busy = false) (hin : s.inStart.toNat ≤ s.inEnd.toNat)
    (hout : s.outStart.toNat ≤ s.outLimit.toNat)
    (hapart : s.oneMemory = true →
      rangesMeet s.inStart.toNat s.inEnd.toNat s.outStart.toNat s.outLimit.toNat = false) :
    exec (.cmdStart ign) s = .next (engStart s) := by
  have horder : ¬ (s.inEnd.toNat < s.inStart.toNat ∨ s.outLimit.toNat < s.outStart.toNat) := by omega
  simp only [exec, execCmdStart, hb, if_neg horder]
  cases hone : s.oneMemory with
  | false => rfl
  | true => simp [hapart hone]

theorem cmdStart_of_reversed (hb : s.busy = false)
    (h : s.inEnd.toNat < s.inStart.toNat ∨ s.outLimit.toNat < s.outStart.toNat) :
    exec (.cmdStart ign) s = .refused .regionReversed := by
  simp only [exec, execCmdStart, hb, if_pos h]
  rfl

theorem cmdStart_of_meeting (hb : s.busy = false) (hone : s.oneMemory = true) (hin : s.inStart.toNat ≤ s.inEnd.toNat)
    (hout : s.outStart.toNat ≤ s.outLimit.toNat)
    (h : rangesMeet s.inStart.toNat s.inEnd.toNat s.outStart.toNat s.outLimit.toNat = true) :
    exec (.cmdStart ign) s = .refused .regionsOverlap := by
  have horder : ¬ (s.inEnd.toNat < s.inStart.toNat ∨ s.outLimit.toNat < s.outStart.toNat) := by omega
  simp [exec, execCmdStart, hb, horder, hone, h]

end

/-- Settles O2: ENG.START is the update that the statement writes out. -/
theorem cmdStartLoadsCommand : Obligations.CmdStartLoadsCommand := by
  intro ign s hb hin hout hapart
  refine cmdStart_of_ordered ign hb hin hout fun hone => ?_
  rw [Bool.eq_false_iff]
  intro hmeet
  obtain ⟨x, hx⟩ := rangesMeet_iff.mp hmeet
  obtain htwo | hapart := hapart
  · simp [hone] at htwo
  · omega

/-- Settles O3: an address in both regions has them meet, and neither is reversed. -/
theorem cmdStartRefusals : Obligations.CmdStartRefusals := by
  intro ign s hb
  refine ⟨cmdStart_of_reversed ign hb, fun a hone h1 h2 h3 h4 => ?_⟩
  exact cmdStart_of_meeting ign hb hone (by omega) (by omega) (rangesMeet_iff.mpr ⟨a, ⟨h1, h2⟩, h3, h4⟩)

/-! ## The tests before an element is taken -/

/-- `n` bytes from IP lie below the limit. -/
theorem need_of_le {s : State} {n : Nat} {lim : Addr} (h : s.ip.toNat + n ≤ lim.toNat) : s.need n lim = true :=
  (need_iff s n lim).mpr h

theorem need_of_lt {s : State} {n : Nat} {lim : Addr} (h : lim.toNat < s.ip.toNat + n) : s.need n lim = false :=
  (not_need_iff s n lim).mpr h

/-! ## The magic (R253, R254) -/

section
variable {s : State}

theorem magic_of_need (h : s.need 4 s.lInEnd = true) :
    exec .magic s = .next { frameStart s with ip := s.ip + 4, phase := .frameHeader, sub := .start } := by
  rw [exec, execMagic]
  exact if_pos h

theorem magic_of_not_need (h : s.need 4 s.lInEnd = false) :
    exec .magic s = .next (faultEntry .truncated (frameStart s)) := by
  rw [exec, execMagic]
  exact if_neg (Bool.eq_false_iff.mp h)

theorem magicLegacy_of_need (h : s.need 4 s.lInEnd = true) :
    exec .magicLegacy s = .next (faultEntry .legacyMagic (frameStart s)) := by
  rw [exec, execMagicLegacy]
  exact if_pos h

theorem magicLegacy_of_not_need (h : s.need 4 s.lInEnd = false) :
    exec .magicLegacy s = .next (faultEntry .truncated (frameStart s)) := by
  rw [exec, execMagicLegacy]
  exact if_neg (Bool.eq_false_iff.mp h)

end

/-- Settles O25: `frameStart` is the update that the statement writes out. -/
theorem magicStartsFrame : Obligations.MagicStartsFrame := fun _ =>
  ⟨fun h => ⟨magic_of_need (need_of_le h), magicLegacy_of_need (need_of_le h)⟩,
    fun h => ⟨magic_of_not_need (need_of_lt h), magicLegacy_of_not_need (need_of_lt h)⟩⟩

/-! ## The end of a block, of a frame and of a command (R250, R252, R267) -/

theorem engNext_of_lt {s : State} (h : s.ip.toNat < s.lInEnd.toNat) :
    engNext s = { s with phase := .magic, sub := .start } := if_pos h

theorem engNext_of_le {s : State} (h : s.lInEnd.toNat ≤ s.ip.toNat) : engNext s = engDone s := if_neg (not_lt.mpr h)

theorem engDone_outByte {s : State} {a : Nat} (h : a < s.op.toNat ∨ s.lOutLimit.toNat ≤ a) :
    (engDone s).outByte a = s.outByte a := byte_scrap_outside h

theorem blockEnd_of_not_last {s : State} (h : s.blk.last = false) :
    blockEnd s = { s with phase := .blockHeader, sub := .start } := by
  simp [blockEnd, h]

theorem blockEnd_of_checksum {s : State} (hl : s.blk.last = true) (hc : s.fh.hasChecksum = true) :
    blockEnd s = { s with phase := .checksum, sub := .start } := by
  simp [blockEnd, hl, hc]

theorem blockEnd_of_no_checksum {s : State} (hl : s.blk.last = true) (hc : s.fh.hasChecksum = false) :
    blockEnd s = engNext s := by
  simp [blockEnd, hl, hc]

/-- Settles O31. -/
theorem frameAndCommandEnd : Obligations.FrameAndCommandEnd := by
  refine fun s => ⟨blockEnd_of_not_last, blockEnd_of_checksum, blockEnd_of_no_checksum, engNext_of_lt, fun h => ?_⟩
  rw [engNext_of_le h]
  exact ⟨rfl, fun _ => engDone_outByte⟩

/-! ## The checksum (R266) -/

section
variable {s : State} (v : BitVec 32)

/-- The XXH registers after the frame's content is hashed (R266). -/
def State.contentHash (s : State) : XxhRegs :=
  Machine.xxhHash s.outByte s.frameOutStart.toNat (s.op.toNat - s.frameOutStart.toNat) s.xxh

theorem checksum_of_not_need (h : s.need 4 s.lInEnd = false) :
    exec (.checksum v) s = .next (faultEntry .truncated s) := by
  simp [exec, execChecksum, h]

/-- With the field in the input, its value is compared with the low half of the hash. -/
theorem checksum_of_need (h : s.need 4 s.lInEnd = true) :
    exec (.checksum v) s =
      if v = s.contentHash.h.setWidth 32 then .next (engNext { s with xxh := s.contentHash, ip := s.ip + 4 })
      else if s.lEnforce then .next (faultEntry .checksum { s with xxh := s.contentHash, cksumBad := true })
      else .next (engNext { s with xxh := s.contentHash, cksumBad := true, ip := s.ip + 4 }) := by
  rw [exec, execChecksum, h]
  rfl

end

/-- Settles O32. -/
theorem checksumCompared : Obligations.ChecksumCompared := by
  refine fun v s => ⟨fun h => ?_, fun h => checksum_of_not_need v (need_of_lt h)⟩
  rw [checksum_of_need v (need_of_le h), BitVec.setWidth_eq_extractLsb' (by omega)]
  exact ⟨fun heq => if_pos heq, fun hne he => (if_neg hne).trans (if_pos he),
    fun hne he => (if_neg hne).trans (if_neg (Bool.eq_false_iff.mp he))⟩

end Sys2Proof.Machine
end

section
/-! PROOFS. The frame header (R93 to R95, R255): the fields of its descriptor byte, its elements one by one, and the steps
of a whole header. -/
namespace Sys2Proof.Machine

/-! ## The descriptor byte (R93) -/

section
variable (csel : BitVec 2) (ss : Bool) (ign : BitVec 2) (ck : Bool) (dsel : BitVec 2)

theorem fhdByteOf_toNat : (fhdByteOf csel ss ign ck dsel).toNat =
    dsel.toNat + 4 * bitNat ck + 8 * ign.toNat + 32 * bitNat ss + 64 * csel.toNat := by
  have hck := bitNat_lt ck
  have hss := bitNat_lt ss
  simp only [fhdByteOf, Instr.word, BitVec.toNat_ofNat]
  omega

@[simp] theorem fhdSs_fhdByteOf : fhdSs (fhdByteOf csel ss ign ck dsel) = ss := by
  have hck := bitNat_lt ck
  have hss := bitNat_lt ss
  rw [fhdSs, bit_eq_iff, fhdByteOf_toNat]
  omega

@[simp] theorem fhdCk_fhdByteOf : fhdCk (fhdByteOf csel ss ign ck dsel) = ck := by
  have hck := bitNat_lt ck
  rw [fhdCk, bit_eq_iff, fhdByteOf_toNat]
  omega

@[simp] theorem fhdDsel_fhdByteOf : fhdDsel (fhdByteOf csel ss ign ck dsel) = dsel.toNat := by
  rw [fhdDsel, fhdByteOf_toNat]
  omega

@[simp] theorem fhdCsel_fhdByteOf : fhdCsel (fhdByteOf csel ss ign ck dsel) = csel.toNat := by
  have hck := bitNat_lt ck
  have hss := bitNat_lt ss
  rw [fhdCsel, fhdByteOf_toNat]
  omega

end

theorem bitNat_getLsbD {w : Nat} (v : BitVec w) (i : Nat) : bitNat (v.getLsbD i) = v.toNat / 2 ^ i % 2 := by
  rw [BitVec.getLsbD, Nat.testBit_eq_decide_div_mod_eq]
  exact bitNat_bit v.toNat i

/-- A descriptor byte is made of its fields. -/
theorem fhdByteOf_fields (b : Byte) :
    fhdByteOf (b.extractLsb' 6 2) (b.getLsbD 5) (b.extractLsb' 3 2) (b.getLsbD 2) (b.extractLsb' 0 2) = b := by
  apply BitVec.eq_of_toNat_eq
  simp only [fhdByteOf_toNat, bitNat_getLsbD, BitVec.extractLsb'_toNat, Nat.shiftRight_eq_div_pow]
  omega

section
variable (b : Byte)

theorem fhdSs_eq_getLsbD : fhdSs b = b.getLsbD 5 := by
  conv_lhs => rw [← fhdByteOf_fields b, fhdSs_fhdByteOf]

theorem fhdCk_eq_getLsbD : fhdCk b = b.getLsbD 2 := by
  conv_lhs => rw [← fhdByteOf_fields b, fhdCk_fhdByteOf]

theorem fhdDsel_eq_extract : fhdDsel b = (b.extractLsb' 0 2).toNat := by
  conv_lhs => rw [← fhdByteOf_fields b, fhdDsel_fhdByteOf]

theorem fhdCsel_eq_extract : fhdCsel b = (b.extractLsb' 6 2).toNat := by
  conv_lhs => rw [← fhdByteOf_fields b, fhdCsel_fhdByteOf]

end

theorem didLen_eq_none {b : Byte} : didLen b = none ↔ fhdDsel b = 0 := by
  unfold didLen
  split <;> simp_all

theorem fcsLen_eq_none {b : Byte} : fcsLen b = none ↔ fhdCsel b = 0 ∧ fhdSs b = false := by
  unfold fcsLen
  split <;> simp_all

/-! ## The length of the header (R255) -/

theorem didBytes_eq_dlenOf {b : Byte} {dsel : BitVec 2} (h : fhdDsel b = dsel.toNat) : didBytes b = dlenOf dsel := by
  unfold didBytes didLen dlenOf
  rw [h]
  have := dsel.isLt
  generalize dsel.toNat = n at *
  interval_cases n <;> rfl

theorem fcsBytes_eq_clenOf {b : Byte} {csel : BitVec 2} (h : fhdCsel b = csel.toNat) :
    fcsBytes b = clenOf csel (fhdSs b) := by
  unfold fcsBytes fcsLen clenOf
  rw [h]
  have := csel.isLt
  generalize csel.toNat = n at *
  cases fhdSs b <;> interval_cases n <;> rfl

theorem fcsBytes_eq_extract (b : Byte) : fcsBytes b = clenOf (b.extractLsb' 6 2) (b.getLsbD 5) := by
  rw [fcsBytes_eq_clenOf (fhdCsel_eq_extract b), fhdSs_eq_getLsbD]

theorem headerSize_eq_hsizeOf (b : Byte) :
    headerSize b = hsizeOf (b.extractLsb' 6 2) (b.getLsbD 5) (b.extractLsb' 0 2) := by
  rw [headerSize, hsizeOf, didBytes_eq_dlenOf (fhdDsel_eq_extract b), fcsBytes_eq_extract, wdBytes, fhdSs_eq_getLsbD]

theorem headerSize_fhdByteOf (csel : BitVec 2) (ss : Bool) (ign : BitVec 2) (ck : Bool) (dsel : BitVec 2) :
    headerSize (fhdByteOf csel ss ign ck dsel) = hsizeOf csel ss dsel := by
  rw [headerSize, hsizeOf, didBytes_eq_dlenOf (fhdDsel_fhdByteOf csel ss ign ck dsel),
    fcsBytes_eq_clenOf (fhdCsel_fhdByteOf csel ss ign ck dsel), wdBytes, fhdSs_fhdByteOf]

/-- A header with neither a dictionary-ID field nor a content-size field is the descriptor and the window byte. -/
theorem headerSize_of_none {b : Byte} (hd : didLen b = none) (hf : fcsLen b = none) : headerSize b = 2 := by
  obtain ⟨_, hss⟩ := fcsLen_eq_none.mp hf
  simp [headerSize, wdBytes, didBytes, fcsBytes, hd, hf, hss]

/-! ## Values (R94, R95) -/

theorem windowSize_lt (e : BitVec 5) (m : BitVec 3) : windowSize e m < 2 ^ 42 := by
  have hpow : 2 ^ (10 + e.toNat) ≤ 2 ^ 41 := Nat.pow_le_pow_right (by omega) (by omega)
  have hmul : 2 ^ (10 + e.toNat) / 8 * m.toNat ≤ 2 ^ 38 * 7 := Nat.mul_le_mul (by omega) (by omega)
  rw [windowSize]
  omega

@[simp] theorem ofNat_windowSize_toNat (e : BitVec 5) (m : BitVec 3) :
    (BitVec.ofNat 42 (windowSize e m)).toNat = windowSize e m := by
  rw [BitVec.toNat_ofNat, Nat.mod_eq_of_lt (windowSize_lt e m)]

theorem ofNat_contentSize (n : FcsLen) (v : BitVec 64) :
    BitVec.ofNat 64 (contentSize n v) = v + if n = .two then 256 else 0 := by
  cases n <;> simp [contentSize, BitVec.ofNat_add]

/-! ## From one field to the next (R255) -/

section
variable {s : State}

theorem headerDict_of_some (h : didLen s.fhdByte ≠ none) :
    headerDict s = .next { s with fh := { s.fh with dictValid := true }, sub := .did } := by
  obtain ⟨n, hn⟩ := Option.ne_none_iff_exists'.mp h
  rw [headerDict, hn]

theorem headerDict_of_none (h : didLen s.fhdByte = none) :
    headerDict s = headerContent { s with fh := { s.fh with dictValid := false } } := by
  rw [headerDict, h]

theorem headerContent_of_some (h : fcsLen s.fhdByte ≠ none) :
    headerContent s = .next { s with fh := { s.fh with contentValid := true }, sub := .fcs } := by
  obtain ⟨n, hn⟩ := Option.ne_none_iff_exists'.mp h
  rw [headerContent, hn]

theorem headerContent_of_none (h : fcsLen s.fhdByte = none) :
    headerContent s = headerEnd { s with fh := { s.fh with contentValid := false } } := by
  rw [headerContent, h]

/-- The state at the end of a frame header: its length and its checksum flag are recorded and IP is past it (R255). -/
def State.headerDone (s : State) : State :=
  { s with
    ip := s.ip + BitVec.ofNat 32 (headerSize s.fhdByte)
    fh := { s.fh with headerSize := BitVec.ofNat 5 (headerSize s.fhdByte), hasChecksum := fhdCk s.fhdByte }
    phase := .blockHeader
    sub := .start }

theorem headerEnd_of_accepted (h : fhdSs s.fhdByte = true ∨ s.fh.windowSize.toNat ≤ 8388608) :
    headerEnd s = .next s.headerDone := by
  refine if_neg ?_
  obtain hss | hw := h
  · simp [hss]
  · simp [Config.maxWindow, not_lt.mpr hw]

theorem headerEnd_of_large (hss : fhdSs s.fhdByte = false) (hw : 8388608 < s.fh.windowSize.toNat) :
    headerEnd s = .next (faultEntry .window s) :=
  if_pos (by simp [hss, Config.maxWindow, hw])

end

/-! ## The descriptor (R93, R255) -/

section
variable (csel : BitVec 2) (ss : Bool) (ign : BitVec 2) (ck : Bool) (dsel : BitVec 2) {s : State}

theorem fhd_of_truncated (h : s.lInEnd.toNat < s.ip.toNat + hsizeOf csel ss dsel) :
    exec (.fhd csel ss ign ck dsel) s = .next (faultEntry .truncated s) := by
  have hneed := need_of_lt h
  rw [← headerSize_fhdByteOf csel ss ign ck dsel] at hneed
  simp [exec, execFhd, hneed]

/-- With the whole header in the input, the window descriptor is next, or the fields after it. -/
theorem fhd_of_fits (h : s.ip.toNat + hsizeOf csel ss dsel ≤ s.lInEnd.toNat) :
    exec (.fhd csel ss ign ck dsel) s =
      if ss then
        headerDict { s with fhdByte := fhdByteOf csel ss ign ck dsel, fh := { s.fh with windowValid := !ss } }
      else .next
        { s with fhdByte := fhdByteOf csel ss ign ck dsel, fh := { s.fh with windowValid := !ss }, sub := .wd } := by
  have hone : s.need 1 s.lInEnd = true := need_of_le (by unfold hsizeOf at h; omega)
  have hneed := need_of_le h
  rw [← headerSize_fhdByteOf csel ss ign ck dsel] at hneed
  rw [exec, execFhd]
  simp only [hone, hneed]
  rfl

/-- A descriptor without a window has a content-size field (R95). -/
theorem fcsLen_of_ss {b : Byte} (h : fhdSs b = true) : fcsLen b ≠ none := fun hf => by
  simp [(fcsLen_eq_none.mp hf).2] at h

theorem fhd_selects (h : s.ip.toNat + hsizeOf csel ss dsel ≤ s.lInEnd.toNat) :
    let b := fhdByteOf csel ss ign ck dsel
    let s1 := { s with fhdByte := b, fh := { s.fh with windowValid := !ss } }
    exec (.fhd csel ss ign ck dsel) s =
      (if ss = false then .next { s1 with sub := .wd }
      else if dsel ≠ 0 then .next { s1 with fh := { s1.fh with dictValid := true }, sub := .did }
      else .next { s1 with fh := { s1.fh with dictValid := false, contentValid := true }, sub := .fcs }) := by
  intro b s1
  have hdid : didLen b = none ↔ dsel = 0 := by
    rw [didLen_eq_none, fhdDsel_fhdByteOf, ← BitVec.toNat_inj]
    rfl
  rw [fhd_of_fits csel ss ign ck dsel h]
  cases ss with
  | false => rfl
  | true =>
    rw [if_pos rfl, if_neg (by decide)]
    by_cases hd : dsel = 0
    · rw [if_neg (not_not.mpr hd), headerDict_of_none, headerContent_of_some]
      · exact fcsLen_of_ss (fhdSs_fhdByteOf csel true ign ck dsel)
      · exact hdid.mpr hd
    · rw [if_pos hd, headerDict_of_some]
      exact fun hn => hd (hdid.mp hn)

end

/-! ## The window descriptor, the identifier and the content size (R94, R95, R255) -/

section
variable {s : State}

theorem wd_of_none (e : BitVec 5) (m : BitVec 3) (hd : didLen s.fhdByte = none) (hf : fcsLen s.fhdByte = none) :
    exec (.wd e m) s = headerEnd { s with
      fh := { s.fh with
        windowSize := BitVec.ofNat 42 (windowSize e m), dictValid := false, contentValid := false } } := by
  rw [exec, execWd, headerDict_of_none, headerContent_of_none]
  · exact hf
  · exact hd

theorem wd_of_content (e : BitVec 5) (m : BitVec 3) (hd : didLen s.fhdByte = none) (hf : fcsLen s.fhdByte ≠ none) :
    exec (.wd e m) s = .next { s with
      fh := { s.fh with windowSize := BitVec.ofNat 42 (windowSize e m), dictValid := false, contentValid := true }
      sub := .fcs } := by
  rw [exec, execWd, headerDict_of_none, headerContent_of_some]
  · exact hf
  · exact hd

theorem wd_of_dict (e : BitVec 5) (m : BitVec 3) (hd : didLen s.fhdByte ≠ none) :
    exec (.wd e m) s = .next { s with
      fh := { s.fh with windowSize := BitVec.ofNat 42 (windowSize e m), dictValid := true }, sub := .did } := by
  rw [exec, execWd, headerDict_of_some]
  exact hd

theorem fcs_eq (n : FcsLen) (v : BitVec 64) :
    exec (.fcs n v) s = headerEnd { s with fh := { s.fh with contentSize := v + if n = .two then 256 else 0 } } := by
  rw [exec, execFcs, ofNat_contentSize]

end

/-- Settles O26: each element leads to the next field that the descriptor byte announces, or ends the header. -/
theorem headerElements : Obligations.HeaderElements := by
  refine ⟨fun csel ss ign ck dsel s => ⟨fhd_selects csel ss ign ck dsel, fhd_of_truncated csel ss ign ck dsel⟩,
    fun e m s => ⟨wd_of_dict e m, wd_of_content e m, fun hd hf hw => ?small, fun hd hf hw => ?large⟩,
    fun n v s => ⟨fun h _ => ?accepted, fun hss hw _ => ?window⟩, fun n v s => rfl⟩
  case small =>
    rw [wd_of_none e m hd hf, headerEnd_of_accepted (.inr ((ofNat_windowSize_toNat e m).trans_le hw)),
      State.headerDone, headerSize_of_none hd hf]
    rfl
  case large =>
    obtain ⟨_, hss⟩ := fcsLen_eq_none.mp hf
    rw [wd_of_none e m hd hf]
    exact headerEnd_of_large hss (hw.trans_eq (ofNat_windowSize_toNat e m).symm)
  case accepted => exact (fcs_eq n v).trans (headerEnd_of_accepted h)
  case window => exact (fcs_eq n v).trans (headerEnd_of_large hss hw)

/-! ## The steps of a header (R90, R255) -/

theorem runSteps_succ {n : Nat} {s t : State} (h : step s = .next t) : runSteps (n + 1) s = runSteps n t := by
  rw [runSteps, h]

theorem runSteps_one {s t : State} (h : step s = .next t) : runSteps 1 s = .next t := runSteps_succ h

theorem leBytes_memRead (rd : Nat → Byte) (a n : Nat) : leBytes n (memRead rd a n) = readBytes rd a n := by
  have h := leBytes_leNat (readBytes rd a n)
  rwa [readBytes_length] at h

theorem fcsLen_bytes_le (n : FcsLen) : n.bytes ≤ 8 := by cases n <;> decide

/-- A window descriptor is made of its fields (R94). -/
theorem wd_word_fields (b : Byte) : BitVec.ofNat 8 (Instr.word (.wd (b.extractLsb' 3 5) (b.extractLsb' 0 3))) = b := by
  apply BitVec.eq_of_toNat_eq
  simp only [Instr.word, BitVec.extractLsb'_toNat, Nat.shiftRight_eq_div_pow, BitVec.toNat_ofNat]
  omega

theorem windowSize_fields (b : Byte) : windowSize (b.extractLsb' 3 5) (b.extractLsb' 0 3) =
    2 ^ (10 + b.toNat / 8) + 2 ^ (10 + b.toNat / 8) / 8 * (b.toNat % 8) := by
  have hexp : (b.extractLsb' 3 5).toNat = b.toNat / 8 := by
    rw [BitVec.extractLsb'_toNat, Nat.shiftRight_eq_div_pow]
    omega
  have hman : (b.extractLsb' 0 3).toNat = b.toNat % 8 := by
    rw [BitVec.extractLsb'_toNat, Nat.shiftRight_zero]
  rw [windowSize, hexp, hman]

/-- The content-size field as it is read from IN (R95). -/
def contentField (s : State) (a : Nat) (n : FcsLen) : BitVec 64 := BitVec.ofNat 64 (memRead s.inByte a n.bytes)

theorem contentField_toNat (s : State) (a : Nat) (n : FcsLen) :
    (contentField s a n).toNat = memRead s.inByte a n.bytes := by
  have hlt := memRead_lt s.inByte a n.bytes
  have hpow : 256 ^ n.bytes ≤ 256 ^ 8 := Nat.pow_le_pow_right (by decide) (fcsLen_bytes_le n)
  rw [contentField, BitVec.toNat_ofNat, Nat.mod_eq_of_lt (by omega)]

/-- The content size that the field at `a` stands for (R95). -/
def contentValue (s : State) (a : Nat) (n : FcsLen) : BitVec 64 := contentField s a n + if n = .two then 256 else 0

/-- The descriptor of a single-segment frame without a dictionary-ID field is read; the content size is next (R255). -/
def State.singleSegment (s : State) (b : Byte) : State :=
  { s with
    fhdByte := b
    sub := .fcs
    fh := { s.fh with windowValid := false, dictValid := false, contentValid := true } }

/-- The descriptor of a frame with a window is read; the window descriptor is next (R255). -/
def State.windowNext (s : State) (b : Byte) : State :=
  { s with fhdByte := b, sub := .wd, fh := { s.fh with windowValid := true } }

/-- The window descriptor of a header without a dictionary-ID field is read; a content size is next or none is (R255). -/
def State.windowRead (s : State) (w : Byte) (content : Bool) : State :=
  { s with
    fh := { s.fh with
      windowSize := BitVec.ofNat 42 (windowSize (w.extractLsb' 3 5) (w.extractLsb' 0 3))
      dictValid := false, contentValid := content }
    sub := if content then .fcs else s.sub }

/-- The content size is read (R255). -/
def State.contentRead (s : State) (v : BitVec 64) : State := { s with fh := { s.fh with contentSize := v } }

section
variable {s : State} (hq : s.hostQueue = []) (his : s.issue = []) (hp : s.phase = .frameHeader)
include hq his hp

theorem step_fhd {csel : BitVec 2} {ss : Bool} {ign : BitVec 2} {ck : Bool} {dsel : BitVec 2} (hsub : s.sub = .start)
    (hb : s.inByte s.ip.toNat = fhdByteOf csel ss ign ck dsel) (hfits : s.ip.toNat + 1 ≤ s.lInEnd.toNat) :
    step s = exec (.fhd csel ss ign ck dsel) s := by
  refine step_of_holds hq his rfl (by simp [State.nextCtx, hp, hsub, ctxOf]) ⟨?_, hfits⟩
  exact congrArg (fun b => [b]) hb

theorem step_wd (hsub : s.sub = .wd) (hfits : s.ip.toNat + 2 ≤ s.lInEnd.toNat) :
    step s =
      exec (.wd ((s.inByte (s.ip.toNat + 1)).extractLsb' 3 5) ((s.inByte (s.ip.toNat + 1)).extractLsb' 0 3)) s := by
  refine step_of_holds hq his rfl (by simp [State.nextCtx, hp, hsub, ctxOf]) ⟨?_, hfits⟩
  exact congrArg (fun b => [b]) (wd_word_fields _).symm

theorem step_fcs {n : FcsLen} (hsub : s.sub = .fcs) (hn : fcsLen s.fhdByte = some n)
    (hfits : s.ip.toNat + headerSize s.fhdByte ≤ s.lInEnd.toNat) :
    step s =
      exec (.fcs n (contentField s (s.ip.toNat + 1 + wdBytes s.fhdByte + didBytes s.fhdByte) n)) s := by
  have hsize : headerSize s.fhdByte = 1 + wdBytes s.fhdByte + didBytes s.fhdByte + n.bytes := by
    rw [headerSize, fcsBytes, hn]
    rfl
  refine step_of_holds hq his ?_ (by simp [State.nextCtx, hp, hsub, ctxOf, hn]) ⟨?_, ?_⟩
  · exact decide_eq_true (by rw [contentField_toNat]; exact memRead_lt _ _ _)
  · rw [encode, Instr.word, contentField_toNat]
    exact (leBytes_memRead _ _ _).symm
  · show s.ip.toNat + 1 + wdBytes s.fhdByte + didBytes s.fhdByte + n.bytes ≤ s.lInEnd.toNat
    omega

theorem step_fcs_done {n : FcsLen} (hsub : s.sub = .fcs) (hd : didLen s.fhdByte = none) (hn : fcsLen s.fhdByte = some n)
    (hfits : s.ip.toNat + headerSize s.fhdByte ≤ s.lInEnd.toNat)
    (hw : fhdSs s.fhdByte = true ∨ s.fh.windowSize.toNat ≤ 8388608) :
    step s = .next (s.contentRead (contentValue s (s.ip.toNat + 1 + wdBytes s.fhdByte) n)).headerDone := by
  have hstep := step_fcs hq his hp hsub hn hfits
  rw [didBytes, hd] at hstep
  exact hstep.trans ((fcs_eq _ _).trans (headerEnd_of_accepted hw))

variable {b w : Byte} (hsub : s.sub = .start) (hb : s.inByte s.ip.toNat = b) (hwd : s.inByte (s.ip.toNat + 1) = w)
  (hd : didLen b = none) (hfits : s.ip.toNat + headerSize b ≤ s.lInEnd.toNat)
include hsub hb hd hfits

/-- The descriptor of a header without a dictionary-ID field (R255). -/
theorem step_fhd_of_no_dict : step s = .next (if fhdSs b then s.singleSegment b else s.windowNext b) := by
  have hbyte := fhdByteOf_fields b
  have hone : s.ip.toNat + 1 ≤ s.lInEnd.toNat := by
    unfold headerSize at hfits
    omega
  rw [step_fhd hq his hp hsub (hb.trans hbyte.symm) hone, fhd_of_fits, hbyte, ← fhdSs_eq_getLsbD]
  · cases hss : fhdSs b with
    | false => rfl
    | true =>
      rw [if_pos rfl, headerDict_of_none, headerContent_of_some]
      · rfl
      · exact fcsLen_of_ss hss
      · exact hd
  · rwa [← headerSize_eq_hsizeOf]

/-- The header of a single-segment frame: the descriptor and the content size (R255). -/
theorem header_of_ss {n : FcsLen} (hss : fhdSs b = true) (hn : fcsLen b = some n) :
    runSteps 2 s =
      .next ((s.singleSegment b).contentRead (contentValue s (s.ip.toNat + 1 + wdBytes b) n)).headerDone := by
  have hfhd := step_fhd_of_no_dict hq his hp hsub hb hd hfits
  rw [hss] at hfhd
  exact (runSteps_succ hfhd).trans
    (runSteps_one (step_fcs_done (s := s.singleSegment b) hq his hp rfl hd hn hfits (.inl hss)))

include hwd

/-- The descriptor and the window of a header that has one (R255). -/
theorem header_of_wd (n : Nat) {t : State} (hss : fhdSs b = false)
    (ht : exec (.wd (w.extractLsb' 3 5) (w.extractLsb' 0 3)) (s.windowNext b) = .next t) :
    runSteps (n + 2) s = runSteps n t := by
  have htwo : s.ip.toNat + 2 ≤ s.lInEnd.toNat := by
    have hwindow : wdBytes b = 1 := by simp [wdBytes, hss]
    unfold headerSize at hfits
    omega
  have hfhd := step_fhd_of_no_dict hq his hp hsub hb hd hfits
  rw [hss] at hfhd
  have hstep := step_wd (s := s.windowNext b) hq his hp rfl htwo
  subst hwd
  exact (runSteps_succ hfhd).trans (runSteps_succ (hstep.trans ht))

/-- The header of a descriptor and a window (R255). -/
theorem header_of_window (hn : fcsLen b = none)
    (hw : windowSize (w.extractLsb' 3 5) (w.extractLsb' 0 3) ≤ 8388608) :
    runSteps 2 s = .next ((s.windowNext b).windowRead w false).headerDone := by
  obtain ⟨_, hss⟩ := fcsLen_eq_none.mp hn
  refine header_of_wd hq his hp hsub hb hwd hd hfits 0 hss ((wd_of_none _ _ hd hn).trans ?_)
  exact headerEnd_of_accepted (.inr ((ofNat_windowSize_toNat _ _).trans_le hw))

/-- The header of a descriptor, a window and a content size (R255). -/
theorem header_of_content {n : FcsLen} (hss : fhdSs b = false) (hn : fcsLen b = some n)
    (hw : windowSize (w.extractLsb' 3 5) (w.extractLsb' 0 3) ≤ 8388608) :
    runSteps 3 s = .next (((s.windowNext b).windowRead w true).contentRead
      (contentValue s (s.ip.toNat + 1 + wdBytes b) n)).headerDone := by
  have hsome : fcsLen b ≠ none := by simp [hn]
  refine (header_of_wd hq his hp hsub hb hwd hd hfits 1 hss (wd_of_content _ _ hd hsome)).trans ?_
  exact runSteps_one (step_fcs_done (s := (s.windowNext b).windowRead w true) hq his hp rfl hd hn hfits
    (.inr ((ofNat_windowSize_toNat _ _).trans_le hw)))

end

theorem contentValue_eq {n : FcsLen} {b : Byte} (hn : fcsLen b = some n) (s : State) (a : Nat) (v : BitVec 64) :
    contentValue s a n =
      if fcsBytes b = 0 then v
      else BitVec.ofNat 64 (memRead s.inByte a (fcsBytes b) + if fcsBytes b = 2 then 256 else 0) := by
  have hbytes : fcsBytes b = n.bytes := by
    rw [fcsBytes, hn]
    rfl
  rw [hbytes, contentValue, contentField, BitVec.ofNat_add]
  cases n <;> rfl

theorem fcsBytes_ne_zero (b : Byte) : decide (fcsBytes b ≠ 0) = (fcsLen b).isSome := by
  unfold fcsBytes
  cases fcsLen b with
  | none => rfl
  | some n => cases n <;> rfl

/-- Settles O27: a header without a dictionary-ID field is a descriptor with a window, a content size, or both. -/
theorem headerRun : Obligations.HeaderRun := by
  intro s hq his hp hsub
  dsimp only
  generalize hb : s.inByte s.ip.toNat = b
  generalize hwd : s.inByte (s.ip.toNat + 1) = w
  intro hfits hdsel
  have hd : didLen b = none := didLen_eq_none.mpr ((fhdDsel_eq_extract b).trans (by rw [hdsel]; rfl))
  rw [← headerSize_eq_hsizeOf, ← fcsBytes_eq_extract, ← fhdSs_eq_getLsbD, ← fhdCk_eq_getLsbD, fcsBytes_ne_zero,
    ← windowSize_fields]
  rw [← headerSize_eq_hsizeOf] at hfits
  intro hw
  cases hss : fhdSs b with
  | true =>
    obtain ⟨n, hn⟩ := Option.ne_none_iff_exists'.mp (fcsLen_of_ss hss)
    refine ⟨2, by decide, (header_of_ss hq his hp hsub hb hd hfits hss hn).trans ?_⟩
    rw [contentValue_eq hn _ _ s.fh.contentSize, hn, wdBytes, hss]
    rfl
  | false =>
    cases hn : fcsLen b with
    | none =>
      refine ⟨2, by decide, (header_of_window hq his hp hsub hb hwd hd hfits hn (hw hss)).trans ?_⟩
      have hzero : fcsBytes b = 0 := by
        rw [fcsBytes, hn]
        rfl
      rw [hzero]
      rfl
    | some n =>
      refine ⟨3, le_refl _, (header_of_content hq his hp hsub hb hwd hd hfits hss hn (hw hss)).trans ?_⟩
      rw [contentValue_eq hn _ _ s.fh.contentSize, wdBytes, hss]
      rfl

end Sys2Proof.Machine
end

section
/-! PROOFS. Blocks (R257 to R261): the header, the tests before a payload is taken, and the bytes that raw and RLE
blocks place in OUT. -/
namespace Sys2Proof.Machine

/-! ## The header (R257) -/

/-- The fields of a block header are recorded (R257). -/
def State.headed (s : State) (typ : BitVec 2) (last : Bool) (size : BitVec 21) : State :=
  { s with blk := { s.blk with last := last, typ := typ, size := size } }

/-- The body of a block is next (R257). -/
def State.opened (s : State) (typ : BitVec 2) (last : Bool) (size : BitVec 21) : State :=
  { s.headed typ last size with ip := s.ip + 3, phase := .block, sub := .start }

section
variable {s : State} {typ : BitVec 2} {last : Bool} {size : BitVec 21}

theorem blockHeader_of_truncated (h : s.lInEnd.toNat < s.ip.toNat + 3) :
    blockHeader typ last size s = .raise .truncated s := by
  simp [blockHeader, need_of_lt h]

theorem blockHeader_of_reserved (h : s.ip.toNat + 3 ≤ s.lInEnd.toNat) :
    blockHeader 3 last size s = .raise .blockType (s.headed 3 last size) := by
  rw [blockHeader, need_of_le h]
  rfl

theorem blockHeader_of_large (h : s.ip.toNat + 3 ≤ s.lInEnd.toNat) (ht : typ ≠ 3) (hsize : 131072 < size.toNat) :
    blockHeader typ last size s = .raise .blockTooLarge (s.headed typ last size) := by
  rw [blockHeader, need_of_le h]
  exact (if_neg ht).trans (if_pos hsize)

theorem blockHeader_of_fits (h : s.ip.toNat + 3 ≤ s.lInEnd.toNat) (ht : typ ≠ 3) (hsize : size.toNat ≤ 131072) :
    blockHeader typ last size s = .ok () (s.opened typ last size) := by
  rw [blockHeader, need_of_le h]
  exact (if_neg ht).trans (if_neg (not_lt.mpr hsize))

/-- A fault of the header ends the element. -/
theorem finish_of_header {e : ErrCode} {t : State} {f : Unit → State → Run State Unit}
    (h : blockHeader typ last size s = .raise e t) :
    finish ((blockHeader typ last size s).bind f) = .next (faultEntry e t) := by
  rw [h]
  rfl

/-- Past the header, the element is the body. -/
theorem finish_of_opened {f : Unit → State → Run State Unit}
    (h : s.ip.toNat + 3 ≤ s.lInEnd.toNat) (ht : typ ≠ 3) (hsize : size.toNat ≤ 131072) :
    finish ((blockHeader typ last size s).bind f) = finish (f () (s.opened typ last size)) := by
  rw [blockHeader_of_fits h ht hsize]
  rfl

theorem opened_ip_toNat (h : s.ip.toNat + 3 ≤ s.lInEnd.toNat) : (s.opened typ last size).ip.toNat = s.ip.toNat + 3 :=
  toNat_add_of_le h

theorem opened_inByteOver : (s.opened typ last size).inByteOver = s.inByteOver := rfl

end

/-! ## The tests on the payload (R258 to R260) -/

section
variable {s : State}

theorem room_of_le {n : Nat} (h : s.op.toNat + n ≤ s.lOutLimit.toNat) : s.room n = true := (room_iff s n).mpr h

theorem room_of_lt {n : Nat} (h : s.lOutLimit.toNat < s.op.toNat + n) : s.room n = false :=
  Bool.eq_false_iff.mpr fun hroom => not_lt.mpr ((room_iff s n).mp hroom) h

theorem rawBlock_of_truncated (h : s.lInEnd.toNat < s.ip.toNat + s.blk.size.toNat) :
    rawBlock s = .raise .truncated s := by
  simp [rawBlock, need_of_lt h]

theorem rawBlock_of_full (h : s.ip.toNat + s.blk.size.toNat ≤ s.lInEnd.toNat)
    (hfull : s.lOutLimit.toNat < s.op.toNat + s.blk.size.toNat) : rawBlock s = .raise .outputFull s := by
  simp [rawBlock, need_of_le h, room_of_lt hfull]

theorem rawBlock_of_room (h : s.ip.toNat + s.blk.size.toNat ≤ s.lInEnd.toNat)
    (hroom : s.op.toNat + s.blk.size.toNat ≤ s.lOutLimit.toNat) :
    rawBlock s = .ok () (blockEnd ((s.setBlockEnd.produce (fun out i => s.inByteOver out (s.ip.toNat + i))
      s.blk.size.toNat).advance s.blk.size.toNat)) := by
  simp [rawBlock, need_of_le h, room_of_le hroom]

theorem rleBlock_of_truncated (h : s.lInEnd.toNat < s.ip.toNat + 1) : rleBlock s = .raise .truncated s := by
  simp [rleBlock, need_of_lt h]

theorem rleBlock_of_full (h : s.ip.toNat + 1 ≤ s.lInEnd.toNat)
    (hfull : s.lOutLimit.toNat < s.op.toNat + s.blk.size.toNat) : rleBlock s = .raise .outputFull s := by
  simp [rleBlock, need_of_le h, room_of_lt hfull]

theorem rleBlock_of_room (h : s.ip.toNat + 1 ≤ s.lInEnd.toNat)
    (hroom : s.op.toNat + s.blk.size.toNat ≤ s.lOutLimit.toNat) :
    rleBlock s = .ok ()
      (blockEnd ((s.produce (fun _ _ => s.inByte s.ip.toNat) s.blk.size.toNat).advance 1)) := by
  simp [rleBlock, need_of_le h, room_of_le hroom]

theorem cmpBlock_of_truncated (h : s.lInEnd.toNat < s.ip.toNat + s.blk.size.toNat) :
    cmpBlock s = .raise .truncated s := by
  simp [cmpBlock, need_of_lt h]

theorem cmpBlock_of_fits (h : s.ip.toNat + s.blk.size.toNat ≤ s.lInEnd.toNat) :
    cmpBlock s = .ok () { s.setBlockEnd with sub := .start } := by
  simp [cmpBlock, need_of_le h]

end

/-! ## The elements (R257 to R260) -/

section
variable {s : State} {last : Bool} {size : BitVec 21}

theorem blkRaw_of_opened (h : s.ip.toNat + 3 ≤ s.lInEnd.toNat) (hsize : size.toNat ≤ 131072) :
    exec (.blkRaw last size) s = finish (rawBlock (s.opened 0 last size)) := finish_of_opened h (by decide) hsize

theorem blkRle_of_opened (h : s.ip.toNat + 3 ≤ s.lInEnd.toNat) (hsize : size.toNat ≤ 131072) :
    exec (.blkRle last size) s = finish (rleBlock (s.opened 1 last size)) := finish_of_opened h (by decide) hsize

theorem blkCmp_of_opened (h : s.ip.toNat + 3 ≤ s.lInEnd.toNat) (hsize : size.toNat ≤ 131072) :
    exec (.blkCmp last size) s = finish (cmpBlock (s.opened 2 last size)) := finish_of_opened h (by decide) hsize

theorem blkCmp_opens (hsize : size.toNat ≤ 131072) (hfits : s.ip.toNat + 3 + size.toNat ≤ s.lInEnd.toNat) :
    exec (.blkCmp last size) s = .next { s with
      blk := ⟨last, 2, size, s.ip + 3 + size.setWidth 32⟩, ip := s.ip + 3, phase := .block, sub := .start } := by
  have hhdr : s.ip.toNat + 3 ≤ s.lInEnd.toNat := by omega
  have hbody : (s.opened 2 last size).ip.toNat + size.toNat ≤ s.lInEnd.toNat := by
    rw [opened_ip_toNat hhdr]
    exact hfits
  rw [blkCmp_of_opened hhdr hsize, cmpBlock_of_fits hbody, ← BitVec.ofNat_toNat]
  rfl

end

/-- Settles O28: each fault is that of the header or of the body's own tests. -/
theorem compressedBlockOpensOrFaults : Obligations.CompressedBlockOpensOrFaults := by
  intro last size s hdr body
  refine ⟨blkCmp_opens, fun h => ?truncated, fun h => ?reserved, fun h hsize => ?large, fun h hsize => ?payload⟩
  case truncated =>
    exact ⟨finish_of_header (blockHeader_of_truncated h), finish_of_header (blockHeader_of_truncated h),
      finish_of_header (blockHeader_of_truncated h), congrArg finish (blockHeader_of_truncated h)⟩
  case reserved => exact congrArg finish (blockHeader_of_reserved h)
  case large =>
    exact ⟨finish_of_header (blockHeader_of_large h (by decide) hsize),
      finish_of_header (blockHeader_of_large h (by decide) hsize),
      finish_of_header (blockHeader_of_large h (by decide) hsize)⟩
  case payload =>
    have hip (typ : BitVec 2) : (s.opened typ last size).ip.toNat = s.ip.toNat + 3 := opened_ip_toNat h
    rw [blkRaw_of_opened h hsize, blkRle_of_opened h hsize, blkCmp_of_opened h hsize]
    refine ⟨fun hcut => ⟨?_, ?_⟩, fun hcut => ?_, fun hfull => ⟨fun hfits => ?_, fun hfits => ?_⟩⟩
    · exact congrArg finish (rawBlock_of_truncated (s := s.opened 0 last size) (by rwa [hip]))
    · exact congrArg finish (cmpBlock_of_truncated (s := s.opened 2 last size) (by rwa [hip]))
    · exact congrArg finish (rleBlock_of_truncated (s := s.opened 1 last size) (by rwa [hip]))
    · exact congrArg finish (rawBlock_of_full (s := s.opened 0 last size) (by rwa [hip]) hfull)
    · exact congrArg finish (rleBlock_of_full (s := s.opened 1 last size) (by rwa [hip]) hfull)

/-! ## The bytes copied (R258, R259) -/

/-- Bytes of IN that lie apart from the bytes they are copied to arrive as they were before the copy (R75, R258). -/
theorem byte_copyIn {s : State} {src dst n a : Nat} (hw : s.out.wf Config.space) (hdst : dst + n ≤ Config.space)
    (hapart : s.apart src dst n) :
    (copyLoop (fun out i => s.inByteOver out (src + i)) dst n 0 s.out).byte a =
      if dst ≤ a ∧ a < dst + n then s.inByte (src + (a - dst)) else s.outByte a := by
  split
  case isTrue ha =>
    obtain ⟨k, rfl⟩ := Nat.exists_eq_add_of_le ha.1
    have hk : k < n := by omega
    rw [Nat.add_sub_cancel_left]
    have hat := byte_copyLoop_at (src := fun out i => s.inByteOver out (src + i)) (dst := dst) (i := 0) hw hdst hk
    rw [Nat.add_zero, Nat.zero_add] at hat
    rw [hat, State.inByte, State.inByteOver, State.inByteOver]
    split
    case isTrue hone =>
      obtain htwo | hapart := hapart
      · simp [hone] at htwo
      · exact byte_copyLoop_outside (by omega)
    case isFalse => rfl
  case isFalse ha => exact byte_copyLoop_outside (by omega)

/-- One byte replicated (R259). -/
theorem byte_fill {m : Memory} {v : Byte} {dst n a : Nat} (hw : m.wf Config.space) (hdst : dst + n ≤ Config.space) :
    (copyLoop (fun _ _ => v) dst n 0 m).byte a = if dst ≤ a ∧ a < dst + n then v else m.byte a := by
  split
  case isTrue ha => exact byte_copyLoop_const (src := fun _ => v) hw hdst ha.1 ha.2
  case isFalse ha => exact byte_copyLoop_outside (by omega)

/-- Settles O29: the body produces the payload at OP, by `byte_copyIn`. -/
theorem rawBlockCopies : Obligations.RawBlockCopies := by
  intro last size s hm hsize hfits hroom hapart
  obtain ⟨_, hout, _⟩ := hm
  have hhdr : s.ip.toNat + 3 ≤ s.lInEnd.toNat := by omega
  have hip : (s.opened 0 last size).ip.toNat = s.ip.toNat + 3 := opened_ip_toNat hhdr
  have hspace : s.op.toNat + size.toNat ≤ Config.space := hroom.trans (le_of_lt s.lOutLimit.isLt)
  refine ⟨copyLoop (fun out i => s.inByteOver out (s.ip.toNat + 3 + i)) s.op.toNat size.toNat 0 s.out, ?_,
    fun a => byte_copyIn hout hspace hapart⟩
  rw [blkRaw_of_opened hhdr hsize, rawBlock_of_room ((congrArg (· + size.toNat) hip).trans_le hfits) hroom, hip,
    opened_inByteOver, ← BitVec.ofNat_toNat]
  simp only [finish_ok, State.setBlockEnd, State.produce, State.advance, State.opened, State.headed]

/-- Settles O30: the body fills OUT from OP with its byte, by `byte_fill`. -/
theorem rleBlockFills : Obligations.RleBlockFills := by
  intro last size s hm hsize hfits hroom
  obtain ⟨_, hout, _⟩ := hm
  have hhdr : s.ip.toNat + 3 ≤ s.lInEnd.toNat := by omega
  have hip : (s.opened 1 last size).ip.toNat = s.ip.toNat + 3 := opened_ip_toNat hhdr
  have hnext : s.ip + 4 = s.ip + 3 + 1 := by rw [BitVec.add_assoc]; rfl
  have hspace : s.op.toNat + size.toNat ≤ Config.space := hroom.trans (le_of_lt s.lOutLimit.isLt)
  refine ⟨copyLoop (fun _ _ => s.inByte (s.ip.toNat + 3)) s.op.toNat size.toNat 0 s.out, ?_,
    fun a => byte_fill hout hspace⟩
  rw [blkRle_of_opened hhdr hsize, rleBlock_of_room ((congrArg (· + 1) hip).trans_le hfits) hroom, hip, hnext,
    ← BitVec.ofNat_toNat]
  rfl

end Sys2Proof.Machine
end

section
/-! PROOFS. The transitions of PHASE while a command runs, and what DONE and FAULT report (R250, R252, R361). -/
namespace Sys2Proof.Machine

/-! ## How a step ends -/

/-- The transitions of PHASE while a command runs (R250). -/
def Phase.LeadsTo (p q : Phase) : Prop :=
  match p with
  | .magic => q = .magic ∨ q = .frameHeader ∨ q = .fault
  | .frameHeader => q = .frameHeader ∨ q = .blockHeader ∨ q = .fault
  | .blockHeader => q ≠ .idle ∧ q ≠ .frameHeader
  | .block => q ≠ .idle ∧ q ≠ .frameHeader
  | .checksum => q = .checksum ∨ q = .magic ∨ q = .done ∨ q = .fault
  | .idle | .done | .fault => False

/-- The command goes on in a phase that `P` admits, is done where `P` admits that (R252), or takes a fault (R372). -/
inductive Reaches (P : Phase → Prop) : State → Prop
  | running {t : State} (hb : t.busy = true) (h : P t.phase) : Reaches P t
  | done (u : State) (h : P .done) : Reaches P (engDone u)
  | fault (e : ErrCode) (u : State) : Reaches P (faultEntry e u)

/-- PHASE is left as it was. -/
def SamePhase (s t : State) : Prop := t.phase = s.phase

/-- PHASE is left as it was, or a fault is taken. -/
def Stays (s t : State) : Prop := SamePhase s t ∨ ∃ e u, t = faultEntry e u

theorem Phase.leadsTo_self {p : Phase} (hb : p.busy = true) : p.LeadsTo p := by
  cases p with
  | magic | frameHeader | checksum => exact .inl rfl
  | blockHeader | block => exact ⟨nofun, nofun⟩
  | idle | done | fault => cases hb

theorem Phase.leadsTo_fault {p : Phase} (hb : p.busy = true) : p.LeadsTo .fault := by
  cases p with
  | magic | frameHeader => exact .inr (.inr rfl)
  | checksum => exact .inr (.inr (.inr rfl))
  | blockHeader | block => exact ⟨nofun, nofun⟩
  | idle | done | fault => cases hb

theorem Stays.reaches {s t : State} (h : Stays s t) (hb : s.busy = true) : Reaches s.phase.LeadsTo t := by
  obtain hp | ⟨e, u, rfl⟩ := h
  · unfold SamePhase at hp
    refine .running (by rwa [State.busy, hp]) ?_
    rw [hp]
    exact Phase.leadsTo_self hb
  · exact .fault e u

theorem stays_raised (s : State) (e : ErrCode) (u : State) : Leads (Stays s) (raised e u) := .next (.inr ⟨e, u, rfl⟩)

/-- An update that leaves PHASE alone; `by rfl` once both states are known. -/
theorem stays_next {s t : State} (h : t.phase = s.phase) : Leads (Stays s) (.next t) := .next (.inl h)

theorem reaches_raised (P : Phase → Prop) (e : ErrCode) (u : State) : Leads (Reaches P) (raised e u) :=
  .next (.fault e u)

/-- What is said of a piece of pseudocode that need only be described where it completes. -/
abbrev Run.Completes {σ α : Type} (P : σ → Prop) (r : Run σ α) : Prop := r.Ends P fun _ => True

theorem Run.completes_of_ok {σ α : Type} {P : σ → Prop} {r : Run σ α} (h : ∀ a t, r = .ok a t → P t) :
    r.Completes P := by
  cases r with
  | ok a t => exact .ok (h a t rfl)
  | raise e t => exact .raise trivial
  | stop x => exact .stop

section
variable {α β : Type} {Q : State → Prop} {r : Run State α}

theorem Run.Ends.stays {s : State} (h : r.Ends (SamePhase s) Q) : Leads (Stays s) (finish r) := by
  cases h with
  | ok h => exact .next (.inl h)
  | raise => exact stays_raised s _ _
  | stop => exact .fault

theorem Run.Ends.reaches {P : Phase → Prop} (h : r.Ends (Reaches P) Q) : Leads (Reaches P) (finish r) := by
  cases h with
  | ok h => exact .next h
  | raise => exact reaches_raised P _ _
  | stop => exact .fault

/-- Two pieces of pseudocode that leave PHASE alone. -/
theorem Run.Ends.andThen {s : State} {f : α → State → Run State β} (h : r.Ends (SamePhase s) Q)
    (hf : ∀ a t, (f a t).Completes (SamePhase t)) : (r.bind f).Completes (SamePhase s) := by
  cases h with
  | ok h => exact (hf _ _).mono (fun _ hu => hu.trans h) fun _ hu => hu
  | raise => exact .raise trivial
  | stop => exact .stop

end

/-! ## The end of a block and of a frame (R250, R252, R267) -/

theorem reaches_engNext {P : Phase → Prop} (hm : P .magic) (hd : P .done) (u : State) : Reaches P (engNext u) := by
  unfold engNext
  split
  · exact .running rfl hm
  · exact .done u hd

theorem reaches_blockEnd (u : State) : Reaches (Phase.LeadsTo .block) (blockEnd u) := by
  unfold blockEnd
  split
  · split
    · exact .running rfl ⟨nofun, nofun⟩
    · exact reaches_engNext ⟨nofun, nofun⟩ ⟨nofun, nofun⟩ u
  · exact .running rfl ⟨nofun, nofun⟩

/-! ## Frame elements (R253 to R255, R266) -/

theorem magic_reaches (s : State) : Leads (Reaches (Phase.LeadsTo .magic)) (execMagic s) := by
  unfold execMagic
  dsimp only
  split
  · exact .next (.running rfl (.inr (.inl rfl)))
  · exact reaches_raised _ _ _

theorem magicLegacy_reaches (P : Phase → Prop) (s : State) : Leads (Reaches P) (execMagicLegacy s) := by
  unfold execMagicLegacy
  dsimp only
  split
  · exact reaches_raised _ _ _
  · exact reaches_raised _ _ _

theorem headerEnd_reaches (s : State) : Leads (Reaches (Phase.LeadsTo .frameHeader)) (headerEnd s) := by
  unfold headerEnd
  split
  · exact reaches_raised _ _ _
  · exact .next (.running rfl (.inr (.inl rfl)))

/-- The next field of the header is read in the same phase. -/
theorem reaches_frameHeader {t : State} (hp : t.phase = .frameHeader) : Reaches (Phase.LeadsTo .frameHeader) t :=
  .running (by rw [State.busy, hp]; rfl) (.inl hp)

section
variable {s : State} (hp : s.phase = .frameHeader)
include hp

theorem headerContent_reaches : Leads (Reaches (Phase.LeadsTo .frameHeader)) (headerContent s) := by
  unfold headerContent
  split
  · exact headerEnd_reaches _
  · exact .next (reaches_frameHeader hp)

theorem headerDict_reaches : Leads (Reaches (Phase.LeadsTo .frameHeader)) (headerDict s) := by
  unfold headerDict
  split
  · exact headerContent_reaches hp
  · exact .next (reaches_frameHeader hp)

theorem fhd_reaches (csel : BitVec 2) (ss : Bool) (ign : BitVec 2) (ck : Bool) (dsel : BitVec 2) :
    Leads (Reaches (Phase.LeadsTo .frameHeader)) (execFhd csel ss ign ck dsel s) := by
  unfold execFhd
  dsimp only
  split
  · exact reaches_raised _ _ _
  · split
    · exact reaches_raised _ _ _
    · split
      · exact headerDict_reaches hp
      · exact .next (reaches_frameHeader hp)

end

theorem checksum_reaches (v : BitVec 32) (s : State) :
    Leads (Reaches (Phase.LeadsTo .checksum)) (execChecksum v s) := by
  have hend (u : State) : Reaches (Phase.LeadsTo .checksum) (engNext u) :=
    reaches_engNext (.inr (.inl rfl)) (.inr (.inr (.inl rfl))) u
  unfold execChecksum
  dsimp only
  split
  · exact reaches_raised _ _ _
  · split
    · exact .next (hend _)
    · split
      · exact reaches_raised _ _ _
      · exact .next (hend _)

/-! ## Blocks (R257 to R260) -/

theorem blockHeader_completes (typ : BitVec 2) (last : Bool) (size : BitVec 21) (s : State) :
    (blockHeader typ last size s).Completes fun t => t.phase = .block :=
  Run.completes_of_ok fun _ t h => by
    obtain ⟨rfl, _⟩ := blockHeader_ok h
    rfl

theorem rawBlock_completes (s : State) : (rawBlock s).Completes (Reaches (Phase.LeadsTo .block)) := by
  unfold rawBlock
  dsimp only
  split
  · exact .raise trivial
  · split
    · exact .raise trivial
    · exact .ok (reaches_blockEnd _)

theorem rleBlock_completes (s : State) : (rleBlock s).Completes (Reaches (Phase.LeadsTo .block)) := by
  unfold rleBlock
  dsimp only
  split
  · exact .raise trivial
  · split
    · exact .raise trivial
    · exact .ok (reaches_blockEnd _)

theorem reaches_block {t : State} (hp : t.phase = .block) : Reaches (Phase.LeadsTo .block) t :=
  .running (by rw [State.busy, hp]; rfl) (by rw [hp]; exact Phase.leadsTo_self rfl)

theorem cmpBlock_completes {s : State} (hp : s.phase = .block) :
    (cmpBlock s).Completes (Reaches (Phase.LeadsTo .block)) := by
  unfold cmpBlock
  dsimp only
  split
  · exact .raise trivial
  · exact .ok (reaches_block hp)

/-! ## Literals (R291 to R296) -/

theorem litHeader_completes (typ fmt : BitVec 2) (hs : Nat) (regen : BitVec 20) (comp : BitVec 18) (single : Bool)
    (s : State) : (litHeader typ fmt hs regen comp single s).Completes (SamePhase s) :=
  Run.completes_of_ok fun _ t h => by
    obtain ⟨rfl, _⟩ := litHeader_ok h
    rfl

theorem litRaw_completes (s : State) : (litRaw s).Completes (SamePhase s) := by
  unfold litRaw
  dsimp only
  split
  · exact .raise trivial
  · split
    · exact .ok rfl
    · exact .ok rfl

theorem litRle_completes (s : State) : (litRle s).Completes (SamePhase s) := by
  unfold litRle
  dsimp only
  split
  · exact .raise trivial
  · exact .ok rfl

theorem litHuf_phase (tree : Bool) (s : State) : (litHuf tree s).phase = s.phase := by
  cases tree with
  | true => rfl
  | false => exact litStreams_phase _

section
variable (fmt : BitVec 2) (hs : Nat) (regen : BitVec 20) (comp : BitVec 18) (s : State)

theorem litRawSection_stays : Leads (Stays s) (litRawSection fmt hs regen s) :=
  ((litHeader_completes _ _ _ _ _ _ s).andThen fun _ t => litRaw_completes t).stays

theorem litRleSection_stays : Leads (Stays s) (litRleSection fmt hs regen s) :=
  ((litHeader_completes _ _ _ _ _ _ s).andThen fun _ t => litRle_completes t).stays

theorem litHufSection_stays : Leads (Stays s) (litHufSection fmt hs regen comp s) :=
  ((litHeader_completes _ _ _ _ _ _ s).andThen fun _ t =>
    .ok (litHuf_phase true t)).stays

theorem litRepSection_stays : Leads (Stays s) (litRepSection fmt hs regen comp s) :=
  ((litHeader_completes _ _ _ _ _ _ s).andThen fun _ t =>
    .ok (litHuf_phase false t)).stays

end

theorem TreeWrites.samePhase {b : Bool} {s t : State} (h : TreeWrites b s t) : SamePhase s t := by
  rw [h.eq]
  rfl

theorem htreeElement_stays (h : Nat) (s : State) : Leads (Stays s) (htreeElement h s) := by
  unfold htreeElement
  dsimp only
  split
  · exact stays_raised _ _ _
  · have hform := hufForm_writes h (hufUnload s).ip.toNat (hufUnload s).lit.comp.toNat (hufUnload s)
    exact Run.Ends.stays (s := s) ((hform.mono (fun _ ht => ht.samePhase) fun _ h => h).andThen
      fun _ _ => .ok (litStreams_phase _))

theorem DecodeWrites.samePhase {s t : State} (h : DecodeWrites s t) : SamePhase s t := by
  obtain ⟨_, _, rfl⟩ := h
  rfl

theorem jump_stays (len1 len2 len3 : BitVec 16) (s : State) : Leads (Stays s) (execJump len1 len2 len3 s) := by
  unfold execJump
  split
  · exact stays_raised _ _ _
  · exact Run.Ends.stays (Run.Ends.andThen
      ((stateHufDec4Streams_writes s _ _ _ _ _ _).mono (fun _ h => DecodeWrites.samePhase h) fun _ h => h)
      fun _ u => .ok (litEnd_phase u))

/-! ## Sequences (R310 to R317) -/

theorem seqHeader_stays (n count : Nat) (s : State) : Leads (Stays s) (seqHeader n count s) := by
  unfold seqHeader
  split
  · exact stays_raised _ _ _
  · split
    · exact stays_raised _ _ _
    · exact stays_next rfl

theorem seqn0_stays (s : State) : Leads (Stays s) (execSeqn0 s) := by
  unfold execSeqn0
  split
  · exact stays_raised _ _ _
  · exact stays_next rfl

theorem seqm_stays (llmode ofmode mlmode ign : BitVec 2) (s : State) :
    Leads (Stays s) (execSeqm llmode ofmode mlmode ign s) := by
  unfold execSeqm
  split
  · exact stays_raised _ _ _
  · exact stays_next rfl

theorem modePredef_stays (x : Alphabet) (s : State) : Leads (Stays s) (execModePredef x s) :=
  stays_next ((nextTable_phase x _).trans (setSel_phase s x _))

theorem modeRepeat_stays (x : Alphabet) (s : State) : Leads (Stays s) (execModeRepeat x s) := by
  unfold execModeRepeat
  split
  · exact stays_raised _ _ _
  · exact stays_next (nextTable_phase x s)

theorem rlesym_stays (x : Alphabet) (v : BitVec 8) (s : State) : Leads (Stays s) (execRlesym x v s) := by
  unfold execRlesym
  split
  · exact stays_raised _ _ _
  · split
    · exact stays_raised _ _ _
    · exact stays_next (by simp)

theorem TableWrites.samePhase {s t : State} (h : TableWrites s t) : SamePhase s t := by
  rw [h.eq]
  rfl

theorem fsedesc_stays (x : Alphabet) (logMinus5 high : BitVec 4) (s : State) :
    Leads (Stays s) (execFsedesc x logMinus5 high s) := by
  refine Run.Ends.stays (Run.Ends.andThen (Run.Ends.onRaise (Q' := fun _ => True)
    (((runTable_writes s x.table _).mono fun _ h => TableWrites.samePhase h).ends fun _ h => h) fun _ _ => trivial)
    fun _ u => .ok ?_)
  simp [SamePhase]

/-! ## Transitions that read no element (R296, R310, R317) -/

theorem primeBits_completes {s u : State} (hu : SamePhase s u) (x : Alphabet) :
    (primeBits u x).Completes (SamePhase s) :=
  (primeBits_ends u x).mono (fun _ ⟨_, h⟩ => h ▸ hu) fun _ h => h

theorem seqPrime_completes (s : State) : (seqPrime s).Completes (SamePhase s) := by
  refine Run.Ends.andThen (primeBits_completes (by rfl) .ll) fun _ s1 => ?_
  refine Run.Ends.andThen (primeBits_completes (by rfl) .of) fun _ s2 => ?_
  refine Run.Ends.andThen (primeBits_completes (by rfl) .ml) fun _ s3 => ?_
  exact .ok (seqLoop_phase _)

theorem innerStep_reaches {s : State} (hb : s.busy = true) : Leads (Reaches s.phase.LeadsTo) (innerStep s) := by
  have hstays {o : Host.Outcome State Fault Refusal} (h : Leads (Stays s) o) : Leads (Reaches s.phase.LeadsTo) o :=
    h.mono fun _ ht => ht.reaches hb
  unfold innerStep
  split
  case h_1 hp =>
    split
    case h_1 => exact hstays (stays_next rfl)
    case h_2 => exact hstays (seqPrime_completes s).stays
    case h_3 => exact hstays (stays_next (seqLoop_phase _))
    case h_4 =>
      rw [hp]
      exact .next (reaches_blockEnd _)
    all_goals exact hstays (stays_next rfl)
  all_goals exact hstays (stays_next rfl)

/-! ## Every element and every unit operation -/

/-- An element leads where R250 lets the phase lead in which the engine reads it. -/
theorem exec_reaches {i : Instr} {s : State} (hp : s.placed (ctxOf i)) :
    Leads (Reaches s.phase.LeadsTo) (exec i s) := by
  have hblock {o : Host.Outcome State Fault Refusal} (h : Leads (Stays s) o) (hp : s.phase = .block) :
      Leads (Reaches s.phase.LeadsTo) o := h.mono fun _ ht => ht.reaches (by rw [State.busy, hp]; rfl)
  have hbody {typ : BitVec 2} {last : Bool} {size : BitVec 21} {f : Unit → State → Run State Unit}
      (hf : ∀ t : State, t.phase = .block → (f () t).Completes (Reaches (Phase.LeadsTo .block)))
      (hp : s.phase = .blockHeader) :
      Leads (Reaches s.phase.LeadsTo) (finish ((blockHeader typ last size s).bind f)) := by
    rw [hp]
    exact ((blockHeader_completes typ last size s).bind fun _ t ht => hf t ht).reaches
  cases i with
  | magic => exact (show s.phase = .magic from hp) ▸ magic_reaches s
  | magicLegacy => exact magicLegacy_reaches _ s
  | fhd csel ss ign ck dsel => exact (show s.phase = .frameHeader from hp) ▸ fhd_reaches hp csel ss ign ck dsel
  | wd e m =>
    rw [hp.1]
    exact headerDict_reaches hp.1
  | did n v => exact reaches_raised _ _ _
  | fcs n v =>
    rw [hp.1]
    exact headerEnd_reaches _
  | blkRaw last size => exact hbody (fun t _ => rawBlock_completes t) hp
  | blkRle last size => exact hbody (fun t _ => rleBlock_completes t) hp
  | blkCmp last size => exact hbody (fun t => cmpBlock_completes) hp
  | blkRsv last size =>
    rw [show s.phase = .blockHeader from hp]
    exact Run.Ends.reaches ((blockHeader_completes 3 last size s).mono (fun _ => reaches_block) fun _ h => h)
  | litRaw1 regen | litRaw2 regen | litRaw3 regen => exact hblock (litRawSection_stays _ _ _ s) hp
  | litRle1 regen | litRle2 regen | litRle3 regen => exact hblock (litRleSection_stays _ _ _ s) hp
  | litHufS3 regen comp | litHuf3 regen comp | litHuf4 regen comp | litHuf5 regen comp =>
    exact hblock (litHufSection_stays _ _ _ _ s) hp
  | litRepS3 regen comp | litRep3 regen comp | litRep4 regen comp | litRep5 regen comp =>
    exact hblock (litRepSection_stays _ _ _ _ s) hp
  | htreeDirect low | htreeFse len => exact hblock (htreeElement_stays _ s) hp.1
  | jump len1 len2 len3 => exact hblock (jump_stays len1 len2 len3 s) hp.1
  | seqn0 => exact hblock (seqn0_stays s) hp
  | seqn1 count | seqn2 high b1 | seqn3 b1 b2 => exact hblock (seqHeader_stays _ _ s) hp
  | seqm llmode ofmode mlmode ign => exact hblock (seqm_stays llmode ofmode mlmode ign s) hp
  | modePredef x => exact hblock (modePredef_stays x s) hp
  | modeRle x | modeFse x => exact hblock (stays_next rfl) hp
  | modeRepeat x => exact hblock (modeRepeat_stays x s) hp
  | rlesym x symbol => exact hblock (rlesym_stays x symbol s) hp
  | fsedesc x logMinus5 high => exact hblock (fsedesc_stays x logMinus5 high s) hp
  | checksum v => exact (show s.phase = .checksum from hp) ▸ checksum_reaches v s
  | _ => exact hp.elim

theorem UnitOutcome.stays {i : Instr} {s t : State} (h : UnitOutcome i s t) : Stays s t := by
  obtain hw | ⟨e, u, _, rfl⟩ := h
  · refine .inl ?_
    cases hw with
    | _ => rfl
  · exact .inr ⟨e, u, rfl⟩

/-! ## Every step -/

theorem engineStep_reaches {s t : State} (hi : s.issueOk) (hb : s.busy = true) (hn : engineStep s = .next t) :
    Reaches s.phase.LeadsTo t := by
  obtain ⟨i, r, his, he⟩ | ⟨_, c, i, _, hc, hd, he⟩ | ⟨_, c, r, _, _, he⟩ | ⟨_, _, he⟩ := engineStep_cases s
  · have hunit : i.isUnitOp = true := hi i (his ▸ List.mem_cons_self)
    exact Stays.reaches (exec_unit hunit (he.symm.trans hn)).stays hb
  · obtain ⟨hu, hh⟩ := nextCtx_element hc
    have hleads := exec_reaches (i := i) (decode_ctx hd hu hh ▸ placed_of_nextCtx hc)
    rw [← he, hn] at hleads
    exact hleads.of_next
  · cases he.symm.trans hn
    exact .fault _ _
  · have hleads := innerStep_reaches hb
    rw [← he, hn] at hleads
    exact hleads.of_next

theorem step_reaches {s t : State} (hi : s.issueOk) (hb : s.busy = true) (hn : step s = .next t) :
    Reaches s.phase.LeadsTo t := by
  obtain ⟨h, q, _, hs⟩ | ⟨_, q, hs⟩ := step_cases s
  · have ht := hostAccess_busy (s := { s with hostQueue := q }) hb (hs.symm.trans hn)
    exact Stays.reaches (.inl (by rw [ht]; rfl)) hb
  · exact engineStep_reaches (s := { s with hostQueue := q }) hi hb (hs.symm.trans hn)

/-- Every fault has a code and a class (R361). -/
theorem errCode_ne_zero (e : ErrCode) : e.code ≠ 0 ∧ e.cls ≠ 0 := by cases e <;> decide

/-- Settles O20: by `step_reaches` a step goes on, or ends in `engDone` or `faultEntry`, which write the reports. -/
theorem phaseTransitions : Obligations.PhaseTransitions := by
  intro s t hi hb hn
  cases step_reaches hi hb hn with
  | running hbt h =>
    refine ⟨h, fun hp => ?_, fun hp => ?_⟩
    · simp [State.busy, hp, Phase.busy] at hbt
    · simp [State.busy, hp, Phase.busy] at hbt
  | done u h => exact ⟨h, fun _ => rfl, nofun⟩
  | fault e u =>
    obtain ⟨hcode, hcls⟩ := errCode_ne_zero e
    exact ⟨Phase.leadsTo_fault hb, nofun, fun _ => ⟨hcode, hcls, rfl⟩⟩

end Sys2Proof.Machine
end

section
/-! PROOFS. The literals section (R291 to R296): the header of all its forms, the bodies that it leads to, and the
transitions inside a compressed block that read no element (R296, R310, R317). -/
namespace Sys2Proof.Machine

/-! ## The forms of a literals section (R99, R100) -/

/-- The header of LIT.SECTION for a form (R291 to R293). -/
def formHeader (f : LitForm) (s : State) : Run State Unit :=
  litHeader f.typ f.fmt f.size (BitVec.ofNat 20 f.regen) (BitVec.ofNat 18 f.comp)
    (decide (2 ≤ f.typ.toNat ∧ f.fmt = 0)) s

/-- The body that LIT.TYPE names (R294 to R296). -/
def litBody (typ : BitVec 2) (s : State) : Run State Unit :=
  if typ = 0 then litRaw s else if typ = 1 then litRle s else .ok () (litHuf (decide (typ = 2)) s)

/-- The fields of a header are recorded (R291 to R293). -/
def State.litHeaded (s : State) (f : LitForm) : State := { s with lit := s.lit.header f }

/-- The body is next (R291 to R293). -/
def State.litOpened (s : State) (f : LitForm) : State := (s.litHeaded f).advance f.size

/-- The sizes of a form are as wide as their registers, and it has a first byte (R99, R100). -/
structure FormFits (f : LitForm) : Prop where
  regen : (BitVec.ofNat 20 f.regen).toNat = f.regen
  comp : (BitVec.ofNat 18 f.comp).toNat = f.comp
  size : 1 ≤ f.size

section
variable {i : Instr} {f : LitForm} {s t : State}

theorem litForm_fits (h : litForm i = some f) : FormFits f := by
  cases i with
  | litRaw1 r | litRaw2 r | litRaw3 r | litRle1 r | litRle2 r | litRle3 r =>
    cases h
    exact ⟨Nat.mod_eq_of_lt (by dsimp only; omega), rfl, Nat.le_add_left _ _⟩
  | litHufS3 r c | litHuf3 r c | litHuf4 r c | litHuf5 r c | litRepS3 r c | litRep3 r c | litRep4 r c | litRep5 r c =>
    cases h
    exact ⟨Nat.mod_eq_of_lt (by dsimp only; omega), Nat.mod_eq_of_lt (by dsimp only; omega), Nat.le_add_left _ _⟩
  | _ => cases h

/-- Every literals header is its form's header, then the body of its type. -/
theorem exec_of_litForm (h : litForm i = some f) :
    exec i s = finish ((formHeader f s).bind fun _ t => litBody f.typ t) := by
  cases i with
  | litRaw1 r | litRaw2 r | litRaw3 r | litRle1 r | litRle2 r | litRle3 r | litHufS3 r c | litHuf3 r c | litHuf4 r c
  | litHuf5 r c | litRepS3 r c | litRep3 r c | litRep4 r c | litRep5 r c =>
    cases h
    simp only [formHeader, BitVec.ofNat_toNat, BitVec.setWidth_eq]
    rfl
  | _ => cases h

/-- A fault of the header ends the element. -/
theorem exec_of_formFault {e : ErrCode} (hf : litForm i = some f) (h : formHeader f s = .raise e t) :
    exec i s = .next (faultEntry e t) := by
  rw [exec_of_litForm hf, h, bind_raise, finish_raise]

/-- Past the header, the element is the body. -/
theorem exec_of_litOpened (hf : litForm i = some f) (h : formHeader f s = .ok () t) :
    exec i s = finish (litBody f.typ t) := by
  rw [exec_of_litForm hf, h, bind_ok]

/-- IP past the header and `n` bytes of the body. -/
theorem litOpened_ip_add (n : Nat) :
    (s.litOpened f).ip + BitVec.ofNat 32 n = s.ip + BitVec.ofNat 32 (f.size + n) := by
  rw [BitVec.ofNat_add, ← BitVec.add_assoc]
  rfl

/-! ## The tests of the header (R291 to R293) -/

theorem formHeader_of_empty (h : s.blk.limit.toNat < s.ip.toNat + 1) : formHeader f s = .raise .truncated s := by
  simp [formHeader, litHeader, need_of_lt h]

theorem formHeader_of_cut (hfirst : s.ip.toNat + 1 ≤ s.blk.limit.toNat)
    (h : s.blk.limit.toNat < s.ip.toNat + f.size) :
    formHeader f s = .raise .truncated { s with lit := { s.lit with typ := f.typ, fmt := f.fmt } } := by
  simp [formHeader, litHeader, State.need, hfirst, h]

section
variable (hf : FormFits f) (hsize : s.ip.toNat + f.size ≤ s.blk.limit.toNat)
include hf hsize

omit hf in
theorem litOpened_ip_toNat : (s.litOpened f).ip.toNat = s.ip.toNat + f.size := toNat_add_of_le hsize

/-- The tests on a header whose bytes are all in the block (R292, R293). -/
theorem formHeader_of_whole :
    formHeader f s =
      if 131072 < f.regen then .raise .blockTooLarge (s.litHeaded f)
      else if f.typ.toNat < 2 then .ok () (s.litOpened f)
      else if s.blk.limit.toNat < s.ip.toNat + f.size + f.comp then .raise .truncated (s.litHeaded f)
      else if f.typ = 3 ∧ s.huf.loaded = false then .raise .noHufTable (s.litHeaded f)
      else .ok () (s.litOpened f) := by
  have hfirst : s.need 1 s.blk.limit = true := need_of_le (by have := hf.size; omega)
  rw [formHeader, litHeader, hfirst]
  dsimp only
  rw [State.need, decide_eq_true hsize, hf.regen, hf.comp]
  rfl

theorem formHeader_of_large (hregen : 131072 < f.regen) :
    formHeader f s = .raise .blockTooLarge (s.litHeaded f) := by
  rw [formHeader_of_whole hf hsize, if_pos hregen]

theorem formHeader_of_short_body (hregen : f.regen ≤ 131072) (htyp : 2 ≤ f.typ.toNat)
    (hbody : s.blk.limit.toNat < s.ip.toNat + f.size + f.comp) :
    formHeader f s = .raise .truncated (s.litHeaded f) := by
  rw [formHeader_of_whole hf hsize, if_neg (not_lt.mpr hregen), if_neg (not_lt.mpr htyp), if_pos hbody]

theorem formHeader_of_stored (hregen : f.regen ≤ 131072) (htyp : f.typ.toNat < 2) :
    formHeader f s = .ok () (s.litOpened f) := by
  rw [formHeader_of_whole hf hsize, if_neg (not_lt.mpr hregen), if_pos htyp]

end

section
variable (hf : FormFits f) (hbody : s.ip.toNat + f.size + f.comp ≤ s.blk.limit.toNat) (hregen : f.regen ≤ 131072)
include hf hbody hregen

theorem formHeader_of_no_table (htyp : f.typ = 3) (hload : s.huf.loaded = false) :
    formHeader f s = .raise .noHufTable (s.litHeaded f) := by
  rw [formHeader_of_whole hf (by omega), if_neg (not_lt.mpr hregen), if_neg (by rw [htyp]; decide),
    if_neg (not_lt.mpr hbody), if_pos ⟨htyp, hload⟩]

theorem formHeader_of_huffman (htyp : 2 ≤ f.typ.toNat) (hload : f.typ = 3 → s.huf.loaded = true) :
    formHeader f s = .ok () (s.litOpened f) := by
  rw [formHeader_of_whole hf (by omega), if_neg (not_lt.mpr hregen), if_neg (not_lt.mpr htyp),
    if_neg (not_lt.mpr hbody), if_neg fun ⟨h3, hl⟩ => by simp [hload h3] at hl]

end
end

/-! ## The bodies (R294 to R296) -/

section
variable {s : State}

theorem litRaw_of_truncated (h : s.blk.limit.toNat < s.ip.toNat + s.lit.regen.toNat) :
    litRaw s = .raise .truncated s := by
  simp [litRaw, need_of_lt h]

theorem litRaw_of_inPlace (h : s.ip.toNat + (s.lit.regen.toNat + 8) ≤ s.blk.limit.toNat) :
    litRaw s = .ok () { s with
      lit := { s.lit with src := true, ptr := s.ip, limit := s.ip + BitVec.ofNat 32 s.lit.regen.toNat }
      ip := s.ip + BitVec.ofNat 32 s.lit.regen.toNat, sub := .seqn } := by
  rw [litRaw, need_of_le (by omega)]
  dsimp only
  rw [if_pos h]
  rfl

theorem litRaw_of_copied (h : s.ip.toNat + s.lit.regen.toNat ≤ s.blk.limit.toNat)
    (hslack : s.blk.limit.toNat < s.ip.toNat + (s.lit.regen.toNat + 8)) :
    litRaw s = .ok () { (s.litFill (fun _ k => s.inByte (s.ip.toNat + k)) s.lit.regen.toNat).advance s.lit.regen.toNat with
      sub := .seqn } := by
  rw [litRaw, need_of_le h]
  dsimp only
  rw [if_neg (not_le.mpr hslack)]
  rfl

theorem litRle_of_truncated (h : s.blk.limit.toNat < s.ip.toNat + 1) : litRle s = .raise .truncated s := by
  simp [litRle, need_of_lt h]

theorem litRle_of_fits (h : s.ip.toNat + 1 ≤ s.blk.limit.toNat) :
    litRle s = .ok () { (s.litFill (fun _ _ => s.inByte s.ip.toNat) s.lit.regen.toNat).advance 1 with sub := .seqn } := by
  simp [litRle, need_of_le h]

theorem litBody_tree :
    litBody 2 s = .ok () { s with litLim := s.ip + BitVec.ofNat 32 s.lit.comp.toNat, sub := .htree } := rfl

theorem litBody_single (h : s.lit.single = true) :
    litBody 3 s = .ok () { s with
      litLim := s.ip + BitVec.ofNat 32 s.lit.comp.toNat, sub := .litEnd
      issue := [.hufDec1 s.ip (s.ip + BitVec.ofNat 32 s.lit.comp.toNat) s.lit.regen] } :=
  congrArg (Run.ok ()) (if_pos h)

theorem litBody_four (h : s.lit.single = false) :
    litBody 3 s = .ok () { s with litLim := s.ip + BitVec.ofNat 32 s.lit.comp.toNat, sub := .jump } :=
  congrArg (Run.ok ()) (if_neg (ne_true_of_eq_false h))

/-- Literals placed in LIT: their bytes, with the slack above them as it was (R79; log 23). -/
theorem litByte_litFill {src : Nat → Byte} {n x : Nat} (hw : s.litbuf.wf Config.litSize) (hn : n ≤ 131072) :
    (s.litFill (fun _ k => src k) n).litByte x = if x < n then src x else s.litByte x := by
  have hfit : 0 + 0 + n ≤ Config.litSize := by rw [Config.litSize, Config.maxBlock]; omega
  split
  case isTrue hx => exact byte_copyLoop_const hw hfit (by omega) (by omega)
  case isFalse hx => exact byte_copyLoop_outside (by omega)

end

/-! ## The elements (R291 to R296) -/

section
variable {i : Instr} {f : LitForm} {s : State} (hform : litForm i = some f)
  (hsize : s.ip.toNat + f.size ≤ s.blk.limit.toNat) (hregen : f.regen ≤ 131072)
include hform hsize hregen

theorem exec_of_rawForm (htyp : f.typ = 0) : exec i s = finish (litRaw (s.litOpened f)) := by
  rw [exec_of_litOpened hform (formHeader_of_stored (litForm_fits hform) hsize hregen (by rw [htyp]; decide)), htyp]
  rfl

theorem exec_of_rleForm (htyp : f.typ = 1) : exec i s = finish (litRle (s.litOpened f)) := by
  rw [exec_of_litOpened hform (formHeader_of_stored (litForm_fits hform) hsize hregen (by rw [htyp]; decide)), htyp]
  rfl

end

/-- Settles O36: each fault is that of the header or of the body's own test. -/
theorem literalsFaults : Obligations.LiteralsFaults := by
  intro i f s hform h limit
  have hf := litForm_fits hform
  refine ⟨fun hcut => exec_of_formFault hform (formHeader_of_empty hcut),
    fun hfirst hcut => exec_of_formFault hform (formHeader_of_cut hfirst hcut),
    fun hsize hregen => exec_of_formFault hform (formHeader_of_large hf hsize hregen),
    fun hsize hregen htyp hcut => exec_of_formFault hform (formHeader_of_short_body hf hsize hregen htyp hcut),
    fun hbody hregen htyp hload => exec_of_formFault hform (formHeader_of_no_table hf hbody hregen htyp hload),
    fun hsize hregen hcut => ?body⟩
  have hip : (s.litOpened f).ip.toNat = s.ip.toNat + f.size := litOpened_ip_toNat hsize
  have hn : (s.litOpened f).lit.regen.toNat = f.regen := hf.regen
  obtain ⟨htyp, hcut⟩ | ⟨htyp, hcut⟩ := hcut
  · rw [exec_of_rawForm hform hsize hregen htyp, litRaw_of_truncated (by rw [hip, hn]; exact hcut)]
    rfl
  · rw [exec_of_rleForm hform hsize hregen htyp, litRle_of_truncated (by rw [hip]; exact hcut)]
    rfl

/-- Settles O33: in place or copied, by the room that the block leaves after the body. -/
theorem rawLiterals : Obligations.RawLiterals := by
  intro i f s hform htyp hm hregen hfits a src ptr
  obtain ⟨_, _, hlit⟩ := hm
  have hsize : s.ip.toNat + f.size ≤ s.blk.limit.toNat := by omega
  have hip : (s.litOpened f).ip.toNat = a := litOpened_ip_toNat hsize
  have hn : (s.litOpened f).lit.regen.toNat = f.regen := (litForm_fits hform).regen
  rw [exec_of_rawForm hform hsize hregen htyp, ← litOpened_ip_add]
  by_cases hroom : a + f.regen + 8 ≤ s.blk.limit.toNat
  · have hsrc : src = true := decide_eq_true hroom
    have hptr : BitVec.ofNat 32 a = (s.litOpened f).ip := by rw [← hip, BitVec.ofNat_toNat, BitVec.setWidth_eq]
    refine ⟨s.litbuf, ?_, fun x => (if_neg (by simp [hsrc])).symm⟩
    rw [litRaw_of_inPlace (by rw [hip, hn]; exact hroom), hn, finish_ok]
    simp only [ptr, hsrc, if_true, BitVec.ofNat_add, hptr]
    rfl
  · have hsrc : src = false := decide_eq_false hroom
    refine ⟨(s.litFill (fun _ k => s.inByte (a + k)) f.regen).litbuf, ?_, fun x => ?_⟩
    · rw [litRaw_of_copied (by rw [hip, hn]; exact hfits) (by rw [hip, hn]; exact not_le.mp hroom), hn, hip, finish_ok]
      simp only [ptr, hsrc, Bool.false_eq_true, if_false, Nat.zero_add]
      rfl
    · simp only [hsrc, true_and]
      exact litByte_litFill (src := fun k => s.inByte (a + k)) hlit hregen

/-- Settles O34: the body fills LIT with its byte, by `litByte_litFill`. -/
theorem rleLiterals : Obligations.RleLiterals := by
  intro i f s hform htyp hm hregen hfits
  obtain ⟨_, _, hlit⟩ := hm
  have hsize : s.ip.toNat + f.size ≤ s.blk.limit.toNat := by omega
  have hip : (s.litOpened f).ip.toNat = s.ip.toNat + f.size := litOpened_ip_toNat hsize
  have hn : (s.litOpened f).lit.regen.toNat = f.regen := (litForm_fits hform).regen
  refine ⟨(s.litFill (fun _ _ => s.inByte (s.ip.toNat + f.size)) f.regen).litbuf, ?_,
    fun x => litByte_litFill (src := fun _ => s.inByte (s.ip.toNat + f.size)) hlit hregen⟩
  rw [exec_of_rleForm hform hsize hregen htyp, litRle_of_fits (by rw [hip]; exact hfits), hip, hn,
    ← litOpened_ip_add]
  rfl

/-- Settles O35: the header, then the start of the body for its type and format. -/
theorem huffmanLiteralsOpen : Obligations.HuffmanLiteralsOpen := by
  intro i f s hform htyp hregen hbody hload p lim
  have hf := litForm_fits hform
  have hcomp : (s.litOpened f).lit.comp.toNat = f.comp := hf.comp
  rw [exec_of_litOpened hform (formHeader_of_huffman hf hbody hregen htyp hload)]
  obtain h2 | h3 : f.typ = 2 ∨ f.typ = 3 := by bv_omega
  · rw [h2, litBody_tree, hcomp]
    rfl
  · rw [h3]
    by_cases hfmt : f.fmt = 0
    · rw [litBody_single (decide_eq_true ⟨htyp, hfmt⟩), hcomp, finish_ok]
      simp only [hfmt]
      rfl
    · rw [litBody_four (decide_eq_false fun h => hfmt h.2), hcomp, finish_ok]
      simp only [hfmt]
      rfl

/-! ## Transitions that read no element (R296, R310, R317) -/

theorem step_of_noElement {s : State} (hq : s.hostQueue = []) (his : s.issue = []) (hc : s.nextCtx = none) :
    step s = innerStep s := by
  simp [step_of_noHost hq, engineStep, his, hc]

section
variable {s : State} (hq : s.hostQueue = []) (his : s.issue = []) (hp : s.phase = .block)
include hq his hp

theorem step_of_litEnd (hs : s.sub = .litEnd) : step s = .next (litEnd s) := by
  rw [step_of_noElement hq his (by simp [State.nextCtx, hp, hs])]
  simp [innerStep, hp, hs]

theorem step_of_prime (hs : s.sub = .prime) : step s = finish (seqPrime s) := by
  rw [step_of_noElement hq his (by simp [State.nextCtx, hp, hs])]
  simp [innerStep, hp, hs]

theorem step_of_seqCount (hs : s.sub = .seqCount) : step s = .next (seqCounted s) := by
  rw [step_of_noElement hq his (by simp [State.nextCtx, hp, hs])]
  simp [innerStep, hp, hs]

theorem step_of_blkEnd (hs : s.sub = .blkEnd) : step s = .next (sectionEnd s) := by
  rw [step_of_noElement hq his (by simp [State.nextCtx, hp, hs])]
  simp [innerStep, hp, hs]

end

theorem seqLoop_eq (s : State) : seqLoop s = { s with
    issue := if s.seq.count = 0 then [.seqLastlit] else [.seqDecode, .seqExec]
    sub := if s.seq.count = 0 then .blkEnd else .seqCount } := by
  unfold seqLoop
  split <;> rfl

theorem primeBits_of_curLog {s : State} {x : Alphabet} {log : Nat} (h : s.curLog x = some log) :
    primeBits s x = .ok (brPeek (s.br.get 0) log) (s.setBr 0 (brConsume (s.br.get 0) log)) := by
  simp [primeBits, h, readBits]

/-- The three states are primed one after the other from the same reader (R317). -/
theorem seqPrime_of_logs {s : State} {ll of ml : Nat} (hll : s.curLog .ll = some ll) (hof : s.curLog .of = some of)
    (hml : s.curLog .ml = some ml) :
    let b1 := brConsume (s.br.get 0) ll
    let b2 := brConsume b1 of
    seqPrime s = .ok () (seqLoop { s.setBr 0 (brConsume b2 ml) with
      seq := { s.seq with
        llState := BitVec.ofNat 9 (brPeek (s.br.get 0) ll), ofState := BitVec.ofNat 8 (brPeek b1 of)
        mlState := BitVec.ofNat 9 (brPeek b2 ml) } }) := by
  intro b1 b2
  rw [seqPrime, primeBits_of_curLog hll, bind_ok, primeBits_of_curLog (by exact hof), bind_ok,
    primeBits_of_curLog (by exact hml), bind_ok]
  simp only [State.setBr, Fin.val_zero, br_get_set, Vector.set_set]
  rfl

/-- Settles O39: each transition is that of `innerStep`. -/
theorem sectionTransitions : Obligations.SectionTransitions := by
  intro s hq his hp
  refine ⟨fun hs => ?litEnd, fun hs _ => ?seqCount, fun hs => step_of_blkEnd hq his hp hs,
    fun ll of ml hs hll hof hml => ?prime⟩
  case litEnd =>
    rw [step_of_litEnd hq his hp hs, litEnd, BitVec.ofNat_toNat]
  case seqCount =>
    have hlast : s.seq.count - 1 = 0 ↔ s.seq.count = 1 := by bv_omega
    rw [step_of_seqCount hq his hp hs, seqCounted, seqLoop_eq]
    simp only [hlast]
  case prime =>
    rw [step_of_prime hq his hp hs, seqPrime_of_logs hll hof hml, finish_ok, seqLoop_eq]
    rfl

end Sys2Proof.Machine
end

section
/-! PROOFS. Hardware reset (R400) and fault entry (R361, R372). -/
namespace Sys2Proof.Machine

/-! ## Hardware reset (R400) -/

theorem reset_atReset : State.reset.atReset := by
  and_intros <;> rfl

/-- CMD.RESET leaves what power-on leaves, but for what R400 does not give. -/
theorem hwReset_atReset (s : State) : (hwReset s).atReset := by
  and_intros <;> rfl

/-- Settles O1: power-on and CMD.RESET leave the same values. -/
theorem resetLeavesGivenValues : Obligations.ResetLeavesGivenValues :=
  ⟨reset_atReset, fun start ign s hb => ⟨hwReset s, cmdReset_of_not_busy hb start ign, hwReset_atReset s⟩⟩

/-- Settles O16: the memories are empty, nothing is issued and no command runs. -/
theorem invariantsAtReset : Obligations.InvariantsAtReset :=
  ⟨⟨reset_inp_wf _, reset_out_wf _, reset_litbuf_wf _⟩, cursorsOk_of_not_busy (issueOk_of_nil rfl) rfl⟩

/-! ## Fault entry (R361, R372) -/

/-- The thirty decode faults (R361). -/
def decodeFaults : List ErrCode :=
  [.truncated, .badMagic, .blockType, .bitstreamEmpty, .noEndMark, .fseLog, .fseSymbol, .fseHeader, .fseSpread, .fseOutput,
    .hufWeight, .hufTotal, .hufLog, .hufRest, .hufRank1, .hufStreamEnd, .hufJump, .hufSegments, .noHufTable, .seqRleSymbol,
    .noPrevTable, .seqStream, .literalsOverrun, .offsetRange, .checksum, .outputFull, .blockTooLarge, .legacyMagic,
    .dictionary, .window]

/-- A fault is found again by its code. -/
theorem find_decodeFaults (e : ErrCode) : (decodeFaults.find? fun f => f.code = e.code) = some e := by
  cases e <;> rfl

theorem code_injective {e f : ErrCode} (h : e.code = f.code) : e = f :=
  Option.some.inj ((find_decodeFaults e).symm.trans (h ▸ find_decodeFaults f))

/-- Settles O24: fault entry scraps the output region alone, and a code tells the fault (`code_injective`). -/
theorem faultEntryRecords : Obligations.FaultEntryRecords := by
  refine ⟨fun e s => ⟨faultEntry e s, rfl, rfl, fun a ha => byte_scrap_outside ha, rfl, rfl, ?_⟩, rfl, rfl,
    fun _ _ => code_injective⟩
  exact (errWord_toNat _).trans (by rw [Nat.add_comm, Nat.mul_comm]; rfl)

end Sys2Proof.Machine
end

section
/-! PROOFS. The copies of SEQ.EXEC and SEQ.LASTLIT (R328 to R334): the checks, and the bytes that literals and matches place
in OUT. -/
namespace Sys2Proof.Machine

/-! ## The bytes copied (R330, R331) -/

theorem copyLoop_add (src : Memory → Nat → Byte) (dst k n : Nat) (i : Nat) (m : Memory) :
    copyLoop src dst (k + n) i m = copyLoop src dst n (i + k) (copyLoop src dst k i m) := by
  induction k generalizing i m with
  | zero => rw [Nat.zero_add]; rfl
  | succ k ih =>
    rw [Nat.succ_add, copyLoop, ih, Nat.add_assoc, Nat.add_comm 1 k]
    rfl

/-- A copy does not come back to the bytes it has passed. -/
theorem byte_copyLoop_passed {src : Memory → Nat → Byte} {dst k n x : Nat} (hk : k ≤ n) (hx : x < dst + k) (m : Memory) :
    (copyLoop src dst n 0 m).byte x = (copyLoop src dst k 0 m).byte x := by
  obtain ⟨r, rfl⟩ := Nat.exists_eq_add_of_le hk
  rw [copyLoop_add]
  exact byte_copyLoop_outside (by omega)

/-- Every byte of a match equals the byte `d` before it in the result, one that the copy itself has written too (R331). -/
theorem byte_matchCopy {m : Memory} {dst d n k : Nat} (hw : m.wf Config.space) (hdst : dst + n ≤ Config.space) (hk : k < n) :
    let r := copyLoop (fun out i => out.byte (dst + i - d)) dst n 0 m
    r.byte (dst + k) = r.byte (dst + k - d) := by
  intro r
  obtain hd | hd : dst + k - d = dst + k ∨ dst + k - d < dst + k := by omega
  · rw [hd]
  · have hat := byte_copyLoop_at (src := fun out i => out.byte (dst + i - d)) (i := 0) hw hdst hk
    rw [Nat.add_zero, Nat.zero_add] at hat
    rw [hat, byte_copyLoop_passed (le_of_lt hk) hd]

/-- The literals arrive at OP as they were before the copy, from either space (R330). -/
theorem byte_copyLiterals {s : State} {n : Nat} (hm : s.memOk) (hroom : s.op.toNat + n ≤ s.lOutLimit.toNat)
    (hl : s.literalsOk n) (a : Nat) :
    (s.copyLiterals n).outByte a =
      if s.op.toNat ≤ a ∧ a < s.op.toNat + n then s.literal (a - s.op.toNat) else s.outByte a := by
  obtain ⟨_, hout, _⟩ := hm
  obtain ⟨hsrc, _⟩ := hl
  have hspace : s.op.toNat + n ≤ Config.space := hroom.trans (le_of_lt s.lOutLimit.isLt)
  change (copyLoop (fun out i => s.literalOver out (s.lit.ptr.toNat + i)) s.op.toNat n 0 s.out).byte a = _
  cases hlit : s.lit.src with
  | true =>
    simp only [State.literalOver, State.literal, hlit, if_true]
    exact byte_copyIn hout hspace (hsrc hlit)
  | false =>
    simp only [State.literalOver, State.literal, hlit, Bool.false_eq_true, if_false]
    split
    case isTrue ha => exact byte_copyLoop_const (src := fun i => s.litByte (s.lit.ptr.toNat + i)) hout hspace ha.1 ha.2
    case isFalse ha => exact byte_copyLoop_outside (by omega)

theorem literalsReadable_of_literalsOk {s : State} {n : Nat} (h : s.literalsOk n) : s.literalsReadable n = true := by
  obtain ⟨_, hlit⟩ := h
  cases hsrc : s.lit.src with
  | true => simp [State.literalsReadable, hsrc]
  | false => simp [State.literalsReadable, hlit hsrc]

/-! ## SEQ.EXEC (R328, R330) -/

section
variable {s : State}

theorem seqExec_of_full (h : s.lOutLimit.toNat < s.op.toNat + s.seq.ll.toNat + s.seq.ml.toNat) :
    s.seqExec = .raise .outputFull s := if_pos h

theorem seqExec_of_overrun (hroom : s.op.toNat + s.seq.ll.toNat + s.seq.ml.toNat ≤ s.lOutLimit.toNat)
    (h : s.lit.limit.toNat < s.lit.ptr.toNat + s.seq.ll.toNat) : s.seqExec = .raise .literalsOverrun s :=
  (if_neg (not_lt.mpr hroom)).trans (if_pos h)

theorem seqExec_of_far (hroom : s.op.toNat + s.seq.ll.toNat + s.seq.ml.toNat ≤ s.lOutLimit.toNat)
    (hlit : s.lit.ptr.toNat + s.seq.ll.toNat ≤ s.lit.limit.toNat)
    (h : s.op.toNat + s.seq.ll.toNat < s.seq.off.toNat + s.frameOutStart.toNat) : s.seqExec = .raise .offsetRange s :=
  (if_neg (not_lt.mpr hroom)).trans ((if_neg (not_lt.mpr hlit)).trans (if_pos h))

theorem seqExec_of_fits (h : s.seqFits) (hread : s.literalsReadable s.seq.ll.toNat = true) :
    s.seqExec = .ok () ((s.copyLiterals s.seq.ll.toNat).copyMatch s.seq.off.toNat s.seq.ml.toNat) := by
  obtain ⟨hroom, hlit, hoff⟩ := h
  refine (if_neg (not_lt.mpr hroom)).trans ((if_neg (not_lt.mpr hlit)).trans ((if_neg (not_lt.mpr hoff)).trans ?_))
  rw [hread]
  rfl

end

/-- Settles O45: the match is copied behind the literals, by `byte_matchCopy` over `byte_copyLiterals`. -/
theorem sequenceExecuted : Obligations.SequenceExecuted := by
  intro s ll ml
  refine ⟨fun hm hfits hlit => ?copies, fun h => congrArg finish (seqExec_of_full h),
    fun hroom h => congrArg finish (seqExec_of_overrun hroom h),
    fun hroom hlit h => congrArg finish (seqExec_of_far hroom hlit h)⟩
  case copies =>
    obtain ⟨hroom, _⟩ := id hfits
    have hll : s.op.toNat + ll ≤ s.lOutLimit.toNat := by omega
    have hop : (s.copyLiterals ll).op.toNat = s.op.toNat + ll := toNat_add_of_le hll
    have hspace : (s.copyLiterals ll).op.toNat + ml ≤ Config.space := by
      rw [hop]
      exact hroom.trans (le_of_lt s.lOutLimit.isLt)
    obtain ⟨_, hout, _⟩ := memOk_copyLiterals hll hm
    have houtside (a : Nat) (ha : a < s.op.toNat + ll ∨ s.op.toNat + ll + ml ≤ a) :
        ((s.copyLiterals ll).copyMatch s.seq.off.toNat ml).out.byte a = (s.copyLiterals ll).outByte a :=
      byte_copyLoop_outside (by omega)
    refine ⟨((s.copyLiterals ll).copyMatch s.seq.off.toNat ml).out, ?_, fun k hk => ?_, fun k hk => ?_, fun a ha => ?_⟩
    · refine (congrArg finish (seqExec_of_fits hfits (literalsReadable_of_literalsOk hlit))).trans ?_
      rw [BitVec.ofNat_add, ← BitVec.add_assoc]
      rfl
    · rw [houtside _ (by omega), byte_copyLiterals hm hll hlit, if_pos (by omega), Nat.add_sub_cancel_left]
    · rw [← hop]
      exact byte_matchCopy hout hspace hk
    · rw [houtside a (by omega), byte_copyLiterals hm hll hlit, if_neg (by omega)]

/-! ## SEQ.LASTLIT (R334) -/

section
variable {s : State}

theorem seqLastlit_of_full (h : s.lOutLimit.toNat < s.op.toNat + s.restLiterals) : s.seqLastlit = .raise .outputFull s := by
  rw [State.seqLastlit, ← State.restLiterals, room_of_lt h]
  rfl

theorem seqLastlit_of_room (hroom : s.op.toNat + s.restLiterals ≤ s.lOutLimit.toNat)
    (hread : s.literalsReadable s.restLiterals = true) :
    s.seqLastlit = .ok () { s.copyLiterals s.restLiterals with
      lit := { (s.copyLiterals s.restLiterals).lit with ptr := s.lit.limit } } := by
  rw [State.seqLastlit, ← State.restLiterals, room_of_le hroom, hread]
  rfl

end

/-- Settles O46, by `byte_copyLiterals` on the literals left. -/
theorem lastLiteralsCopied : Obligations.LastLiteralsCopied := by
  intro s n
  refine ⟨fun hm hroom hlit => ?_, fun h => congrArg finish (seqLastlit_of_full h)⟩
  exact ⟨(s.copyLiterals n).out,
    congrArg finish (seqLastlit_of_room hroom (literalsReadable_of_literalsOk hlit)),
    byte_copyLiterals hm hroom hlit⟩

end Sys2Proof.Machine
end

section
/-! PROOFS. The sequences section (R310 to R324): the counts, the modes, the tables that its elements make current, and one
sequence decoded. -/
namespace Sys2Proof.Machine

/-! ## The sequence count (R108, R311) -/

section
variable {s : State} {n count : Nat}

theorem seqHeader_of_fits (hn : 1 ≤ n) (h : s.ip.toNat + n ≤ s.blk.limit.toNat) :
    seqHeader n count s =
      .next { s.advance n with seq := { s.seq with count := BitVec.ofNat 17 count }, sub := .seqm } := by
  rw [seqHeader, need_of_le (n := 1) (by omega), need_of_le h]
  rfl

/-- Whichever of the two tests fails, the fault is the same. -/
theorem seqHeader_of_truncated (h : s.blk.limit.toNat < s.ip.toNat + n) :
    seqHeader n count s = .next (faultEntry .truncated s) := by
  rw [seqHeader, need_of_lt h]
  exact ite_self _

theorem seqn0_of_fits (h : s.ip.toNat + 1 ≤ s.blk.limit.toNat) :
    exec .seqn0 s = .next { s with
      ip := s.ip + 1, seq := { s.seq with count := 0 }, issue := [.seqLastlit], sub := .blkEnd } := by
  rw [exec, execSeqn0, need_of_le h]
  rfl

theorem seqn0_of_truncated (h : s.blk.limit.toNat < s.ip.toNat + 1) :
    exec .seqn0 s = .next (faultEntry .truncated s) := by
  rw [exec, execSeqn0, need_of_lt h]
  rfl

end

theorem ofNat_seqCount2 (h : BitVec 7) (b : Byte) :
    BitVec.ofNat 17 (seqCount2 h b) = h.setWidth 17 * 256 + b.setWidth 17 := by
  simp [seqCount2, BitVec.ofNat_add, BitVec.ofNat_mul]

theorem ofNat_seqCount3 (b c : Byte) :
    BitVec.ofNat 17 (seqCount3 b c) = b.setWidth 17 + c.setWidth 17 * 256 + 0x7F00 := by
  simp [seqCount3, BitVec.ofNat_add, BitVec.ofNat_mul, BitVec.mul_comm]

/-- Settles O40: the longer forms are `seqHeader` with their length and count. -/
theorem sequenceCounts : Obligations.SequenceCounts := by
  intro s limit
  refine ⟨seqn0_of_fits, fun c h => ?one, fun hi b h => ?two, fun b c h => ?three, seqn0_of_truncated,
    fun _ => seqHeader_of_truncated, fun _ _ => seqHeader_of_truncated, fun _ _ => seqHeader_of_truncated⟩
  case one =>
    rw [← BitVec.ofNat_toNat]
    exact seqHeader_of_fits (by omega) h
  case two =>
    rw [← ofNat_seqCount2]
    exact seqHeader_of_fits (by omega) h
  case three =>
    rw [← ofNat_seqCount3]
    exact seqHeader_of_fits (by omega) h

/-! ## The modes (R109, R310, R312, R314) -/

theorem toNat_append_eq_add {v w : Nat} (x : BitVec v) (y : BitVec w) : (x ++ y).toNat = x.toNat * 2 ^ w + y.toNat := by
  rw [BitVec.toNat_append, ← Nat.shiftLeft_add_eq_or_of_lt y.isLt, Nat.shiftLeft_eq]

/-- The value of the modes byte (R109). -/
theorem toNat_modes (l o m g : BitVec 2) :
    ((l ++ o ++ m ++ g).cast (by decide) : Byte).toNat = Instr.word (.seqm l o m g) := by
  rw [BitVec.toNat_cast, toNat_append_eq_add, toNat_append_eq_add, toNat_append_eq_add, Instr.word]
  ring

theorem ofNat_modes (l o m g : BitVec 2) :
    BitVec.ofNat 8 (Instr.word (.seqm l o m g)) = (l ++ o ++ m ++ g).cast (by decide) := by
  rw [← toNat_modes, BitVec.ofNat_toNat, BitVec.setWidth_eq]

/-- The three fields of the modes byte come back out of it. -/
theorem modeField_modes {modes : Byte} {l o m g : BitVec 2} (h : modes = (l ++ o ++ m ++ g).cast (by decide)) :
    modeField modes .ll = l.toNat ∧ modeField modes .of = o.toNat ∧ modeField modes .ml = m.toNat := by
  have hval := toNat_modes l o m g
  rw [← h, Instr.word] at hval
  simp only [modeField]
  omega

section
variable {s : State}

theorem seqm_of_fits (l o m g : BitVec 2) (h : s.ip.toNat + 1 ≤ s.blk.limit.toNat) :
    exec (.seqm l o m g) s = .next { s with
      ip := s.ip + 1, seq := { s.seq with modes := (l ++ o ++ m ++ g).cast (by decide) }, sub := .mode .ll } := by
  rw [exec, execSeqm, need_of_le h, ofNat_modes]
  rfl

theorem seqm_of_truncated (l o m g : BitVec 2) (h : s.blk.limit.toNat < s.ip.toNat + 1) :
    exec (.seqm l o m g) s = .next (faultEntry .truncated s) := by
  rw [exec, execSeqm, need_of_lt h]
  rfl

end

/-- Settles O41: the modes byte is `ofNat_modes`, and its fields are read back by `modeField_modes`. -/
theorem sequenceModes : Obligations.SequenceModes :=
  ⟨fun l o m g _ => ⟨seqm_of_fits l o m g, seqm_of_truncated l o m g, fun _ => modeField_modes⟩,
    fun _ _ => ⟨rfl, rfl, rfl, fun h => if_neg h, fun h => if_pos h⟩, fun _ => ⟨rfl, rfl, rfl⟩⟩

/-! ## The symbol and the description of an alphabet (R162, R172, R314) -/

section
variable {x : Alphabet} {v : Byte} {s : State}

theorem rlesym_of_truncated (h : s.blk.limit.toNat < s.ip.toNat + 1) :
    exec (.rlesym x v) s = .next (faultEntry .truncated s) := by
  rw [exec, execRlesym, need_of_lt h]
  rfl

theorem rlesym_of_large (h : s.ip.toNat + 1 ≤ s.blk.limit.toNat) (hv : Config.maxSymbol x < v.toNat) :
    exec (.rlesym x v) s = .next (faultEntry .seqRleSymbol s) := by
  rw [exec, execRlesym, need_of_le h]
  exact if_pos hv

theorem rlesym_of_symbol (h : s.ip.toNat + 1 ≤ s.blk.limit.toNat) (hv : v.toNat ≤ Config.maxSymbol x) :
    exec (.rlesym x v) s = .next (nextTable x { (s.fseRle x.table v).setSel x .ram with ip := s.ip + 1 }) := by
  rw [exec, execRlesym, need_of_le h]
  refine (if_neg (not_lt.mpr hv)).trans ?_
  rw [State.advance, setSel_ip, fseRle_ip]
  rfl

end

/-- FSEDESC is FSE.READTABLE at IP with the alphabet's limits, then the selector and the cursor (R314). -/
theorem fsedesc_eq {x : Alphabet} {lo : BitVec 4} (hi : BitVec 4) {s : State}
    (hlo : lo = (s.inByte s.ip.toNat).extractLsb' 0 4) :
    exec (.fsedesc x lo hi) s =
      finish ((s.fseReadTable x.table s.ip.toNat s.blk.limit.toNat (Config.maxSymbol x) (Config.maxLog x)).bind
        fun used t => .ok () (nextTable x ((t.setSel x .ram).advance used))) := by
  have hread (u : TableUnit (tableCap x.table)) :
      (if s.blk.limit.toNat < s.ip.toNat + 4 then .raise .truncated u
        else fseReadBody s.inByte s.ip.toNat s.blk.limit.toNat (Config.maxSymbol x) (Config.maxLog x) (lo.toNat + 5) u) =
      fseReadTable s.inByte s.ip.toNat s.blk.limit.toNat (Config.maxSymbol x) (Config.maxLog x) u := by
    unfold fseReadTable
    split
    · rfl
    · rw [hlo, toNat_extractLsb_low, fwdBits_log (by omega)]
  rw [exec, execFsedesc, State.fseReadTable, runTable_eq, runTable_eq, ← hread]

/-- The operands by which FSE.READTABLE gets an alphabet's limits (R166). -/
theorem limitOperands (x : Alphabet) :
    (BitVec.ofNat 8 ([35, 31, 52].getD x.code 0)).toNat = Config.maxSymbol x ∧
    (BitVec.ofNat 3 ([4, 3, 4].getD x.code 0)).toNat + 5 = Config.maxLog x := by
  cases x <;> decide

/-- A description element where FSE.READTABLE completes or faults (R314). -/
theorem fsedesc_of_fseReadTable {x : Alphabet} {lo hi : BitVec 4} {s t : State}
    (hlo : lo = (s.inByte s.ip.toNat).extractLsb' 0 4) (hp : s.phase = .block)
    (ht : exec (.fseReadTable x.table s.ip s.blk.limit (BitVec.ofNat 8 ([35, 31, 52].getD x.code 0))
      (BitVec.ofNat 3 ([4, 3, 4].getD x.code 0))) s = .next t) :
    (t.phase = .block →
      exec (.fsedesc x lo hi) s = .next (nextTable x
        { t.setSel x .ram with result := s.result, ip := s.ip + t.result.setWidth 32 })) ∧
    (t.phase = .fault → exec (.fsedesc x lo hi) s = .next t) := by
  obtain ⟨hms, hml⟩ := limitOperands x
  rw [exec, execFseReadTable, hms, hml] at ht
  rw [fsedesc_eq hi hlo]
  obtain ⟨used, u, hr, rfl⟩ | ⟨e, u, hr, rfl⟩ := finishWith_eq_next.mp ht
  · have hw := ((stateFseReadTable_writes s _ _ _ _ _).of_ok hr).eq
    refine ⟨fun _ => ?_, fun hf => ?_⟩
    · rw [hr, bind_ok, finish_ok, setWidth_ofNat_result, hw]
      cases x <;> rfl
    · have hphase : u.phase = .fault := hf
      rw [hw] at hphase
      cases hp.symm.trans hphase
  · exact ⟨fun hb => (nomatch hb), fun _ => by rw [hr, bind_raise, finish_raise]⟩

/-- Settles O42: RLESYM by its two tests, FSEDESC by `fsedesc_of_fseReadTable`. -/
theorem tableElements : Obligations.TableElements := by
  refine ⟨fun x v s => ?_, fun x lo hi s t hlo hp ht => fsedesc_of_fseReadTable hlo hp ht⟩
  obtain ⟨hmax, _⟩ := limits_eq x
  rw [hmax]
  exact ⟨fun h hv => ⟨_, rfl, rlesym_of_symbol h hv⟩, rlesym_of_large, rlesym_of_truncated⟩

/-! ## One sequence decoded (R320, R321, R324) -/

theorem get_setBr (s : State) (k : Fin 4) (b : BitReader) : (s.setBr k b).br.get k = b := br_get_set_same s.br k b

theorem setBr_setBr (s : State) (k : Fin 4) (a b : BitReader) : (s.setBr k a).setBr k b = s.setBr k b := by
  simp only [State.setBr, Vector.set_set]

theorem curEntry_none_of_sel {s : State} {x : Alphabet} (h : s.sel x = .none) (i : Nat) : s.curEntry x i = none := by
  rw [State.curEntry, h]

theorem seqEntries_of_codes {s : State} {el eo em : FseEntry} (h : s.seqCodes el eo em) :
    seqEntries s = .ok (el, eo, em) := by
  obtain ⟨hl, ho, hm, hcodes⟩ := h
  have hsel {x : Alphabet} {i : Nat} {e : FseEntry} (he : s.curEntry x i = some e) : s.sel x ≠ .none := fun hn => by
    simp [curEntry_none_of_sel hn] at he
  refine (if_neg (not_or.mpr ⟨hsel hl, not_or.mpr ⟨hsel ho, hsel hm⟩⟩)).trans ?_
  rw [hl, ho, hm]
  exact if_pos hcodes

theorem seqDecode_of_overflow {s : State} (h : 64 < (s.br.get 0).consumed.toNat) :
    s.seqDecode = .raise .seqStream s := by
  rw [State.seqDecode, brRefill_overflow_same _ _ h, setBr_get_self]
  rfl

theorem seqDecode_of_codes {s : State} {el eo em : FseEntry} (hc : s.seqCodes el eo em)
    (h : (s.br.get 0).consumed.toNat ≤ 64) :
    s.seqDecode = .ok () (seqDecodeFrom el eo em (s.setBr 0 (brRefill s.inByte (s.br.get 0)).2)) := by
  have hcodes : (s.setBr 0 (brRefill s.inByte (s.br.get 0)).2).seqCodes el eo em := hc
  refine (if_neg fun hover => ?_).trans (by rw [seqEntries_of_codes hcodes])
  exact absurd ((brRefill_overflow _ _).mp hover) (not_lt.mpr h)

/-- Settles O43: a count above 64 is exactly what the opening refill turns away; else `seqDecodeFrom` runs on the refilled
reader. -/
theorem sequenceDecoded : Obligations.SequenceDecoded := by
  refine ⟨by decide, fun s el eo em => ⟨fun hc h => ?_, fun h => congrArg finish (seqDecode_of_overflow h)⟩⟩
  intro lc mc oc b0 r1 r2 r3 b4 u1 u2 u3 d
  refine (congrArg finish (seqDecode_of_codes hc h)).trans ?_
  simp only [finish_ok, seqDecodeFrom, get_setBr, setBr_setBr]
  rfl

/-! ## The distance (R322, R323) -/

section
variable {oc raw : Nat} {ll0 : Bool} {r : RepRegs}

theorem resolveOffset_of_code (h : 2 ≤ oc) :
    resolveOffset oc raw ll0 r = (BitVec.ofNat 32 raw, ⟨BitVec.ofNat 32 raw, r.r0, r.r1⟩) := if_pos h

variable (h : oc < 2)
include h

theorem resolveOffset_of_zero (hv : raw + (if ll0 then 1 else 0) = 0) : resolveOffset oc raw ll0 r = (r.r0, r) := by
  rw [resolveOffset, if_neg (by omega), hv]
  rfl

theorem resolveOffset_of_one (hv : raw + (if ll0 then 1 else 0) = 1) :
    resolveOffset oc raw ll0 r =
      (if r.r1 = 0 then 1 else r.r1, ⟨if r.r1 = 0 then 1 else r.r1, r.r0, r.r2⟩) := by
  rw [resolveOffset, if_neg (by omega), hv]
  rfl

theorem resolveOffset_of_two (hv : raw + (if ll0 then 1 else 0) = 2) :
    resolveOffset oc raw ll0 r =
      (if r.r2 = 0 then 1 else r.r2, ⟨if r.r2 = 0 then 1 else r.r2, r.r0, r.r1⟩) := by
  rw [resolveOffset, if_neg (by omega), hv]
  rfl

theorem resolveOffset_of_ge_three (hv : 3 ≤ raw + (if ll0 then 1 else 0)) :
    resolveOffset oc raw ll0 r =
      (if belowFirst r = 0 then 1 else belowFirst r,
        ⟨if belowFirst r = 0 then 1 else belowFirst r, r.r0, r.r1⟩) := by
  obtain ⟨k, hk⟩ := Nat.exists_eq_add_of_le' hv
  rw [resolveOffset, if_neg (by omega), hk]
  rfl

end

theorem seqResolve_eq {oc : BitVec 5} {raw : BitVec 32} {ll0 : Bool} {s : State} {d : BitVec 32} {r : RepRegs}
    (h : resolveOffset oc.toNat raw.toNat ll0 s.rep = (d, r)) :
    exec (.seqResolve oc raw ll0) s = .next { s with rep := r, result := d.setWidth 64 } := by
  rw [exec, execSeqResolve, h]

/-- Settles O44, by the branches of `resolveOffset`. -/
theorem offsetResolved : Obligations.OffsetResolved := by
  intro oc raw ll0 s h0 h1 h2 o nz v
  refine ⟨fun h => ?pushed, fun h => ⟨fun hv => seqResolve_eq (resolveOffset_of_zero h hv),
    fun hv => seqResolve_eq (resolveOffset_of_one h hv), fun hv => seqResolve_eq (resolveOffset_of_two h hv),
    fun hv hpos => ?below, fun hv _ => ?free⟩⟩
  case pushed =>
    have hraw := resolveOffset_of_code (raw := raw.toNat) (ll0 := ll0) (r := s.rep) h
    rw [BitVec.ofNat_toNat, BitVec.setWidth_eq] at hraw
    exact seqResolve_eq hraw
  case below =>
    have hbelow := resolveOffset_of_ge_three (r := s.rep) h (le_of_eq hv.symm)
    rw [belowFirst_of_pos hpos] at hbelow
    exact seqResolve_eq hbelow
  case free => exact ⟨_, ne_zero_of_replaced _, seqResolve_eq (resolveOffset_of_ge_three h (le_of_eq hv.symm))⟩

end Sys2Proof.Machine
end

section
/-! PROOFS. The history (R32, R322, R323): who may write REP, and that its values stay at least 1 from the frame start on. -/
namespace Sys2Proof

/-- Every value of the history is at least 1 (R323). -/
def RepRegs.Positive (r : RepRegs) : Prop := 1 ≤ r.r0.toNat ∧ 1 ≤ r.r1.toNat ∧ 1 ≤ r.r2.toNat

end Sys2Proof

namespace Sys2Proof.Machine

/-! ## What leaves REP alone -/

/-- REP is left as it was. -/
def SameHistory (s t : State) : Prop := t.rep = s.rep

/-- REP is left as it was, or a fault is taken. -/
def HistoryStays (s t : State) : Prop := SameHistory s t ∨ ∃ e u, t = faultEntry e u

theorem historyStays_raised (s : State) (e : ErrCode) (u : State) : Leads (HistoryStays s) (raised e u) :=
  .next (.inr ⟨e, u, rfl⟩)

/-- An update that leaves REP alone; `by rfl` once both states are known. -/
theorem historyStays_next {s t : State} (h : t.rep = s.rep) : Leads (HistoryStays s) (.next t) := .next (.inl h)

/-- What runs from a state with the REP of `s`. -/
theorem Leads.historyAfter {s u : State} {o : Host.Outcome State Fault Refusal} (h : Leads (HistoryStays u) o)
    (hu : SameHistory s u) : Leads (HistoryStays s) o :=
  h.mono fun _ ht => ht.imp_left fun hrep => hrep.trans hu

section
variable {α β : Type} {Q : State → Prop} {r : Run State α} {s : State}

theorem Run.Ends.historyStays (h : r.Ends (SameHistory s) Q) : Leads (HistoryStays s) (finish r) := by
  cases h with
  | ok h => exact .next (.inl h)
  | raise => exact historyStays_raised s _ _
  | stop => exact .fault

/-- Two pieces of pseudocode that leave REP alone. -/
theorem Run.Ends.thenHistory {f : α → State → Run State β} (h : r.Ends (SameHistory s) Q)
    (hf : ∀ a t, (f a t).Completes (SameHistory t)) : (r.bind f).Completes (SameHistory s) := by
  cases h with
  | ok h => exact (hf _ _).mono (fun _ hu => hu.trans h) fun _ hu => hu
  | raise => exact .raise trivial
  | stop => exact .stop

end

/-! ## Frame elements (R255, R266) -/

theorem headerEnd_history (s : State) : Leads (HistoryStays s) (headerEnd s) := by
  unfold headerEnd
  split
  · exact historyStays_raised _ _ _
  · exact historyStays_next rfl

theorem headerContent_history (s : State) : Leads (HistoryStays s) (headerContent s) := by
  unfold headerContent
  split
  · exact (headerEnd_history _).historyAfter (by rfl)
  · exact historyStays_next rfl

theorem headerDict_history (s : State) : Leads (HistoryStays s) (headerDict s) := by
  unfold headerDict
  split
  · exact (headerContent_history _).historyAfter (by rfl)
  · exact historyStays_next rfl

theorem fhd_history (csel : BitVec 2) (ss : Bool) (ign : BitVec 2) (ck : Bool) (dsel : BitVec 2) (s : State) :
    Leads (HistoryStays s) (execFhd csel ss ign ck dsel s) := by
  unfold execFhd
  dsimp only
  split
  · exact historyStays_raised _ _ _
  · split
    · exact historyStays_raised _ _ _
    · split
      · exact (headerDict_history _).historyAfter (by rfl)
      · exact historyStays_next rfl

theorem checksum_history (v : BitVec 32) (s : State) : Leads (HistoryStays s) (execChecksum v s) := by
  unfold execChecksum
  dsimp only
  split
  · exact historyStays_raised _ _ _
  · split
    · exact historyStays_next (engNext_rep _)
    · split
      · exact historyStays_raised _ _ _
      · exact historyStays_next (engNext_rep _)

/-! ## Blocks (R257 to R260) -/

theorem blockHeader_history (typ : BitVec 2) (last : Bool) (size : BitVec 21) (s : State) :
    (blockHeader typ last size s).Completes (SameHistory s) :=
  Run.completes_of_ok fun _ t h => by
    obtain ⟨rfl, _⟩ := blockHeader_ok h
    rfl

theorem rawBlock_history (s : State) : (rawBlock s).Completes (SameHistory s) := by
  unfold rawBlock
  dsimp only
  split
  · exact .raise trivial
  · split
    · exact .raise trivial
    · exact .ok (blockEnd_rep _)

theorem rleBlock_history (s : State) : (rleBlock s).Completes (SameHistory s) := by
  unfold rleBlock
  dsimp only
  split
  · exact .raise trivial
  · split
    · exact .raise trivial
    · exact .ok (blockEnd_rep _)

theorem cmpBlock_history (s : State) : (cmpBlock s).Completes (SameHistory s) := by
  unfold cmpBlock
  dsimp only
  split
  · exact .raise trivial
  · exact .ok rfl

/-! ## Literals (R291 to R296) -/

theorem litHeader_history (typ fmt : BitVec 2) (hs : Nat) (regen : BitVec 20) (comp : BitVec 18) (single : Bool) (s : State) :
    (litHeader typ fmt hs regen comp single s).Completes (SameHistory s) :=
  Run.completes_of_ok fun _ t h => by
    obtain ⟨rfl, _⟩ := litHeader_ok h
    rfl

theorem litRaw_history (s : State) : (litRaw s).Completes (SameHistory s) := by
  unfold litRaw
  dsimp only
  split
  · exact .raise trivial
  · split
    · exact .ok rfl
    · exact .ok rfl

theorem litRle_history (s : State) : (litRle s).Completes (SameHistory s) := by
  unfold litRle
  dsimp only
  split
  · exact .raise trivial
  · exact .ok rfl

theorem litHuf_rep (tree : Bool) (s : State) : (litHuf tree s).rep = s.rep := by
  cases tree with
  | true => rfl
  | false => exact litStreams_rep _

/-- A literals section: its header, then a body that leaves REP alone. -/
theorem litSection_history {typ fmt : BitVec 2} {hs : Nat} {regen : BitVec 20} {comp : BitVec 18} {single : Bool}
    {s : State} {body : State → Run State Unit} (hbody : ∀ t, (body t).Completes (SameHistory t)) :
    Leads (HistoryStays s) (finish ((litHeader typ fmt hs regen comp single s).bind fun _ t => body t)) :=
  ((litHeader_history typ fmt hs regen comp single s).thenHistory fun _ t => hbody t).historyStays

theorem htreeElement_history (h : Nat) (s : State) : Leads (HistoryStays s) (htreeElement h s) := by
  unfold htreeElement
  dsimp only
  split
  · exact historyStays_raised _ _ _
  · have hform := hufForm_writes h (hufUnload s).ip.toNat (hufUnload s).lit.comp.toNat (hufUnload s)
    have hsame (t : State) (ht : TreeWrites true (hufUnload s) t) : SameHistory s t := by
      rw [SameHistory, ht.eq]
      rfl
    exact ((hform.mono hsame fun _ h => h).thenHistory fun used t =>
      .ok (litStreams_rep (t.advance used))).historyStays

theorem jump_history (len1 len2 len3 : BitVec 16) (s : State) : Leads (HistoryStays s) (execJump len1 len2 len3 s) := by
  unfold execJump
  split
  · exact historyStays_raised _ _ _
  · have hsame (t : State) (ht : DecodeWrites s t) : SameHistory s t := by
      obtain ⟨_, _, rfl⟩ := ht
      rfl
    exact (((stateHufDec4Streams_writes s _ _ _ _ _ _).mono hsame fun _ h => h).thenHistory
      fun _ u => .ok (litEnd_rep u)).historyStays

/-! ## Sequences (R310 to R317) -/

theorem seqHeader_history (n count : Nat) (s : State) : Leads (HistoryStays s) (seqHeader n count s) := by
  unfold seqHeader
  split
  · exact historyStays_raised _ _ _
  · split
    · exact historyStays_raised _ _ _
    · exact historyStays_next rfl

theorem seqn0_history (s : State) : Leads (HistoryStays s) (execSeqn0 s) := by
  unfold execSeqn0
  split
  · exact historyStays_raised _ _ _
  · exact historyStays_next rfl

theorem seqm_history (llmode ofmode mlmode ign : BitVec 2) (s : State) :
    Leads (HistoryStays s) (execSeqm llmode ofmode mlmode ign s) := by
  unfold execSeqm
  split
  · exact historyStays_raised _ _ _
  · exact historyStays_next rfl

theorem modeRepeat_history (x : Alphabet) (s : State) : Leads (HistoryStays s) (execModeRepeat x s) := by
  unfold execModeRepeat
  split
  · exact historyStays_raised _ _ _
  · exact historyStays_next (nextTable_rep x s)

theorem rlesym_history (x : Alphabet) (v : BitVec 8) (s : State) : Leads (HistoryStays s) (execRlesym x v s) := by
  unfold execRlesym
  split
  · exact historyStays_raised _ _ _
  · split
    · exact historyStays_raised _ _ _
    · exact historyStays_next (by simp)

theorem fsedesc_history (x : Alphabet) (logMinus5 high : BitVec 4) (s : State) :
    Leads (HistoryStays s) (execFsedesc x logMinus5 high s) := by
  have hsame (t : State) (ht : TableWrites s t) : SameHistory s t := by
    rw [SameHistory, ht.eq]
  exact (Run.Ends.thenHistory (Q := fun _ => True)
    (Run.Ends.onRaise (((runTable_writes s x.table _).mono hsame).ends fun _ h => h) fun _ _ => trivial)
    fun _ u => .ok (by simp [SameHistory])).historyStays

theorem seqPrime_history (s : State) : (seqPrime s).Completes (SameHistory s) := by
  have hprime {s u : State} (hu : SameHistory s u) (x : Alphabet) : (primeBits u x).Completes (SameHistory s) :=
    (primeBits_ends u x).mono (fun _ ⟨_, h⟩ => h ▸ hu) fun _ h => h
  refine (hprime (by rfl) .ll).thenHistory fun _ s1 => ?_
  refine (hprime (by rfl) .of).thenHistory fun _ s2 => ?_
  refine (hprime (by rfl) .ml).thenHistory fun _ s3 => ?_
  exact .ok (seqLoop_rep _)

/-- A transition that reads no element leaves REP alone. -/
theorem innerStep_history (s : State) : Leads (HistoryStays s) (innerStep s) := by
  unfold innerStep
  split
  · split
    · exact historyStays_next (litEnd_rep s)
    · exact (seqPrime_history s).historyStays
    · exact historyStays_next (seqLoop_rep _)
    · exact historyStays_next (blockEnd_rep _)
    all_goals exact historyStays_next rfl
  all_goals exact historyStays_next rfl

/-! ## Every element -/

/-- Past the magic, no element writes REP. -/
theorem exec_history {i : Instr} (hu : ctxOf i ≠ .uop) (hh : ctxOf i ≠ .host) (hm : ctxOf i ≠ .magic) (s : State) :
    Leads (HistoryStays s) (exec i s) := by
  cases i with
  | magic | magicLegacy => exact absurd rfl hm
  | fhd csel ss ign ck dsel => exact fhd_history csel ss ign ck dsel s
  | wd e m => exact (headerDict_history _).historyAfter (by rfl)
  | did n v => exact historyStays_raised _ _ _
  | fcs n v => exact (headerEnd_history _).historyAfter (by rfl)
  | blkRaw last size => exact ((blockHeader_history 0 last size s).thenHistory fun _ t => rawBlock_history t).historyStays
  | blkRle last size => exact ((blockHeader_history 1 last size s).thenHistory fun _ t => rleBlock_history t).historyStays
  | blkCmp last size => exact ((blockHeader_history 2 last size s).thenHistory fun _ t => cmpBlock_history t).historyStays
  | blkRsv last size => exact (blockHeader_history 3 last size s).historyStays
  | litRaw1 | litRaw2 | litRaw3 => exact litSection_history litRaw_history
  | litRle1 | litRle2 | litRle3 => exact litSection_history litRle_history
  | litHufS3 | litHuf3 | litHuf4 | litHuf5 =>
    exact litSection_history (body := fun t => .ok () (litHuf true t)) fun t => .ok (litHuf_rep true t)
  | litRepS3 | litRep3 | litRep4 | litRep5 =>
    exact litSection_history (body := fun t => .ok () (litHuf false t)) fun t => .ok (litHuf_rep false t)
  | htreeDirect | htreeFse => exact htreeElement_history _ s
  | jump len1 len2 len3 => exact jump_history len1 len2 len3 s
  | seqn0 => exact seqn0_history s
  | seqn1 | seqn2 | seqn3 => exact seqHeader_history _ _ s
  | seqm llmode ofmode mlmode ign => exact seqm_history llmode ofmode mlmode ign s
  | modePredef x => exact historyStays_next ((nextTable_rep x _).trans (setSel_rep s x _))
  | modeRle | modeFse => exact historyStays_next rfl
  | modeRepeat x => exact modeRepeat_history x s
  | rlesym x symbol => exact rlesym_history x symbol s
  | fsedesc x logMinus5 high => exact fsedesc_history x logMinus5 high s
  | checksum v => exact checksum_history v s
  | cmdStart | cmdReset => exact absurd rfl hh
  | _ => exact absurd rfl hu

/-! ## Distances are at least 1 (R322, R323) -/

theorem one_le_replaced (d : BitVec 32) : 1 ≤ (if d = 0 then 1 else d : BitVec 32).toNat := by
  have h := ne_zero_of_replaced d
  bv_omega

/-- SEQ.RESOLVE keeps the history positive when the raw value of a code that pushes it is not 0. -/
theorem resolveOffset_positive {oc raw : Nat} {r : RepRegs} (ll0 : Bool) (h : r.Positive)
    (hraw : 2 ≤ oc → 1 ≤ raw ∧ raw < 2 ^ 32) : (resolveOffset oc raw ll0 r).2.Positive := by
  obtain ⟨h0, h1, h2⟩ := id h
  unfold resolveOffset
  split
  case isTrue hoc =>
    obtain ⟨hpos, hlt⟩ := hraw hoc
    refine ⟨?_, h0, h1⟩
    rwa [BitVec.toNat_ofNat, Nat.mod_eq_of_lt hlt]
  case isFalse =>
    split
    · exact h
    · exact ⟨one_le_replaced _, h0, h2⟩
    · exact ⟨one_le_replaced _, h0, h1⟩
    · exact ⟨one_le_replaced _, h0, h1⟩

theorem ofBase_bounds {c : Nat} (h : 2 ≤ c) : 1 ≤ ofBase c ∧ ofBase c + 3 = 2 ^ c := by
  have hpow : 2 ^ 2 ≤ 2 ^ c := Nat.pow_le_pow_right (by omega) h
  rw [ofBase, if_neg (by omega), if_neg (by omega)]
  omega

/-- The raw value of an offset code and its extra bits (R116, R320). -/
theorem rawOffset_bounds {oc x : Nat} (h : 2 ≤ oc) (h31 : oc ≤ 31) (hx : x < 2 ^ oc) :
    1 ≤ ofBase oc + x ∧ ofBase oc + x < 2 ^ 32 := by
  obtain ⟨hone, hbase⟩ := ofBase_bounds h
  have hpow : 2 ^ oc ≤ 2 ^ 31 := Nat.pow_le_pow_right (by omega) h31
  omega

theorem seqEntries_offset_le {s : State} {el eo em : FseEntry} (h : seqEntries s = .ok (el, eo, em)) :
    eo.sym.toNat ≤ 31 := by
  unfold seqEntries at h
  split at h
  · cases h
  · split at h
    · split at h
      case isTrue hcodes =>
        cases h
        exact hcodes.2.1
      case isFalse => cases h
    · cases h

theorem stateSeqDecode_positive {s : State} (h : s.rep.Positive) :
    s.seqDecode.Completes fun t => t.rep.Positive := by
  unfold State.seqDecode
  dsimp only
  split
  · exact .raise trivial
  · split
    case h_1 => exact .stop
    case h_2 he =>
      have h31 := seqEntries_offset_le he
      exact .ok (resolveOffset_positive _ h fun hoc => rawOffset_bounds hoc h31 (brPeek_lt _ _ (by omega)))

/-! ## From the frame start on (R323) -/

/-- From the frame start on, the history is positive (R323). -/
def State.HistoryOk (s : State) : Prop := s.busy = true → s.phase ≠ .magic → s.rep.Positive

theorem historyOk_of_not_busy {s : State} (h : s.busy = false) : s.HistoryOk := fun hb => by simp [h] at hb

theorem historyOk_of_positive {s : State} (h : s.rep.Positive) : s.HistoryOk := fun _ _ => h

theorem HistoryStays.historyOk {s t : State} (h : HistoryStays s t) (hs : s.rep.Positive) : t.HistoryOk := by
  obtain hrep | ⟨e, u, rfl⟩ := h
  · exact historyOk_of_positive (hrep.symm ▸ hs)
  · exact historyOk_of_not_busy rfl

/-- Where PHASE stays, the history may be taken to be positive before. -/
theorem Stays.historyOk {s t : State} (h : Stays s t) (hs : s.HistoryOk) (ht : s.rep.Positive → t.HistoryOk) :
    t.HistoryOk := by
  obtain hp | ⟨e, u, rfl⟩ := h
  · intro hb hm
    unfold SamePhase at hp
    exact ht (hs (by rwa [State.busy, ← hp]) (hp ▸ hm)) hb hm
  · exact historyOk_of_not_busy rfl

/-! ## Every instruction that the engine runs -/

theorem exec_unit_historyOk {i : Instr} {s t : State} (hu : i.isUnitOp = true) (hw : WellFormed i) (h : s.HistoryOk)
    (hn : exec i s = .next t) : t.HistoryOk := by
  have houtcome := exec_unit hu hn
  refine houtcome.stays.historyOk h fun hpos => ?_
  obtain hwrites | ⟨e, u, _, rfl⟩ := houtcome
  · cases hwrites with
    | seqDecode =>
      obtain hdec | ⟨e, u, _, ht⟩ := (stateSeqDecode_positive hpos).finish_next hn
      · exact historyOk_of_positive hdec
      · exact ht ▸ historyOk_of_not_busy rfl
    | @seqResolve oc raw ll0 =>
      cases hn
      obtain ⟨hlo, _⟩ : ofBase oc.toNat ≤ raw.toNat ∧ _ := of_decide_eq_true hw
      exact historyOk_of_positive
        (resolveOffset_positive ll0 hpos fun hoc => ⟨(ofBase_bounds hoc).1.trans hlo, raw.isLt⟩)
    | _ => exact historyOk_of_positive hpos
  · exact historyOk_of_not_busy rfl

theorem frameStart_positive (s : State) : (frameStart s).rep.Positive :=
  show RepRegs.Positive ⟨1, 4, 8⟩ from ⟨by decide, by decide, by decide⟩

/-- The magic starts the history anew (R253). -/
theorem exec_magic_historyOk {i : Instr} (h : ctxOf i = .magic) (s : State) : Leads State.HistoryOk (exec i s) := by
  have hfault (e : ErrCode) (u : State) : Leads State.HistoryOk (raised e u) := .next (historyOk_of_not_busy rfl)
  cases i with
  | magic =>
    rw [exec, execMagic]
    split
    · exact .next (historyOk_of_positive (frameStart_positive s))
    · exact hfault _ _
  | magicLegacy =>
    rw [exec, execMagicLegacy]
    split
    · exact hfault _ _
    · exact hfault _ _
  | _ => cases h

/-- Past the magic the engine reads an element in a busy phase past the magic. -/
theorem placed_past_magic {s : State} {c : Ctx} (h : s.placed c) (hm : c ≠ .magic) :
    s.busy = true ∧ s.phase ≠ .magic := by
  have hphase : s.phase = .frameHeader ∨ s.phase = .blockHeader ∨ s.phase = .block ∨ s.phase = .checksum := by
    cases c with
    | magic => exact absurd rfl hm
    | fhd => exact .inl h
    | wd | did | fcs => exact .inl h.1
    | blk => exact .inr (.inl h)
    | checksum => exact .inr (.inr (.inr h))
    | htree | jump => exact .inr (.inr (.inl h.1))
    | lith | seqn | seqm | mode | rlesym | fsedesc => exact .inr (.inr (.inl h))
    | uop | host => exact h.elim
  obtain hp | hp | hp | hp := hphase <;> simp [State.busy, Phase.busy, hp]

theorem innerStep_of_not_block {s : State} (h : s.phase ≠ .block) : innerStep s = .next s := by
  unfold innerStep
  split
  · contradiction
  all_goals rfl

theorem innerStep_historyOk {s : State} (h : s.HistoryOk) : Leads State.HistoryOk (innerStep s) := by
  by_cases hp : s.phase = .block
  · have hpos := h (by rw [State.busy, hp]; rfl) (by simp [hp])
    exact (innerStep_history s).mono fun _ ht => ht.historyOk hpos
  · rw [innerStep_of_not_block hp]
    exact .next h

/-! ## Every step -/

theorem engineStep_historyOk {s t : State} (hi : s.issueOk) (hw : ∀ i ∈ s.issue, WellFormed i) (h : s.HistoryOk)
    (hn : engineStep s = .next t) : t.HistoryOk := by
  obtain ⟨i, r, his, he⟩ | ⟨_, c, i, _, hc, hd, he⟩ | ⟨_, c, r, _, _, he⟩ | ⟨_, _, he⟩ := engineStep_cases s
  · have hmem : i ∈ s.issue := his ▸ List.mem_cons_self
    exact exec_unit_historyOk (s := { s with issue := r }) (hi i hmem) (hw i hmem) h (he.symm.trans hn)
  · obtain ⟨hu, hh⟩ := nextCtx_element hc
    obtain rfl := decode_ctx hd hu hh
    by_cases hm : ctxOf i = .magic
    · have hleads := exec_magic_historyOk hm s
      rw [← he, hn] at hleads
      exact hleads.of_next
    · obtain ⟨hb, hp⟩ := placed_past_magic (placed_of_nextCtx hc) hm
      have hleads := exec_history hu hh hm s
      rw [← he, hn] at hleads
      exact hleads.of_next.historyOk (h hb hp)
  · cases he.symm.trans hn
    exact historyOk_of_not_busy rfl
  · have hleads := innerStep_historyOk h
    rw [← he, hn] at hleads
    exact hleads.of_next

theorem cmdStart_cases {ign : BitVec 30} {s t : State} (hn : execCmdStart ign s = .next t) : t = s ∨ t = engStart s := by
  unfold execCmdStart at hn
  repeat' split at hn
  all_goals cases hn
  · exact .inl rfl
  · exact .inr rfl

theorem historyOk_putIn {s : State} (a : Nat) (b : Byte) (h : s.HistoryOk) : (s.putIn a b).HistoryOk := by
  rw [putIn_eq]
  exact h

theorem hostWrite_historyOk {r : HostReg} {v : Word} {s t : State} (h : s.HistoryOk) (hb : s.busy = false)
    (hn : hostWrite r v s = .next t) : t.HistoryOk := by
  obtain ⟨_, _, rfl⟩ | ⟨_, hstart⟩ | ht := hostWrite_cases hb hn
  · exact historyOk_of_not_busy rfl
  · obtain rfl | rfl := cmdStart_cases hstart
    · exact h
    · exact fun _ hm => absurd rfl hm
  · rw [ht]
    exact h

theorem hostAccess_historyOk {a : HostAccess} {s t : State} (h : s.HistoryOk) (hn : hostAccess a s = .next t) :
    t.HistoryOk := by
  obtain ⟨r, v, _, rfl | ⟨hb, hw⟩⟩ | ⟨_, _, rfl⟩ | ⟨_, _, _, _, rfl⟩ | ⟨_, _, _, _, rfl⟩ | ⟨_, _, _, rfl⟩ | ⟨_, _, _, rfl⟩ :=
    hostAccess_cases hn
  · exact h
  · exact hostWrite_historyOk h hb hw
  · exact h
  · exact historyOk_putIn _ _ h
  · exact h
  · exact h
  · exact h

/-- Settles O23: `HistoryOk` is kept by the engine's step and by the host's access. -/
theorem historyPositive : Obligations.HistoryPositive := by
  intro s t hi hw h hn
  obtain ⟨a, q, _, hs⟩ | ⟨_, q, hs⟩ := step_cases s
  · exact hostAccess_historyOk (s := { s with hostQueue := q }) h (hs.symm.trans hn)
  · exact engineStep_historyOk (s := { s with hostQueue := q }) hi hw h (hs.symm.trans hn)

end Sys2Proof.Machine
end
